-- ==== Sys2Proof/Word.lean ====
section
/-! DEFINITION. The word types of the part: bytes, two-byte numbers, packed decimal values, glyph columns, pin sets. -/

namespace Sys2Proof

/-- One character on the link, one payload byte (R175, R190). -/
abbrev Byte := BitVec 8

/-- A two-byte number of a payload, high byte first (R190). -/
abbrev Half := BitVec 16

/-- A counter value as a payload carries it: ten decades of four bits, the units decade lowest (R190). -/
abbrev Bcd := BitVec 40

/-- A glyph column pattern: bit 15 is glyph row 0 (pin 1), bit 0 is glyph row 15 (pin 16) (R190). -/
abbrev Column := BitVec 16

/-- The pins that fire in one dot column: pin p is bit 18 - p, so that a glyph column pattern
shifted left by two names its pins 1 to 16, and bits 1 and 0 are pins 17 and 18 (R47, R63). -/
abbrev Pins := BitVec 18

/-- The set that holds pin `p` alone (p in 1..18). -/
def pin (p : Nat) : Pins := 1#18 <<< (18 - p)

end Sys2Proof
end

