-- ==== Sys2Proof/Config.lean ====
section
/-! DEFINITION. What is fixed for every VF-3120: capacities, distances, limits; and the one thing the manual leaves open,
the dots of the resident glyphs. -/

namespace Sys2Proof.Config

/-- Form records (R1). -/
abbrev forms : Nat := 8
/-- Live field records in the whole pool (R19). -/
abbrev poolCapacity : Nat := 160
/-- Live field records of one form (R19). -/
abbrev fieldsPerForm : Nat := 40
/-- Order records (R115). -/
abbrev orderSlots : Nat := 4
/-- A full heat account (R73). -/
abbrev heatFull : Nat := 96
/-- Carriage steps without a CFB pulse that make a stall (R70). -/
abbrev stallLimit : Nat := 16
/-- Feed steps without a PMS pulse that make a jam (R101). -/
abbrev jamLimit : Nat := 96
/-- Steps after which a homing that has not seen HOME fails (R69). -/
abbrev homingLimit : Nat := 1700
/-- The highest carriage coordinate (R66). -/
abbrev maxCoordinate : Nat := 1599
/-- Dot columns of a form line (00, Units and coordinates). -/
abbrev dotColumns : Nat := 1536
/-- Dot column d lies at carriage coordinate d + 32 (00, Units and coordinates). -/
abbrev columnOffset : Nat := 32
/-- Print line to tear bar (00, Paper path distances). -/
abbrev tearDistance : Nat := 432
/-- Clearing feed after a trailing edge passes the print line (R99). -/
abbrev clearing : Nat := 48
/-- Entries of the receive FIFO (R176). -/
abbrev fifoSize : Nat := 64
/-- FIFO count at which HOLD is asserted (R177). -/
abbrev holdOn : Nat := 48
/-- FIFO count at which HOLD is released (R177). -/
abbrev holdOff : Nat := 16
/-- The next admission number at which the Order Table renumbers (R117). -/
abbrev lastAdmission : Nat := 65535

/-- FREE VALUE (assumption log 8). The dots of the resident glyphs are "fixed values of the part" that the manual does not
print (R48): set, code, glyph column. `residentColumns` in Machine/Operands.lean holds them to the properties R48 states. -/
opaque residentColumn : Nat → Nat → Nat → Column

end Sys2Proof.Config
end

