-- ==== Sys2Proof/Syntax.lean ====
section
/-! DEFINITION. The commands: one constructor of `Instr` per row of spec/opcode_table.json. The operands of a terminal
command are its payload values as 10.5 lays them out (R190, R193), each still the byte or bytes it is carried in. -/

namespace Sys2Proof

/-- How a frame that reaches the Command Dispatcher was matched (R183): to this station alone, or to every station. -/
inductive Route where
  | addressed
  | broadcast
  deriving DecidableEq, Repr

/-- The five debounced level inputs (R93). -/
inductive Input where
  | psa
  | psb
  | cover
  | home
  | tear
  deriving DecidableEq, Repr

/-- The strap inputs RATE1, RATE0 and STN4..STN0 as they stand at the release of RESET (R175). -/
structure Straps where
  rate : BitVec 2
  station : BitVec 5
  deriving DecidableEq, Repr

/-- The levels of the five inputs as START_UP samples them (R194): paper at A, paper at B, cover open, HOME asserted,
TEAR pressed. -/
structure Levels where
  psa : Bool
  psb : Bool
  cover : Bool
  home : Bool
  tear : Bool
  deriving DecidableEq, Repr

/-- The eight payload bytes of FORM_DEFINE and FORM_AMEND (10.5). -/
structure FormBytes where
  form : Byte
  lines : Byte
  pitch : Byte
  top : Byte
  bottom : Byte
  copies : Byte
  direction : Byte
  policy : Byte
  deriving DecidableEq, Repr

/-- The payload bytes of FIELD_DEFINE (10.5); the starting value is its five bytes 14..18. -/
structure FieldBytes where
  form : Byte
  field : Byte
  kind : Byte
  line : Byte
  column : Byte
  width : Byte
  align : Byte
  glyphSet : Byte
  emphasis : Byte
  guarded : Byte
  digits : Byte
  stride : Byte
  policy : Byte
  zeroFill : Byte
  value : Bcd
  style : Byte
  target : Byte
  reserved : Byte
  deriving DecidableEq, Repr

/-- The names of the 35 terminal commands, which the Command Dispatcher knows by code (R185, R191). -/
inductive Command where
  | null | readIdentity | readAttention | configure | softReset | clearFault
  | formDefine | formAmend | formQuery | formLock | formRetire
  | fieldDefine | fieldSet | counterSet | fieldQuery | fieldList | fieldRetire
  | glyphLoad | glyphQuery
  | stockAssign | stockRelease | stockPark | stockSelect | stockQuery | feed | present | retract
  | headQuery
  | orderIssue | orderAmend | orderHold | orderResume | orderCancel | orderQuery | orderRelease
  deriving DecidableEq, Repr

/-- The commands and events of the part: one constructor per row of the table. -/
inductive Instr where
  /-- NULL (R172): any payload of 0..200 bytes. -/
  | null (r : Route) (payload : List Byte)
  /-- READ_IDENTITY (R171). -/
  | readIdentity (r : Route)
  /-- READ_ATTENTION (R161). -/
  | readAttention (r : Route)
  /-- CONFIGURE (R166): refill tick period, debounce time, idle release time, station mask, attention mask. -/
  | configure (r : Route) (tick debounce idle station attention : Byte)
  /-- SOFT_RESET (R173). -/
  | softReset (r : Route)
  /-- CLEAR_FAULT (R164). -/
  | clearFault (r : Route)
  /-- FORM_DEFINE (R14). -/
  | formDefine (r : Route) (a : FormBytes)
  /-- FORM_AMEND (R15). -/
  | formAmend (r : Route) (a : FormBytes)
  /-- FORM_QUERY (R16). -/
  | formQuery (r : Route) (form : Byte)
  /-- FORM_LOCK (R17). -/
  | formLock (r : Route) (form target : Byte)
  /-- FORM_RETIRE (R18). -/
  | formRetire (r : Route) (form : Byte)
  /-- FIELD_DEFINE (R40, R41). -/
  | fieldDefine (r : Route) (a : FieldBytes)
  /-- FIELD_SET (R42): expected-revision mark, expected revision, text. -/
  | fieldSet (r : Route) (form field mark : Byte) (expected : Half) (text : List Byte)
  /-- COUNTER_SET (R43). -/
  | counterSet (r : Route) (form field mark : Byte) (expected : Half) (value : Bcd)
  /-- FIELD_QUERY (R44). -/
  | fieldQuery (r : Route) (form field : Byte)
  /-- FIELD_LIST (R45). -/
  | fieldList (r : Route) (form start : Byte)
  /-- FIELD_RETIRE (R46). -/
  | fieldRetire (r : Route) (form field : Byte)
  /-- GLYPH_LOAD (R51): code and ten column patterns. -/
  | glyphLoad (r : Route) (code : Byte) (columns : List Column)
  /-- GLYPH_QUERY (R53). -/
  | glyphQuery (r : Route) (set code : Byte)
  /-- STOCK_ASSIGN (R106). -/
  | stockAssign (r : Route) (tractor form : Byte)
  /-- STOCK_RELEASE (R107). -/
  | stockRelease (r : Route) (tractor : Byte)
  /-- STOCK_PARK (R108). -/
  | stockPark (r : Route) (tractor : Byte)
  /-- STOCK_SELECT (R109). -/
  | stockSelect (r : Route) (tractor : Byte)
  /-- STOCK_QUERY (R113). -/
  | stockQuery (r : Route) (tractor : Byte)
  /-- FEED (R110): a count, or 0 for the next form top. -/
  | feed (r : Route) (count : Half)
  /-- PRESENT (R111). -/
  | present (r : Route)
  /-- RETRACT (R112). -/
  | retract (r : Route)
  /-- HEAD_QUERY (R88). -/
  | headQuery (r : Route)
  /-- ORDER_ISSUE (R126). -/
  | orderIssue (r : Route) (tag form requested policy : Byte)
  /-- ORDER_AMEND (R127). -/
  | orderAmend (r : Route) (tag requested : Byte)
  /-- ORDER_HOLD (R128). -/
  | orderHold (r : Route) (tag : Byte)
  /-- ORDER_RESUME (R129). -/
  | orderResume (r : Route) (tag : Byte)
  /-- ORDER_CANCEL (R130). -/
  | orderCancel (r : Route) (tag : Byte)
  /-- ORDER_QUERY (R131). -/
  | orderQuery (r : Route) (tag : Byte)
  /-- ORDER_RELEASE (R132). -/
  | orderRelease (r : Route) (tag : Byte)
  /-- HARD_RESET: RESET is held low (R194, R196). -/
  | hardReset
  /-- START_UP: RESET returns high, or power comes up (R194). -/
  | startUp (straps : Straps) (levels : Levels)
  /-- DEBOUNCE_START: the level of an input changes (R93). -/
  | debounceStart (input : Input) (level : Bool)
  /-- DEBOUNCE_EXPIRY: the debounce timer of an input expires (R93, R94). -/
  | debounceExpiry (input : Input)
  /-- CFB_PULSE (R70). -/
  | cfbPulse
  /-- PMS_PULSE (R101). -/
  | pmsPulse
  /-- REFILL_TICK (R74). -/
  | refillTick
  /-- IDLE_TIMER_EXPIRY (R170). -/
  | idleTimerExpiry
  /-- CARRIAGE_STEP (R67). -/
  | carriageStep
  /-- STALL (R70). -/
  | stall
  /-- HOME_LOST (R69). -/
  | homeLost
  /-- HOMING_COMPLETE (R68). -/
  | homingComplete
  /-- APPROACH_COMPLETE (R76). -/
  | approachComplete
  /-- SEGMENT_COMPLETE (R83). -/
  | segmentComplete
  /-- FEED_STEP (R92). -/
  | feedStep
  /-- JAM (R101). -/
  | jam
  /-- MOTION_COMPLETE (R100). -/
  | motionComplete
  /-- RECEIVE_CHARACTER (R176). -/
  | receiveCharacter (byte : Byte)
  /-- PARSER_DRAW (R179). -/
  | parserDraw
  /-- SHORT_IDLE (R179). -/
  | shortIdle
  /-- LONG_IDLE (R181). -/
  | longIdle
  /-- REPLY_COMPLETE (R187). -/
  | replyComplete
  deriving DecidableEq, Repr

end Sys2Proof
end

