-- ==== Sys2Proof/Decode.lean ====
section
/-! DEFINITION. Decoding: the Command Dispatcher's table of codes and payload lengths (10.3, R191), and the host's
`decodeTableWord`. The opcode table gives no row any bits, so no word spells a command there; a command reaches the part
in a frame, whose COMMAND byte and payload this file reads. -/

namespace Sys2Proof

/-- The command code of 10.3. -/
def Command.code : Command → Byte
  | .null => 0x01 | .readIdentity => 0x02 | .readAttention => 0x03
  | .configure => 0x04 | .softReset => 0x05 | .clearFault => 0x06
  | .formDefine => 0x10 | .formAmend => 0x11 | .formQuery => 0x12 | .formLock => 0x13 | .formRetire => 0x14
  | .fieldDefine => 0x20 | .fieldSet => 0x21 | .counterSet => 0x22
  | .fieldQuery => 0x23 | .fieldList => 0x24 | .fieldRetire => 0x25
  | .glyphLoad => 0x28 | .glyphQuery => 0x29
  | .stockAssign => 0x30 | .stockRelease => 0x31 | .stockPark => 0x32 | .stockSelect => 0x33 | .stockQuery => 0x34
  | .feed => 0x35 | .present => 0x36 | .retract => 0x37 | .headQuery => 0x38
  | .orderIssue => 0x40 | .orderAmend => 0x41 | .orderHold => 0x42 | .orderResume => 0x43
  | .orderCancel => 0x44 | .orderQuery => 0x45 | .orderRelease => 0x46

/-- Every command, in the order of 10.3. -/
def Command.all : List Command :=
  [.null, .readIdentity, .readAttention, .configure, .softReset, .clearFault,
   .formDefine, .formAmend, .formQuery, .formLock, .formRetire,
   .fieldDefine, .fieldSet, .counterSet, .fieldQuery, .fieldList, .fieldRetire,
   .glyphLoad, .glyphQuery,
   .stockAssign, .stockRelease, .stockPark, .stockSelect, .stockQuery, .feed, .present, .retract,
   .headQuery,
   .orderIssue, .orderAmend, .orderHold, .orderResume, .orderCancel, .orderQuery, .orderRelease]

/-- The command a COMMAND byte names; none for a byte that is not in the table of 10.3 (R191). -/
def Command.ofCode (code : Byte) : Option Command :=
  Command.all.find? fun c => c.code == code

/-- The least and the greatest payload length of a command (10.3, R191, R193). -/
def Command.lengths : Command → Nat × Nat
  | .null => (0, 200)
  | .configure => (5, 5)
  | .formDefine | .formAmend => (8, 8)
  | .formLock | .fieldQuery | .fieldList | .fieldRetire | .glyphQuery | .stockAssign | .feed | .orderAmend => (2, 2)
  | .formQuery | .formRetire | .stockRelease | .stockPark | .stockSelect | .stockQuery => (1, 1)
  | .orderHold | .orderResume | .orderCancel | .orderQuery | .orderRelease => (1, 1)
  | .fieldDefine => (22, 22)
  | .fieldSet => (5, 200)
  | .counterSet => (10, 10)
  | .glyphLoad => (21, 21)
  | .orderIssue => (4, 4)
  | .readIdentity | .readAttention | .softReset | .clearFault | .present | .retract | .headQuery => (0, 0)

/-- BAD_LENGTH is refused for any other payload length (R185). -/
def Command.accepts (c : Command) (n : Nat) : Bool :=
  decide (c.lengths.1 ≤ n) && decide (n ≤ c.lengths.2)

/-- The reading commands, discarded when broadcast (R184). -/
def Command.reading : Command → Bool
  | .null | .readIdentity | .readAttention => true
  | .formQuery | .fieldQuery | .fieldList | .glyphQuery | .stockQuery | .headQuery | .orderQuery => true
  | .configure | .softReset | .clearFault | .formDefine | .formAmend | .formLock | .formRetire => false
  | .fieldDefine | .fieldSet | .counterSet | .fieldRetire | .glyphLoad => false
  | .stockAssign | .stockRelease | .stockPark | .stockSelect | .feed | .present | .retract => false
  | .orderIssue | .orderAmend | .orderHold | .orderResume | .orderCancel | .orderRelease => false

/-- Payload byte `i`; a fixed-length payload is read byte by byte (R191). -/
def payloadByte (p : List Byte) (i : Nat) : Byte := p.getD i 0

/-- The two-byte number at payload bytes `i` and `i + 1`, high byte first (R190). -/
def payloadHalf (p : List Byte) (i : Nat) : Half := payloadByte p i ++ payloadByte p (i + 1)

/-- The five-byte counter value at payload byte `i` (R190). -/
def payloadBcd (p : List Byte) (i : Nat) : Bcd :=
  payloadByte p i ++ payloadByte p (i + 1) ++ payloadByte p (i + 2) ++ payloadByte p (i + 3) ++ payloadByte p (i + 4)

/-- The payload of FORM_DEFINE and FORM_AMEND (10.5). -/
def formBytesOf (p : List Byte) : FormBytes where
  form := payloadByte p 0
  lines := payloadByte p 1
  pitch := payloadByte p 2
  top := payloadByte p 3
  bottom := payloadByte p 4
  copies := payloadByte p 5
  direction := payloadByte p 6
  policy := payloadByte p 7

/-- The payload of FIELD_DEFINE (10.5). -/
def fieldBytesOf (p : List Byte) : FieldBytes where
  form := payloadByte p 0
  field := payloadByte p 1
  kind := payloadByte p 2
  line := payloadByte p 3
  column := payloadByte p 4
  width := payloadByte p 5
  align := payloadByte p 6
  glyphSet := payloadByte p 7
  emphasis := payloadByte p 8
  guarded := payloadByte p 9
  digits := payloadByte p 10
  stride := payloadByte p 11
  policy := payloadByte p 12
  zeroFill := payloadByte p 13
  value := payloadBcd p 14
  style := payloadByte p 19
  target := payloadByte p 20
  reserved := payloadByte p 21

/-- The ten column patterns of GLYPH_LOAD, payload bytes 1 to 20 (10.5). -/
def columnsOf (p : List Byte) : List Column :=
  (List.range 10).map fun i => payloadHalf p (1 + 2 * i)

/-- The opcode table gives no row any bits, so no word spells a command. -/
def decodeTableWord (_nbits _w : Nat) : Option Instr := none

end Sys2Proof
end

