-- ==== Sys2Proof/Machine/State.lean ====
section
/-! DEFINITION. The state of the part, block by block, as the chapters of the manual own it (00, Block diagram), with the
queue of waiting commands. Plain data. `State.reset` stands at the end. -/

namespace Sys2Proof.Machine

/-! ## The Form Table (01) -/

/-- Print direction of a form (R6). -/
inductive FormDirection where
  | bidirectional
  | unidirectional
  deriving DecidableEq, Repr

/-- Present policy of a form or an order (R6). -/
inductive Policy where
  | none
  | last
  | each
  deriving DecidableEq, Repr

/-- Lock of a form (R7). -/
inductive Lock where
  | unlocked
  | locked
  | frozen
  deriving DecidableEq, Repr

/-- A form record (R1). Length and strike class are derived from the other values (R1) and computed in Machine/Ops.lean. -/
structure FormRecord where
  defined : Bool
  lines : Nat
  pitch : Nat
  top : Nat
  bottom : Nat
  copies : Nat
  direction : FormDirection
  policy : Policy
  lock : Lock
  issueCount : Nat
  fieldCount : Nat
  inFlight : Bool
  deriving DecidableEq, Repr

/-- An EMPTY form record: the values of R2. -/
def FormRecord.empty : FormRecord where
  defined := false
  lines := 0
  pitch := 0
  top := 0
  bottom := 0
  copies := 0
  direction := .bidirectional
  policy := .none
  lock := .unlocked
  issueCount := 0
  fieldCount := 0
  inFlight := false

/-! ## The Field Pool (02) -/

inductive Align where
  | left
  | right
  | center
  deriving DecidableEq, Repr

inductive Emphasis where
  | normal
  | bold
  | underline
  deriving DecidableEq, Repr

/-- Counter policy (R26). -/
inductive CounterPolicy where
  | wrap
  | stop
  deriving DecidableEq, Repr

/-- Rule style (R29). -/
inductive RuleStyle where
  | thin
  | thick
  | base
  deriving DecidableEq, Repr

/-- The character part of a TEXT, COUNTER or LINK field (R19); `glyphSet` is 0, 1 or 2. -/
structure CharPart where
  align : Align
  glyphSet : Nat
  emphasis : Emphasis
  deriving DecidableEq, Repr

/-- The counter part (R26): `decades` holds the value in decimal, units first, one entry for each of its digits. -/
structure CounterPart where
  decades : List Nat
  stride : Nat
  policy : CounterPolicy
  zeroFill : Bool
  exhausted : Bool
  deriving DecidableEq, Repr

/-- What a field prints, by kind (R19), with the staged content of the kinds that can carry one. -/
inductive FieldBody where
  | text (chars : CharPart) (guarded : Bool) (live staged : Option (List Byte))
  | counter (chars : CharPart) (part : CounterPart) (staged : Option (List Nat))
  | rule (style : RuleStyle)
  | link (chars : CharPart) (target : Nat)
  deriving DecidableEq, Repr

/-- A live field record (R19). -/
structure FieldRecord where
  form : Nat
  field : Nat
  line : Nat
  column : Nat
  width : Nat
  revision : BitVec 16
  body : FieldBody
  deriving DecidableEq, Repr

/-! ## The Glyph Store and the Line Composer (03) -/

/-- A glyph of set 2 with its loaded mark (R49). -/
structure Glyph where
  columns : List Column
  loaded : Bool
  deriving DecidableEq, Repr

/-- A blank glyph with its mark clear (R49). -/
def Glyph.blank : Glyph where
  columns := List.replicate 10 0
  loaded := false

/-- One dot column of the line image in which some pin fires (R63). -/
structure Dots where
  column : Nat
  pins : Pins
  deriving DecidableEq, Repr

/-- An entry of the field-span list (R63). -/
structure FieldSpan where
  field : Nat
  first : Nat
  last : Nat
  counter : Option Nat
  deriving DecidableEq, Repr

/-- The Line Composer (R63, R64). The image lists the columns that fire, lowest first. -/
structure Composer where
  image : List Dots
  spans : List FieldSpan
  passSpan : Option (Nat × Nat)
  deriving DecidableEq, Repr

/-- The empty composer (R65). -/
def Composer.empty : Composer where
  image := []
  spans := []
  passSpan := none

/-! ## The Head Drive (04) -/

inductive Motor where
  | held
  | released
  deriving DecidableEq, Repr

/-- Carriage activity (R66). -/
inductive Activity where
  | idle
  | homing
  | approach
  | segment
  | dwell
  | suspended
  deriving DecidableEq, Repr

inductive PassDirection where
  | leftToRight
  | rightToLeft
  deriving DecidableEq, Repr

/-- Pass speed (R87). -/
inductive Speed where
  | none
  | full
  | half
  deriving DecidableEq, Repr

/-- The carriage record (R66). -/
structure Carriage where
  coordinate : Nat
  homed : Bool
  motor : Motor
  activity : Activity
  next : PassDirection
  deriving DecidableEq, Repr

/-- The pass plan record (R87). -/
structure PlanRecord where
  line : Option Nat
  direction : PassDirection
  speed : Speed
  segments : Nat
  dwellTaken : Bool
  deriving DecidableEq, Repr

/-- The pass in flight: its line, the strike class and direction setting read from the form when the request was taken
(R76), its own direction once taken (step 2 of R76), and the columns still to print. -/
structure Pass where
  line : Nat
  strike : Nat
  unidirectional : Bool
  direction : Option PassDirection
  first : Nat
  last : Nat
  deriving DecidableEq, Repr

/-- The segment in flight (R75, R83): its columns in ascending order and how many have been traversed. -/
structure Segment where
  speed : Speed
  first : Nat
  last : Nat
  traversed : Nat
  deriving DecidableEq, Repr

/-- A pause or end-pass request that waits for the operation in flight (R84, R86). -/
inductive Hold where
  | none
  | pause
  | endPass
  deriving DecidableEq, Repr

/-- Who asked for the homing in flight (R68). -/
inductive HomeRequester where
  | startUp
  | clearFault
  | softReset
  | cover
  | pass
  | resume
  deriving DecidableEq, Repr

/-- The Head Drive (R66 to R87). -/
structure Head where
  carriage : Carriage
  heat : List Nat
  plan : PlanRecord
  pass : Option Pass
  segment : Option Segment
  hold : Hold
  homeFor : List HomeRequester
  homingSteps : Nat
  stallCount : Nat
  refillTimer : Nat
  firing : Pins
  deriving DecidableEq, Repr

/-- The head after hard reset (R66, R73, R74, R87), before the start-up homing. -/
def Head.hardReset : Head where
  carriage := { coordinate := 0, homed := false, motor := .released, activity := .idle, next := .leftToRight }
  heat := List.replicate 18 Config.heatFull
  plan := { line := none, direction := .leftToRight, speed := .none, segments := 0, dwellTaken := false }
  pass := none
  segment := none
  hold := .none
  homeFor := []
  homingSteps := 0
  stallCount := 0
  refillTimer := 2
  firing := 0

/-! ## The Paper Path Controller (05) -/

inductive Tractor where
  | a
  | b
  deriving DecidableEq, Repr

/-- Stock state (R89). -/
inductive StockState where
  | absent
  | sensed
  | parked
  | moving
  | atPrint
  | presented
  | lost
  deriving DecidableEq, Repr

/-- A stock record (R89). -/
structure Stock where
  state : StockState
  form : Option Nat
  offset : Option Nat
  endRemaining : Option Nat
  deriving DecidableEq, Repr

/-- A level input: the level on the pin, its debounced state, and its debounce timer with the time it was started with, in
ms (R93). -/
structure LevelInput where
  level : Bool
  debounced : Bool
  timer : Option Nat
  deriving DecidableEq, Repr

/-- The five level inputs (R93). -/
structure Inputs where
  psa : LevelInput
  psb : LevelInput
  cover : LevelInput
  home : LevelInput
  tear : LevelInput
  deriving DecidableEq, Repr

/-- Motion kinds (R98). -/
inductive MotionKind where
  | advance
  | park
  | feed
  | feedToTop
  | present
  | retract
  | eject
  deriving DecidableEq, Repr

inductive FeedDirection where
  | forward
  | reverse
  deriving DecidableEq, Repr

inductive Requester where
  | terminal
  | tear
  | issue
  deriving DecidableEq, Repr

/-- The motion in flight (R97); `phase` is 1 or 2 for STOCK_SELECT and 0 for any other motion. -/
structure Motion where
  tractor : Tractor
  kind : MotionKind
  direction : FeedDirection
  done : Nat
  toGo : Nat
  requester : Requester
  startOffset : Option Nat
  phase : Nat
  jamCount : Nat
  deriving DecidableEq, Repr

/-- The Paper Path Controller (R89, R93, R97). `waiting` says that the Issue Controller waits for the terminal or TEAR
motion in flight (R98, R136). -/
structure Paper where
  stockA : Stock
  stockB : Stock
  inputs : Inputs
  motion : Option Motion
  feedMotor : Motor
  waiting : Bool
  deriving DecidableEq, Repr

/-- A stock found at hard reset: SENSED with paper, ABSENT without (R90). -/
def Stock.sampled (paper : Bool) : Stock where
  state := if paper then .sensed else .absent
  form := none
  offset := none
  endRemaining := none

/-- A level input sampled at hard reset (R90, R194). -/
def LevelInput.sampled (level : Bool) : LevelInput where
  level := level
  debounced := level
  timer := none

/-- The paper path after hard reset with the sampled levels (R90). -/
def Paper.hardReset (l : Levels) : Paper where
  stockA := Stock.sampled l.psa
  stockB := Stock.sampled l.psb
  inputs :=
    { psa := .sampled l.psa, psb := .sampled l.psb, cover := .sampled l.cover, home := .sampled l.home,
      tear := .sampled l.tear }
  motion := none
  feedMotor := .released
  waiting := false

/-! ## The Order Table (06) -/

/-- Order state (R118). -/
inductive OrderState where
  | queued
  | held
  | running
  | halted
  | done
  | cancelled
  deriving DecidableEq, Repr

/-- Halt reason (R119). -/
inductive HaltReason where
  | paperEnd
  | noStock
  | stockLost
  | pathBlocked
  | counterLimit
  | fault
  deriving DecidableEq, Repr

/-- An order record (R115). -/
structure Order where
  tag : Nat
  form : Nat
  requested : Nat
  done : Nat
  voided : Nat
  policy : Policy
  state : OrderState
  halt : Option HaltReason
  cancelPending : Bool
  admission : Nat
  reported : Bool
  deriving DecidableEq, Repr

/-- The Order Table: the records in admission order and the next admission number (R115, R117). -/
structure OrderTable where
  records : List Order
  next : Nat
  deriving DecidableEq, Repr

/-- The Order Table after hard reset and after SOFT_RESET (R116). -/
def OrderTable.empty : OrderTable where
  records := []
  next := 1

/-! ## The Issue Controller (07) -/

/-- Controller state (R133). -/
inductive ControllerState where
  | idle
  | staging
  | printing
  | voiding
  | awaitTear
  | paused
  | faulted
  deriving DecidableEq, Repr

/-- Phase of the ticket cursor (R133). -/
inductive Phase where
  | none
  | feed
  | pass
  | close
  | present
  deriving DecidableEq, Repr

/-- The motion that will end a ticket being voided (R133). -/
inductive VoidMotion where
  | feedToTop
  | eject
  deriving DecidableEq, Repr

/-- The controller record (R133), with two pieces its rules imply: that it waits for a homing before a pass (R140), and
that the PRESENT in flight is the final one (R144). -/
structure Controller where
  state : ControllerState
  current : Option Nat
  phase : Phase
  line : Option Nat
  struck : List Nat
  heldReason : Option HaltReason
  voidMotion : Option VoidMotion
  remembered : Option ControllerState
  coverMark : Bool
  awaitsHoming : Bool
  presentFinal : Bool
  deriving DecidableEq, Repr

/-- The controller record after hard reset and after SOFT_RESET (R133, R157). -/
def Controller.hardReset : Controller where
  state := .idle
  current := none
  phase := .none
  line := none
  struck := []
  heldReason := none
  voidMotion := none
  remembered := none
  coverMark := false
  awaitsHoming := false
  presentFinal := false

/-! ## The Attention Unit (08) -/

/-- Fault kind (R163). -/
inductive FaultKind where
  | stall
  | homeLost
  | jam
  deriving DecidableEq, Repr

/-- What was in flight when a fault arose (R163). -/
inductive FaultActivity where
  | pass
  | feed
  | homing
  deriving DecidableEq, Repr

/-- The fault record (R163). -/
structure FaultRecord where
  kind : FaultKind
  tractor : Option Tractor
  activity : FaultActivity
  count : Nat
  deriving DecidableEq, Repr

/-- The idle timer (R158, R168); the time left is in units of 100 ms. -/
inductive IdleTimer where
  | stopped
  | running (left : Nat)
  | expired
  deriving DecidableEq, Repr

/-- Events of a tractor's PAPER set (R103). -/
inductive PaperEvent where
  | sensed
  | removed
  | ended
  | motionDone
  deriving DecidableEq, Repr

/-- Members of the link-trouble set (R188). -/
inductive LinkTrouble where
  | check
  | format
  | truncated
  | overrun
  deriving DecidableEq, Repr

/-- The Attention Unit (R158, R166, R171). Sets are held as R190 numbers their members. `rate` and `address` are the
strap-read items of the identity record (R171, R175). -/
structure Attention where
  faultRecord : Option FaultRecord
  paperA : BitVec 4
  paperB : BitVec 4
  linkTrouble : BitVec 4
  mask : BitVec 5
  tickPeriod : Nat
  debounceTime : Nat
  idleTime : Nat
  stationMask : BitVec 5
  idleTimer : IdleTimer
  rate : Nat
  address : Nat
  deriving DecidableEq, Repr

/-- The station address of a strap setting: 31 is taken as 30 (R175). -/
def Straps.address (s : Straps) : Nat := if s.station.toNat = 31 then 30 else s.station.toNat

/-- The Attention Unit after hard reset (R158, R166, R171, R175). -/
def Attention.hardReset (s : Straps) : Attention where
  faultRecord := none
  paperA := 0
  paperB := 0
  linkTrouble := 0
  mask := 0
  tickPeriod := 2
  debounceTime := 8
  idleTime := 50
  stationMask := 0
  idleTimer := .stopped
  rate := s.rate.toNat
  address := Straps.address s

/-! ## The Station Link Unit and the Command Dispatcher (09) -/

/-- An entry of the receive FIFO (R176). -/
structure FifoEntry where
  byte : Byte
  longGap : Bool
  deriving DecidableEq, Repr

/-- Parser states (R179). -/
inductive ParserState where
  | hunt
  | header
  | payload
  | check
  | discard
  deriving DecidableEq, Repr

/-- The frame parser (R179): its state, the running sum, how many header bytes it has taken, the STATION, COMMAND and
LENGTH bytes, the payload taken so far (its count is the list's length), and the high check byte once taken. -/
structure Parser where
  state : ParserState
  sum : BitVec 16
  headerTaken : Nat
  station : Byte
  command : Byte
  length : Byte
  payload : List Byte
  checkHigh : Option Byte
  deriving DecidableEq, Repr

/-- The parser in HUNT with nothing taken (R179). -/
def Parser.hunting : Parser where
  state := .hunt
  sum := 0
  headerTaken := 0
  station := 0
  command := 0
  length := 0
  payload := []
  checkHigh := none

/-- The Station Link Unit and the dispatcher (R176, R177, R179, R186, R187): FIFO, HOLD, idle indications, parser, pause
mark, the reply being sent (none: TXD released), and whether the effects of a SOFT_RESET wait for its reply. -/
structure Link where
  fifo : List FifoEntry
  hold : Bool
  shortIdle : Bool
  longIdle : Bool
  parser : Parser
  paused : Bool
  reply : Option (List Byte)
  resetDue : Bool
  deriving DecidableEq, Repr

/-- The link after hard reset (R176, R177, R179, R194). -/
def Link.hardReset : Link where
  fifo := []
  hold := false
  shortIdle := true
  longIdle := true
  parser := Parser.hunting
  paused := false
  reply := none
  resetDue := false

/-! ## The whole part -/

/-- The records of every block behind the Command Dispatcher: what a command or an event of the mechanism can reach. -/
structure Blocks where
  forms : List FormRecord
  pool : List FieldRecord
  glyphs : List Glyph
  composer : Composer
  head : Head
  paper : Paper
  orders : OrderTable
  controller : Controller
  attention : Attention
  deriving DecidableEq, Repr

/-- Every record at its hard-reset value: steps 1 to 4 of R194. -/
def Blocks.hardReset (s : Straps) (l : Levels) : Blocks where
  forms := List.replicate Config.forms FormRecord.empty
  pool := []
  glyphs := List.replicate 64 Glyph.blank
  composer := Composer.empty
  head := Head.hardReset
  paper := Paper.hardReset l
  orders := OrderTable.empty
  controller := Controller.hardReset
  attention := Attention.hardReset s

/-- The state of the part. `held` says that RESET is held low (R194). `pending` is the model's queue of waiting commands,
oldest first (assumption log 1). -/
structure State where
  blocks : Blocks
  link : Link
  held : Bool
  pending : List Instr
  deriving DecidableEq, Repr

/-- No command or event of the part ends its run: its own faults (STALL, HOME_LOST, JAM) are states of the part (R155,
R163) and its refusals are results in replies (R192). So there is no fault to raise; raising none is safe. -/
inductive Fault where
  deriving DecidableEq, Repr

/-- Why the model gives no meaning to a command. -/
inductive Refusal where
  /-- Raised by an arm of `exec` whose command has no meaning yet; safe. No arm raises it now. -/
  | notModelled (mnemonic : String)
  deriving DecidableEq, Repr

/-- All straps low (R175). -/
def Straps.low : Straps where
  rate := 0
  station := 0

/-- No level input asserted (R93). -/
def Levels.low : Levels where
  psa := false
  psb := false
  cover := false
  home := false
  tear := false

/-- The part right after reset: steps 1 to 5 of R194 with all straps low, no paper, the cover closed and HOME not
asserted (assumption log 5). Step 5, the start-up homing, is in flight: it holds the carriage motor (R68). -/
def State.reset : State where
  blocks :=
    { Blocks.hardReset Straps.low Levels.low with
      head :=
        { Head.hardReset with
          carriage := { Head.hardReset.carriage with motor := .held, activity := .homing }
          homeFor := [.startUp] } }
  link := Link.hardReset
  held := false
  pending := []

end Sys2Proof.Machine
end

