-- ==== Sys2Proof/Machine/Ops.lean ====
section
/-! DEFINITION. The named reads and updates of the records: one home for each record, every other file goes through these. -/

namespace Sys2Proof.Machine

/-! ## One block at a time -/

def Blocks.withForms (b : Blocks) (x : List FormRecord) : Blocks := { b with forms := x }
def Blocks.withPool (b : Blocks) (x : List FieldRecord) : Blocks := { b with pool := x }
def Blocks.withGlyphs (b : Blocks) (x : List Glyph) : Blocks := { b with glyphs := x }
def Blocks.withComposer (b : Blocks) (x : Composer) : Blocks := { b with composer := x }
def Blocks.withHead (b : Blocks) (x : Head) : Blocks := { b with head := x }
def Blocks.withPaper (b : Blocks) (x : Paper) : Blocks := { b with paper := x }
def Blocks.withOrders (b : Blocks) (x : OrderTable) : Blocks := { b with orders := x }
def Blocks.withController (b : Blocks) (x : Controller) : Blocks := { b with controller := x }
def Blocks.withAttention (b : Blocks) (x : Attention) : Blocks := { b with attention := x }

def State.withBlocks (s : State) (x : Blocks) : State := { s with blocks := x }
def State.withLink (s : State) (x : Link) : State := { s with link := x }
def State.withHeld (s : State) (x : Bool) : State := { s with held := x }
def State.withPending (s : State) (x : List Instr) : State := { s with pending := x }

/-! ## Forms (R1, R4, R5, R12) -/

/-- The form record of an id; an id outside 0..7 reads as EMPTY. -/
def Blocks.form (b : Blocks) (f : Nat) : FormRecord := b.forms.getD f FormRecord.empty

/-- Write one form record. -/
def Blocks.setForm (b : Blocks) (f : Nat) (r : FormRecord) : Blocks := b.withForms (b.forms.set f r)

/-- Length of a form in feed steps: lines × pitch (R1). -/
def FormRecord.length (r : FormRecord) : Nat := r.lines * r.pitch

/-- Strike class of a copy count (R5); 0 for the 0 copies of an EMPTY record (R2). -/
def strikeClass (copies : Nat) : Nat := (copies + 1) / 2

/-- Line `n` is printable: top margin through lines − bottom margin − 1 (R4). -/
def FormRecord.printable (r : FormRecord) (n : Nat) : Bool :=
  decide (r.top ≤ n) && decide (n + r.bottom < r.lines)

/-- A ticket of some form is in flight (R11). -/
def Blocks.anyInFlight (b : Blocks) : Bool := b.forms.any (·.inFlight)

/-! ## Fields (R21, R23) -/

/-- The live fields of a form, in print order (R23): the pool's list keeps that order. -/
def Blocks.fieldsOf (b : Blocks) (f : Nat) : List FieldRecord := b.pool.filter fun r => r.form == f

/-- The live field with a key (R19). -/
def Blocks.field (b : Blocks) (f i : Nat) : Option FieldRecord :=
  b.pool.find? fun r => r.form == f && r.field == i

/-- Change the field with a key, leaving every other field as it is. -/
def updateField (pool : List FieldRecord) (f i : Nat) (g : FieldRecord → FieldRecord) : List FieldRecord :=
  pool.map fun r => if r.form == f && r.field == i then g r else r

/-- `r` comes before `q` in print order: by line, then by column (R23). Forms are kept apart by id. -/
def FieldRecord.before (r q : FieldRecord) : Bool :=
  decide (r.form < q.form) ||
    (r.form == q.form && (decide (r.line < q.line) || (r.line == q.line && decide (r.column < q.column))))

/-- Place a new record at its position in print order (R23). -/
def insertField (r : FieldRecord) : List FieldRecord → List FieldRecord
  | [] => [r]
  | q :: rest => if r.before q then r :: q :: rest else q :: insertField r rest

/-! ## Stocks (R89, R91) -/

def Tractor.other : Tractor → Tractor
  | .a => .b
  | .b => .a

/-- Load mark to print line: 720 for A, 1,008 for B (00, Paper path distances). -/
def Tractor.distance : Tractor → Nat
  | .a => 720
  | .b => 1008

def Paper.stock (p : Paper) : Tractor → Stock
  | .a => p.stockA
  | .b => p.stockB

def Paper.setStock (p : Paper) (t : Tractor) (x : Stock) : Paper :=
  match t with
  | .a => { p with stockA := x }
  | .b => { p with stockB := x }

/-- A path state: MOVING, AT_PRINT, PRESENTED or LOST (R89). -/
def StockState.inPath : StockState → Bool
  | .moving | .atPrint | .presented | .lost => true
  | .absent | .sensed | .parked => false

/-- The tractor whose stock occupies the print path, if any (R91). -/
def Paper.pathTractor (p : Paper) : Option Tractor :=
  if p.stockA.state.inPath then some .a else if p.stockB.state.inPath then some .b else none

/-- The tractor whose stock carries a form, if any (R91). -/
def Paper.carrier (p : Paper) (f : Nat) : Option Tractor :=
  if p.stockA.form = some f then some .a else if p.stockB.form = some f then some .b else none

def Inputs.get (i : Inputs) : Input → LevelInput
  | .psa => i.psa
  | .psb => i.psb
  | .cover => i.cover
  | .home => i.home
  | .tear => i.tear

def Inputs.put (i : Inputs) (k : Input) (x : LevelInput) : Inputs :=
  match k with
  | .psa => { i with psa := x }
  | .psb => { i with psb := x }
  | .cover => { i with cover := x }
  | .home => { i with home := x }
  | .tear => { i with tear := x }

/-- The debounced paper sensor of a tractor (R95). -/
def Paper.sensor (p : Paper) : Tractor → Bool
  | .a => p.inputs.psa.debounced
  | .b => p.inputs.psb.debounced

/-- The debounced COVER state shows the cover open (R152). -/
def Blocks.coverOpen (b : Blocks) : Bool := b.paper.inputs.cover.debounced

/-- The debounced HOME state is asserted (R68). -/
def Blocks.homeSeen (b : Blocks) : Bool := b.paper.inputs.home.debounced

/-- Clutch of a tractor engaged: its stock is moved by the motion in flight (R97). -/
def Paper.clutch (p : Paper) (t : Tractor) : Bool :=
  match p.motion with
  | some m => m.tractor == t
  | none => false

/-! ## Orders (R115) -/

def OrderTable.find (o : OrderTable) (tag : Nat) : Option Order := o.records.find? fun r => r.tag == tag

/-- Change the record with a tag, leaving every other record as it is. -/
def OrderTable.update (o : OrderTable) (tag : Nat) (g : Order → Order) : OrderTable :=
  { o with records := o.records.map fun r => if r.tag == tag then g r else r }

/-- The controller's current order: the RUNNING record that ORDER_QUERY returns (R133). -/
def Blocks.currentOrder (b : Blocks) : Option Order := b.controller.current.bind b.orders.find

/-- A ticket is in flight: the in-flight mark of the current order's form is set (R133). -/
def Blocks.ticketInFlight (b : Blocks) : Bool :=
  match b.currentOrder with
  | some o => (b.form o.form).inFlight
  | none => false

end Sys2Proof.Machine
end

