-- ==== Sys2Proof/Machine/Operands.lean ====
section
/-! DEFINITION. The encoding of values in payloads (R190): named values, two-byte numbers, decimal values, sets, glyph
columns; and the result codes (R192). -/

namespace Sys2Proof.Machine

/-! ## Results (R192) -/

inductive Result where
  | ok | staged | accepted | none | null
  | busy | coverOpen | noForm | noField | noOrder | exists | full | outOfForm | overlap | badChar
  | badValue | badLength | badCommand | locked | frozen | inUse | inFlight | linked | stale | noStock | wrongState
  deriving DecidableEq, Repr

def Result.code : Result → Byte
  | .ok => 0x00 | .staged => 0x01 | .accepted => 0x02 | .none => 0x03 | .null => 0x04
  | .busy => 0x10 | .coverOpen => 0x11 | .noForm => 0x12 | .noField => 0x13 | .noOrder => 0x14 | .exists => 0x15
  | .full => 0x16 | .outOfForm => 0x17 | .overlap => 0x18 | .badChar => 0x19 | .badValue => 0x1A
  | .badLength => 0x1B | .badCommand => 0x1C | .locked => 0x1D | .frozen => 0x1E | .inUse => 0x1F
  | .inFlight => 0x20 | .linked => 0x21 | .stale => 0x22 | .noStock => 0x23 | .wrongState => 0x24

/-! ## Named values a command carries; none where the byte is outside its table -/

def Tractor.ofByte (b : Byte) : Option Tractor :=
  match b.toNat with
  | 0 => some .a
  | 1 => some .b
  | _ => none

def FormDirection.ofByte (b : Byte) : Option FormDirection :=
  match b.toNat with
  | 0 => some .bidirectional
  | 1 => some .unidirectional
  | _ => none

def Policy.ofByte (b : Byte) : Option Policy :=
  match b.toNat with
  | 0 => some .none
  | 1 => some .last
  | 2 => some .each
  | _ => Option.none

def Lock.ofByte (b : Byte) : Option Lock :=
  match b.toNat with
  | 0 => some .unlocked
  | 1 => some .locked
  | 2 => some .frozen
  | _ => none

def Align.ofByte (b : Byte) : Option Align :=
  match b.toNat with
  | 0 => some .left
  | 1 => some .right
  | 2 => some .center
  | _ => none

def Emphasis.ofByte (b : Byte) : Option Emphasis :=
  match b.toNat with
  | 0 => some .normal
  | 1 => some .bold
  | 2 => some .underline
  | _ => none

def CounterPolicy.ofByte (b : Byte) : Option CounterPolicy :=
  match b.toNat with
  | 0 => some .wrap
  | 1 => some .stop
  | _ => none

def RuleStyle.ofByte (b : Byte) : Option RuleStyle :=
  match b.toNat with
  | 0 => some .thin
  | 1 => some .thick
  | 2 => some .base
  | _ => none

/-- A yes/no mark: 0 no, 1 yes (R190). -/
def markOfByte (b : Byte) : Option Bool :=
  match b.toNat with
  | 0 => some false
  | 1 => some true
  | _ => none

/-! ## Codes of the named values a reply carries -/

def byteOf (n : Nat) : Byte := BitVec.ofNat 8 n

def Bool.byte (b : Bool) : Byte := if b then 1 else 0

def Tractor.byte : Tractor → Byte
  | .a => 0
  | .b => 1

def FormDirection.byte : FormDirection → Byte
  | .bidirectional => 0
  | .unidirectional => 1

def Policy.byte : Policy → Byte
  | .none => 0
  | .last => 1
  | .each => 2

def Lock.byte : Lock → Byte
  | .unlocked => 0
  | .locked => 1
  | .frozen => 2

def Align.byte : Align → Byte
  | .left => 0
  | .right => 1
  | .center => 2

def Emphasis.byte : Emphasis → Byte
  | .normal => 0
  | .bold => 1
  | .underline => 2

def CounterPolicy.byte : CounterPolicy → Byte
  | .wrap => 0
  | .stop => 1

def RuleStyle.byte : RuleStyle → Byte
  | .thin => 0
  | .thick => 1
  | .base => 2

def StockState.byte : StockState → Byte
  | .absent => 0
  | .sensed => 1
  | .parked => 2
  | .moving => 3
  | .atPrint => 4
  | .presented => 5
  | .lost => 6

def MotionKind.byte : MotionKind → Byte
  | .advance => 0
  | .park => 1
  | .feed => 2
  | .feedToTop => 3
  | .present => 4
  | .retract => 5
  | .eject => 6

def FeedDirection.byte : FeedDirection → Byte
  | .forward => 0
  | .reverse => 1

def Requester.byte : Requester → Byte
  | .terminal => 0
  | .tear => 1
  | .issue => 2

def Motor.byte : Motor → Byte
  | .held => 0
  | .released => 1

def Activity.byte : Activity → Byte
  | .idle => 0
  | .homing => 1
  | .approach => 2
  | .segment => 3
  | .dwell => 4
  | .suspended => 5

def PassDirection.byte : PassDirection → Byte
  | .leftToRight => 0
  | .rightToLeft => 1

def Speed.byte : Speed → Byte
  | .none => 0
  | .full => 1
  | .half => 2

def OrderState.byte : OrderState → Byte
  | .queued => 0
  | .held => 1
  | .running => 2
  | .halted => 3
  | .done => 4
  | .cancelled => 5

def HaltReason.byte : HaltReason → Byte
  | .paperEnd => 0
  | .noStock => 1
  | .stockLost => 2
  | .pathBlocked => 3
  | .counterLimit => 4
  | .fault => 5

def ControllerState.byte : ControllerState → Byte
  | .idle => 0
  | .staging => 1
  | .printing => 2
  | .voiding => 3
  | .awaitTear => 4
  | .paused => 5
  | .faulted => 6

def FaultKind.byte : FaultKind → Byte
  | .stall => 0
  | .homeLost => 1
  | .jam => 2

def FaultActivity.byte : FaultActivity → Byte
  | .pass => 0
  | .feed => 1
  | .homing => 2

/-- An optional one-byte value; absent is 0xFF (R190). -/
def optionalByte : Option Byte → Byte
  | some b => b
  | none => 0xFF

/-- A two-byte number, high byte first (R190). -/
def halfBytes (n : Nat) : List Byte := [byteOf (n / 256), byteOf n]

/-- An optional two-byte value; absent is 0xFFFF (R190). -/
def optionalHalf : Option Nat → List Byte
  | some n => halfBytes n
  | none => [0xFF, 0xFF]

/-! ## Decimal values (R26, R190) -/

/-- The ten decades of a carried counter value, units first. -/
def decadesOf (v : Bcd) : List Nat := (List.range 10).map fun i => (v >>> (4 * i)).toNat % 16

/-- Every decade is a decimal digit (R26). -/
def decimal (decades : List Nat) : Bool := decades.all fun d => decide (d ≤ 9)

/-- The value is less than 10 to the power of `digits`: no nonzero decade at or above the digit count (R190). -/
def fitsDigits (decades : List Nat) (digits : Nat) : Bool := (decades.drop digits).all fun d => d == 0

/-- The number that decades, units first, stand for. -/
def decimalValue : List Nat → Nat
  | [] => 0
  | d :: rest => d + 10 * decimalValue rest

/-- Five bytes of packed decimal, the highest decade in the high half of the first byte (R190). -/
def bcdBytes (decades : List Nat) : List Byte :=
  (List.range 5).map fun i => byteOf (decades.getD (9 - 2 * i) 0 * 16 + decades.getD (8 - 2 * i) 0)

/-! ## Glyphs (R47, R48, R190) -/

/-- The highest code of a glyph set: 0x7E in sets 0 and 1, 0x5F in set 2; the lowest is 0x20 in every set (R47). -/
def topCode (set : Nat) : Nat := if set = 2 then 0x5F else 0x7E

/-- A code is a character of a set (R24, R47). -/
def inSet (set : Nat) (code : Byte) : Bool :=
  decide (0x20 ≤ code.toNat) && decide (code.toNat ≤ topCode set)

/-- Take out of each column the dots its left neighbour has, so that no pin has dots in two adjacent columns. -/
def thinned (left : Column) : List Column → List Column
  | [] => []
  | c :: rest => (c &&& ~~~left) :: thinned (c &&& ~~~left) rest

/-- The glyph of a resident set: the free value, held to the properties of R48 (0x20 blank, every other glyph with a dot,
no pin in two adjacent columns). A face that has these properties passes through unchanged. -/
def residentColumns (set code : Nat) : List Column :=
  if code = 0x20 then List.replicate 10 0
  else
    let face := thinned 0 ((List.range 10).map (Config.residentColumn set code))
    if face.all (fun c => c == 0) then 1 :: List.replicate 9 0 else face

/-- The ten column patterns of a glyph as the Glyph Store holds them (R47, R53). -/
def Blocks.glyphColumns (b : Blocks) (set : Nat) (code : Byte) : List Column :=
  if set = 2 then (b.glyphs.getD (code.toNat - 0x20) Glyph.blank).columns else residentColumns set code.toNat

/-- The two bytes of a column pattern, high byte first (R190). -/
def columnBytes (c : Column) : List Byte := halfBytes c.toNat

end Sys2Proof.Machine
end

