-- ==== Sys2Proof/Machine/Flags.lean ====
section
/-! DEFINITION. The attention causes, the event sets and the ATTN line (R103, R158 to R160, R188), with the fault record
(R163) and the idle timer (R168). -/

namespace Sys2Proof.Machine

/-- Bit of a PAPER event in its set (R190). -/
def PaperEvent.bit : PaperEvent → Nat
  | .sensed => 0
  | .removed => 1
  | .ended => 2
  | .motionDone => 3

/-- Bit of a link-trouble event in its set (R190). -/
def LinkTrouble.bit : LinkTrouble → Nat
  | .check => 0
  | .format => 1
  | .truncated => 2
  | .overrun => 3

def Attention.paperSet (a : Attention) : Tractor → BitVec 4
  | .a => a.paperA
  | .b => a.paperB

def Attention.setPaperSet (a : Attention) (t : Tractor) (x : BitVec 4) : Attention :=
  match t with
  | .a => { a with paperA := x }
  | .b => { a with paperB := x }

/-- Latch a PAPER event; one already in the set leaves it as it is (R103). -/
def Attention.latchPaper (a : Attention) (t : Tractor) (e : PaperEvent) : Attention :=
  a.setPaperSet t (a.paperSet t ||| 1#4 <<< e.bit)

/-- Latch a link-trouble event (R188). -/
def Attention.latchLink (a : Attention) (e : LinkTrouble) : Attention :=
  { a with linkTrouble := a.linkTrouble ||| 1#4 <<< e.bit }

def Blocks.latch (b : Blocks) (t : Tractor) (e : PaperEvent) : Blocks := b.withAttention (b.attention.latchPaper t e)

/-- The five causes, most urgent first (R159). -/
inductive Cause where
  | fault
  | halt
  | paper
  | done
  | link
  deriving DecidableEq, Repr

/-- Bit of a cause in a cause set (R190). -/
def Cause.bit : Cause → Nat
  | .fault => 0
  | .halt => 1
  | .paper => 2
  | .done => 3
  | .link => 4

/-- Code of a cause (R190). -/
def Cause.byte : Cause → Byte
  | .fault => 1
  | .halt => 2
  | .paper => 3
  | .done => 4
  | .link => 5

/-- The causes in order of priority (R159). -/
def Cause.all : List Cause := [.fault, .halt, .paper, .done, .link]

/-- The oldest record that keeps HALT pending (R121, R159): the records stand in admission order (R117). -/
def OrderTable.unreportedHalt (o : OrderTable) : Option Order :=
  o.records.find? fun r => r.state == .halted && !r.reported

/-- A closed state: DONE or CANCELLED (R118). -/
def OrderState.closed : OrderState → Bool
  | .done | .cancelled => true
  | .queued | .held | .running | .halted => false

/-- The oldest record that keeps DONE pending (R121, R159). -/
def OrderTable.unreportedClosed (o : OrderTable) : Option Order :=
  o.records.find? fun r => r.state.closed && !r.reported

/-- A cause is pending (R159). -/
def Blocks.isPending (b : Blocks) : Cause → Bool
  | .fault => b.attention.faultRecord.isSome
  | .halt => b.orders.unreportedHalt.isSome
  | .paper => b.attention.paperA != 0 || b.attention.paperB != 0
  | .done => b.orders.unreportedClosed.isSome
  | .link => b.attention.linkTrouble != 0

/-- The most urgent pending cause (R161). -/
def Blocks.mostUrgent (b : Blocks) : Option Cause := Cause.all.find? b.isPending

/-- The set of pending causes, as R190 numbers them. -/
def Blocks.pendingSet (b : Blocks) : BitVec 5 :=
  Cause.all.foldl (fun acc c => if b.isPending c then acc ||| 1#5 <<< c.bit else acc) 0

/-- The ATTN line: some pending cause is unmasked (R160). A set mask bit masks its cause (assumption log 7). RESET held
low releases ATTN (R194). -/
def State.attn (s : State) : Bool := !s.held && (s.blocks.pendingSet &&& ~~~s.blocks.attention.mask) != 0

/-- Make or replace the fault record (R163). -/
def Attention.recordFault (a : Attention) (k : FaultKind) (t : Option Tractor) (act : FaultActivity) : Attention :=
  { a with
    faultRecord :=
      some
        { kind := k
          tractor := t
          activity := act
          count :=
            match a.faultRecord with
            | none => 1
            | some r => if r.count < 255 then r.count + 1 else r.count } }

/-- A carriage move is in flight: homing, approach or segment (R168). -/
def Activity.moves : Activity → Bool
  | .homing | .approach | .segment => true
  | .idle | .dwell | .suspended => false

/-- The idle condition of R168, but for the idle release time. -/
def Blocks.atRest (b : Blocks) : Bool :=
  b.controller.state == .idle && b.paper.motion.isNone && !b.head.carriage.activity.moves

/-- Stop the idle timer: the idle condition has stopped holding (R168). -/
def Blocks.stopIdle (b : Blocks) : Blocks := b.withAttention { b.attention with idleTimer := .stopped }

/-- Bring the idle timer in line with the idle condition (R168): stopped where it does not hold; started afresh where it
holds and the timer was stopped; an expired or running timer goes on while it holds. -/
def Blocks.settleIdle (b : Blocks) : Blocks :=
  if b.atRest then
    match b.attention.idleTimer with
    | .stopped =>
      if b.attention.idleTime = 0 then b
      else b.withAttention { b.attention with idleTimer := .running b.attention.idleTime }
    | .running _ | .expired => b
  else b.stopIdle

end Sys2Proof.Machine
end

