-- ==== Sys2Proof/Machine/Replies.lean ====
section
/-! DEFINITION. What a command answers: its result, its reply payload and the records after it; the ordered tests of the
owning blocks; and the reply payloads of 10.6 that carry a record. -/

namespace Sys2Proof.Machine

/-- The answer of an owning block to a command (R185): result, reply payload, and the records after it. -/
structure Answer where
  result : Result
  payload : List Byte
  blocks : Blocks
  deriving DecidableEq, Repr

/-- A refusal: no payload, and every record as it was (R187, R192). -/
def Blocks.refuse (b : Blocks) (r : Result) : Answer where
  result := r
  payload := []
  blocks := b

/-- A reply without a payload. -/
def Blocks.answer (b : Blocks) (r : Result) : Answer where
  result := r
  payload := []
  blocks := b

/-- A reply that carries a payload (R192). -/
def Blocks.report (b : Blocks) (r : Result) (payload : List Byte) : Answer where
  result := r
  payload := payload
  blocks := b

/-- The first test that fails, in the order a command tests them (R13, R39, R50, R104, R125): each entry is a condition
that refuses, with the result it refuses with. -/
def firstRefusal : List (Bool × Result) → Option Result
  | [] => none
  | (fails, r) :: rest => if fails then some r else firstRefusal rest

/-- Refuse with the first failing test, leaving every record as it was; with none, go on. -/
def Blocks.checked (b : Blocks) (tests : List (Bool × Result)) (go : Answer) : Answer :=
  match firstRefusal tests with
  | some r => b.refuse r
  | none => go

/-! ## Records in replies (10.6) -/

/-- The 17 bytes of FORM_QUERY. -/
def FormRecord.bytes (id : Nat) (r : FormRecord) : List Byte :=
  [byteOf id, Bool.byte r.defined, byteOf r.lines, byteOf r.pitch] ++ halfBytes r.length ++
    [byteOf r.top, byteOf r.bottom, byteOf r.copies, byteOf (strikeClass r.copies), r.direction.byte, r.policy.byte,
      r.lock.byte] ++
    halfBytes r.issueCount ++ [byteOf r.fieldCount, Bool.byte r.inFlight]

/-- Bytes 2 and 6 to 9 of FIELD_QUERY: kind code, then align, set, emphasis (0xFF where absent) and protected mark. -/
def FieldBody.kindByte : FieldBody → Byte
  | .text .. => 0
  | .counter .. => 1
  | .rule _ => 2
  | .link .. => 3

/-- The character part in a reply: 0xFF three times for a RULE field (R29, R190). -/
def FieldBody.charBytes : FieldBody → List Byte
  | .text c .. | .counter c .. | .link c _ => [c.align.byte, byteOf c.glyphSet, c.emphasis.byte]
  | .rule _ => [0xFF, 0xFF, 0xFF]

/-- Bytes 12 to 21 of FIELD_QUERY: the counter part, zeros for another kind. -/
def FieldBody.counterBytes : FieldBody → List Byte
  | .counter _ p _ =>
    [byteOf p.decades.length, byteOf p.stride, p.policy.byte, Bool.byte p.zeroFill, Bool.byte p.exhausted] ++
      bcdBytes p.decades
  | .text .. | .rule _ | .link .. => List.replicate 10 0

/-- Bytes 24 on of FIELD_QUERY: live mark, live length, staged mark, staged length, then the contents themselves. -/
def FieldBody.contentBytes : FieldBody → List Byte
  | .text _ _ live staged =>
    [Bool.byte live.isSome, byteOf (live.getD []).length, Bool.byte staged.isSome, byteOf (staged.getD []).length] ++
      live.getD [] ++ staged.getD []
  | .counter _ _ staged =>
    match staged with
    | some v => [0, 0, 1, 5] ++ bcdBytes v
    | none => [0, 0, 0, 0]
  | .rule _ | .link .. => [0, 0, 0, 0]

/-- The protected mark, no for every kind but TEXT (R32). -/
def FieldBody.guarded : FieldBody → Bool
  | .text _ g _ _ => g
  | .counter .. | .rule _ | .link .. => false

/-- The rule style byte, 0 for another kind. -/
def FieldBody.styleByte : FieldBody → Byte
  | .rule s => s.byte
  | .text .. | .counter .. | .link .. => 0

/-- The link target byte, 0 for another kind. -/
def FieldBody.targetByte : FieldBody → Byte
  | .link _ t => byteOf t
  | .text .. | .counter .. | .rule _ => 0

/-- The reply payload of FIELD_QUERY, 28 bytes and the contents (R44). -/
def FieldRecord.bytes (r : FieldRecord) : List Byte :=
  [byteOf r.form, byteOf r.field, r.body.kindByte, byteOf r.line, byteOf r.column, byteOf r.width] ++
    r.body.charBytes ++ [Bool.byte r.body.guarded] ++ halfBytes r.revision.toNat ++ r.body.counterBytes ++
    [r.body.styleByte, r.body.targetByte] ++ r.body.contentBytes

/-- The 12 bytes of ORDER_QUERY for one record. -/
def Order.bytes (o : Order) : List Byte :=
  [byteOf o.tag, byteOf o.form, byteOf o.requested, byteOf o.done, byteOf o.voided, o.policy.byte, o.state.byte,
    optionalByte (o.halt.map HaltReason.byte), Bool.byte o.cancelPending] ++
    halfBytes o.admission ++ [Bool.byte o.reported]

/-- The list form of ORDER_QUERY: 3 + 2r bytes (R131). -/
def OrderTable.listBytes (t : OrderTable) : List Byte :=
  [byteOf t.records.length] ++ halfBytes t.next ++ t.records.flatMap fun o => [byteOf o.tag, o.state.byte]

/-- Bytes 10 to 18 of STOCK_QUERY: the motion in flight where it moves the stock of `t`, else zeros. -/
def Paper.motionBytes (p : Paper) (t : Tractor) : List Byte :=
  match p.motion with
  | some m =>
    if m.tractor = t then
      [1, m.kind.byte, m.direction.byte, m.requester.byte, byteOf m.phase] ++ halfBytes m.done ++ halfBytes m.toGo
    else List.replicate 9 0
  | none => List.replicate 9 0

/-- The 19 bytes of STOCK_QUERY (R113). -/
def Blocks.stockBytes (b : Blocks) (t : Tractor) : List Byte :=
  let x := b.paper.stock t
  [t.byte, x.state.byte, optionalByte (x.form.map byteOf)] ++ optionalHalf x.offset ++ optionalHalf x.endRemaining ++
    [Bool.byte (b.paper.sensor t), Bool.byte b.coverOpen, b.paper.feedMotor.byte] ++ b.paper.motionBytes t

/-- The 30 bytes of HEAD_QUERY (R88). -/
def Head.bytes (h : Head) : List Byte :=
  halfBytes h.carriage.coordinate ++
    [Bool.byte h.carriage.homed, h.carriage.motor.byte, h.carriage.activity.byte, h.carriage.next.byte,
      optionalByte (h.plan.line.map byteOf), h.plan.direction.byte, h.plan.speed.byte] ++
    halfBytes h.plan.segments ++ [Bool.byte h.plan.dwellTaken] ++ h.heat.map byteOf

/-- The 17 bytes of READ_IDENTITY (R171). -/
def Attention.identityBytes (a : Attention) : List Byte :=
  [74] ++ halfBytes 3120 ++
    [1, byteOf Config.forms, byteOf Config.poolCapacity, byteOf Config.fieldsPerForm, byteOf Config.orderSlots, 18, 128,
      2, 1, 64, 0x0F, byteOf a.rate, byteOf a.address, 3]

end Sys2Proof.Machine
end

