-- ==== Sys2Proof/Machine/Forms.lean ====
section
/-! DEFINITION. The form commands (01, R13 to R18) and the issue count and in-flight mark as the Issue Controller writes
them (R9, R11). -/

namespace Sys2Proof.Machine

/-- A legal geometry (R3). -/
def legalGeometry (lines pitch top bottom : Nat) : Bool :=
  decide (6 ≤ lines) && decide (lines ≤ 132) && decide (20 ≤ pitch) && decide (pitch ≤ 48) &&
    decide (288 ≤ lines * pitch) && decide (lines * pitch ≤ 3168) && decide (top + bottom + 1 ≤ lines)

/-- The record with the geometry and settings that FORM_DEFINE and FORM_AMEND carry written into it; none where a carried
value is refused BAD_VALUE (R14). -/
def FormRecord.written (r : FormRecord) (a : FormBytes) : Option FormRecord :=
  match FormDirection.ofByte a.direction, Policy.ofByte a.policy with
  | some direction, some policy =>
    if decide (a.form.toNat < Config.forms) &&
        legalGeometry a.lines.toNat a.pitch.toNat a.top.toNat a.bottom.toNat &&
        decide (1 ≤ a.copies.toNat) && decide (a.copies.toNat ≤ 6) then
      some
        { r with
          lines := a.lines.toNat, pitch := a.pitch.toNat, top := a.top.toNat, bottom := a.bottom.toNat,
          copies := a.copies.toNat, direction := direction, policy := policy }
    else none
  | _, _ => none

/-- BAD_VALUE of every command for an id outside 0..7. -/
def badForm (f : Byte) : Bool := decide (Config.forms ≤ f.toNat)

/-- The lock tests, FROZEN then LOCKED, that refuse a change of a form (R8). -/
def FormRecord.lockTests (r : FormRecord) : List (Bool × Result) :=
  [(r.lock == .frozen, .frozen), (r.lock == .locked, .locked)]

/-- A stock carries the form (R12). -/
def Blocks.assigned (b : Blocks) (f : Nat) : Bool := (b.paper.carrier f).isSome

/-- In use for FORM_AMEND: assigned, or named by a record in QUEUED, RUNNING, HELD or HALTED (R12). -/
def Blocks.amendInUse (b : Blocks) (f : Nat) : Bool :=
  b.assigned f || b.orders.records.any fun o => o.form == f && !o.state.closed

/-- In use for FORM_RETIRE: assigned, or named by any record (R12). -/
def Blocks.retireInUse (b : Blocks) (f : Nat) : Bool :=
  b.assigned f || b.orders.records.any fun o => o.form == f

/-- FORM_DEFINE (R14). -/
def Blocks.formDefine (b : Blocks) (a : FormBytes) : Answer :=
  match FormRecord.empty.written a with
  | none => b.refuse .badValue
  | some r =>
    b.checked [((b.form a.form.toNat).defined, .exists)]
      ((b.setForm a.form.toNat { r with defined := true }).answer .ok)

/-- FORM_AMEND (R15). -/
def Blocks.formAmend (b : Blocks) (a : FormBytes) : Answer :=
  let old := b.form a.form.toNat
  match old.written a with
  | none => b.refuse .badValue
  | some r =>
    b.checked
      ([(!old.defined, .noForm)] ++ old.lockTests ++
        [(b.amendInUse a.form.toNat, .inUse),
         ((b.fieldsOf a.form.toNat).any fun q => !r.printable q.line, .outOfForm)])
      ((b.setForm a.form.toNat r).answer .ok)

/-- FORM_QUERY (R16). -/
def Blocks.formQuery (b : Blocks) (form : Byte) : Answer :=
  b.checked [(badForm form, .badValue)] (b.report .ok ((b.form form.toNat).bytes form.toNat))

/-- FORM_LOCK (R7, R17). -/
def Blocks.formLock (b : Blocks) (form target : Byte) : Answer :=
  let r := b.form form.toNat
  match Lock.ofByte target with
  | none => b.refuse .badValue
  | some l =>
    b.checked
      [(badForm form, .badValue), (!r.defined, .noForm), (r.lock == .frozen && !(l == .frozen), .frozen)]
      ((b.setForm form.toNat { r with lock := l }).answer .ok)

/-- Every field of a form leaves the pool and its record becomes EMPTY (R18). -/
def Blocks.emptyForm (b : Blocks) (f : Nat) : Blocks :=
  (b.setForm f FormRecord.empty).withPool (b.pool.filter fun q => !(q.form == f))

/-- FORM_RETIRE (R18). -/
def Blocks.formRetire (b : Blocks) (form : Byte) : Answer :=
  let r := b.form form.toNat
  b.checked
    ([(badForm form, .badValue), (!r.defined, .noForm)] ++ r.lockTests ++
      [(b.retireInUse form.toNat, .inUse)])
    ((b.emptyForm form.toNat).answer .ok)

/-- Set or clear the in-flight mark of a form (R11). -/
def Blocks.setInFlight (b : Blocks) (f : Nat) (mark : Bool) : Blocks :=
  b.setForm f { b.form f with inFlight := mark }

/-- Raise the issue count of a form, saturating at 65,535 (R9). -/
def Blocks.raiseIssue (b : Blocks) (f : Nat) : Blocks :=
  let r := b.form f
  b.setForm f { r with issueCount := if r.issueCount < 65535 then r.issueCount + 1 else r.issueCount }

end Sys2Proof.Machine
end

