-- ==== Sys2Proof/Machine/Fields.lean ====
section
/-! DEFINITION. The field commands (02, R39 to R46), the advance of a counter (R27) and the application of staged contents
(R37). -/

namespace Sys2Proof.Machine

/-! ## Counters (R26, R27) -/

/-- Add a number below 10 to decades, units first, decade by decade with decimal carry: the new decades, and the carry out
of the top decade (R27). -/
def addDecades : Nat → List Nat → List Nat × Nat
  | carry, [] => ([], carry)
  | carry, d :: rest =>
    let upper := addDecades ((d + carry) / 10) rest
    ((d + carry) % 10 :: upper.1, upper.2)

/-- One advance of a counter: the step is added; on a carry out of the top decade WRAP drops it, and STOP keeps the value
and sets the exhausted mark (R27). -/
def CounterPart.advance (p : CounterPart) : CounterPart :=
  let sum := addDecades p.stride p.decades
  if sum.2 = 0 then { p with decades := sum.1 }
  else
    match p.policy with
    | .wrap => { p with decades := sum.1 }
    | .stop => { p with exhausted := true }

/-- Advance a counter field, raising its revision (R27, R33). Another kind is left as it is. -/
def FieldRecord.advance (r : FieldRecord) : FieldRecord :=
  match r.body with
  | .counter c p staged => { r with body := .counter c p.advance staged, revision := r.revision + 1 }
  | .text .. | .rule _ | .link .. => r

/-! ## Staged contents (R37) -/

/-- A text content as it is held live: absent when it has no characters (R24, R35). -/
def liveText (text : List Byte) : Option (List Byte) := if text.isEmpty then none else some text

/-- The staged content, if any, becomes the live content; a counter's exhausted mark clears with it (R37). -/
def FieldBody.applyStaged : FieldBody → FieldBody
  | .text c g _ (some t) => .text c g (liveText t) none
  | .counter c p (some v) => .counter c { p with decades := v, exhausted := false } none
  | body => body

/-- Apply the staged contents of a form (R37). -/
def Blocks.applyStaged (b : Blocks) (f : Nat) : Blocks :=
  b.withPool (b.pool.map fun r => if r.form == f then { r with body := r.body.applyStaged } else r)

/-! ## FIELD_DEFINE (R40, R41) -/

/-- The character part a FIELD_DEFINE carries; none where a value is not one of its named values (R40). -/
def carriedChars (a : FieldBytes) : Option CharPart :=
  match Align.ofByte a.align, Emphasis.ofByte a.emphasis with
  | some align, some emphasis =>
    if a.glyphSet.toNat < 3 then some { align := align, glyphSet := a.glyphSet.toNat, emphasis := emphasis } else none
  | _, _ => none

/-- The counter part a FIELD_DEFINE carries; none where a value is refused (R26, R40). -/
def carriedCounter (a : FieldBytes) : Option CounterPart :=
  match CounterPolicy.ofByte a.policy, markOfByte a.zeroFill with
  | some policy, some zeroFill =>
    if decide (1 ≤ a.digits.toNat) && decide (a.digits.toNat ≤ 10) && decide (a.digits.toNat ≤ a.width.toNat) &&
        decide (1 ≤ a.stride.toNat) && decide (a.stride.toNat ≤ 9) && decimal (decadesOf a.value) &&
        fitsDigits (decadesOf a.value) a.digits.toNat then
      some
        { decades := (decadesOf a.value).take a.digits.toNat, stride := a.stride.toNat, policy := policy,
          zeroFill := zeroFill, exhausted := false }
    else none
  | _, _ => none

/-- The body a FIELD_DEFINE makes, by kind; bytes of other kinds are neither tested nor kept (R29, R32, R40, R190). -/
def carriedBody (a : FieldBytes) : Option FieldBody :=
  match a.kind.toNat with
  | 0 => (carriedChars a).map fun c => .text c (!(a.guarded == 0)) none none
  | 1 =>
    match carriedChars a, carriedCounter a with
    | some c, some p => some (.counter c p none)
    | _, _ => none
  | 2 => (RuleStyle.ofByte a.style).map .rule
  | 3 => if a.target.toNat < 64 then (carriedChars a).map fun c => .link c a.target.toNat else none
  | _ => none

/-- The placement tests that need no record (R22, R40). -/
def carriedPlaced (a : FieldBytes) : Bool :=
  decide (a.form.toNat < Config.forms) && decide (a.field.toNat < 64) && decide (a.column.toNat < 128) &&
    decide (1 ≤ a.width.toNat) && decide (a.width.toNat ≤ 48) && decide (a.column.toNat + a.width.toNat ≤ 128)

/-- The record a FIELD_DEFINE makes; none where it is refused BAD_VALUE (R40). -/
def carriedRecord (a : FieldBytes) : Option FieldRecord :=
  if carriedPlaced a then
    (carriedBody a).map fun body =>
      { form := a.form.toNat, field := a.field.toNat, line := a.line.toNat, column := a.column.toNat,
        width := a.width.toNat, revision := 0, body := body }
  else none

def FieldBody.isLink : FieldBody → Bool
  | .link .. => true
  | .text .. | .counter .. | .rule _ => false

/-- Two fields of one form on one line share a character position (R21). -/
def FieldRecord.overlaps (r q : FieldRecord) : Bool :=
  r.form == q.form && r.line == q.line && decide (r.column < q.column + q.width) && decide (q.column < r.column + r.width)

/-- A LINK whose target is no live non-LINK field of its form (R30). -/
def Blocks.badTarget (b : Blocks) (r : FieldRecord) : Bool :=
  match r.body with
  | .link _ target =>
    match b.field r.form target with
    | some q => q.body.isLink
    | none => true
  | .text .. | .counter .. | .rule _ => false

/-- FIELD_DEFINE (R40, R41). -/
def Blocks.fieldDefine (b : Blocks) (a : FieldBytes) : Answer :=
  match carriedRecord a with
  | none => b.refuse .badValue
  | some r =>
    let form := b.form r.form
    b.checked
      ([(!form.defined, .noForm)] ++ form.lockTests ++
        [(form.inFlight, .inFlight), ((b.field r.form r.field).isSome, .exists),
         (!form.printable r.line, .outOfForm), (b.pool.any r.overlaps, .overlap), (b.badTarget r, .noField),
         (decide (Config.poolCapacity ≤ b.pool.length) ||
            decide (Config.fieldsPerForm ≤ (b.fieldsOf r.form).length), .full)])
      (((b.withPool (insertField r b.pool)).setForm r.form { form with fieldCount := form.fieldCount + 1 }).answer .ok)

/-! ## FIELD_SET and COUNTER_SET (R42, R43) -/

/-- BAD_VALUE of every field command for an id out of range. -/
def badKey (form field : Byte) : Bool := badForm form || decide (64 ≤ field.toNat)

/-- BAD_VALUE for an expected-revision mark that is neither 0 nor 1 (R193). -/
def badMark (mark : Byte) : Bool := (markOfByte mark).isNone

/-- The command carries an expected revision that differs from the field's (R34). -/
def stale (mark : Byte) (expected : Half) (r : FieldRecord) : Bool := mark == 1 && !(r.revision == expected)

/-- Write a field's body and raise its revision; the reply carries the revision after the write (R33, R35, R192). -/
def Blocks.writeField (b : Blocks) (f i : Nat) (r : FieldRecord) (body : FieldBody) : Answer :=
  (b.withPool (updateField b.pool f i fun q => { q with body := body, revision := q.revision + 1 })).report
    (if (b.form f).inFlight then .staged else .ok) (halfBytes (r.revision + 1).toNat)

/-- FIELD_SET (R42). -/
def Blocks.fieldSet (b : Blocks) (form field mark : Byte) (expected : Half) (text : List Byte) : Answer :=
  let f := form.toNat
  b.checked
    [(badKey form field || badMark mark || decide (48 < text.length), .badValue), (!(b.form f).defined, .noForm)]
    (match b.field f field.toNat with
     | none => b.refuse .noField
     | some r =>
       match r.body with
       | .text c guarded live staged =>
         b.checked
           ((if guarded then (b.form f).lockTests else []) ++
             [(decide (r.width < text.length), .badValue), (!text.all (inSet c.glyphSet), .badChar),
              (stale mark expected r, .stale)])
           (b.writeField f field.toNat r
             (if (b.form f).inFlight then .text c guarded live (some text)
              else .text c guarded (liveText text) staged))
       | .counter .. | .rule _ | .link .. => b.refuse .badValue)

/-- COUNTER_SET (R43). -/
def Blocks.counterSet (b : Blocks) (form field mark : Byte) (expected : Half) (value : Bcd) : Answer :=
  let f := form.toNat
  b.checked
    [(badKey form field || badMark mark || !decimal (decadesOf value), .badValue), (!(b.form f).defined, .noForm)]
    (match b.field f field.toNat with
     | none => b.refuse .noField
     | some r =>
       match r.body with
       | .counter c p staged =>
         let v := (decadesOf value).take p.decades.length
         b.checked
           ((b.form f).lockTests ++
             [(!fitsDigits (decadesOf value) p.decades.length, .badValue), (stale mark expected r, .stale)])
           (b.writeField f field.toNat r
             (if (b.form f).inFlight then .counter c p (some v)
              else .counter c { p with decades := v, exhausted := false } staged))
       | .text .. | .rule _ | .link .. => b.refuse .badValue)

/-! ## FIELD_QUERY, FIELD_LIST, FIELD_RETIRE (R44 to R46) -/

/-- FIELD_QUERY (R44). -/
def Blocks.fieldQuery (b : Blocks) (form field : Byte) : Answer :=
  b.checked [(badKey form field, .badValue), (!(b.form form.toNat).defined, .noForm)]
    (match b.field form.toNat field.toNat with
     | none => b.refuse .noField
     | some r => b.report .ok r.bytes)

/-- The ids FIELD_LIST returns: at most sixteen, in print order, from the start index (R45). -/
def Blocks.listedIds (b : Blocks) (f start : Nat) : List Nat :=
  (((b.fieldsOf f).drop start).take 16).map (·.field)

/-- FIELD_LIST (R45). -/
def Blocks.fieldList (b : Blocks) (form start : Byte) : Answer :=
  let ids := b.listedIds form.toNat start.toNat
  b.checked
    [(badForm form || decide (Config.fieldsPerForm ≤ start.toNat), .badValue),
     (!(b.form form.toNat).defined, .noForm)]
    (b.report .ok
      ([byteOf (b.form form.toNat).fieldCount, byteOf b.pool.length, start, byteOf ids.length] ++ ids.map byteOf))

/-- Some live LINK of the form names the field (R31). -/
def Blocks.linked (b : Blocks) (f i : Nat) : Bool :=
  (b.fieldsOf f).any fun q =>
    match q.body with
    | .link _ target => target == i
    | .text .. | .counter .. | .rule _ => false

/-- Take the field with a key out of the pool, the fields after it moving up (R46). -/
def removeField (pool : List FieldRecord) (f i : Nat) : List FieldRecord :=
  pool.filter fun q => !(q.form == f && q.field == i)

/-- FIELD_RETIRE (R46). -/
def Blocks.fieldRetire (b : Blocks) (form field : Byte) : Answer :=
  let f := form.toNat
  let r := b.form f
  b.checked
    ([(badKey form field, .badValue), (!r.defined, .noForm)] ++ r.lockTests ++
      [(r.inFlight, .inFlight), ((b.field f field.toNat).isNone, .noField), (b.linked f field.toNat, .linked)])
    (((b.withPool (removeField b.pool f field.toNat)).setForm f { r with fieldCount := r.fieldCount - 1 }).answer .ok)

end Sys2Proof.Machine
end

