-- ==== Sys2Proof/Machine/Composer.lean ====
section
/-! DEFINITION. The character content of a field (R25) and the composition of a form line (03, R54 to R65). -/

namespace Sys2Proof.Machine

/-! ## Character content (R25) -/

/-- The codes of decades held units first, highest decade first. -/
def digitCodes (decades : List Nat) : List Byte := decades.reverse.map fun d => byteOf (0x30 + d)

/-- A counter's character content: all digits with zero-fill; else without leading zeros, and 0 for the value 0 (R25). -/
def CounterPart.content (p : CounterPart) : List Byte :=
  let digits := digitCodes p.decades
  if p.zeroFill then digits
  else
    match digits.dropWhile fun c => c == 0x30 with
    | [] => [0x30]
    | significant => significant

/-- The content a field has of its own: none for RULE and LINK (R25). -/
def FieldBody.ownContent : FieldBody → List Byte
  | .text _ _ live _ => live.getD []
  | .counter _ p _ => p.content
  | .rule _ | .link .. => []

/-- The character content of a field: a link's is its target's live content (R25, R30). -/
def Blocks.content (b : Blocks) (r : FieldRecord) : List Byte :=
  match r.body with
  | .link _ target =>
    match b.field r.form target with
    | some q => q.body.ownContent
    | none => []
  | body => body.ownContent

/-! ## Cells (R55 to R58) -/

/-- Fit: content longer than the width keeps its last characters under RIGHT, else its first (R56). -/
def fitted (a : Align) (width : Nat) (content : List Byte) : List Byte :=
  match a with
  | .right => content.drop (content.length - width)
  | .left | .center => content.take width

/-- Padding positions on the left (R57). -/
def leftPadding (a : Align) (width len : Nat) : Nat :=
  match a with
  | .left => 0
  | .right => width - len
  | .center => (width - len) / 2

/-- Align: pad with 0x20 to the width (R57). -/
def aligned (a : Align) (width : Nat) (content : List Byte) : List Byte :=
  let left := leftPadding a width content.length
  List.replicate left 0x20 ++ content ++ List.replicate (width - content.length - left) 0x20

/-- Substitute: a code outside the set is drawn as 0x3F (R58). -/
def substituted (set : Nat) (code : Byte) : Byte := if inSet set code then code else 0x3F

/-- The code in each cell of a field, left to right (R55). -/
def cells (c : CharPart) (width : Nat) (content : List Byte) : List Byte :=
  (aligned c.align width (fitted c.align width content)).map (substituted c.glyphSet)

/-! ## Drawing (R59 to R62) -/

/-- The pins of a glyph column: glyph row r is pin r + 1 (R47). -/
def columnPins (c : Column) : Pins := c.zeroExtend 18 <<< 2

/-- Column `o` of a cell that holds a glyph: its dots in columns 0 to 9, nothing in the gap (R55); BOLD repeats each dot
one column to the right (R61). -/
def cellPins (columns : List Column) (bold : Bool) (o : Nat) : Pins :=
  columnPins (columns.getD o 0) ||| (if bold && decide (0 < o) then columnPins (columns.getD (o - 1) 0) else 0)

/-- The pins of a rule style (R29, R60). -/
def RuleStyle.pins : RuleStyle → Pins
  | .thin => pin 9
  | .thick => pin 8 ||| pin 9
  | .base => pin 18

/-- The character part of a field, none for RULE (R19). -/
def FieldBody.chars : FieldBody → Option CharPart
  | .text c .. | .counter c .. | .link c _ => some c
  | .rule _ => none

/-- The first and the last dot column of a field's span (R63). -/
def FieldRecord.first (r : FieldRecord) : Nat := 12 * r.column
def FieldRecord.last (r : FieldRecord) : Nat := 12 * (r.column + r.width) - 1

/-- The pins a field fires in dot column `d` (R55 to R62); none outside its span. -/
def Blocks.fieldPins (b : Blocks) (r : FieldRecord) (d : Nat) : Pins :=
  if r.first ≤ d ∧ d ≤ r.last then
    match r.body with
    | .rule style => style.pins
    | .text c .. | .counter c .. | .link c _ =>
      let code := (cells c r.width (b.content r)).getD (d / 12 - r.column) 0x20
      cellPins (b.glyphColumns c.glyphSet code) (c.emphasis == .bold) (d % 12) |||
        (if c.emphasis == .underline then pin 17 else 0)
  else 0

/-! ## Lines (R54, R63, R64) -/

/-- The live fields of one line, in print order (R23, R54). -/
def Blocks.lineFields (b : Blocks) (f line : Nat) : List FieldRecord := (b.fieldsOf f).filter fun r => r.line == line

/-- The pins of dot column `d` of a line: every field adds its own (R63). -/
def Blocks.linePins (b : Blocks) (fields : List FieldRecord) (d : Nat) : Pins :=
  fields.foldl (fun acc r => acc ||| b.fieldPins r d) 0

/-- The line image: every dot column in which a pin fires, lowest first (R63). -/
def Blocks.lineImage (b : Blocks) (fields : List FieldRecord) : List Dots :=
  (List.range Config.dotColumns).filterMap fun d =>
    let pins := b.linePins fields d
    if pins = 0 then none else some { column := d, pins := pins }

/-- The counter a field's span serves (R63). -/
def Blocks.counterServed (b : Blocks) (r : FieldRecord) : Option Nat :=
  match r.body with
  | .counter .. => some r.field
  | .link _ target =>
    match b.field r.form target with
    | some q =>
      match q.body with
      | .counter .. => some target
      | .text .. | .rule _ | .link .. => none
    | none => none
  | .text .. | .rule _ => none

/-- The field-span entry of a field (R63). -/
def Blocks.spanOf (b : Blocks) (r : FieldRecord) : FieldSpan where
  field := r.field
  first := r.first
  last := r.last
  counter := b.counterServed r

/-- The pass span of an image: its lowest and highest firing column (R64). -/
def passSpanOf : List Dots → Option (Nat × Nat)
  | [] => none
  | d :: rest => some (d.column, (rest.getLastD d).column)

/-- Compose one form line (R54). -/
def Blocks.compose (b : Blocks) (f line : Nat) : Blocks :=
  let fields := b.lineFields f line
  let image := b.lineImage fields
  b.withComposer { image := image, spans := fields.map b.spanOf, passSpan := passSpanOf image }

/-- The pins the image fires in a column. -/
def imagePins (image : List Dots) (d : Nat) : Pins :=
  match image.find? fun x => x.column == d with
  | some x => x.pins
  | none => 0

end Sys2Proof.Machine
end

