-- ==== Sys2Proof/Machine/Head.lean ====
section
/-! DEFINITION. The Head Drive (04): heat accounts, plans, moves, homing, and the requests that meet a pass in flight. Each
operation acts on the head alone; what it hands to the Issue Controller is read from the head after it, but for the columns
of a completed segment. -/

namespace Sys2Proof.Machine

/-! ## Heat accounts (R73 to R75) -/

/-- Pin index `i` (pin i + 1) is among the pins. -/
def fires (pins : Pins) (i : Nat) : Bool := pins.getLsbD (17 - i)

/-- Some firing pin's balance is less than the cost (R77). -/
def short (strike : Nat) (pins : Pins) (heat : List Nat) : Bool :=
  heat.zipIdx.any fun x => fires pins x.2 && decide (x.1 < strike)

/-- Debit every firing pin by the strike class (R73). -/
def debit (strike : Nat) (pins : Pins) (heat : List Nat) : List Nat :=
  heat.zipIdx.map fun x => if fires pins x.2 then x.1 - strike else x.1

/-- Credit every account below 96 by one unit (R74, R75). -/
def credit (heat : List Nat) : List Nat := heat.map fun h => if h < Config.heatFull then h + 1 else h

/-- The refill of the `k`-th column of a segment, counted from 1 (R75). -/
def columnCredit (v : Speed) (k : Nat) (heat : List Nat) : List Nat :=
  match v with
  | .half => credit heat
  | .full => if k % 2 = 0 then credit heat else heat
  | .none => heat

/-- The balances after the `k`-th column of a segment: its firings, then its refill (R75). -/
def columnHeat (strike : Nat) (v : Speed) (k : Nat) (pins : Pins) (heat : List Nat) : List Nat :=
  columnCredit v k (debit strike pins heat)

/-! ## Plans (R77 to R81) -/

/-- The dot columns still to print, in the direction of travel. -/
def travel (d : PassDirection) (first last : Nat) : List Nat :=
  match d with
  | .leftToRight => (List.range (last + 1 - first)).map fun i => first + i
  | .rightToLeft => (List.range (last + 1 - first)).map fun i => last - i

/-- Some pin fires in two adjacent columns (R78). -/
def adjacent (image : List Dots) (first last : Nat) : Bool :=
  (List.range (last - first)).any fun i => !(imagePins image (first + i) &&& imagePins image (first + i + 1) == 0)

/-- How many columns, from the `k`-th on, a walk at a speed goes through before some pin is short (R77, R80). -/
def walk (image : List Dots) (strike : Nat) (v : Speed) : Nat → List Nat → List Nat → Nat
  | _, [], _ => 0
  | k, d :: rest, heat =>
    if short strike (imagePins image d) heat then 0
    else walk image strike v (k + 1) rest (columnHeat strike v k (imagePins image d) heat) + 1

/-- What a plan yields (R76): a segment at a speed over so many columns, or a dwell. -/
inductive Plan where
  | segment (speed : Speed) (columns : Nat)
  | dwell
  deriving DecidableEq, Repr

/-- Plan a part of a pass: FULL where no pin fires in adjacent columns and the whole part fits; else HALF over the longest
run that fits; else a dwell (R78 to R81). -/
def planPart (image : List Dots) (strike : Nat) (d : PassDirection) (first last : Nat) (heat : List Nat) : Plan :=
  let columns := travel d first last
  if !adjacent image first last && walk image strike .full 1 columns heat == columns.length then
    .segment .full columns.length
  else
    match walk image strike .half 1 columns heat with
    | 0 => .dwell
    | n => .segment .half n

/-! ## The carriage (R66, R67, R71, R72) -/

def PassDirection.opposite : PassDirection → PassDirection
  | .leftToRight => .rightToLeft
  | .rightToLeft => .leftToRight

/-- One carriage step to the right, kept within 0..1599 (R66, R67). -/
def Carriage.right (c : Carriage) : Carriage := { c with coordinate := min (c.coordinate + 1) Config.maxCoordinate }

/-- One carriage step to the left, kept within 0..1599 (R66, R67). -/
def Carriage.left (c : Carriage) : Carriage := { c with coordinate := c.coordinate - 1 }

/-- The start coordinate of the columns still to print (R67). -/
def Pass.start (p : Pass) (d : PassDirection) : Nat :=
  match d with
  | .leftToRight => p.first + Config.columnOffset
  | .rightToLeft => p.last + Config.columnOffset

/-- Where the approach move goes: the start coordinate of the pass, or no move. -/
def Head.target (h : Head) : Nat :=
  match h.pass with
  | some p =>
    match p.direction with
    | some d => p.start d
    | none => h.carriage.coordinate
  | none => h.carriage.coordinate

/-- How many columns a segment has. -/
def Segment.columns (g : Segment) : Nat := g.last + 1 - g.first

/-- The `k`-th column of a segment in the direction of travel, counted from 0. -/
def Segment.column (g : Segment) (d : PassDirection) (k : Nat) : Nat :=
  match d with
  | .leftToRight => g.first + k
  | .rightToLeft => g.last - k

/-- The pass, its segment and every pending request end; the activity becomes IDLE. -/
def Head.clearWork (h : Head) : Head :=
  { h with
    carriage := { h.carriage with activity := .idle }
    pass := none
    segment := none
    hold := .none
    homeFor := []
    firing := 0 }

/-- Stop at once (R71): a moving carriage loses home; any pass ends. -/
def Head.stop (h : Head) : Head :=
  if h.carriage.activity.moves then
    { h with carriage := { h.carriage with homed := false } }.clearWork
  else h.clearWork

/-- Stall and failed homing: the work ends and the carriage is unhomed (R69, R70). -/
def Head.lose (h : Head) : Head := { h with carriage := { h.carriage with homed := false } }.clearWork

/-- Release the carriage motor (R72). -/
def Head.release (h : Head) : Head := { h with carriage := { h.carriage with motor := .released, homed := false } }

/-! ## Segments and dwells (R81, R83, R87) -/

/-- Begin a segment of `n` columns of the pass at a speed. -/
def Head.beginSegment (h : Head) (p : Pass) (d : PassDirection) (v : Speed) (n : Nat) : Head :=
  { h with
    carriage := { h.carriage with activity := .segment, motor := .held }
    segment :=
      some
        { speed := v
          first := match d with | .leftToRight => p.first | .rightToLeft => p.last + 1 - n
          last := match d with | .leftToRight => p.first + n - 1 | .rightToLeft => p.last
          traversed := 0 }
    plan := { h.plan with speed := v, segments := h.plan.segments + 1 }
    stallCount := 0
    firing := 0 }

/-- Begin a dwell (R81). -/
def Head.beginDwell (h : Head) : Head :=
  { h with
    carriage := { h.carriage with activity := .dwell }
    segment := none
    plan := { h.plan with dwellTaken := true }
    firing := 0 }

/-- Hold the pass SUSPENDED (R84). -/
def Head.suspend (h : Head) : Head :=
  { h with carriage := { h.carriage with activity := .suspended }, segment := none, hold := .none, firing := 0 }

/-- Plan what is left of the pass, or do what a pending request asks instead (R76 step 4, R84, R86). -/
def Head.planNext (image : List Dots) (h : Head) : Head :=
  match h.hold with
  | .endPass => h.clearWork
  | .pause => h.suspend
  | .none =>
    match h.pass with
    | none => h.clearWork
    | some p =>
      match p.direction with
      | none => h.clearWork
      | some d =>
        match planPart image p.strike d p.first p.last h.heat with
        | .segment v n => h.beginSegment p d v n
        | .dwell => h.beginDwell

/-! ## Homing and approach (R67, R68, R76, R85) -/

/-- Begin the approach move to the start of the columns still to print (R67, R76 step 3). -/
def Head.approach (h : Head) : Head :=
  { h with
    carriage := { h.carriage with activity := .approach, motor := .held }
    segment := none
    stallCount := 0
    firing := 0 }

/-- Take the direction of the pass and start its plan record (R76 step 2, R82). -/
def Head.takeDirection (h : Head) (p : Pass) : Head :=
  let d := if p.unidirectional then .leftToRight else h.carriage.next
  { h with
    carriage := { h.carriage with next := d.opposite }
    pass := some { p with direction := some d }
    plan := { line := some p.line, direction := d, speed := .none, segments := 0, dwellTaken := false } }

/-- The pass or resume request that a homing was part of goes straight on (R68, R76, R85); a pass suspended before the
homing is SUSPENDED again; with none the head is IDLE. A pending end-pass or pause acts first (R84, R86). -/
def Head.afterHoming (h : Head) : Head :=
  match h.pass with
  | none => h.clearWork
  | some p =>
    match h.hold with
    | .endPass => h.clearWork
    | .pause =>
      match p.direction with
      | none => { (h.takeDirection p).suspend with homeFor := [] }
      | some _ => { h.suspend with homeFor := [] }
    | .none =>
      match p.direction with
      | none => { (h.takeDirection p).approach with homeFor := [] }
      | some _ =>
        if h.homeFor.contains .resume then { h.approach with homeFor := [] } else { h.suspend with homeFor := [] }

/-- A homing that has found HOME: homed at coordinate 0, next direction LEFT_TO_RIGHT (R68). -/
def Head.foundHome (h : Head) : Head :=
  { h with carriage := { h.carriage with homed := true, coordinate := 0, next := .leftToRight } }.afterHoming

/-- Begin a homing move; with HOME asserted it completes at once with no step taken (R68). -/
def Head.beginHoming (homeSeen : Bool) (q : HomeRequester) (h : Head) : Head :=
  let moving :=
    { h with
      carriage := { h.carriage with activity := .homing, motor := .held }
      segment := none
      homeFor := [q]
      homingSteps := 0
      stallCount := 0
      firing := 0 }
  if homeSeen then moving.foundHome else moving

/-- A home request: at once from IDLE and SUSPENDED; after stopping the pass from APPROACH, SEGMENT and DWELL; joining a
homing in flight (R68). -/
def Head.home (homeSeen : Bool) (q : HomeRequester) (h : Head) : Head :=
  match h.carriage.activity with
  | .idle | .suspended => h.beginHoming homeSeen q
  | .approach | .segment | .dwell => h.stop.beginHoming homeSeen q
  | .homing => { h with homeFor := if h.homeFor.contains q then h.homeFor else h.homeFor ++ [q] }

/-- A pass request, taken in IDLE: home first where unhomed; then the direction, the plan record and the approach (R76). -/
def Head.request (homeSeen : Bool) (p : Pass) (h : Head) : Head :=
  if h.carriage.homed then (h.takeDirection p).approach
  else { h with pass := some p, hold := .none }.beginHoming homeSeen .pass

/-! ## Pause, resume, end of pass (R84 to R86) -/

/-- A pause request (R84). -/
def Head.pause (h : Head) : Head :=
  match h.carriage.activity with
  | .idle | .suspended => h
  | .homing | .approach | .segment | .dwell =>
    { h with hold := match h.hold with | .none => .pause | .pause => .pause | .endPass => .endPass }

/-- A resume request (R85). -/
def Head.resume (homeSeen : Bool) (h : Head) : Head :=
  match h.carriage.activity with
  | .suspended => if h.carriage.homed then h.approach else h.beginHoming homeSeen .resume
  | .idle | .homing | .approach | .segment | .dwell => h

/-- An end-pass request (R86). -/
def Head.endPass (h : Head) : Head :=
  match h.carriage.activity with
  | .idle => h
  | .homing | .approach | .segment => { h with hold := .endPass }
  | .dwell | .suspended => h.clearWork

/-! ## Steps (R67, R70) -/

/-- The direction of the pass in flight; LEFT_TO_RIGHT where none has been taken. -/
def Head.direction (h : Head) : PassDirection :=
  match h.pass with
  | some p => p.direction.getD .leftToRight
  | none => .leftToRight

/-- The strike class of the pass in flight. -/
def Head.strike (h : Head) : Nat :=
  match h.pass with
  | some p => p.strike
  | none => 0

/-- A step of the move in flight is still to be made. -/
def Head.canStep (homeSeen : Bool) (h : Head) : Bool :=
  match h.carriage.activity with
  | .homing => !homeSeen && decide (h.homingSteps < Config.homingLimit)
  | .approach => !(h.carriage.coordinate == h.target)
  | .segment =>
    match h.segment with
    | some g => decide (g.traversed < g.columns)
    | none => false
  | .idle | .dwell | .suspended => false

/-- One column of a segment: fire and debit, refill, and step on (R67, R75). -/
def Head.segmentStep (image : List Dots) (h : Head) (g : Segment) : Head :=
  let pins := imagePins image (g.column h.direction g.traversed)
  { h with
    carriage :=
      match h.direction with
      | .leftToRight => h.carriage.right
      | .rightToLeft => h.carriage.left
    heat := columnHeat h.strike g.speed (g.traversed + 1) pins h.heat
    segment := some { g with traversed := g.traversed + 1 }
    firing := pins }

/-- One carriage step of the move in flight, without the stall count (R67). -/
def Head.move (image : List Dots) (h : Head) : Head :=
  match h.carriage.activity with
  | .homing => { h with carriage := h.carriage.left, homingSteps := h.homingSteps + 1, firing := 0 }
  | .approach =>
    if h.carriage.coordinate < h.target then { h with carriage := h.carriage.right, firing := 0 }
    else { h with carriage := h.carriage.left, firing := 0 }
  | .segment =>
    match h.segment with
    | some g => h.segmentStep image g
    | none => h
  | .idle | .dwell | .suspended => h

/-- One carriage step where one is still to be made and no stall has come: the move, counted since the last CFB pulse
(R67, R70). -/
def Head.step (image : List Dots) (homeSeen : Bool) (h : Head) : Head :=
  if h.canStep homeSeen && decide (h.stallCount < Config.stallLimit) then
    { h.move image with stallCount := h.stallCount + 1 }
  else h

/-- Up to `n` carriage steps. -/
def Head.steps (image : List Dots) (homeSeen : Bool) : Nat → Head → Head
  | 0, h => h
  | n + 1, h => Head.steps image homeSeen n (h.step image homeSeen)

/-- The steps from here make the count reach 16 before a CFB pulse: the head as it stands then, if they do (R70). -/
def Head.stalling (image : List Dots) (homeSeen : Bool) (h : Head) : Option Head :=
  if h.carriage.activity.moves then
    let stalled := h.steps image homeSeen (Config.stallLimit - h.stallCount)
    if Config.stallLimit ≤ stalled.stallCount then some stalled else none
  else none

/-- With `k` steps still to make, the move can end without a stall: at most one step is the next one, and more steps have
CFB pulses between them (R70, assumption log 3). -/
def Head.finishes (h : Head) (k : Nat) : Bool := decide (h.stallCount + min k 1 < Config.stallLimit)

/-! ## The ends of moves (R68, R69, R76, R81, R83) -/

/-- A homing move ends at HOME (R68); none where it does not. -/
def Head.homingDone (homeSeen : Bool) (h : Head) : Option Head :=
  if h.carriage.activity == .homing && homeSeen && h.finishes 0 then some h.foundHome else none

/-- A homing move reaches 1,700 steps without HOME (R69): the head, with the steps made and the work lost. -/
def Head.homingLost (homeSeen : Bool) (h : Head) : Option Head :=
  let left := Config.homingLimit - h.homingSteps
  if h.carriage.activity == .homing && !homeSeen && h.finishes left then
    some
      { h with
        carriage := { h.carriage with coordinate := h.carriage.coordinate - left }
        homingSteps := h.homingSteps + left }.lose
  else none

/-- An approach move ends: the carriage stands at the start coordinate, and the rest is planned (R76). -/
def Head.approachDone (image : List Dots) (h : Head) : Option Head :=
  let left := (h.target - h.carriage.coordinate) + (h.carriage.coordinate - h.target)
  if h.carriage.activity == .approach && h.finishes left then
    some ({ h with carriage := { h.carriage with coordinate := h.target } }.planNext image)
  else none

/-- The rest of the pass after a segment: none where the segment fired the last column of the span (R76, R83). -/
def Pass.rest (p : Pass) (g : Segment) (d : PassDirection) : Option Pass :=
  match d with
  | .leftToRight => if g.last < p.last then some { p with first := g.last + 1 } else none
  | .rightToLeft => if p.first < g.first then some { p with last := g.first - 1 } else none

/-- Fire the columns of a segment still to be traversed (R67, R75). -/
def Head.traverse (image : List Dots) : Nat → Head → Head
  | 0, h => h
  | n + 1, h => Head.traverse image n (h.move image)

/-- A segment ends: its columns are fired, it is reported with its first and last column, and the pass completes or what
is left is planned (R83). -/
def Head.segmentDone (image : List Dots) (h : Head) : Option (Head × Nat × Nat) :=
  match h.segment, h.pass with
  | some g, some p =>
    let left := g.columns - g.traversed
    if h.carriage.activity == .segment && h.finishes left then
      let done := { h.traverse image left with segment := none, firing := 0 }
      match p.rest g h.direction with
      | none => some (done.clearWork, g.first, g.last)
      | some rest => some ({ done with pass := some rest }.planNext image, g.first, g.last)
    else none
  | _, _ => none

/-- The refill tick: credit while no segment is in flight; a dwell with every account full ends, and the rest is planned
(R74, R81). -/
def Head.tick (image : List Dots) (h : Head) : Head :=
  match h.carriage.activity with
  | .segment => h
  | .dwell =>
    let refilled := { h with heat := credit h.heat }
    if refilled.heat.all fun x => decide (Config.heatFull ≤ x) then refilled.planNext image else refilled
  | .idle | .homing | .approach | .suspended => { h with heat := credit h.heat }

end Sys2Proof.Machine
end

