-- ==== Sys2Proof/Machine/Orders.lean ====
section
/-! DEFINITION. The Order Table's side of the Issue Controller's requests (06, R122 to R124) and of the order commands that
need no more than the table: their tests and what they write (R125 to R132). -/

namespace Sys2Proof.Machine

/-! ## Requests of the Issue Controller -/

/-- The order a start request chooses: the QUEUED record of lowest admission number (R122). -/
def OrderTable.nextQueued (t : OrderTable) : Option Order := t.records.find? fun o => o.state == .queued

/-- The chosen record becomes RUNNING with its cancel-pending mark clear (R122). -/
def OrderTable.start (t : OrderTable) (tag : Nat) : OrderTable :=
  t.update tag fun o => { o with state := .running, cancelPending := false }

/-- Count a ticket of a record: done + 1, or voided + 1 up to 255 (R123). -/
def Order.counted (o : Order) (completed : Bool) : Order :=
  if completed then { o with done := o.done + 1 }
  else { o with voided := if o.voided < 255 then o.voided + 1 else o.voided }

/-- The count request (R123). -/
def OrderTable.count (t : OrderTable) (tag : Nat) (completed : Bool) : OrderTable :=
  t.update tag fun o => o.counted completed

/-- The record after an end-of-work request that carries a halt, or none for finished and cancelled (R124). -/
def Order.ended (o : Order) (halt : Option HaltReason) : Order :=
  let left := { o with cancelPending := false, reported := false }
  if o.done = o.requested then { left with state := .done, halt := none }
  else if o.cancelPending then { left with state := .cancelled, halt := none }
  else
    match halt with
    | some reason => { left with state := .halted, halt := some reason }
    | none => { left with state := .cancelled, halt := none }

/-- The end-of-work request (R124). -/
def OrderTable.endWork (t : OrderTable) (tag : Nat) (halt : Option HaltReason) : OrderTable :=
  t.update tag fun o => o.ended halt

/-- Some record is HALTED (R118, R135). -/
def OrderTable.anyHalted (t : OrderTable) : Bool := t.records.any fun o => o.state == .halted

/-! ## Admission (R117, R126) -/

/-- The records renumbered 1, 2 and so on in admission order (R117). -/
def renumbered (records : List Order) : List Order :=
  records.zipIdx.map fun x => { x.1 with admission := x.2 + 1 }

/-- The table renumbers before it admits when the next admission number is 65,535 (R117). -/
def OrderTable.prepared (t : OrderTable) : OrderTable :=
  if Config.lastAdmission ≤ t.next then { records := renumbered t.records, next := t.records.length + 1 } else t

/-- Admit a new QUEUED record with the next admission number (R117, R126). -/
def OrderTable.enter (t : OrderTable) (tag form requested : Nat) (policy : Policy) : OrderTable :=
  let p := t.prepared
  { records :=
      p.records ++
        [{ tag := tag, form := form, requested := requested, done := 0, voided := 0, policy := policy, state := .queued,
           halt := none, cancelPending := false, admission := p.next, reported := true }]
    next := p.next + 1 }

/-- The present policy an ORDER_ISSUE carries: some none where it carries the mark 0xFF, none for a byte outside the table
(R125, R190). -/
def carriedPolicy (b : Byte) : Option (Option Policy) :=
  if b = 0xFF then some none else (Policy.ofByte b).map some

/-- ORDER_ISSUE on the table: BAD_VALUE, NO_FORM, EXISTS, FULL, else the record is admitted (R126). -/
def Blocks.orderIssue (b : Blocks) (tag form requested policy : Byte) : Answer :=
  match carriedPolicy policy with
  | none => b.refuse .badValue
  | some carried =>
    b.checked
      [(tag == 0 || badForm form || decide (requested.toNat < 1) || decide (250 < requested.toNat), .badValue),
       (!(b.form form.toNat).defined, .noForm), ((b.orders.find tag.toNat).isSome, .exists),
       (decide (Config.orderSlots ≤ b.orders.records.length), .full)]
      ((b.withOrders
          (b.orders.enter tag.toNat form.toNat requested.toNat
            (carried.getD (b.form form.toNat).policy))).answer .accepted)

/-! ## The commands on one record (R127 to R132) -/

/-- A ticket of the order is in flight (R127). -/
def Blocks.ticketOf (b : Blocks) (o : Order) : Bool := o.state == .running && (b.form o.form).inFlight

/-- The floor of an ORDER_AMEND (R127). -/
def Blocks.amendFloor (b : Blocks) (o : Order) : Nat := if b.ticketOf o then o.done + 1 else o.done

/-- The record after an accepted ORDER_AMEND: one that waits becomes DONE where the count equals done (R127). -/
def Order.amended (o : Order) (requested : Nat) : Order :=
  let written := { o with requested := requested }
  match o.state with
  | .queued | .held | .halted =>
    if requested = o.done then { written with state := .done, halt := none, reported := false } else written
  | .running | .done | .cancelled => written

/-- ORDER_AMEND on the table (R127). -/
def Blocks.orderAmend (b : Blocks) (tag requested : Byte) : Answer :=
  b.checked [(tag == 0 || decide (requested.toNat < 1) || decide (250 < requested.toNat), .badValue)]
    (match b.orders.find tag.toNat with
     | none => b.refuse .noOrder
     | some o =>
       b.checked [(o.state.closed, .wrongState), (decide (requested.toNat < b.amendFloor o), .badValue)]
         ((b.withOrders (b.orders.update tag.toNat fun x => x.amended requested.toNat)).answer .ok))

/-- ORDER_HOLD on the table (R128). -/
def Blocks.orderHold (b : Blocks) (tag : Byte) : Answer :=
  b.checked [(tag == 0, .badValue)]
    (match b.orders.find tag.toNat with
     | none => b.refuse .noOrder
     | some o =>
       b.checked [(!(o.state == .queued), .wrongState)]
         ((b.withOrders (b.orders.update tag.toNat fun x => { x with state := .held })).answer .ok))

/-- ORDER_RESUME on the table (R129). -/
def Blocks.orderResume (b : Blocks) (tag : Byte) : Answer :=
  b.checked [(tag == 0, .badValue)]
    (match b.orders.find tag.toNat with
     | none => b.refuse .noOrder
     | some o =>
       b.checked [(!(o.state == .held || o.state == .halted), .wrongState)]
         ((b.withOrders (b.orders.update tag.toNat fun x => { x with state := .queued, halt := none })).answer .ok))

/-- The record after an accepted ORDER_CANCEL: closed at once where it waits, marked where it runs (R130). -/
def Order.cancelled (o : Order) : Order :=
  match o.state with
  | .running => { o with cancelPending := true }
  | .queued | .held | .halted => { o with state := .cancelled, halt := none, reported := false }
  | .done | .cancelled => o

/-- ORDER_CANCEL on the table (R130). -/
def Blocks.orderCancel (b : Blocks) (tag : Byte) : Answer :=
  b.checked [(tag == 0, .badValue)]
    (match b.orders.find tag.toNat with
     | none => b.refuse .noOrder
     | some o =>
       b.checked [(o.state.closed, .wrongState)]
         ((b.withOrders (b.orders.update tag.toNat Order.cancelled)).answer .ok))

/-- ORDER_QUERY: one record by its tag, or the list form for tag 0 (R131). -/
def Blocks.orderQuery (b : Blocks) (tag : Byte) : Answer :=
  if tag = 0 then b.report .ok b.orders.listBytes
  else
    match b.orders.find tag.toNat with
    | none => b.refuse .noOrder
    | some o => b.report .ok o.bytes

/-- ORDER_RELEASE on the table (R132). -/
def Blocks.orderRelease (b : Blocks) (tag : Byte) : Answer :=
  b.checked [(tag == 0, .badValue)]
    (match b.orders.find tag.toNat with
     | none => b.refuse .noOrder
     | some o =>
       b.checked [(!o.state.closed, .wrongState)]
         ((b.withOrders
             { b.orders with records := b.orders.records.filter fun x => !(x.tag == tag.toNat) }).answer .ok))

end Sys2Proof.Machine
end

