-- ==== Sys2Proof/Machine/Paper.lean ====
section
/-! DEFINITION. The Paper Path Controller (05): motions from their beginning to their end, ejections, jams and stops, and the
sensor rule. The stock commands stand in Machine/Stocks.lean. -/

namespace Sys2Proof.Machine

/-! ## Beginning a motion (R97 to R99) -/

/-- What a motion is carried out as: its kind, direction and steps. -/
structure Course where
  kind : MotionKind
  direction : FeedDirection
  steps : Nat
  deriving DecidableEq, Repr

/-- An ejection with so much paper left (R99). -/
def Course.ejection (endRemaining : Nat) : Course where
  kind := .eject
  direction := .forward
  steps := endRemaining + Config.clearing

/-- A forward motion of another kind with end remaining at 0 and steps to go is carried out as EJECT (R99). -/
def Course.converted (c : Course) (endRemaining : Option Nat) : Course :=
  match c.direction, endRemaining with
  | .forward, some 0 => if c.kind = .eject ∨ c.steps = 0 then c else Course.ejection 0
  | _, _ => c

/-- The course of a motion of each kind (R98), with the ejections that arise at its beginning (R99). `length` is the length
of the stock's form, `count` the count of a FEED. -/
def courseOf (t : Tractor) (x : Stock) (length : Nat) (kind : MotionKind) (count : Nat) : Course :=
  let asked : Course :=
    match kind with
    | .advance => { kind := .advance, direction := .forward, steps := t.distance }
    | .park =>
      match x.endRemaining with
      | some r => Course.ejection r
      | none =>
        { kind := .park
          direction := .reverse
          steps := (if x.state = .presented then Config.tearDistance else x.offset.getD 0) + t.distance }
    | .feed => { kind := .feed, direction := .forward, steps := count }
    | .feedToTop => { kind := .feedToTop, direction := .forward, steps := length - x.offset.getD 0 }
    | .present => { kind := .present, direction := .forward, steps := Config.tearDistance }
    | .retract =>
      match x.endRemaining with
      | some r =>
        if t.distance < r + Config.tearDistance then Course.ejection r
        else { kind := .retract, direction := .reverse, steps := Config.tearDistance }
      | none => { kind := .retract, direction := .reverse, steps := Config.tearDistance }
    | .eject => Course.ejection (x.endRemaining.getD 0)
  asked.converted x.endRemaining

/-- The motion of a stock begins: the stock is MOVING, its offset not valid, the feed motor held (R89, R97). -/
def Paper.begin (p : Paper) (t : Tractor) (c : Course) (q : Requester) (phase : Nat) : Paper :=
  let x := p.stock t
  { p.setStock t { x with state := .moving, offset := none } with
    motion :=
      some
        { tractor := t
          kind := c.kind
          direction := c.direction
          done := 0
          toGo := c.steps
          requester := q
          startOffset := x.offset
          phase := phase
          jamCount := 0 }
    feedMotor := .held }

/-- Length of the form a stock carries; 0 for a stock without a form. -/
def Blocks.stockLength (b : Blocks) (t : Tractor) : Nat :=
  match (b.paper.stock t).form with
  | some f => (b.form f).length
  | none => 0

/-- A motion of a kind begins for the stock of a tractor. -/
def Blocks.beginMotion (b : Blocks) (t : Tractor) (kind : MotionKind) (count : Nat) (q : Requester) (phase : Nat) : Blocks :=
  b.withPaper (b.paper.begin t (courseOf t (b.paper.stock t) (b.stockLength t) kind count) q phase)

/-- The state a kind needs of the stock when it is taken (R98). -/
def Paper.meetsNeed (p : Paper) (t : Tractor) (kind : MotionKind) : Bool :=
  let x := p.stock t
  match kind with
  | .advance => x.state == .parked && !(p.stock t.other).state.inPath
  | .park => x.state == .atPrint || x.state == .presented
  | .feed | .feedToTop => x.state == .atPrint
  | .present => x.state == .atPrint && x.offset == some 0
  | .retract => x.state == .presented
  | .eject => (x.state == .atPrint || x.state == .presented) && x.endRemaining.isSome

/-- A request of the Issue Controller: none where it is answered not possible (R98). -/
def Blocks.requestMotion (b : Blocks) (t : Tractor) (kind : MotionKind) (count : Nat) : Option Blocks :=
  if b.paper.meetsNeed t kind then some (b.beginMotion t kind count .issue 0) else none

/-! ## Steps (R92, R96, R99, R101) -/

/-- The motion, changed into an ejection with so many steps to go; what is done stays done (R99). -/
def Motion.eject (m : Motion) (toGo : Nat) : Motion := { m with kind := .eject, direction := .forward, toGo := toGo }

/-- End remaining after one step in a direction (R96). -/
def endAfterStep (d : FeedDirection) : Option Nat → Option Nat
  | some r =>
    match d with
    | .forward => some (r - 1)
    | .reverse => some (r + 1)
  | none => none

/-- One feed step where one is still to be made and no jam has come (R92): the counts move on, and a forward motion whose
end remaining reaches 0 with steps still to go becomes an ejection (R99). -/
def Paper.step (p : Paper) : Paper :=
  match p.motion with
  | none => p
  | some m =>
    if decide (0 < m.toGo) && decide (m.jamCount < Config.jamLimit) then
      let x := p.stock m.tractor
      let left := endAfterStep m.direction x.endRemaining
      let moved := { m with done := m.done + 1, toGo := m.toGo - 1, jamCount := m.jamCount + 1 }
      { p.setStock m.tractor { x with endRemaining := left } with
        motion :=
          some
            (if moved.direction = .forward ∧ ¬ moved.kind = .eject ∧ left = some 0 ∧ 0 < moved.toGo then
              moved.eject Config.clearing
            else moved) }
    else p

/-- Up to `n` feed steps. -/
def Paper.steps : Nat → Paper → Paper
  | 0, p => p
  | n + 1, p => Paper.steps n p.step

/-! ## Jams and stops (R101, R102) -/

/-- The motion in flight is cut short: its stock is LOST, keeping form and end remaining; a waiting request is answered
with it (R101, R102). -/
def Paper.lose (p : Paper) : Paper :=
  match p.motion with
  | none => { p with waiting := false }
  | some m =>
    { p.setStock m.tractor { p.stock m.tractor with state := .lost, offset := none } with
      motion := none
      waiting := false }

/-- The steps from here bring the jam count to 96 before a PMS pulse: the path as it stands then, if they do (R101). -/
def Paper.jamming (p : Paper) : Option Paper :=
  match p.motion with
  | none => none
  | some m =>
    let jammed := p.steps (Config.jamLimit - m.jamCount)
    match jammed.motion with
    | some n => if Config.jamLimit ≤ n.jamCount then some jammed else none
    | none => none

/-! ## The end of a motion (R98 to R100) -/

/-- The stock after an ejection, with its tractor's sensor as its guide (R99). -/
def Stock.ejected (sensor : Bool) : Stock where
  state := if sensor then .sensed else .absent
  form := none
  offset := none
  endRemaining := none

/-- The rest of a forward motion runs out of paper and becomes an ejection (R99). -/
def Motion.runsOut (m : Motion) (endRemaining : Option Nat) : Bool :=
  match m.direction, endRemaining with
  | .forward, some r => decide (r < m.toGo)
  | _, _ => false

/-- A motion, carried to its end, ends as an ejection (R99). -/
def Motion.endsEjected (m : Motion) (endRemaining : Option Nat) : Bool := m.kind == .eject || m.runsOut endRemaining

/-- End remaining once the steps to go are made (R96). -/
def Motion.endLeft (m : Motion) : Option Nat → Option Nat
  | some r =>
    match m.direction with
    | .forward => some (r - m.toGo)
    | .reverse => some (r + m.toGo)
  | none => none

/-- The end state and offset of a motion that does not end ejected (R98). -/
def Motion.endState (m : Motion) (length : Nat) : StockState × Option Nat :=
  match m.kind with
  | .advance | .feedToTop | .retract => (.atPrint, some 0)
  | .park => (.parked, none)
  | .feed => (.atPrint, some ((m.startOffset.getD 0 + m.done + m.toGo) % length))
  | .present => (.presented, some 0)
  | .eject => (.absent, none)

/-- The stock of a motion at its end. -/
def Motion.landed (m : Motion) (x : Stock) (length : Nat) (sensor : Bool) : Stock :=
  if m.endsEjected x.endRemaining then Stock.ejected sensor
  else
    { x with
      state := (m.endState length).1
      offset := (m.endState length).2
      endRemaining := m.endLeft x.endRemaining }

/-- Steps are still to be made without a jam: one step is the next one, and more steps have PMS pulses between them (R101,
assumption log 3). -/
def Motion.finishes (m : Motion) : Bool := decide (m.jamCount + min m.toGo 1 < Config.jamLimit)

/-- A motion ends: its stock takes the end state, an ejection latches its events, and the record is emptied (R99, R100).
What follows for the requester is not in it. -/
def Blocks.landMotion (b : Blocks) (m : Motion) : Blocks :=
  let p := b.paper
  let x := p.stock m.tractor
  let sensor := p.sensor m.tractor
  let landed := b.withPaper { p.setStock m.tractor (m.landed x (b.stockLength m.tractor) sensor) with motion := none }
  if m.endsEjected x.endRemaining then
    let removed := landed.latch m.tractor .removed
    if sensor then removed.latch m.tractor .sensed else removed
  else landed

/-- What follows a TERMINAL or TEAR motion: phase 2 of STOCK_SELECT begins where the named stock is PARKED; otherwise
MOTION_DONE is latched, for STOCK_SELECT on the tractor the command named (R100, R109). -/
def Blocks.afterHostMotion (b : Blocks) (m : Motion) : Blocks :=
  if m.phase = 1 then
    if (b.paper.stock m.tractor.other).state = .parked then b.beginMotion m.tractor.other .advance 0 m.requester 2
    else b.latch m.tractor.other .motionDone
  else b.latch m.tractor .motionDone

/-! ## Sensors (R95, R96) -/

/-- A reverse motion of this stock in flight becomes an ejection with `r` left (R99). -/
def Paper.turnedBack (p : Paper) (t : Tractor) (r : Nat) : Paper :=
  match p.motion with
  | some m =>
    if m.tractor = t ∧ m.direction = .reverse then { p with motion := some (m.eject (r + Config.clearing)) } else p
  | none => p

/-- Paper appears at a tractor's load mark (R95). -/
def Blocks.paperAppears (b : Blocks) (t : Tractor) : Blocks :=
  let x := b.paper.stock t
  match x.state with
  | .absent => (b.withPaper (b.paper.setStock t { x with state := .sensed })).latch t .sensed
  | .sensed | .parked | .moving | .atPrint | .presented | .lost => b

/-- Paper goes absent at a tractor's load mark (R95, R96). -/
def Blocks.paperGoes (b : Blocks) (t : Tractor) : Blocks :=
  let x := b.paper.stock t
  match x.state with
  | .sensed | .parked => (b.withPaper (b.paper.setStock t (Stock.ejected false))).latch t .removed
  | .moving | .atPrint | .presented =>
    match x.endRemaining with
    | some _ => b
    | none =>
      (b.withPaper ((b.paper.setStock t { x with endRemaining := some t.distance }).turnedBack t t.distance)).latch t
        .ended
  | .absent | .lost => b

/-- Paper going absent now sets the end remaining of the stock: the Issue Controller is told (R96). -/
def Paper.endComes (p : Paper) (t : Tractor) : Bool :=
  let x := p.stock t
  (x.state == .moving || x.state == .atPrint || x.state == .presented) && x.endRemaining.isNone

end Sys2Proof.Machine
end

