-- ==== Sys2Proof/Machine/Controller.lean ====
section
/-! DEFINITION. The Issue Controller (07): from the choice of an order to the end of the work on it, with the events that
reach it between decision points. Each operation acts on the records of all blocks, as the controller's requests do. -/

namespace Sys2Proof.Machine

/-! ## The controller's record and its current order -/

/-- Change the controller record. -/
def Blocks.control (b : Blocks) (g : Controller → Controller) : Blocks := b.withController (g b.controller)

/-- The cursor with phase NONE and no line; nothing waits for a homing (R133, R140). -/
def Controller.cursorCleared (c : Controller) : Controller :=
  { c with phase := .none, line := none, awaitsHoming := false }

/-- The tractor whose stock carries the form of the current order. -/
def Blocks.orderTractor (b : Blocks) : Option Tractor :=
  match b.currentOrder with
  | some o => b.paper.carrier o.form
  | none => none

/-- Enter PAUSED, remembering a state; the cover mark is cleared (R152). -/
def Blocks.enterPaused (b : Blocks) (remembered : ControllerState) : Blocks :=
  b.control fun c => { c with state := .paused, remembered := some remembered, coverMark := false }

/-- Before a request is sent: with the cover mark set the controller enters PAUSED instead (R134, R152). -/
def Blocks.unlessCover (b : Blocks) (remembered : ControllerState) (go : Blocks) : Blocks :=
  if b.controller.coverMark then b.enterPaused remembered else go

/-! ## Homing requests (R68) and the idle timer (R168) -/

/-- Send a home request to the Head Drive. A homing makes the idle condition stop holding, so the timer stops. -/
def Blocks.sendHome (b : Blocks) (q : HomeRequester) : Blocks :=
  (b.withHead (b.head.home b.homeSeen q)).stopIdle

/-! ## Ticket end and end of work (R143, R146) -/

/-- Advance the struck counters of a form, each once (R143 step 1). -/
def Blocks.advanceStruck (b : Blocks) (f : Nat) (struck : List Nat) : Blocks :=
  b.withPool (b.pool.map fun r => if r.form == f && struck.contains r.field then r.advance else r)

/-- The end of the ticket in flight of an order, carried out whole (R143). -/
def Blocks.endTicket (b : Blocks) (o : Order) (completed : Bool) : Blocks :=
  let advanced := b.advanceStruck o.form b.controller.struck
  let issued := if completed then advanced.raiseIssue o.form else advanced
  let counted := issued.withOrders (issued.orders.count o.tag completed)
  let cleared := (counted.applyStaged o.form).setInFlight o.form false
  (cleared.withComposer Composer.empty).control fun c =>
    { c.cursorCleared with struck := [], voidMotion := none }

/-- End the ticket in flight, if one is, voided (R155, R157). -/
def Blocks.voidTicket (b : Blocks) : Blocks :=
  match b.currentOrder with
  | some o => if b.ticketInFlight then b.endTicket o false else b
  | none => b

/-- The reason an end of work carries: the held halt reason if one is held (R146). -/
def Controller.reason (c : Controller) (r : HaltReason) : HaltReason := c.heldReason.getD r

/-- The end-of-work request, with the controller's record cleared into a state (R146). `halt` is the reason of the cause
that ended the work; none for finished and cancelled. -/
def Blocks.closeWork (b : Blocks) (halt : Option HaltReason) (state : ControllerState) : Blocks :=
  match b.controller.current with
  | some tag =>
    (b.withOrders (b.orders.endWork tag (halt.map b.controller.reason))).control fun _ =>
      { Controller.hardReset with state := state }
  | none => b.control fun _ => { Controller.hardReset with state := state }

/-- The end of the work at a decision point: IDLE; a cover that was opened and has closed again is taken as in IDLE
(R146, R152, R153). -/
def Blocks.endWork (b : Blocks) (halt : Option HaltReason) : Blocks :=
  let idle := b.closeWork halt .idle
  if b.controller.coverMark && !b.coverOpen then idle.sendHome .cover else idle

/-! ## Motion requests (R98, R134) -/

/-- Request a motion of a stock. A request whose need is not met is answered not possible and begins none. -/
def Blocks.askMotion (b : Blocks) (t : Tractor) (kind : MotionKind) (count : Nat) : Blocks :=
  (b.requestMotion t kind count).getD b

/-- Request a motion of the order's stock. -/
def Blocks.askOwn (b : Blocks) (kind : MotionKind) (count : Nat) : Blocks :=
  match b.orderTractor with
  | some t => b.askMotion t kind count
  | none => b

/-- Offset of the order's stock. -/
def Blocks.ownOffset (b : Blocks) : Nat :=
  match b.orderTractor with
  | some t => (b.paper.stock t).offset.getD 0
  | none => 0

/-! ## The ticket walk (R139, R140) -/

/-- The lines the walk visits: printable lines with a live field, ascending (R139). -/
def Blocks.visited (b : Blocks) (f : Nat) : List Nat :=
  (List.range (b.form f).lines).filter fun n => (b.form f).printable n && !(b.lineFields f n).isEmpty

/-- Send the pass request for the composed line, or wait for a homing in flight (R76, R140). The rules name no cursor phase
for the wait: the cursor keeps FEED until the request is sent (the model's choice, assumption log 35). -/
def Blocks.sendPass (b : Blocks) (f line : Nat) (span : Nat × Nat) : Blocks :=
  if b.head.carriage.activity = .homing then b.control fun c => { c with awaitsHoming := true }
  else
    let form := b.form f
    let pass : Pass :=
      { line := line, strike := strikeClass form.copies, unidirectional := form.direction == .unidirectional,
        direction := none, first := span.1, last := span.2 }
    (b.withHead (b.head.request b.homeSeen pass)).control fun c => { c with phase := .pass, awaitsHoming := false }

/-- Visit one line: feed to it if it still lies ahead; else compose it, and print it unless its image is empty, when the
walk goes on with the lines after it (R139). The cursor phase is FEED from the visit to the pass request, also where no feed
is requested and while a homing is waited for (the model's choice, assumption log 35). -/
def Blocks.visitLine (b : Blocks) (f n : Nat) (next : Blocks → Blocks) : Blocks :=
  let here := b.control fun c => { c with phase := .feed, line := some n }
  let offset := n * (b.form f).pitch
  if b.ownOffset < offset then here.askOwn .feed (offset - b.ownOffset)
  else
    let composed := here.compose f n
    match composed.composer.passSpan with
    | some span => composed.sendPass f n span
    | none => next composed

/-- Visit lines in ascending order; after the last, the closing feed (R139). -/
def Blocks.walkLines (f : Nat) : List Nat → Blocks → Blocks
  | [], b => (b.control fun c => { c with phase := .close, line := none }).askOwn .feedToTop 0
  | n :: rest, b => b.visitLine f n (Blocks.walkLines f rest)

/-- Walk on from the lines that satisfy a test. -/
def Blocks.walkFrom (b : Blocks) (o : Order) (keep : Nat → Bool) : Blocks :=
  Blocks.walkLines o.form ((b.visited o.form).filter keep) b

/-! ## Ticket start (R138) -/

/-- A COUNTER field with its exhausted mark set (R28). -/
def FieldBody.exhausted : FieldBody → Bool
  | .counter _ p _ => p.exhausted
  | .text .. | .rule _ | .link .. => false

/-- Some counter of the form is exhausted (R138 test 3). -/
def Blocks.counterLimit (b : Blocks) (f : Nat) : Bool := (b.fieldsOf f).any fun r => r.body.exhausted

/-- The order's stock has less paper left than a form length (R138 test 4). -/
def Blocks.paperShort (b : Blocks) (o : Order) : Bool :=
  match b.paper.carrier o.form with
  | some t =>
    match (b.paper.stock t).endRemaining with
    | some r => decide (r < (b.form o.form).length)
    | none => false
  | none => false

/-- The ticket is in flight, and its walk begins (R138, R139). -/
def Blocks.beginTicket (b : Blocks) (o : Order) : Blocks :=
  ((b.setInFlight o.form true).control fun c => { c with state := .printing, struck := [] }).walkFrom o fun _ => true

/-- Ticket start: cancel, done = requested and an exhausted counter end the work; then the cover; then short paper asks for
EJECT with PAPER_END held; else the ticket begins (R138). -/
def Blocks.ticketStart (b : Blocks) (o : Order) (remembered : ControllerState) : Blocks :=
  if o.cancelPending || o.done == o.requested then b.endWork none
  else if b.counterLimit o.form then b.endWork (some .counterLimit)
  else
    b.unlessCover remembered
      (let staging := b.control fun c => { c.cursorCleared with state := .staging }
       if b.paperShort o then
         (staging.control fun c => { c with heldReason := some .paperEnd }).askOwn .eject 0
       else staging.beginTicket o)

/-! ## Staging (R136, R137) -/

/-- What the staging checks end the work with: some none for cancelled and finished, some of a reason for a halt; none
where every check passes (R136). -/
def Blocks.stagingStop (b : Blocks) (o : Order) : Option (Option HaltReason) :=
  if o.cancelPending || o.done == o.requested then some none
  else
    match b.paper.carrier o.form with
    | none => some (some .noStock)
    | some t =>
      if (b.paper.stock t).state = .lost then some (some .stockLost)
      else if (b.paper.stock t.other).state = .lost then some (some .pathBlocked)
      else none

/-- The next staging motion for the order's stock on tractor `t`, if any applies (R137). -/
def Paper.stagingMotion (p : Paper) (t : Tractor) : Option (Tractor × MotionKind) :=
  let own := p.stock t
  let other := p.stock t.other
  if other.state = .atPrint ∨ other.state = .presented then some (t.other, .park)
  else if own.state = .presented then some (t, .retract)
  else if own.state = .parked then some (t, .advance)
  else if own.state = .atPrint ∧ ¬ own.offset = some 0 then some (t, .feedToTop)
  else none

/-- The next step of staging; after the last that applies, ticket start. A stock that has lost its form is found by the
checks (R137). -/
def Blocks.stagingNext (b : Blocks) (o : Order) : Blocks :=
  match b.paper.carrier o.form with
  | none =>
    b.unlessCover .staging
      (match b.stagingStop o with
       | some halt => b.endWork halt
       | none => b)
  | some t =>
    match b.paper.stagingMotion t with
    | some (u, kind) => b.unlessCover .staging (b.askMotion u kind 0)
    | none => b.ticketStart o .staging

/-- A terminal or TEAR motion is in flight (R98, R136). -/
def Paper.hostMotion (p : Paper) : Bool :=
  match p.motion with
  | some m => !(m.requester == .issue)
  | none => false

/-- The staging checks, after the wait for a terminal or TEAR motion (R136). -/
def Blocks.stagingChecks (b : Blocks) : Blocks :=
  match b.currentOrder with
  | none => b
  | some o =>
    if b.paper.hostMotion then b.withPaper { b.paper with waiting := true }
    else
      match b.stagingStop o with
      | some halt => b.endWork halt
      | none => b.stagingNext o

/-- Enter STAGING. -/
def Blocks.enterStaging (b : Blocks) : Blocks :=
  (b.control fun c => { c.cursorCleared with state := .staging }).stagingChecks

/-! ## Choosing an order (R135) -/

/-- The start condition of R135, but for a QUEUED record. -/
def Blocks.mayStart (b : Blocks) : Bool :=
  b.controller.state == .idle && !b.orders.anyHalted && !b.coverOpen

/-- Send start requests while the condition holds, at most `n` of them: an order that ends at its first checks lets the
next one start (R135, R146). -/
def Blocks.startOrders : Nat → Blocks → Blocks
  | 0, b => b
  | n + 1, b =>
    if b.mayStart then
      match b.orders.nextQueued with
      | none => b
      | some o =>
        let started := (b.withOrders (b.orders.start o.tag)).control fun c =>
          { c with state := .staging, current := some o.tag, struck := [], heldReason := none, voidMotion := none }
        Blocks.startOrders n started.stopIdle.stagingChecks
    else b

/-! ## After a completed ticket (R144, R145) -/

/-- Request PRESENT, marked final or not (R144). -/
def Blocks.present (b : Blocks) (final : Bool) : Blocks :=
  (b.control fun c => { c with phase := .present, awaitsHoming := false, presentFinal := final }).askOwn .present 0

/-- What follows a completed ticket (R144). -/
def Blocks.afterTicket (b : Blocks) : Blocks :=
  match b.currentOrder with
  | none => b
  | some o =>
    if o.done = o.requested then
      if o.policy = .none ∨ o.cancelPending then b.endWork none else b.unlessCover .printing (b.present true)
    else if o.cancelPending then b.endWork none
    else
      match o.policy with
      | .each => b.unlessCover .printing (b.present false)
      | .none | .last => b.ticketStart o .printing

/-- The answer of a completed PRESENT (R144). -/
def Blocks.presentDone (b : Blocks) : Blocks :=
  match b.currentOrder with
  | none => b
  | some o =>
    if b.controller.presentFinal then
      if o.done = o.requested ∨ o.cancelPending then b.endWork none else b.unlessCover .printing b.enterStaging
    else if o.cancelPending then b.endWork none
    else
      b.unlessCover .printing (b.control fun c => { c.cursorCleared with state := .awaitTear })

/-! ## Voiding (R147, R148, R150) -/

/-- Request the void motion (R148). -/
def Blocks.askVoid (b : Blocks) : Blocks :=
  match b.controller.voidMotion with
  | some .eject => b.askOwn .eject 0
  | some .feedToTop => b.askOwn .feedToTop 0
  | none => b

/-- Enter VOIDING at a decision point, then the cover, then the void motion (R148, R152). -/
def Blocks.enterVoiding (b : Blocks) : Blocks :=
  let voiding := b.control fun c => { c with state := .voiding }
  voiding.unlessCover .voiding voiding.askVoid

/-- The ticket ends voided and the work ends (R148). -/
def Blocks.endVoided (b : Blocks) : Blocks :=
  let ended := b.voidTicket
  ended.endWork ended.controller.heldReason

/-- A paper end that is short holds PAPER_END and the void motion EJECT (R147). -/
def Controller.shortPaper (c : Controller) : Controller :=
  { c with heldReason := some .paperEnd, voidMotion := some .eject }

/-! ## Answers of the Head Drive (R140, R141) -/

/-- A pass has completed or ended: a void held is entered; else the cover; else the next line (R139, R140). -/
def Blocks.passOver (b : Blocks) : Blocks :=
  if b.controller.voidMotion.isSome then b.enterVoiding
  else
    match b.currentOrder with
    | none => b
    | some o => b.unlessCover .printing (b.walkFrom o fun n => decide (b.controller.line.getD 0 < n))

/-- The outcome of a homing the controller waited for before a pass: a void held is entered; else the cover; else the pass
request (R140). -/
def Blocks.homingOver (b : Blocks) : Blocks :=
  let ready := b.control fun c => { c with awaitsHoming := false }
  if ready.controller.voidMotion.isSome then ready.enterVoiding
  else
    match ready.currentOrder with
    | none => ready
    | some o =>
      ready.unlessCover .printing
        (match ready.controller.line, ready.composer.passSpan with
         | some n, some span => ready.sendPass o.form n span
         | _, _ => ready)

/-- What the controller does with the head as it now stands: a pass over, a pass SUSPENDED, a homing over (R140, R152). -/
def Blocks.headAnswered (b : Blocks) : Blocks :=
  match b.controller.state with
  | .printing =>
    if b.controller.awaitsHoming then
      if b.head.carriage.activity = .homing then b else b.homingOver
    else if b.controller.phase = .pass then
      if b.head.pass.isNone then b.passOver
      else if b.head.carriage.activity = .suspended then b.enterPaused .printing
      else b
    else b
  | .idle | .staging | .voiding | .awaitTear | .paused | .faulted => b

/-- The counters of which a segment fired within a serving span (R141). -/
def Composer.strikes (c : Composer) (first last : Nat) : List Nat :=
  c.spans.filterMap fun s =>
    match s.counter with
    | some i =>
      if c.image.any fun d =>
          decide (first ≤ d.column) && decide (d.column ≤ last) && decide (s.first ≤ d.column) &&
            decide (d.column ≤ s.last) then some i
      else none
    | none => none

/-- Add ids to the struck set, each at most once (R141). -/
def struckWith (struck : List Nat) : List Nat → List Nat
  | [] => struck
  | i :: rest => struckWith (if struck.contains i then struck else struck ++ [i]) rest

/-- A completed segment is reported: the struck test (R141). -/
def Blocks.takeSegment (b : Blocks) (first last : Nat) : Blocks :=
  b.control fun c => { c with struck := struckWith c.struck (b.composer.strikes first last) }

/-! ## Answers of the Paper Path Controller (R137, R139, R142, R144, R148) -/

/-- An ISSUE motion of the order's stock is answered ejected outside VOIDING (R148). -/
def Blocks.ownEjected (b : Blocks) : Blocks :=
  match b.controller.state with
  | .staging => b.endWork (some .paperEnd)
  | .printing =>
    match b.controller.phase with
    | .feed | .close => (b.control fun c => { c with heldReason := some .paperEnd }).endVoided
    | .present => b.endWork (if b.controller.presentFinal then none else some .paperEnd)
    | .none | .pass => b
  | .voiding => b.endVoided
  | .idle | .awaitTear | .paused | .faulted => b

/-- An ISSUE motion is answered completed, or the other stock's park ejected (R137, R139, R142, R144, R148). -/
def Blocks.motionDone (b : Blocks) : Blocks :=
  match b.currentOrder with
  | none => b
  | some o =>
    match b.controller.state with
    | .staging => if o.cancelPending then b.endWork none else b.stagingNext o
    | .printing =>
      match b.controller.phase with
      | .feed =>
        if b.controller.voidMotion.isSome then b.enterVoiding
        else b.unlessCover .printing (b.walkFrom o fun n => decide (b.controller.line.getD 0 ≤ n))
      | .close => (b.endTicket o true).afterTicket
      | .present => b.presentDone
      | .none | .pass => b
    | .voiding => b.endVoided
    | .idle | .awaitTear | .paused | .faulted => b

/-- The wait for a terminal or TEAR motion is over (R98, R136). -/
def Blocks.hostMotionOver (b : Blocks) : Blocks :=
  if b.paper.waiting && b.paper.motion.isNone then
    (b.withPaper { b.paper with waiting := false }).stagingChecks
  else b

/-! ## Leaving PAUSED and the homing's success (R153, R164, R174) -/

/-- Go on with the remembered state (R153). -/
def Blocks.leavePaused (b : Blocks) : Blocks :=
  let back := b.control fun c => { c with state := c.remembered.getD .idle, remembered := none }
  match b.controller.remembered with
  | some .staging => back.stagingChecks
  | some .printing =>
    match back.currentOrder with
    | none => back
    | some o =>
      match back.controller.phase with
      | .pass =>
        if back.head.pass.isSome then back.withHead (back.head.resume back.homeSeen) else back.passOver
      | .feed =>
        (back.control fun c => { c with awaitsHoming := false }).walkFrom o
          fun n => decide (back.controller.line.getD 0 ≤ n)
      | .present => back.presentDone
      | .none => back.afterTicket
      | .close => back
  | some .voiding => back.askVoid
  | some .awaitTear | some .idle | some .paused | some .faulted | none => back

/-- Remove the fault record (R163). -/
def Blocks.clearRecord (b : Blocks) : Blocks := b.withAttention { b.attention with faultRecord := none }

/-- A homing has succeeded for its requesters: CLEAR_FAULT leaves FAULTED and removes the record (R164); SOFT_RESET's
removes it (R174); a cover close leaves PAUSED if the cover is still closed (R153). -/
def Blocks.homed (b : Blocks) (requesters : List HomeRequester) : Blocks :=
  let cleared :=
    if requesters.contains .clearFault && b.controller.state == .faulted then
      b.clearRecord.control fun c => { c with state := .idle }
    else b
  let renewed := if requesters.contains .softReset then cleared.clearRecord else cleared
  if requesters.contains .cover && renewed.controller.state == .paused && !renewed.coverOpen then renewed.leavePaused
  else renewed

/-- Send a home request; with HOME asserted its success comes at once (R68). -/
def Blocks.requestHome (b : Blocks) (q : HomeRequester) : Blocks :=
  let asked := b.sendHome q
  if asked.head.carriage.activity = .homing then asked else asked.homed [q]

/-! ## Settling (R135, R153, R168) -/

/-- A closed cover in PAUSED is taken: a home request, unless the one for it is in flight (R152, R153). -/
def Blocks.takeClosedCover (b : Blocks) : Blocks :=
  if b.controller.state == .paused && !b.coverOpen &&
      !(b.head.carriage.activity == .homing && b.head.homeFor.contains .cover) then
    b.requestHome .cover
  else b

/-- What the part does of itself once a command or an event has been taken: a closed cover in PAUSED, waiting orders, the
idle timer. -/
def Blocks.settle (b : Blocks) : Blocks :=
  let covered := b.takeClosedCover
  (Blocks.startOrders (covered.orders.records.length + 1) covered).settleIdle

/-! ## Notices (R147, R149 to R151) -/

/-- The stock's position: with a forward motion in flight, where it began plus the steps done (R147). -/
def Paper.position (p : Paper) (t : Tractor) : Nat :=
  match p.motion with
  | some m =>
    if m.tractor = t ∧ m.direction = .forward then m.startOffset.getD 0 + m.done else (p.stock t).offset.getD 0
  | none => (p.stock t).offset.getD 0

/-- The paper left does not cover what the ticket in flight still needs (R147). -/
def Blocks.endShort (b : Blocks) (t : Tractor) (f : Nat) : Bool :=
  decide ((b.paper.stock t).endRemaining.getD 0 < (b.form f).length - b.paper.position t)

/-- End the pass in flight (R86); the controller goes on where it has ended. -/
def Blocks.endPass (b : Blocks) : Blocks := (b.withHead b.head.endPass).headAnswered

/-- A paper-end notice for tractor `t` (R147, R154). -/
def Blocks.paperEndNotice (b : Blocks) (t : Tractor) : Blocks :=
  match b.currentOrder with
  | none => b
  | some o =>
    if b.paper.carrier o.form = some t then
      match b.controller.state with
      | .printing =>
        if b.ticketInFlight && b.endShort t o.form then
          let held := b.control Controller.shortPaper
          if b.controller.phase = .pass then held.endPass else held
        else b
      | .paused =>
        if b.ticketInFlight && b.endShort t o.form then
          (b.control fun c => { c.shortPaper with remembered := some .voiding }).withHead b.head.endPass
        else b
      | .voiding => b.control fun c => { c with heldReason := some (c.reason .paperEnd) }
      | .idle | .staging | .awaitTear | .faulted => b
    else b

/-- The void motion a cancel holds: FEED TO TOP unless EJECT is held (R150). -/
def Controller.cancelVoid (c : Controller) : Controller :=
  { c with voidMotion := match c.voidMotion with | some .eject => some .eject | _ => some .feedToTop }

/-- A cancel notice for the current order (R149 to R151). -/
def Blocks.cancelNotice (b : Blocks) : Blocks :=
  match b.controller.state with
  | .printing =>
    if b.ticketInFlight then
      let held := b.control Controller.cancelVoid
      if b.controller.phase = .pass then held.endPass else held
    else b
  | .awaitTear => b.endWork none
  | .paused =>
    match b.controller.remembered with
    | some .staging | some .awaitTear =>
      (b.closeWork none .paused).control fun c => { c with remembered := some .idle }
    | some .printing =>
      if b.ticketInFlight then
        (b.control fun c => { c.cancelVoid with remembered := some .voiding }).withHead b.head.endPass
      else b
    | some .idle | some .voiding | some .paused | some .faulted | none => b
  | .idle | .staging | .voiding | .faulted => b

/-! ## The cover and the TEAR key (R114, R145, R152, R153) -/

/-- Set the cover mark (R152). -/
def Blocks.markCover (b : Blocks) : Blocks := b.control fun c => { c with coverMark := true }

/-- The cover opens (R152). -/
def Blocks.coverOpens (b : Blocks) : Blocks :=
  match b.controller.state with
  | .staging | .voiding => b.markCover
  | .printing =>
    if b.controller.phase = .pass ∧ b.controller.voidMotion = none then b.markCover.withHead b.head.pause
    else b.markCover
  | .awaitTear => b.enterPaused .awaitTear
  | .idle | .paused | .faulted => b

/-- The cover closes: in IDLE a home request (R153). In PAUSED `settle` takes the closed cover. A QUEUED order is then taken
up behind the home request, while the homing is in flight (R135; the model's reading of R195, assumption log 36). -/
def Blocks.coverCloses (b : Blocks) : Blocks :=
  match b.controller.state with
  | .idle => b.requestHome .cover
  | .staging | .printing | .voiding | .awaitTear | .paused | .faulted => b

/-- TEAR is pressed: the retract of R145 in AWAIT_TEAR, the TEAR motion of R114 in IDLE when the part is ready. -/
def Blocks.tearPressed (b : Blocks) : Blocks :=
  match b.controller.state with
  | .awaitTear =>
    let staging := b.control fun c => { c.cursorCleared with state := .staging }
    match staging.orderTractor with
    | some t =>
      match staging.requestMotion t .retract 0 with
      | some moving => moving
      | none => staging.stagingChecks
    | none => staging.stagingChecks
  | .idle =>
    match b.paper.pathTractor with
    | some t =>
      if (b.paper.stock t).state = .presented ∧ b.paper.motion = none ∧ ¬ b.head.carriage.activity = .homing ∧
          b.coverOpen = false then b.beginMotion t .retract 0 .tear 0
      else b
    | none => b
  | .staging | .printing | .voiding | .paused | .faulted => b

/-! ## Faults and SOFT_RESET (R155, R157, R163, R173) -/

/-- A fault report: the fault record, and, outside FAULTED, both blocks stopped, the ticket voided, the work halted, and
the controller FAULTED (R155, R163). In IDLE too both stops are sent, so that a host motion or a homing in flight beside the
fault is cut short (the model's choice between two readings of R155, assumption log 34). -/
def Blocks.fault (b : Blocks) (kind : FaultKind) (t : Option Tractor) (act : FaultActivity) : Blocks :=
  let recorded := b.withAttention (b.attention.recordFault kind t act)
  if b.controller.state = .faulted then recorded
  else
    let stopped := (recorded.withHead b.head.stop).withPaper b.paper.lose
    stopped.voidTicket.closeWork (some .fault) .faulted

/-- What SOFT_RESET does after its reply (R157, R173). -/
def Blocks.softReset (b : Blocks) : Blocks :=
  let stopped := (b.withHead b.head.stop).withPaper b.paper.lose
  let voided := stopped.voidTicket
  let emptied := (voided.withOrders OrderTable.empty).withComposer Composer.empty
  let renewed := emptied.withController Controller.hardReset
  let cleared := renewed.withAttention { renewed.attention with paperA := 0, paperB := 0, linkTrouble := 0 }
  (cleared.requestHome .softReset).settle

end Sys2Proof.Machine
end

