-- ==== Sys2Proof/Machine/Stocks.lean ====
section
/-! DEFINITION. The stock commands (05, R104 to R113) and HEAD_QUERY (R88). -/

namespace Sys2Proof.Machine

/-- What an accepted command sets going beyond its own block; a refusal changes nothing (R104, R125). -/
def Answer.andThen (a : Answer) (g : Blocks → Blocks) : Answer :=
  if a.result.code.toNat < 0x10 then { a with blocks := g a.blocks } else a

/-- STOCK_ASSIGN (R106). -/
def Blocks.stockAssign (b : Blocks) (tractor form : Byte) : Answer :=
  match Tractor.ofByte tractor with
  | none => b.refuse .badValue
  | some t =>
    b.checked
      [(badForm form, .badValue), (!(b.form form.toNat).defined, .noForm),
       (!((b.paper.stock t).state == .sensed), .wrongState),
       ((b.paper.stock t.other).form == some form.toNat, .inUse)]
      ((b.withPaper
          (b.paper.setStock t
            { state := .parked, form := some form.toNat, offset := none, endRemaining := none })).answer .ok)

/-- The stock's form is named by the RUNNING order (R107). -/
def Blocks.runningNames (b : Blocks) (x : Stock) : Bool :=
  b.orders.records.any fun o => o.state == .running && x.form == some o.form

/-- STOCK_RELEASE (R107). -/
def Blocks.stockRelease (b : Blocks) (tractor : Byte) : Answer :=
  match Tractor.ofByte tractor with
  | none => b.refuse .badValue
  | some t =>
    let x := b.paper.stock t
    b.checked
      [(!(x.state == .parked || x.state == .lost), .wrongState), (b.runningNames x, .busy)]
      ((b.withPaper
          (b.paper.setStock t
            { state := if x.state = .parked ∨ b.paper.sensor t then .sensed else .absent
              form := none
              offset := none
              endRemaining := none })).answer .ok)

/-- BUSY and COVER_OPEN of the host motion commands (R105). -/
def Blocks.hostTests (b : Blocks) : List (Bool × Result) :=
  [(!(b.controller.state == .idle) || b.paper.motion.isSome || b.head.carriage.activity == .homing, .busy),
   (b.coverOpen, .coverOpen)]

/-- A host motion begins, and the idle condition stops holding (R104, R105). -/
def Blocks.startHost (b : Blocks) (t : Tractor) (kind : MotionKind) (count phase : Nat) : Answer :=
  ((b.beginMotion t kind count .terminal phase).stopIdle).answer .accepted

/-- STOCK_PARK (R108). -/
def Blocks.stockPark (b : Blocks) (tractor : Byte) : Answer :=
  match Tractor.ofByte tractor with
  | none => b.refuse .badValue
  | some t =>
    let x := b.paper.stock t
    b.checked
      (b.hostTests ++ [(!(x.state == .parked || x.state == .atPrint || x.state == .presented), .wrongState)])
      (if x.state = .parked then b.answer .ok else b.startHost t .park 0 0)

/-- STOCK_SELECT (R109). -/
def Blocks.stockSelect (b : Blocks) (tractor : Byte) : Answer :=
  match Tractor.ofByte tractor with
  | none => b.refuse .badValue
  | some t =>
    let x := b.paper.stock t
    let other := b.paper.stock t.other
    b.checked
      (b.hostTests ++ [(!(x.state == .parked || x.state == .atPrint) || other.state == .lost, .wrongState)])
      (if x.state = .atPrint then b.answer .ok
       else if other.state = .atPrint ∨ other.state = .presented then b.startHost t.other .park 0 1
       else b.startHost t .advance 0 2)

/-- STOCK_QUERY (R113). -/
def Blocks.stockQuery (b : Blocks) (tractor : Byte) : Answer :=
  match Tractor.ofByte tractor with
  | none => b.refuse .badValue
  | some t => b.report .ok (b.stockBytes t)

/-- A host motion of the stock in the path: NO_STOCK where none is, WRONG_STATE where it is not ready (R110 to R112). -/
def Blocks.pathMotion (b : Blocks) (kind : MotionKind) (count : Nat) : Answer :=
  b.checked b.hostTests
    (match b.paper.pathTractor with
     | none => b.refuse .noStock
     | some t =>
       b.checked [(!b.paper.meetsNeed t kind, .wrongState)] (b.startHost t kind count 0))

/-- FEED: a count of 1..3,168, or 0 for the next form top (R110). -/
def Blocks.feed (b : Blocks) (count : Half) : Answer :=
  b.checked [(decide (3168 < count.toNat), .badValue)]
    (if count = 0 then b.pathMotion .feedToTop 0 else b.pathMotion .feed count.toNat)

/-- PRESENT (R111). -/
def Blocks.presentCommand (b : Blocks) : Answer := b.pathMotion .present 0

/-- RETRACT (R112). -/
def Blocks.retract (b : Blocks) : Answer := b.pathMotion .retract 0

/-- HEAD_QUERY (R88). -/
def Blocks.headQuery (b : Blocks) : Answer := b.report .ok b.head.bytes

end Sys2Proof.Machine
end

