-- ==== Sys2Proof/Machine/Control.lean ====
section
/-! DEFINITION. The control commands (08, R161 to R173) and the order commands as the part takes them, with what they set
going in the Issue Controller (06, 07). -/

namespace Sys2Proof.Machine

/-! ## Attention (R161, R162) -/

/-- The cause reported is cleared: a reported mark set, a set emptied; FAULT clears nothing (R161). -/
def Blocks.clearCause (b : Blocks) (c : Cause) : Blocks :=
  match c with
  | .fault => b
  | .halt =>
    match b.orders.unreportedHalt with
    | some o => b.withOrders (b.orders.update o.tag fun x => { x with reported := true })
    | none => b
  | .paper =>
    b.withAttention (b.attention.setPaperSet (if b.attention.paperA = 0 then .b else .a) 0)
  | .done =>
    match b.orders.unreportedClosed with
    | some o => b.withOrders (b.orders.update o.tag fun x => { x with reported := true })
    | none => b
  | .link => b.withAttention { b.attention with linkTrouble := 0 }

/-- A set of four events as a byte (R190). -/
def setByte (x : BitVec 4) : Byte := x.zeroExtend 8

/-- The six detail bytes of a cause (10.6, R159). -/
def Blocks.causeDetail (b : Blocks) (c : Cause) : List Byte :=
  match c with
  | .fault =>
    match b.attention.faultRecord with
    | some r => [r.kind.byte, optionalByte (r.tractor.map Tractor.byte), r.activity.byte, byteOf r.count, 0, 0]
    | none => List.replicate 6 0
  | .halt =>
    match b.orders.unreportedHalt with
    | some o => [byteOf o.tag, optionalByte (o.halt.map HaltReason.byte), 0, 0, 0, 0]
    | none => List.replicate 6 0
  | .paper =>
    let t : Tractor := if b.attention.paperA = 0 then .b else .a
    [t.byte, setByte (b.attention.paperSet t), 0, 0, 0, 0]
  | .done =>
    match b.orders.unreportedClosed with
    | some o => [byteOf o.tag, o.state.byte, byteOf o.done, byteOf o.voided, 0, 0]
    | none => List.replicate 6 0
  | .link => [setByte b.attention.linkTrouble, 0, 0, 0, 0, 0]

/-- READ_ATTENTION (R161, R162). -/
def Blocks.readAttention (b : Blocks) : Answer :=
  match b.mostUrgent with
  | none => b.answer .none
  | some c =>
    let cleared := b.clearCause c
    cleared.report .ok
      ([c.byte, cleared.pendingSet.zeroExtend 8, b.controller.state.byte] ++ b.causeDetail c)

/-! ## Identity and NULL (R171, R172) -/

/-- READ_IDENTITY (R171). -/
def Blocks.readIdentity (b : Blocks) : Answer := b.report .ok b.attention.identityBytes

/-- NULL (R172). -/
def Blocks.nullProbe (b : Blocks) : Answer := b.answer .null

/-! ## CONFIGURE (R166, R167, R169) -/

/-- A debounce timer in flight, restarted with a new time (R93). -/
def LevelInput.restarted (x : LevelInput) (time : Nat) : LevelInput :=
  { x with timer := x.timer.map fun _ => time }

/-- Every debounce timer in flight, restarted with a new time (R93). -/
def Inputs.restarted (i : Inputs) (time : Nat) : Inputs where
  psa := i.psa.restarted time
  psb := i.psb.restarted time
  cover := i.cover.restarted time
  home := i.home.restarted time
  tear := i.tear.restarted time

/-- The idle timer after a change of the idle release time (R169). `atRest` is the idle condition without the time. -/
def IdleTimer.changed (t : IdleTimer) (old new : Nat) (atRest : Bool) : IdleTimer :=
  if old = new then t
  else
    match t with
    | .running _ => if new = 0 then .stopped else .running new
    | .stopped => if old = 0 ∧ atRest ∧ ¬ new = 0 then .running new else .stopped
    | .expired => .expired

/-- CONFIGURE (R166, R167). -/
def Blocks.configure (b : Blocks) (tick debounce idle station attention : Byte) : Answer :=
  b.checked
    [(!([1, 2, 4, 8] : List Nat).contains tick.toNat || !([2, 4, 8, 16] : List Nat).contains debounce.toNat,
      .badValue)]
    (let a := b.attention
     let head := if a.tickPeriod = tick.toNat then b.head else { b.head with refillTimer := tick.toNat }
     let inputs := if a.debounceTime = debounce.toNat then b.paper.inputs else b.paper.inputs.restarted debounce.toNat
     let written :=
       { a with
         tickPeriod := tick.toNat
         debounceTime := debounce.toNat
         idleTime := idle.toNat
         stationMask := station.truncate 5
         mask := attention.truncate 5
         idleTimer := a.idleTimer.changed a.idleTime idle.toNat b.atRest }
     (((b.withHead head).withPaper { b.paper with inputs := inputs }).withAttention written).answer .ok)

/-! ## CLEAR_FAULT and SOFT_RESET (R164, R173) -/

/-- CLEAR_FAULT (R164). -/
def Blocks.clearFault (b : Blocks) : Answer :=
  b.checked
    [(!(b.controller.state == .faulted), .wrongState), (b.head.carriage.activity == .homing, .busy),
     (b.coverOpen, .coverOpen)]
    (((b.requestHome .clearFault).settle).answer .accepted)

/-- SOFT_RESET: the reply, with no effect yet; its effects follow the reply (R173, R186). -/
def Blocks.softResetReply (b : Blocks) : Answer := b.answer .ok

/-! ## Order commands as the part takes them -/

/-- ORDER_ISSUE, with the start request that may follow at once (R126, R135). -/
def Blocks.takeOrderIssue (b : Blocks) (tag form requested policy : Byte) : Answer :=
  (b.orderIssue tag form requested policy).andThen Blocks.settle

/-- ORDER_AMEND; closing the last HALTED record lets the queue go on (R127, R135). -/
def Blocks.takeOrderAmend (b : Blocks) (tag requested : Byte) : Answer :=
  (b.orderAmend tag requested).andThen Blocks.settle

/-- ORDER_RESUME, with the start request that may follow (R129, R135). -/
def Blocks.takeOrderResume (b : Blocks) (tag : Byte) : Answer := (b.orderResume tag).andThen Blocks.settle

/-- The cancel newly marks the RUNNING record: the controller is given notice (R130, R149). -/
def Blocks.givesNotice (b : Blocks) (tag : Byte) : Bool :=
  match b.orders.find tag.toNat with
  | some o => o.state == .running && !o.cancelPending
  | none => false

/-- ORDER_CANCEL, with the notice to the controller (R130, R149 to R151). -/
def Blocks.takeOrderCancel (b : Blocks) (tag : Byte) : Answer :=
  (b.orderCancel tag).andThen fun c => (if b.givesNotice tag then c.cancelNotice else c).settle

end Sys2Proof.Machine
end

