-- ==== Sys2Proof/Machine/Events.lean ====
section
/-! DEFINITION. The events of the mechanism and the timers on the records of the blocks. An event whose occasion does not
stand leaves every record as it is (assumption log 2). -/

namespace Sys2Proof.Machine

/-! ## Level inputs (R93, R94) -/

/-- The level of an input changes: the debounce timer starts where the level now differs from the debounced state, and is
abandoned where it has returned (R93). -/
def LevelInput.change (x : LevelInput) (level : Bool) (time : Nat) : LevelInput :=
  if level = x.level then x
  else { x with level := level, timer := if level = x.debounced then none else some time }

/-- DEBOUNCE_START (R93). -/
def Blocks.debounceStart (b : Blocks) (k : Input) (level : Bool) : Blocks :=
  b.withPaper
    { b.paper with
      inputs := b.paper.inputs.put k ((b.paper.inputs.get k).change level b.attention.debounceTime) }

/-- A paper sensor change, with the notice of a paper end (R95, R96, R147). -/
def Blocks.paperChange (b : Blocks) (t : Tractor) (present : Bool) : Blocks :=
  if present then b.paperAppears t
  else if b.paper.endComes t then (b.paperGoes t).paperEndNotice t
  else b.paperGoes t

/-- A debounced change is delivered to its receiver (R94). -/
def Blocks.deliverChange (b : Blocks) (k : Input) (level : Bool) : Blocks :=
  match k with
  | .psa => b.paperChange .a level
  | .psb => b.paperChange .b level
  | .cover => if level then b.coverOpens else b.coverCloses
  | .home => b
  | .tear => if level then b.tearPressed else b

/-- DEBOUNCE_EXPIRY: the debounced state takes the level, and the change is delivered (R93, R94). Where a closed cover lets an
order start, its start request follows the home request in the same step (assumption log 36). -/
def Blocks.debounceExpiry (b : Blocks) (k : Input) : Blocks :=
  let x := b.paper.inputs.get k
  match x.timer with
  | none => b
  | some _ =>
    let taken :=
      b.withPaper
        { b.paper with inputs := b.paper.inputs.put k { x with debounced := x.level, timer := none } }
    (taken.deliverChange k x.level).settle

/-! ## Pulses and timers (R70, R74, R101, R170) -/

/-- CFB_PULSE: the stall count of the move in flight becomes 0 (R70). -/
def Head.pulse (h : Head) : Head :=
  if h.carriage.activity.moves && decide (h.stallCount < Config.stallLimit) then { h with stallCount := 0 } else h

/-- PMS_PULSE: the jam count of the motion in flight becomes 0 (R101). -/
def Paper.pulse (p : Paper) : Paper :=
  match p.motion with
  | some m => if m.jamCount < Config.jamLimit then { p with motion := some { m with jamCount := 0 } } else p
  | none => p

/-- REFILL_TICK: the credit, the end of a dwell, and the timer started again (R74, R81). -/
def Blocks.refillTick (b : Blocks) : Blocks :=
  ((b.withHead
      { b.head.tick b.composer.image with refillTimer := b.attention.tickPeriod }).headAnswered).settle

/-- IDLE_TIMER_EXPIRY: both motors are released and the carriage is unhomed (R72, R97, R170). -/
def Blocks.idleExpiry (b : Blocks) : Blocks :=
  match b.attention.idleTimer with
  | .running _ =>
    ((b.withHead b.head.release).withPaper { b.paper with feedMotor := .released }).withAttention
      { b.attention with idleTimer := .expired }
  | .stopped | .expired => b

/-! ## The carriage (R67 to R70, R76, R83) -/

/-- CARRIAGE_STEP (R67). -/
def Blocks.carriageStep (b : Blocks) : Blocks := b.withHead (b.head.step b.composer.image b.homeSeen)

/-- What a fault of the head was in flight with: HOMING, or PASS for an approach or a segment (R163). -/
def Activity.faultActivity : Activity → FaultActivity
  | .homing => .homing
  | .approach | .segment | .idle | .dwell | .suspended => .pass

/-- STALL (R70, R155, R163). -/
def Blocks.stall (b : Blocks) : Blocks :=
  match b.head.stalling b.composer.image b.homeSeen with
  | some h => ((b.withHead h.lose).fault .stall none b.head.carriage.activity.faultActivity).settle
  | none => b

/-- HOME_LOST (R69, R155, R163). -/
def Blocks.homeLost (b : Blocks) : Blocks :=
  match b.head.homingLost b.homeSeen with
  | some h => ((b.withHead h).fault .homeLost none .homing).settle
  | none => b

/-- HOMING_COMPLETE (R68): the head goes on, and the requesters take the success. -/
def Blocks.homingComplete (b : Blocks) : Blocks :=
  match b.head.homingDone b.homeSeen with
  | some h => (((b.withHead h).homed b.head.homeFor).headAnswered).settle
  | none => b

/-- APPROACH_COMPLETE (R76). -/
def Blocks.approachComplete (b : Blocks) : Blocks :=
  match b.head.approachDone b.composer.image with
  | some h => ((b.withHead h).headAnswered).settle
  | none => b

/-- SEGMENT_COMPLETE (R83, R141). -/
def Blocks.segmentComplete (b : Blocks) : Blocks :=
  match b.head.segmentDone b.composer.image with
  | some (h, first, last) => (((b.withHead h).takeSegment first last).headAnswered).settle
  | none => b

/-! ## The paper (R92, R100, R101) -/

/-- FEED_STEP (R92). -/
def Blocks.feedStep (b : Blocks) : Blocks := b.withPaper b.paper.step

/-- JAM (R101, R155, R163). -/
def Blocks.jam (b : Blocks) : Blocks :=
  match b.paper.motion, b.paper.jamming with
  | some m, some p => ((b.withPaper p.lose).fault .jam (some m.tractor) .feed).settle
  | _, _ => b

/-- The requester of a motion takes its end (R100, R137, R148). -/
def Blocks.answerMotion (b : Blocks) (m : Motion) (own ejected : Bool) : Blocks :=
  match m.requester with
  | .issue => if own && ejected then b.ownEjected else b.motionDone
  | .terminal | .tear => (b.afterHostMotion m).hostMotionOver

/-- MOTION_COMPLETE (R100). -/
def Blocks.motionComplete (b : Blocks) : Blocks :=
  match b.paper.motion with
  | none => b
  | some m =>
    if m.finishes then
      ((b.landMotion m).answerMotion m (b.orderTractor == some m.tractor)
        (m.endsEjected (b.paper.stock m.tractor).endRemaining)).settle
    else b

end Sys2Proof.Machine
end

