-- ==== Sys2Proof/Machine/Glyphs.lean ====
section
/-! DEFINITION. The glyph commands (03, R50 to R53). -/

namespace Sys2Proof.Machine

/-- GLYPH_LOAD: BAD_VALUE outside 0x21..0x5F, BUSY while any form's in-flight mark is set, else the ten patterns replace
the glyph's and its loaded mark is set (R51, R52). -/
def Blocks.glyphLoad (b : Blocks) (code : Byte) (columns : List Column) : Answer :=
  b.checked
    [(decide (code.toNat < 0x21) || decide (0x5F < code.toNat), .badValue), (b.anyInFlight, .busy)]
    ((b.withGlyphs (b.glyphs.set (code.toNat - 0x20) { columns := columns, loaded := true })).answer .ok)

/-- The loaded mark GLYPH_QUERY reports: always set for the resident sets (R53). -/
def Blocks.glyphLoaded (b : Blocks) (set : Nat) (code : Byte) : Bool :=
  if set = 2 then (b.glyphs.getD (code.toNat - 0x20) Glyph.blank).loaded else true

/-- GLYPH_QUERY (R53). -/
def Blocks.glyphQuery (b : Blocks) (set code : Byte) : Answer :=
  b.checked [(decide (2 < set.toNat) || !inSet set.toNat code, .badValue)]
    (b.report .ok
      ([set, code, Bool.byte (b.glyphLoaded set.toNat code)] ++
        (b.glyphColumns set.toNat code).flatMap columnBytes))

end Sys2Proof.Machine
end

