-- ==== Sys2Proof/Machine/Link.lean ====
section
/-! DEFINITION. The Station Link Unit and the Command Dispatcher (09, 10): the receiver, the frame parser, the route of a
command to its owning block, and replies. -/

namespace Sys2Proof.Machine

/-! ## Replies (R187, R189) -/

/-- The check of a frame: the sum of its bytes modulo 65,536 (R189). -/
def checkSum (bytes : List Byte) : Nat := (bytes.map BitVec.toNat).sum % 65536

/-- A reply frame, built whole (R187, R189). -/
def replyFrame (address : Nat) (code : Byte) (r : Result) (payload : List Byte) : List Byte :=
  let body := [byteOf address, code + 0x80, r.code, byteOf payload.length] ++ payload
  0x5A :: body ++ halfBytes (checkSum body)

/-- The parser while it is paused: HUNT, or DISCARD after an overrun (R179). -/
def Parser.waiting (p : Parser) : Parser := if p.state = .discard then p else Parser.hunting

/-- The reply to a frame begins, and the parser is paused until it has been sent (R185 to R187). `reset` says that the
effects of a SOFT_RESET follow it. -/
def State.reply (s : State) (code : Byte) (a : Answer) (reset : Bool) : State :=
  { s with
    blocks := a.blocks
    link :=
      { s.link with
        parser := s.link.parser.waiting
        paused := true
        reply := some (replyFrame s.blocks.attention.address code a.result a.payload)
        resetDue := reset } }

/-- The last character of the reply has been sent: TXD is released, the effects of a SOFT_RESET are made, and the pause
mark is cleared (R173, R186, R187). -/
def State.finishReply (s : State) : State :=
  match s.link.reply with
  | none => s
  | some _ =>
    { s with
      blocks := if s.link.resetDue then s.blocks.softReset else s.blocks
      link := { s.link with paused := false, reply := none, resetDue := false } }

/-! ## Carrying a command out (R184 to R186) -/

/-- The owning block has answered a command: an addressed frame gets its reply, a broadcast one none; a broadcast reading
command is discarded; the effects of a broadcast SOFT_RESET come at once (R173, R184). -/
def State.carry (s : State) (r : Route) (c : Command) (a : Answer) : State :=
  match r with
  | .addressed => s.reply c.code a (c == .softReset)
  | .broadcast =>
    if c.reading then s
    else s.withBlocks (if c = .softReset then a.blocks.softReset else a.blocks)

/-- A whole command is taken. A reply still being sent is finished first (assumption log 4). While RESET is held nothing is
taken (R194). -/
def State.deliver (s : State) (r : Route) (c : Command) (act : Blocks → Answer) : State :=
  if s.held then s else s.finishReply.carry r c (act s.finishReply.blocks)

/-- The owning block of each command and the values it reads from the payload (R185, 10.5). -/
def Blocks.take (b : Blocks) (c : Command) (p : List Byte) : Answer :=
  match c with
  | .null => b.nullProbe
  | .readIdentity => b.readIdentity
  | .readAttention => b.readAttention
  | .configure => b.configure (payloadByte p 0) (payloadByte p 1) (payloadByte p 2) (payloadByte p 3) (payloadByte p 4)
  | .softReset => b.softResetReply
  | .clearFault => b.clearFault
  | .formDefine => b.formDefine (formBytesOf p)
  | .formAmend => b.formAmend (formBytesOf p)
  | .formQuery => b.formQuery (payloadByte p 0)
  | .formLock => b.formLock (payloadByte p 0) (payloadByte p 1)
  | .formRetire => b.formRetire (payloadByte p 0)
  | .fieldDefine => b.fieldDefine (fieldBytesOf p)
  | .fieldSet => b.fieldSet (payloadByte p 0) (payloadByte p 1) (payloadByte p 2) (payloadHalf p 3) (p.drop 5)
  | .counterSet => b.counterSet (payloadByte p 0) (payloadByte p 1) (payloadByte p 2) (payloadHalf p 3) (payloadBcd p 5)
  | .fieldQuery => b.fieldQuery (payloadByte p 0) (payloadByte p 1)
  | .fieldList => b.fieldList (payloadByte p 0) (payloadByte p 1)
  | .fieldRetire => b.fieldRetire (payloadByte p 0) (payloadByte p 1)
  | .glyphLoad => b.glyphLoad (payloadByte p 0) (columnsOf p)
  | .glyphQuery => b.glyphQuery (payloadByte p 0) (payloadByte p 1)
  | .stockAssign => b.stockAssign (payloadByte p 0) (payloadByte p 1)
  | .stockRelease => b.stockRelease (payloadByte p 0)
  | .stockPark => b.stockPark (payloadByte p 0)
  | .stockSelect => b.stockSelect (payloadByte p 0)
  | .stockQuery => b.stockQuery (payloadByte p 0)
  | .feed => b.feed (payloadHalf p 0)
  | .present => b.presentCommand
  | .retract => b.retract
  | .headQuery => b.headQuery
  | .orderIssue => b.takeOrderIssue (payloadByte p 0) (payloadByte p 1) (payloadByte p 2) (payloadByte p 3)
  | .orderAmend => b.takeOrderAmend (payloadByte p 0) (payloadByte p 1)
  | .orderHold => b.orderHold (payloadByte p 0)
  | .orderResume => b.takeOrderResume (payloadByte p 0)
  | .orderCancel => b.takeOrderCancel (payloadByte p 0)
  | .orderQuery => b.orderQuery (payloadByte p 0)
  | .orderRelease => b.orderRelease (payloadByte p 0)

/-- The dispatcher's own refusal answers an addressed frame; a broadcast one is discarded (R184, R185). -/
def State.turnAway (s : State) (r : Route) (code : Byte) (why : Result) : State :=
  match r with
  | .addressed => s.reply code (s.blocks.refuse why) false
  | .broadcast => s

/-- The Command Dispatcher takes a frame: BAD_COMMAND, BAD_LENGTH, else the owning block (R184, R185). -/
def State.dispatch (s : State) (r : Route) (code : Byte) (payload : List Byte) : State :=
  match Command.ofCode code with
  | none => s.turnAway r code .badCommand
  | some c =>
    if c.accepts payload.length then s.carry r c (s.blocks.take c payload) else s.turnAway r code .badLength

/-- How the STATION byte of a good frame matches the station address and mask (R183); none: dropped. -/
def Attention.route (a : Attention) (station : Byte) : Option Route :=
  if station = 31 then some .broadcast
  else if station.toNat < 31 ∧ (station.truncate 5 ^^^ BitVec.ofNat 5 a.address) &&& ~~~a.stationMask = 0 then
    some .addressed
  else none

/-! ## The frame parser (R179 to R183) -/

/-- A frame state (R179). -/
def ParserState.inFrame : ParserState → Bool
  | .header | .payload | .check => true
  | .hunt | .discard => false

/-- Write the parser. -/
def State.withParser (s : State) (p : Parser) : State := s.withLink { s.link with parser := p }

/-- Latch a link-trouble event (R188). -/
def State.latchLink (s : State) (e : LinkTrouble) : State :=
  s.withBlocks (s.blocks.withAttention (s.blocks.attention.latchLink e))

/-- Add a byte to the running sum (R179). -/
def Parser.summed (p : Parser) (x : Byte) : Parser := { p with sum := p.sum + x.zeroExtend 16 }

/-- A complete frame: CHECK, or the match of its address (R182, R183). -/
def State.frameDone (s : State) (p : Parser) (high low : Byte) : State :=
  let hunting := s.withParser Parser.hunting
  if high ++ low = p.sum then
    match s.blocks.attention.route p.station with
    | some r => hunting.dispatch r p.command p.payload
    | none => hunting
  else hunting.latchLink .check

/-- The parser acts on one byte by its state (R179, R180, R182). -/
def State.takeByte (s : State) (x : Byte) : State :=
  let p := s.link.parser
  match p.state with
  | .hunt => if x = 0x5A then s.withParser { Parser.hunting with state := .header } else s
  | .header =>
    match p.headerTaken with
    | 0 => s.withParser { p.summed x with headerTaken := 1, station := x }
    | 1 => s.withParser { p.summed x with headerTaken := 2, command := x }
    | _ =>
      if 200 < x.toNat then (s.withParser Parser.hunting).latchLink .format
      else
        s.withParser
          { p.summed x with headerTaken := 3, length := x, state := if x = 0 then .check else .payload }
  | .payload =>
    let taken := p.payload ++ [x]
    s.withParser
      { p.summed x with payload := taken, state := if taken.length = p.length.toNat then .check else .payload }
  | .check =>
    match p.checkHigh with
    | none => s.withParser { p with checkHigh := some x }
    | some high => s.frameDone p high x
  | .discard => s

/-- A frame in assembly is abandoned for a gap (R181). -/
def State.truncateFrame (s : State) : State := (s.withParser Parser.hunting).latchLink .truncated

/-- An entry drawn from the front of the FIFO; HOLD is released at a count of 16 or less (R177). -/
def Link.drawn (l : Link) (rest : List FifoEntry) : Link :=
  { l with fifo := rest, hold := if rest.length ≤ Config.holdOff then false else l.hold }

/-- PARSER_DRAW (R179, R181). -/
def State.parserDraw (s : State) : State :=
  match s.link.fifo with
  | [] => s
  | e :: rest =>
    if s.link.paused ∨ s.link.parser.state = .discard then s
    else
      let drawn := s.withLink (s.link.drawn rest)
      if e.longGap ∧ s.link.parser.state.inFrame then drawn.truncateFrame.takeByte e.byte
      else drawn.takeByte e.byte

/-! ## The receiver (R176 to R178) -/

/-- A character is stored with its long-gap mark; HOLD is asserted at 48 entries (R176, R177). -/
def Link.stored (l : Link) (x : Byte) (gap : Bool) : Link :=
  { l with
    fifo := l.fifo ++ [{ byte := x, longGap := gap }]
    hold := if Config.holdOn ≤ l.fifo.length + 1 then true else l.hold }

/-- An overrun: the FIFO is emptied, HOLD released, the parser in DISCARD (R178). -/
def Link.overrun (l : Link) : Link :=
  { l with fifo := [], hold := false, parser := { Parser.hunting with state := .discard } }

/-- RECEIVE_CHARACTER (R176, R178). Both idle indications end; the long-gap mark is the long idle indication as it stood
(assumption log 10). -/
def State.receive (s : State) (x : Byte) : State :=
  let busy := { s.link with shortIdle := false, longIdle := false }
  if s.link.parser.state = .discard then s.withLink busy
  else if Config.fifoSize ≤ s.link.fifo.length then (s.withLink busy.overrun).latchLink .overrun
  else s.withLink (busy.stored x s.link.longIdle)

/-- The short idle indication holds; DISCARD ends (R176, R179). -/
def Link.shortIdleHolds (l : Link) : Link :=
  { l with
    shortIdle := true
    parser := if l.parser.state = .discard ∧ l.shortIdle = false then Parser.hunting else l.parser }

/-- LONG_IDLE: the indications hold; a frame in assembly with the FIFO empty is truncated (R176, R181). -/
def State.takeLongIdle (s : State) : State :=
  if s.link.longIdle then s
  else
    let idle := s.withLink { s.link.shortIdleHolds with longIdle := true }
    if s.link.parser.state.inFrame ∧ s.link.fifo = [] then idle.truncateFrame else idle

/-! ## RESET (R194, R196) -/

/-- RESET is held low: work is abandoned at once, the motors are released, a reply is cut short, the FIFO is lost. No
ticket end is made (R194, R196). -/
def State.holdReset (s : State) : State :=
  { s with
    blocks :=
      (s.blocks.withHead s.blocks.head.stop.release).withPaper { s.blocks.paper.lose with feedMotor := .released }
    link := { s.link with fifo := [], hold := false, reply := none, paused := false, resetDue := false }
    held := true }

/-- RESET returns high: every record at its hard-reset value with the straps read and the inputs sampled, then the start-up
homing (R194). The model's queue is kept. -/
def State.startUp (s : State) (straps : Straps) (levels : Levels) : State :=
  { s with
    blocks := ((Blocks.hardReset straps levels).requestHome .startUp).settle
    link := Link.hardReset
    held := false }

/-- What a row does while RESET is not held; while it is, nothing (R194, assumption log 12). -/
def State.unlessHeld (s : State) (f : State → State) : State := if s.held then s else f s

/-- An event of the mechanism or a timer acts on the blocks alone. -/
def State.onBlocks (s : State) (f : Blocks → Blocks) : State := s.unlessHeld fun s => s.withBlocks (f s.blocks)

end Sys2Proof.Machine
end

