-- ==== Sys2Proof/Machine/ControlCommands.lean ====
section
/-! DEFINITION. The control commands as rows of the table (08, R161 to R173). -/

namespace Sys2Proof.Machine

/-- NULL (R172). A frame carries at most 200 payload bytes (R191). -/
def execNull (r : Route) (payload : List Byte) (s : State) : Host.Outcome State Fault Refusal :=
  .next (s.deliver r .null fun b => if payload.length ≤ 200 then b.nullProbe else b.refuse .badLength)

/-- READ_IDENTITY (R171). -/
def execReadIdentity (r : Route) (s : State) : Host.Outcome State Fault Refusal :=
  .next (s.deliver r .readIdentity fun b => b.readIdentity)

/-- READ_ATTENTION (R161). -/
def execReadAttention (r : Route) (s : State) : Host.Outcome State Fault Refusal :=
  .next (s.deliver r .readAttention fun b => b.readAttention)

/-- CONFIGURE (R166). -/
def execConfigure (r : Route) (tick : Byte) (debounce : Byte) (idle : Byte) (station : Byte) (attention : Byte)
    (s : State) : Host.Outcome State Fault Refusal :=
  .next (s.deliver r .configure fun b => b.configure tick debounce idle station attention)

/-- SOFT_RESET (R173). -/
def execSoftReset (r : Route) (s : State) : Host.Outcome State Fault Refusal :=
  .next (s.deliver r .softReset fun b => b.softResetReply)

/-- CLEAR_FAULT (R164). -/
def execClearFault (r : Route) (s : State) : Host.Outcome State Fault Refusal :=
  .next (s.deliver r .clearFault fun b => b.clearFault)

end Sys2Proof.Machine
end

