-- ==== Sys2Proof/Machine/FieldCommands.lean ====
section
/-! DEFINITION. The field and glyph commands as rows of the table (02, R39 to R46; 03, R50 to R53). A payload that no frame can carry is refused
BAD_LENGTH, as the dispatcher refuses it (R185). -/

namespace Sys2Proof.Machine

/-- FIELD_DEFINE (R40, R41). -/
def execFieldDefine (r : Route) (a : FieldBytes) (s : State) : Host.Outcome State Fault Refusal :=
  .next (s.deliver r .fieldDefine fun b => b.fieldDefine a)

/-- FIELD_SET (R42). A frame carries at most 195 characters of text (R193). -/
def execFieldSet (r : Route) (form field mark : Byte) (expected : Half) (text : List Byte)
    (s : State) : Host.Outcome State Fault Refusal :=
  .next
    (s.deliver r .fieldSet fun b =>
      if text.length ≤ 195 then b.fieldSet form field mark expected text else b.refuse .badLength)

/-- COUNTER_SET (R43). -/
def execCounterSet (r : Route) (form : Byte) (field : Byte) (mark : Byte) (expected : Half) (value : Bcd)
    (s : State) : Host.Outcome State Fault Refusal :=
  .next (s.deliver r .counterSet fun b => b.counterSet form field mark expected value)

/-- FIELD_QUERY (R44). -/
def execFieldQuery (r : Route) (form : Byte) (field : Byte) (s : State) : Host.Outcome State Fault Refusal :=
  .next (s.deliver r .fieldQuery fun b => b.fieldQuery form field)

/-- FIELD_LIST (R45). -/
def execFieldList (r : Route) (form : Byte) (start : Byte) (s : State) : Host.Outcome State Fault Refusal :=
  .next (s.deliver r .fieldList fun b => b.fieldList form start)

/-- FIELD_RETIRE (R46). -/
def execFieldRetire (r : Route) (form : Byte) (field : Byte) (s : State) : Host.Outcome State Fault Refusal :=
  .next (s.deliver r .fieldRetire fun b => b.fieldRetire form field)

/-- GLYPH_LOAD (R51, R52). It carries ten column patterns (10.5). -/
def execGlyphLoad (r : Route) (code : Byte) (columns : List Column) (s : State) : Host.Outcome State Fault Refusal :=
  .next
    (s.deliver r .glyphLoad fun b =>
      if columns.length = 10 then b.glyphLoad code columns else b.refuse .badLength)

/-- GLYPH_QUERY (R53). -/
def execGlyphQuery (r : Route) (set : Byte) (code : Byte) (s : State) : Host.Outcome State Fault Refusal :=
  .next (s.deliver r .glyphQuery fun b => b.glyphQuery set code)

end Sys2Proof.Machine
end

