-- ==== Sys2Proof/Machine/FormCommands.lean ====
section
/-! DEFINITION. The form commands as rows of the table (01, R13 to R18). -/

namespace Sys2Proof.Machine

/-- FORM_DEFINE (R14). -/
def execFormDefine (r : Route) (a : FormBytes) (s : State) : Host.Outcome State Fault Refusal :=
  .next (s.deliver r .formDefine fun b => b.formDefine a)

/-- FORM_AMEND (R15). -/
def execFormAmend (r : Route) (a : FormBytes) (s : State) : Host.Outcome State Fault Refusal :=
  .next (s.deliver r .formAmend fun b => b.formAmend a)

/-- FORM_QUERY (R16). -/
def execFormQuery (r : Route) (form : Byte) (s : State) : Host.Outcome State Fault Refusal :=
  .next (s.deliver r .formQuery fun b => b.formQuery form)

/-- FORM_LOCK (R17). -/
def execFormLock (r : Route) (form : Byte) (target : Byte) (s : State) : Host.Outcome State Fault Refusal :=
  .next (s.deliver r .formLock fun b => b.formLock form target)

/-- FORM_RETIRE (R18). -/
def execFormRetire (r : Route) (form : Byte) (s : State) : Host.Outcome State Fault Refusal :=
  .next (s.deliver r .formRetire fun b => b.formRetire form)

end Sys2Proof.Machine
end

