-- ==== Sys2Proof/Machine/LinkEvents.lean ====
section
/-! DEFINITION. The events of the station link and of RESET as rows of the table (09, 11). -/

namespace Sys2Proof.Machine

/-- HARD_RESET (R194, R196). -/
def execHardReset (s : State) : Host.Outcome State Fault Refusal :=
  .next (s.holdReset)

/-- START_UP (R194). -/
def execStartUp (straps : Straps) (levels : Levels) (s : State) : Host.Outcome State Fault Refusal :=
  .next (s.startUp straps levels)

/-- RECEIVE_CHARACTER (R176). -/
def execReceiveCharacter (byte : Byte) (s : State) : Host.Outcome State Fault Refusal :=
  .next (s.unlessHeld fun s => s.receive byte)

/-- PARSER_DRAW (R179). -/
def execParserDraw (s : State) : Host.Outcome State Fault Refusal :=
  .next (s.unlessHeld State.parserDraw)

/-- SHORT_IDLE (R176, R179). -/
def execShortIdle (s : State) : Host.Outcome State Fault Refusal :=
  .next (s.unlessHeld fun s => s.withLink s.link.shortIdleHolds)

/-- LONG_IDLE (R176, R181). -/
def execLongIdle (s : State) : Host.Outcome State Fault Refusal :=
  .next (s.unlessHeld State.takeLongIdle)

/-- REPLY_COMPLETE (R187). -/
def execReplyComplete (s : State) : Host.Outcome State Fault Refusal :=
  .next (s.unlessHeld State.finishReply)

end Sys2Proof.Machine
end

