-- ==== Sys2Proof/Machine/MechanismEvents.lean ====
section
/-! DEFINITION. The events of the level inputs, the pulses, the timers, the carriage and the paper as rows of the table. -/

namespace Sys2Proof.Machine

/-- DEBOUNCE_START (R93). -/
def execDebounceStart (input : Input) (level : Bool) (s : State) : Host.Outcome State Fault Refusal :=
  .next (s.onBlocks fun b => b.debounceStart input level)

/-- DEBOUNCE_EXPIRY (R93, R94). -/
def execDebounceExpiry (input : Input) (s : State) : Host.Outcome State Fault Refusal :=
  .next (s.onBlocks fun b => b.debounceExpiry input)

/-- CFB_PULSE (R70). -/
def execCfbPulse (s : State) : Host.Outcome State Fault Refusal :=
  .next (s.onBlocks fun b => b.withHead b.head.pulse)

/-- PMS_PULSE (R101). -/
def execPmsPulse (s : State) : Host.Outcome State Fault Refusal :=
  .next (s.onBlocks fun b => b.withPaper b.paper.pulse)

/-- REFILL_TICK (R74). -/
def execRefillTick (s : State) : Host.Outcome State Fault Refusal :=
  .next (s.onBlocks fun b => b.refillTick)

/-- IDLE_TIMER_EXPIRY (R170). -/
def execIdleTimerExpiry (s : State) : Host.Outcome State Fault Refusal :=
  .next (s.onBlocks fun b => b.idleExpiry)

/-- CARRIAGE_STEP (R67). -/
def execCarriageStep (s : State) : Host.Outcome State Fault Refusal :=
  .next (s.onBlocks fun b => b.carriageStep)

/-- STALL (R70). -/
def execStall (s : State) : Host.Outcome State Fault Refusal :=
  .next (s.onBlocks fun b => b.stall)

/-- HOME_LOST (R69). -/
def execHomeLost (s : State) : Host.Outcome State Fault Refusal :=
  .next (s.onBlocks fun b => b.homeLost)

/-- HOMING_COMPLETE (R68). -/
def execHomingComplete (s : State) : Host.Outcome State Fault Refusal :=
  .next (s.onBlocks fun b => b.homingComplete)

/-- APPROACH_COMPLETE (R76). -/
def execApproachComplete (s : State) : Host.Outcome State Fault Refusal :=
  .next (s.onBlocks fun b => b.approachComplete)

/-- SEGMENT_COMPLETE (R83). -/
def execSegmentComplete (s : State) : Host.Outcome State Fault Refusal :=
  .next (s.onBlocks fun b => b.segmentComplete)

/-- FEED_STEP (R92). -/
def execFeedStep (s : State) : Host.Outcome State Fault Refusal :=
  .next (s.onBlocks fun b => b.feedStep)

/-- JAM (R101). -/
def execJam (s : State) : Host.Outcome State Fault Refusal :=
  .next (s.onBlocks fun b => b.jam)

/-- MOTION_COMPLETE (R100). -/
def execMotionComplete (s : State) : Host.Outcome State Fault Refusal :=
  .next (s.onBlocks fun b => b.motionComplete)

end Sys2Proof.Machine
end

