-- ==== Sys2Proof/Machine/OrderCommands.lean ====
section
/-! DEFINITION. The order commands as rows of the table (06, R125 to R132). -/

namespace Sys2Proof.Machine

/-- ORDER_ISSUE (R126). -/
def execOrderIssue (r : Route) (tag : Byte) (form : Byte) (requested : Byte) (policy : Byte)
    (s : State) : Host.Outcome State Fault Refusal :=
  .next (s.deliver r .orderIssue fun b => b.takeOrderIssue tag form requested policy)

/-- ORDER_AMEND (R127). -/
def execOrderAmend (r : Route) (tag : Byte) (requested : Byte) (s : State) : Host.Outcome State Fault Refusal :=
  .next (s.deliver r .orderAmend fun b => b.takeOrderAmend tag requested)

/-- ORDER_HOLD (R128). -/
def execOrderHold (r : Route) (tag : Byte) (s : State) : Host.Outcome State Fault Refusal :=
  .next (s.deliver r .orderHold fun b => b.orderHold tag)

/-- ORDER_RESUME (R129). -/
def execOrderResume (r : Route) (tag : Byte) (s : State) : Host.Outcome State Fault Refusal :=
  .next (s.deliver r .orderResume fun b => b.takeOrderResume tag)

/-- ORDER_CANCEL (R130). -/
def execOrderCancel (r : Route) (tag : Byte) (s : State) : Host.Outcome State Fault Refusal :=
  .next (s.deliver r .orderCancel fun b => b.takeOrderCancel tag)

/-- ORDER_QUERY (R131). -/
def execOrderQuery (r : Route) (tag : Byte) (s : State) : Host.Outcome State Fault Refusal :=
  .next (s.deliver r .orderQuery fun b => b.orderQuery tag)

/-- ORDER_RELEASE (R132). -/
def execOrderRelease (r : Route) (tag : Byte) (s : State) : Host.Outcome State Fault Refusal :=
  .next (s.deliver r .orderRelease fun b => b.orderRelease tag)

end Sys2Proof.Machine
end

