-- ==== Sys2Proof/Machine/StockCommands.lean ====
section
/-! DEFINITION. The stock commands and HEAD_QUERY as rows of the table (05, R104 to R113; 04, R88). -/

namespace Sys2Proof.Machine

/-- STOCK_ASSIGN (R106). -/
def execStockAssign (r : Route) (tractor : Byte) (form : Byte) (s : State) : Host.Outcome State Fault Refusal :=
  .next (s.deliver r .stockAssign fun b => b.stockAssign tractor form)

/-- STOCK_RELEASE (R107). -/
def execStockRelease (r : Route) (tractor : Byte) (s : State) : Host.Outcome State Fault Refusal :=
  .next (s.deliver r .stockRelease fun b => b.stockRelease tractor)

/-- STOCK_PARK (R108). -/
def execStockPark (r : Route) (tractor : Byte) (s : State) : Host.Outcome State Fault Refusal :=
  .next (s.deliver r .stockPark fun b => b.stockPark tractor)

/-- STOCK_SELECT (R109). -/
def execStockSelect (r : Route) (tractor : Byte) (s : State) : Host.Outcome State Fault Refusal :=
  .next (s.deliver r .stockSelect fun b => b.stockSelect tractor)

/-- STOCK_QUERY (R113). -/
def execStockQuery (r : Route) (tractor : Byte) (s : State) : Host.Outcome State Fault Refusal :=
  .next (s.deliver r .stockQuery fun b => b.stockQuery tractor)

/-- FEED (R110). -/
def execFeed (r : Route) (count : Half) (s : State) : Host.Outcome State Fault Refusal :=
  .next (s.deliver r .feed fun b => b.feed count)

/-- PRESENT (R111). -/
def execPresent (r : Route) (s : State) : Host.Outcome State Fault Refusal :=
  .next (s.deliver r .present fun b => b.presentCommand)

/-- RETRACT (R112). -/
def execRetract (r : Route) (s : State) : Host.Outcome State Fault Refusal :=
  .next (s.deliver r .retract fun b => b.retract)

/-- HEAD_QUERY (R88). -/
def execHeadQuery (r : Route) (s : State) : Host.Outcome State Fault Refusal :=
  .next (s.deliver r .headQuery fun b => b.headQuery)

end Sys2Proof.Machine
end

