-- ==== Sys2Proof/Machine/Dispatch.lean ====
section
/-! DEFINITION. The meaning of each row of the table: one arm per constructor of `Instr`. -/

namespace Sys2Proof.Machine

def exec (i : Instr) (s : State) : Host.Outcome State Fault Refusal :=
  match i with
  | .null r p => Sys2Proof.Machine.execNull r p s
  | .readIdentity r => Sys2Proof.Machine.execReadIdentity r s
  | .readAttention r => Sys2Proof.Machine.execReadAttention r s
  | .configure r t d idle st a => Sys2Proof.Machine.execConfigure r t d idle st a s
  | .softReset r => Sys2Proof.Machine.execSoftReset r s
  | .clearFault r => Sys2Proof.Machine.execClearFault r s
  | .formDefine r a => Sys2Proof.Machine.execFormDefine r a s
  | .formAmend r a => Sys2Proof.Machine.execFormAmend r a s
  | .formQuery r f => Sys2Proof.Machine.execFormQuery r f s
  | .formLock r f t => Sys2Proof.Machine.execFormLock r f t s
  | .formRetire r f => Sys2Proof.Machine.execFormRetire r f s
  | .fieldDefine r a => Sys2Proof.Machine.execFieldDefine r a s
  | .fieldSet r f field m e t => Sys2Proof.Machine.execFieldSet r f field m e t s
  | .counterSet r f field m e v => Sys2Proof.Machine.execCounterSet r f field m e v s
  | .fieldQuery r f field => Sys2Proof.Machine.execFieldQuery r f field s
  | .fieldList r f n => Sys2Proof.Machine.execFieldList r f n s
  | .fieldRetire r f field => Sys2Proof.Machine.execFieldRetire r f field s
  | .glyphLoad r c p => Sys2Proof.Machine.execGlyphLoad r c p s
  | .glyphQuery r g c => Sys2Proof.Machine.execGlyphQuery r g c s
  | .stockAssign r t f => Sys2Proof.Machine.execStockAssign r t f s
  | .stockRelease r t => Sys2Proof.Machine.execStockRelease r t s
  | .stockPark r t => Sys2Proof.Machine.execStockPark r t s
  | .stockSelect r t => Sys2Proof.Machine.execStockSelect r t s
  | .stockQuery r t => Sys2Proof.Machine.execStockQuery r t s
  | .feed r n => Sys2Proof.Machine.execFeed r n s
  | .present r => Sys2Proof.Machine.execPresent r s
  | .retract r => Sys2Proof.Machine.execRetract r s
  | .headQuery r => Sys2Proof.Machine.execHeadQuery r s
  | .orderIssue r t f n p => Sys2Proof.Machine.execOrderIssue r t f n p s
  | .orderAmend r t n => Sys2Proof.Machine.execOrderAmend r t n s
  | .orderHold r t => Sys2Proof.Machine.execOrderHold r t s
  | .orderResume r t => Sys2Proof.Machine.execOrderResume r t s
  | .orderCancel r t => Sys2Proof.Machine.execOrderCancel r t s
  | .orderQuery r t => Sys2Proof.Machine.execOrderQuery r t s
  | .orderRelease r t => Sys2Proof.Machine.execOrderRelease r t s
  | .hardReset => Sys2Proof.Machine.execHardReset s
  | .startUp p l => Sys2Proof.Machine.execStartUp p l s
  | .debounceStart k l => Sys2Proof.Machine.execDebounceStart k l s
  | .debounceExpiry k => Sys2Proof.Machine.execDebounceExpiry k s
  | .cfbPulse => Sys2Proof.Machine.execCfbPulse s
  | .pmsPulse => Sys2Proof.Machine.execPmsPulse s
  | .refillTick => Sys2Proof.Machine.execRefillTick s
  | .idleTimerExpiry => Sys2Proof.Machine.execIdleTimerExpiry s
  | .carriageStep => Sys2Proof.Machine.execCarriageStep s
  | .stall => Sys2Proof.Machine.execStall s
  | .homeLost => Sys2Proof.Machine.execHomeLost s
  | .homingComplete => Sys2Proof.Machine.execHomingComplete s
  | .approachComplete => Sys2Proof.Machine.execApproachComplete s
  | .segmentComplete => Sys2Proof.Machine.execSegmentComplete s
  | .feedStep => Sys2Proof.Machine.execFeedStep s
  | .jam => Sys2Proof.Machine.execJam s
  | .motionComplete => Sys2Proof.Machine.execMotionComplete s
  | .receiveCharacter x => Sys2Proof.Machine.execReceiveCharacter x s
  | .parserDraw => Sys2Proof.Machine.execParserDraw s
  | .shortIdle => Sys2Proof.Machine.execShortIdle s
  | .longIdle => Sys2Proof.Machine.execLongIdle s
  | .replyComplete => Sys2Proof.Machine.execReplyComplete s

end Sys2Proof.Machine
end

