-- ==== Sys2Proof/Safety.lean ====
section
/-! DEFINITION. What every state of the part keeps: the bounds and the agreements that the rules promise of the heat
accounts, the print path, the Order Table, the records of forms and fields, the glyph store and the link. -/

namespace Sys2Proof.Machine

/-- Eighteen heat accounts, each from 0 to 96 (R73). -/
def Head.heatOk (h : Head) : Prop := h.heat.length = 18 ∧ ∀ x ∈ h.heat, x ≤ Config.heatFull

/-- At most one stock is in a path state; a stock is MOVING exactly while the motion in flight moves it; phase 1 of
STOCK_SELECT clears the path; no form is assigned to both stocks (R91, R97, R109). -/
def Paper.pathOk (p : Paper) : Prop :=
  ¬ (p.stockA.state.inPath = true ∧ p.stockB.state.inPath = true) ∧
    (∀ t, (p.stock t).state = .moving ↔ ∃ m, p.motion = some m ∧ m.tractor = t) ∧
    (∀ m, p.motion = some m → m.phase = 1 → m.kind = .park ∨ m.kind = .eject) ∧
    (∀ f, ¬ (p.stockA.form = some f ∧ p.stockB.form = some f))

/-- A record within its values: tag 1..255, form 0..7, requested 1..250, voided at most 255; a halt reason exactly while
HALTED; a cancel pending only while RUNNING (R115, R119, R120). -/
structure Order.legal (o : Order) : Prop where
  tag : 1 ≤ o.tag ∧ o.tag ≤ 255
  form : o.form < Config.forms
  requested : 1 ≤ o.requested ∧ o.requested ≤ 250
  voided : o.voided ≤ 255
  halt : o.halt.isSome = true ↔ o.state = .halted
  cancel : o.cancelPending = true → o.state = .running

/-- At most four order records, with distinct tags, each within its values; their admission numbers start at 1, rise along
the table and lie below the next one, which is at most 65,535 (R115, R117). -/
structure OrderTable.ok (t : OrderTable) : Prop where
  size : t.records.length ≤ Config.orderSlots
  tags : (t.records.map (·.tag)).Nodup
  legal : ∀ r ∈ t.records, r.legal
  order : t.records.Pairwise fun r q => r.admission < q.admission
  numbers : ∀ r ∈ t.records, 1 ≤ r.admission ∧ r.admission < t.next
  next : 1 ≤ t.next ∧ t.next ≤ Config.lastAdmission

/-- The controller and the table agree: no order is current in IDLE and FAULTED, nor in a pause that returns to IDLE; a
pause remembers a state to return to; and a RUNNING record is the current order, so that at most one is (R115, R133). -/
structure Blocks.runsOne (b : Blocks) : Prop where
  atRest : b.controller.state = .idle ∨ b.controller.state = .faulted → b.controller.current = none
  paused : b.controller.state = .paused →
    ∃ r, b.controller.remembered = some r ∧ (r = .idle → b.controller.current = none) ∧ ¬ r = .faulted ∧ ¬ r = .paused
  only : ∀ r ∈ b.orders.records, r.state = .running → b.controller.current = some r.tag

/-- The controller is in PRINTING, or in a pause that returns there. -/
def Controller.prints (c : Controller) : Prop :=
  c.state = .printing ∨ c.state = .paused ∧ c.remembered = some .printing

/-- The cursor stands in the walk of a ticket, its closing feed included (R139). -/
def Controller.inWalk (c : Controller) : Prop := c.phase = .feed ∨ c.phase = .pass ∨ c.phase = .close

/-- No record counts more tickets done than requested (R115); the current order is a
RUNNING record of the table (R133); a form that a record
names is DEFINED (R12); while the walk of a ticket is made, or waits in a pause, the ticket is in flight and still wanted
(R133, R138); and the controller waits for a homing within a walk alone (R140). -/
structure Blocks.ticketsOk (b : Blocks) : Prop where
  counts : ∀ r ∈ b.orders.records, r.done ≤ r.requested
  running : ∀ tag, b.controller.current = some tag → ∃ o, b.orders.find tag = some o ∧ o.state = .running
  named : ∀ r ∈ b.orders.records, (b.form r.form).defined = true
  walk : b.controller.prints → b.controller.inWalk →
    ∀ o, b.currentOrder = some o → (b.form o.form).inFlight = true ∧ o.done < o.requested
  waits : b.controller.awaitsHoming = true → b.controller.inWalk

/-- A field carries staged content (R19). -/
def FieldBody.isStaged : FieldBody → Bool
  | .text _ _ _ staged => staged.isSome
  | .counter _ _ staged => staged.isSome
  | .rule _ | .link .. => false

/-- The Field Pool and the Form Table agree: eight forms; at most 160 fields, 40 of one form; distinct keys; no shared
position on a line; the fields in print order, each within the 128 character positions; every field on a printable line of
a DEFINED form; staged content only while the form's in-flight mark is set; field counts that count (R1, R10, R19, R21,
R22, R23, R38). -/
structure Blocks.recordsOk (b : Blocks) : Prop where
  forms : b.forms.length = Config.forms
  pool : b.pool.length ≤ Config.poolCapacity
  perForm : ∀ f, (b.fieldsOf f).length ≤ Config.fieldsPerForm
  keys : b.pool.Pairwise fun r q => ¬ (r.form = q.form ∧ r.field = q.field)
  apart : b.pool.Pairwise fun r q => r.overlaps q = false
  order : b.pool.Pairwise fun r q => r.before q = true
  placed : ∀ r ∈ b.pool, r.field < 64 ∧ 1 ≤ r.width ∧ r.width ≤ 48 ∧ r.column + r.width ≤ 128
  lines : ∀ r ∈ b.pool, (b.form r.form).printable r.line = true
  defined : ∀ r ∈ b.pool, (b.form r.form).defined = true
  staged : ∀ r ∈ b.pool, r.body.isStaged = true → (b.form r.form).inFlight = true
  counts : ∀ f < Config.forms, (b.form f).fieldCount = (b.fieldsOf f).length

/-- Set 2 holds 64 glyphs of ten columns each, and its glyph for 0x20 is blank with its loaded mark clear (R47, R49). -/
def Blocks.glyphsOk (b : Blocks) : Prop :=
  b.glyphs.length = 64 ∧ (∀ g ∈ b.glyphs, g.columns.length = 10) ∧ b.glyphs[0]? = some Glyph.blank

/-- The FIFO holds at most 64 entries; HOLD is asserted at 48 and more and released at 16 and less; a paused parser is in
HUNT or DISCARD; a reply being sent keeps it paused (R176, R177, R179). -/
structure Link.ok (l : Link) : Prop where
  size : l.fifo.length ≤ Config.fifoSize
  asserted : Config.holdOn ≤ l.fifo.length → l.hold = true
  released : l.hold = true → Config.holdOff < l.fifo.length
  parser : l.paused = true → l.parser.state = .hunt ∨ l.parser.state = .discard
  sending : l.reply.isSome = true → l.paused = true
  due : l.resetDue = true → l.reply.isSome = true

/-! ## What statements speak of -/

/-- RESET is not held and no reply is being sent: a whole command is taken as it stands. -/
def State.Ready (s : State) : Prop := s.held = false ∧ s.link.reply = none

/-- From `s` to `t` the part has answered a command with a result and a payload: the reply frame is being sent, the parser
is paused in HUNT (or DISCARD), and the rest of the link, RESET and the queue are as they were (R185 to R187). -/
def State.Replied (s t : State) (code : Byte) (r : Result) (payload : List Byte) : Prop :=
  t.link.reply = some (replyFrame s.blocks.attention.address code r payload) ∧ t.link.paused = true ∧
    t.link.parser = s.link.parser.waiting ∧ t.link.fifo = s.link.fifo ∧ t.link.hold = s.link.hold ∧
    t.link.shortIdle = s.link.shortIdle ∧ t.link.longIdle = s.link.longIdle ∧
    (t.link.resetDue = true ↔ code = Command.softReset.code) ∧ t.held = s.held ∧ t.pending = s.pending

/-- A command has been answered, and the records of the blocks are then `b`. -/
def State.Answered (s t : State) (c : Command) (r : Result) (payload : List Byte) (b : Blocks) : Prop :=
  s.Replied t c.code r payload ∧ t.blocks = b

/-- A command has been refused: no payload, and every record as it was (R187, R192). -/
def State.Refused (s t : State) (c : Command) (r : Result) : Prop := s.Answered t c r [] s.blocks

/-- The dispatcher has answered a frame for which no block is asked: the reply is being sent, the parser is paused, no
reset follows, and every record is as it was (R185, R187). -/
def State.TurnedAway (s t : State) (code : Byte) (r : Result) : Prop :=
  t.link =
      { s.link with
        parser := s.link.parser.waiting
        paused := true
        reply := some (replyFrame s.blocks.attention.address code r [])
        resetDue := false } ∧
    t.blocks = s.blocks ∧ t.held = s.held ∧ t.pending = s.pending

/-- A command has been tested in an order: the first condition that holds refuses it with its result; where none does,
`accepted` holds (R13, R39, R50, R104, R125). -/
def State.Tested (s t : State) (c : Command) : List (Prop × Result) → Prop → Prop
  | [], accepted => accepted
  | (fails, r) :: rest, accepted => (fails → s.Refused t c r) ∧ (¬ fails → s.Tested t c rest accepted)

/-- From `s` to `t` only the records of the blocks change, and they are then `b`. -/
def State.Became (s t : State) (b : Blocks) : Prop :=
  t.blocks = b ∧ t.link = s.link ∧ t.held = s.held ∧ t.pending = s.pending

/-- The balances before the `k`-th column of a walk, counted from 0 (R75, R77). -/
def heatAt (image : List Dots) (strike : Nat) (v : Speed) (columns heat : List Nat) : Nat → List Nat
  | 0 => heat
  | k + 1 =>
    columnHeat strike v (k + 1) (imagePins image (columns.getD k 0)) (heatAt image strike v columns heat k)

/-- A stock carries the form (R12). -/
def Blocks.carried (b : Blocks) (f : Nat) : Prop := ∃ t, (b.paper.stock t).form = some f

/-- The Issue Controller is neither IDLE nor PAUSED: no start request and no taking of a closed cover follows of itself. -/
def Blocks.atWork (b : Blocks) : Prop := ¬ b.controller.state = .idle ∧ ¬ b.controller.state = .paused

/-- No order starts and no closed cover is taken of itself: in IDLE the cover is open, or a record is HALTED, or none is
QUEUED; in PAUSED the cover is open (R135, R153). -/
def Blocks.calm (b : Blocks) : Prop :=
  (b.controller.state = .idle →
    b.coverOpen = true ∨ (∃ r ∈ b.orders.records, r.state = .halted) ∨ ∀ r ∈ b.orders.records, ¬ r.state = .queued) ∧
    (b.controller.state = .paused → b.coverOpen = true)

/-- The Head Drive gives the Issue Controller nothing to act on: it does not print, or waits for a homing that goes on, or
its pass goes on (R140). -/
def Blocks.passGoesOn (b : Blocks) : Prop :=
  b.controller.state = .printing →
    (b.controller.awaitsHoming = true → b.head.carriage.activity = .homing) ∧
      (b.controller.awaitsHoming = false → b.controller.phase = .pass →
        b.head.pass.isSome = true ∧ ¬ b.head.carriage.activity = .suspended)

/-- The command is one a host motion command is turned away with BUSY in (R105). -/
def Blocks.hostBusy (b : Blocks) : Prop :=
  ¬ (b.controller.state = .idle ∧ b.paper.motion = none ∧ ¬ b.head.carriage.activity = .homing)

/-- The records once a motion of so many steps has begun for the stock of a tractor: the stock MOVING, its offset not valid,
the feed motor held, no step done (R89, R97). -/
def Blocks.feeding (b : Blocks) (t : Tractor) (kind : MotionKind) (direction : FeedDirection) (steps : Nat)
    (q : Requester) (phase : Nat) : Blocks :=
  { b with
    paper :=
      { b.paper.setStock t { b.paper.stock t with state := .moving, offset := none } with
        motion :=
          some
            { tractor := t
              kind := kind
              direction := direction
              done := 0
              toGo := steps
              requester := q
              startOffset := (b.paper.stock t).offset
              phase := phase
              jamCount := 0 }
        feedMotor := .held } }

/-- The records once such a motion has begun, with the idle timer stopped (R168). -/
def Blocks.inMotion (b : Blocks) (t : Tractor) (kind : MotionKind) (direction : FeedDirection) (steps : Nat)
    (q : Requester) (phase : Nat) : Blocks :=
  { b.feeding t kind direction steps q phase with attention := { b.attention with idleTimer := .stopped } }

/-- A motion whose steps to go are made ends as an ejection: its kind is EJECT, or it is forward and the paper left runs out
before them (R99). -/
abbrev Blocks.endsOut (b : Blocks) (m : Motion) : Prop :=
  m.kind = .eject ∨
    m.direction = .forward ∧ (b.paper.stock m.tractor).endRemaining.any (fun r => decide (r < m.toGo)) = true

/-- The end state and offset of a motion of each kind that is not an ejection (R98). An absent offset at its beginning reads
as 0 (assumption log 26). -/
def Blocks.endOf (b : Blocks) (m : Motion) : StockState × Option Nat :=
  match m.kind with
  | .advance | .feedToTop | .retract => (.atPrint, some 0)
  | .park => (.parked, none)
  | .feed => (.atPrint, some ((m.startOffset.getD 0 + m.done + m.toGo) % b.stockLength m.tractor))
  | .present => (.presented, some 0)
  | .eject => (.absent, none)

/-- The records once the steps to go of a motion are made: its stock in the end state of the kind with the paper left
counted on; or, after an ejection, SENSED or ABSENT with no form, REMOVED latched, and SENSED where paper lies at the mark
(R96, R98 to R100). -/
def Blocks.motionEnded (b : Blocks) (m : Motion) : Blocks :=
  let x := b.paper.stock m.tractor
  let sensed := b.paper.sensor m.tractor = true
  if b.endsOut m then
    { b with
      paper :=
        { b.paper.setStock m.tractor
            { state := if sensed then .sensed else .absent, form := none, offset := none, endRemaining := none } with
          motion := none }
      attention :=
        b.attention.setPaperSet m.tractor (b.attention.paperSet m.tractor ||| 2 ||| if sensed then 1 else 0) }
  else
    { b with
      paper :=
        { b.paper.setStock m.tractor
            { x with
              state := (b.endOf m).1
              offset := (b.endOf m).2
              endRemaining := x.endRemaining.map fun r => if m.direction = .forward then r - m.toGo else r + m.toGo } with
          motion := none } }

/-- The carriage steps still to be made of the move in flight: of a homing those up to its 1,700th, none at HOME; of an
approach those to its start coordinate; of a segment one for each column left (R67 to R69). -/
def Head.stepsLeft (homeSeen : Bool) (h : Head) : Nat :=
  match h.carriage.activity with
  | .homing => if homeSeen = true then 0 else 1700 - h.homingSteps
  | .approach => (h.target - h.carriage.coordinate) + (h.carriage.coordinate - h.target)
  | .segment =>
    match h.segment with
    | some g => g.last + 1 - g.first - g.traversed
    | none => 0
  | .idle | .dwell | .suspended => 0

/-- The feed steps still to be made of a motion: its steps to go; or, where a forward motion runs out of paper before them,
the steps up to there and the 48 of the ejection (R92, R96, R99). -/
def Motion.stepsLeft (m : Motion) (endRemaining : Option Nat) : Nat :=
  match endRemaining with
  | some r => if m.direction = .forward ∧ ¬ m.kind = .eject ∧ max r 1 < m.toGo then max r 1 + 48 else m.toGo
  | none => m.toGo

/-- The head once a homing has found HOME, homed at coordinate 0 with next direction LEFT_TO_RIGHT. With no pass behind it, or
an end-pass request pending, it is IDLE with no pass; a pass that has taken no direction takes LEFT_TO_RIGHT; then it goes on
to its approach behind a request of its own, else it is SUSPENDED (R68, R76, R84 to R86). -/
def Head.homedAt (h : Head) : Head :=
  let home : Head :=
    { h with
      carriage := { h.carriage with homed := true, coordinate := 0, next := .leftToRight }
      segment := none
      homeFor := []
      firing := 0 }
  let suspended := fun g : Head => { g with carriage := { g.carriage with activity := .suspended }, hold := .none }
  let onward := fun g : Head =>
    { g with carriage := { g.carriage with activity := .approach, motor := .held }, stallCount := 0 }
  let taken := fun p : Pass =>
    { home with
      carriage := { home.carriage with next := .rightToLeft }
      pass := some { p with direction := some .leftToRight }
      plan := { line := some p.line, direction := .leftToRight, speed := .none, segments := 0, dwellTaken := false } }
  match h.pass, h.hold with
  | none, _ | some _, .endPass =>
    { home with carriage := { home.carriage with activity := .idle }, pass := none, hold := .none }
  | some p, .pause => suspended (if p.direction = none then taken p else home)
  | some p, .none =>
    if p.direction = none then onward (taken p) else if .resume ∈ h.homeFor then onward home else suspended home

/-- The head after an end-pass request: nothing in IDLE; a homing, an approach or a segment ends first, and then the pass; a
dwell or a suspended pass ends at once (R86). -/
def Head.endAsked (h : Head) : Head :=
  match h.carriage.activity with
  | .idle => h
  | .homing | .approach | .segment => { h with hold := .endPass }
  | .dwell | .suspended =>
    { h with
      carriage := { h.carriage with activity := .idle }
      pass := none
      segment := none
      hold := .none
      homeFor := []
      firing := 0 }

/-- The records once the debounced state of an input has taken its level, with no debounce timer running for it (R93). -/
def Blocks.debounced (b : Blocks) (k : Input) : Blocks :=
  { b with
    paper :=
      { b.paper with
        inputs :=
          b.paper.inputs.put k { b.paper.inputs.get k with debounced := (b.paper.inputs.get k).level, timer := none } } }

/-- The records once paper has gone from the load mark of a tractor whose stock lies in the path: end remaining is the
distance to the print line, a reverse motion of the stock is an ejection, and ENDED is latched (R96, R99). -/
def Blocks.ranOut (b : Blocks) (u : Tractor) : Blocks :=
  { b with
    paper :=
      { b.paper.setStock u { b.paper.stock u with endRemaining := some u.distance } with
        motion := b.paper.motion.map fun m =>
          if m.tractor = u ∧ m.direction = .reverse then
            { m with kind := .eject, direction := .forward, toGo := u.distance + 48 }
          else m }
    attention := b.attention.setPaperSet u (b.attention.paperSet u ||| 4) }

/-- The records with a homing in flight for a requester, none of its steps made, and the idle timer stopped (R68; assumption
logs 18 and 31). -/
def Blocks.homingFor (b : Blocks) (q : HomeRequester) : Blocks :=
  { b with
    head :=
      { b.head with
        carriage := { b.head.carriage with activity := .homing, motor := .held }
        segment := none
        homeFor := [q]
        homingSteps := 0
        stallCount := 0
        firing := 0 }
    attention := { b.attention with idleTimer := .stopped } }

/-- The records with the idle timer stopped. -/
def Blocks.notIdle (b : Blocks) : Blocks := { b with attention := { b.attention with idleTimer := .stopped } }

/-- An event has made the records `b`, and what the part does of itself has followed: a closed cover in PAUSED taken, an
order that may start started, the idle timer in line (assumption log 32). With the controller at work that is the stop of
the idle timer alone. -/
def State.Settled (s t : State) (b : Blocks) : Prop :=
  s.Became t b.settle ∧ (b.atWork → s.Became t b.notIdle)

/-- A command has been answered with no payload, has made the records `b`, and what the part does of itself has followed. -/
def State.AnsweredSettled (s t : State) (c : Command) (r : Result) (b : Blocks) : Prop :=
  s.Answered t c r [] b.settle ∧ (b.atWork → s.Answered t c r [] b.notIdle)

/-- The fields of the pool after the end of the ticket in flight of a form: each struck counter advanced once, the staged
contents of the form applied (R143 steps 1 and 4). -/
def Blocks.ticketPool (b : Blocks) (f : Nat) : List FieldRecord :=
  b.pool.map fun r =>
    if r.form = f then
      let q := if r.field ∈ b.controller.struck then r.advance else r
      { q with body := q.body.applyStaged }
    else r

/-- What a fault report leaves (R70, R101, R155, R163): the fault record, counted from 1 up to 255, and the idle timer
stopped. In FAULTED that is all but for the reporting block: no order, no other block changes. Else the head is stopped with
no pass, no motion is in flight and a moving stock is LOST, the controller is FAULTED with no work left, and a ticket in flight
has ended voided: struck counters advanced, staged contents applied, the in-flight mark clear, no other form or field changed,
the composer empty (R143). The current order has its voided count raised for that ticket and is closed: DONE where it was
finished, CANCELLED where its cancel was pending, else HALTED with FAULT or the reason held; no other order changes (R124). -/
structure Blocks.Faulted (b c : Blocks) (kind : FaultKind) (tractor : Option Tractor) (act : FaultActivity) : Prop where
  record : c.attention.faultRecord =
    some
      { kind := kind
        tractor := tractor
        activity := act
        count :=
          match b.attention.faultRecord with
          | none => 1
          | some r => if r.count < 255 then r.count + 1 else r.count }
  head : ¬ (b.controller.state = .faulted ∧ kind = .jam) →
    c.head.carriage.activity = .idle ∧ c.head.pass = none ∧ c.head.segment = none ∧ c.head.firing = 0
  timer : c.attention.idleTimer = .stopped
  controller : c.controller =
    if b.controller.state = .faulted then b.controller else { Controller.hardReset with state := .faulted }
  motion : ¬ b.controller.state = .faulted → c.paper.motion = none ∧
    ∀ m, b.paper.motion = some m → (c.paper.stock m.tractor).state = .lost ∧ (c.paper.stock m.tractor).offset = none
  orders : c.orders =
    match b.controller.current with
    | none => b.orders
    | some tag =>
      if b.controller.state = .faulted then b.orders
      else
        b.orders.update tag fun o =>
          { o with
            voided := if b.ticketInFlight = true ∧ o.voided < 255 then o.voided + 1 else o.voided
            state :=
              if o.done = o.requested then .done else if o.cancelPending = true then .cancelled else .halted
            halt :=
              if o.done = o.requested ∨ o.cancelPending = true then none
              else some (b.controller.heldReason.getD .fault)
            cancelPending := false
            reported := false }
  voided : ¬ b.controller.state = .faulted → b.ticketInFlight = true → ∀ o, b.currentOrder = some o →
    c.forms = b.forms.set o.form { b.form o.form with inFlight := false } ∧ c.pool = b.ticketPool o.form ∧
      c.composer = { image := [], spans := [], passSpan := none }
  untouched : b.controller.state = .faulted ∨ b.ticketInFlight = false →
    c.forms = b.forms ∧ c.pool = b.pool ∧ c.composer = b.composer
  glyphs : c.glyphs = b.glyphs
  inFaulted : b.controller.state = .faulted →
    (kind = .jam → c.head = b.head) ∧ (¬ kind = .jam → c.paper = b.paper)

/-- Run rows one after another. -/
def execAll : List Instr → State → Host.Outcome State Fault Refusal
  | [], s => .next s
  | i :: rest, s =>
    match exec i s with
    | .next t => execAll rest t
    | .fault f => .fault f
    | .refused r => .refused r

/-- The FIFO entries of characters that came with no gap before them. -/
def unbroken (bytes : List Byte) : List FifoEntry := bytes.map fun x => { byte := x, longGap := false }

end Sys2Proof.Machine

namespace Sys2Proof

open Sys2Proof.Machine

/-- The values FORM_DEFINE and FORM_AMEND take (R3, R14). -/
def FormBytes.legal (a : FormBytes) : Prop :=
  a.form.toNat ≤ 7 ∧ 6 ≤ a.lines.toNat ∧ a.lines.toNat ≤ 132 ∧ 20 ≤ a.pitch.toNat ∧ a.pitch.toNat ≤ 48 ∧
    288 ≤ a.lines.toNat * a.pitch.toNat ∧ a.lines.toNat * a.pitch.toNat ≤ 3168 ∧
    a.top.toNat + a.bottom.toNat + 1 ≤ a.lines.toNat ∧ 1 ≤ a.copies.toNat ∧ a.copies.toNat ≤ 6 ∧
    a.direction.toNat ≤ 1 ∧ a.policy.toNat ≤ 2

/-- A form record with the carried values written into it, every other value kept (R14, R15). -/
def FormBytes.into (a : FormBytes) (r : FormRecord) : FormRecord :=
  { r with
    lines := a.lines.toNat
    pitch := a.pitch.toNat
    top := a.top.toNat
    bottom := a.bottom.toNat
    copies := a.copies.toNat
    direction := if a.direction = 0 then .bidirectional else .unidirectional
    policy := if a.policy = 0 then .none else if a.policy = 1 then .last else .each }

/-- The values FIELD_DEFINE takes, by kind (R22, R26, R29, R30, R40). -/
def FieldBytes.legal (a : FieldBytes) : Prop :=
  a.form.toNat ≤ 7 ∧ a.field.toNat ≤ 63 ∧ a.kind.toNat ≤ 3 ∧ a.column.toNat ≤ 127 ∧ 1 ≤ a.width.toNat ∧
    a.width.toNat ≤ 48 ∧ a.column.toNat + a.width.toNat ≤ 128 ∧
    (¬ a.kind = 2 → a.align.toNat ≤ 2 ∧ a.glyphSet.toNat ≤ 2 ∧ a.emphasis.toNat ≤ 2) ∧
    (a.kind = 1 → 1 ≤ a.digits.toNat ∧ a.digits.toNat ≤ 10 ∧ a.digits.toNat ≤ a.width.toNat ∧ 1 ≤ a.stride.toNat ∧
      a.stride.toNat ≤ 9 ∧ a.policy.toNat ≤ 1 ∧ a.zeroFill.toNat ≤ 1 ∧ (∀ d ∈ decadesOf a.value, d ≤ 9) ∧
      ∀ d ∈ (decadesOf a.value).drop a.digits.toNat, d = 0) ∧
    (a.kind = 2 → a.style.toNat ≤ 2) ∧ (a.kind = 3 → a.target.toNat ≤ 63)

/-- The character part that legal values name (R190). -/
def FieldBytes.chars (a : FieldBytes) : CharPart where
  align := if a.align = 0 then .left else if a.align = 1 then .right else .center
  glyphSet := a.glyphSet.toNat
  emphasis := if a.emphasis = 0 then .normal else if a.emphasis = 1 then .bold else .underline

/-- The body that legal values make: a TEXT field's content absent, a counter's exhausted mark clear (R24, R28, R41). -/
def FieldBytes.body (a : FieldBytes) : FieldBody :=
  if a.kind = 0 then .text a.chars (decide (¬ a.guarded = 0)) none none
  else if a.kind = 1 then
    .counter a.chars
      { decades := (decadesOf a.value).take a.digits.toNat
        stride := a.stride.toNat
        policy := if a.policy = 0 then .wrap else .stop
        zeroFill := decide (a.zeroFill = 1)
        exhausted := false } none
  else if a.kind = 2 then .rule (if a.style = 0 then .thin else if a.style = 1 then .thick else .base)
  else .link a.chars a.target.toNat

/-- The record that legal values make: revision 0 (R33, R41). -/
def FieldBytes.record (a : FieldBytes) : FieldRecord where
  form := a.form.toNat
  field := a.field.toNat
  line := a.line.toNat
  column := a.column.toNat
  width := a.width.toNat
  revision := 0
  body := a.body

/-- The row of a command with the values its payload carries (10.5). -/
def Command.row (r : Route) (p : List Byte) : Command → Instr
  | .null => .null r p
  | .readIdentity => .readIdentity r
  | .readAttention => .readAttention r
  | .configure =>
    .configure r (payloadByte p 0) (payloadByte p 1) (payloadByte p 2) (payloadByte p 3) (payloadByte p 4)
  | .softReset => .softReset r
  | .clearFault => .clearFault r
  | .formDefine => .formDefine r (formBytesOf p)
  | .formAmend => .formAmend r (formBytesOf p)
  | .formQuery => .formQuery r (payloadByte p 0)
  | .formLock => .formLock r (payloadByte p 0) (payloadByte p 1)
  | .formRetire => .formRetire r (payloadByte p 0)
  | .fieldDefine => .fieldDefine r (fieldBytesOf p)
  | .fieldSet => .fieldSet r (payloadByte p 0) (payloadByte p 1) (payloadByte p 2) (payloadHalf p 3) (p.drop 5)
  | .counterSet => .counterSet r (payloadByte p 0) (payloadByte p 1) (payloadByte p 2) (payloadHalf p 3) (payloadBcd p 5)
  | .fieldQuery => .fieldQuery r (payloadByte p 0) (payloadByte p 1)
  | .fieldList => .fieldList r (payloadByte p 0) (payloadByte p 1)
  | .fieldRetire => .fieldRetire r (payloadByte p 0) (payloadByte p 1)
  | .glyphLoad => .glyphLoad r (payloadByte p 0) (columnsOf p)
  | .glyphQuery => .glyphQuery r (payloadByte p 0) (payloadByte p 1)
  | .stockAssign => .stockAssign r (payloadByte p 0) (payloadByte p 1)
  | .stockRelease => .stockRelease r (payloadByte p 0)
  | .stockPark => .stockPark r (payloadByte p 0)
  | .stockSelect => .stockSelect r (payloadByte p 0)
  | .stockQuery => .stockQuery r (payloadByte p 0)
  | .feed => .feed r (payloadHalf p 0)
  | .present => .present r
  | .retract => .retract r
  | .headQuery => .headQuery r
  | .orderIssue => .orderIssue r (payloadByte p 0) (payloadByte p 1) (payloadByte p 2) (payloadByte p 3)
  | .orderAmend => .orderAmend r (payloadByte p 0) (payloadByte p 1)
  | .orderHold => .orderHold r (payloadByte p 0)
  | .orderResume => .orderResume r (payloadByte p 0)
  | .orderCancel => .orderCancel r (payloadByte p 0)
  | .orderQuery => .orderQuery r (payloadByte p 0)
  | .orderRelease => .orderRelease r (payloadByte p 0)

/-- The bytes of a command frame, check included (R180, R182, R189). -/
def frame (station code : Byte) (p : List Byte) : List Byte :=
  let body := [station, code, byteOf p.length] ++ p
  0x5A :: body ++ halfBytes (checkSum body)

end Sys2Proof
end

