-- ==== Sys2Proof/Certificates/Slice0/Obligations.lean ====
section
/-! DEFINITION. The statements for the provers. Each says what a rule of the manual says a command, an event or the whole
part does. -/

open Sys2Proof Sys2Proof.Machine

/-! ## The queue, reset and RESET -/

/-- Every command at the front of the queue is run on the rest of the queue; with an empty queue the part idles (the
model's choice, assumption log 1). -/
def Obligations.StepTakesTheFront : Prop :=
  (∀ (c : Instr) (rest : List Instr) (s : State), step (s.withPending (c :: rest)) = exec c (s.withPending rest)) ∧
    ∀ s : State, s.pending = [] → step s = .next s

/-- The whole state after reset: every record at the value that the manual gives it after hard reset (R2, R20, R49,
R66, R73, R74, R87, R90, R116, R133, R158, R166, R176, R177, R179, R194 step 4), with the start-up homing in flight,
its motor held (R68, R194 step 5), and an empty queue. The straps are low and no level input is asserted (the model's
choice, assumption log 5); the bytes of the parser and the counts of the head that no rule gives are 0 (log 6), and no
pin is held as fired (log 21). -/
def Obligations.ResetValues : Prop :=
  let released : LevelInput := { level := false, debounced := false, timer := none }
  let absent : Stock := { state := .absent, form := none, offset := none, endRemaining := none }
  State.reset =
    { held := false
      pending := []
      link :=
        { fifo := []
          hold := false
          shortIdle := true
          longIdle := true
          parser :=
            { state := .hunt, sum := 0, headerTaken := 0, station := 0, command := 0, length := 0, payload := [],
              checkHigh := none }
          paused := false
          reply := none
          resetDue := false }
      blocks :=
        { forms := List.replicate 8
            { defined := false, lines := 0, pitch := 0, top := 0, bottom := 0, copies := 0, direction := .bidirectional,
              policy := .none, lock := .unlocked, issueCount := 0, fieldCount := 0, inFlight := false }
          pool := []
          glyphs := List.replicate 64 { columns := List.replicate 10 0, loaded := false }
          composer := { image := [], spans := [], passSpan := none }
          head :=
            { carriage := { coordinate := 0, homed := false, motor := .held, activity := .homing, next := .leftToRight }
              heat := List.replicate 18 96
              plan := { line := none, direction := .leftToRight, speed := .none, segments := 0, dwellTaken := false }
              pass := none
              segment := none
              hold := .none
              homeFor := [.startUp]
              homingSteps := 0
              stallCount := 0
              refillTimer := 2
              firing := 0 }
          paper :=
            { stockA := absent
              stockB := absent
              inputs := { psa := released, psb := released, cover := released, home := released, tear := released }
              motion := none
              feedMotor := .released
              waiting := false }
          orders := { records := [], next := 1 }
          controller :=
            { state := .idle, current := none, phase := .none, line := none, struck := [], heldReason := none,
              voidMotion := none, remembered := none, coverMark := false, awaitsHoming := false, presentFinal := false }
          attention :=
            { faultRecord := none, paperA := 0, paperB := 0, linkTrouble := 0, mask := 0, tickPeriod := 2,
              debounceTime := 8, idleTime := 50, stationMask := 0, idleTimer := .stopped, rate := 0, address := 0 } } }

/-- START_UP gives every record its hard-reset value with the straps read and the inputs sampled, and homes the
carriage: at once where HOME is asserted, else with the homing left in flight (R68, R90, R194). With all straps low
and no input asserted it gives `State.reset`, but for the queue. The counts of the head and the bytes of the parser
that no rule gives are 0 (the model's choice, assumption log 6). -/
def Obligations.StartUpMakesEveryRecordNew : Prop :=
  ∀ (s : State) (p : Straps) (l : Levels), ∃ t, exec (.startUp p l) s = .next t ∧ t.held = false ∧
    t.pending = s.pending ∧ t.link = Link.hardReset ∧
    (l.home = false → t.blocks =
      { Blocks.hardReset p l with
        head :=
          { Head.hardReset with
            carriage := { coordinate := 0, homed := false, motor := .held, activity := .homing, next := .leftToRight }
            homeFor := [.startUp] } }) ∧
    (l.home = true → t.blocks =
      { Blocks.hardReset p l with
        head :=
          { Head.hardReset with
            carriage := { coordinate := 0, homed := true, motor := .held, activity := .idle, next := .leftToRight } }
        attention := { Attention.hardReset p with idleTimer := .running 50 } }) ∧
    (p = Straps.low → l = Levels.low → t = State.reset.withPending s.pending)

/-- While RESET is held low, TXD, HOLD and ATTN are released, no pin fires, no motion and no carriage move is in
flight, both motors are released, the FIFO is lost, and no ticket end has been made (R194, R196). The carriage is
unhomed at its coordinate, a stock that was moving is LOST with its form kept, and every other record stands until
START_UP (deduced, assumption log 30). While it is held, every row but HARD_RESET and START_UP leaves the part as it
is (the model's choice, log 12). No pin is held as fired (log 21). -/
def Obligations.HardResetAbandonsWork : Prop :=
  (∀ s : State, ∃ t, exec .hardReset s = .next t ∧ t.attn = false ∧
    let h := s.blocks.head
    let p := s.blocks.paper
    let became := fun stocks : Paper =>
      t = { s with
            held := true
            link := { s.link with fifo := [], hold := false, reply := none, paused := false, resetDue := false }
            blocks :=
              { s.blocks with
                head :=
                  { h with
                    carriage := { h.carriage with homed := false, motor := .released, activity := .idle }
                    pass := none
                    segment := none
                    hold := .none
                    homeFor := []
                    firing := 0 }
                paper := { stocks with motion := none, waiting := false, feedMotor := .released } } }
    (p.motion = none → became p) ∧
      ∀ m, p.motion = some m →
        became (p.setStock m.tractor { p.stock m.tractor with state := .lost, offset := none })) ∧
  ∀ (i : Instr) (s : State), s.held = true → i ≠ .hardReset → (∀ p l, i ≠ .startUp p l) → exec i s = .next s

/-! ## Control commands -/

/-- R172: NULL is answered NULL with no payload, whatever payload of 0 to 200 bytes it carries, and changes no record; a
broadcast NULL is discarded. -/
def Obligations.NullIsAnsweredNull : Prop :=
  ∀ (s : State) (p : List Byte), s.Ready → p.length ≤ 200 →
    (∃ t, exec (.null .addressed p) s = .next t ∧ s.Answered t .null .null [] s.blocks) ∧
      exec (.null .broadcast p) s = .next s

/-- The five causes are pending as their records say: the fault record, an unreported HALTED record, a PAPER set, an
unreported DONE or CANCELLED record, the link-trouble set; the record a cause speaks of is the oldest by admission
number (R159). ATTN is asserted while RESET is not held and a pending cause is not masked (R160; that a set mask bit
masks its cause is deduced, assumption log 7). READ_ATTENTION reports the pending cause of highest priority, masked or
not, with the causes pending after the clearing, the controller state and the detail, and clears what it reported:
nothing for FAULT, the reported mark of the oldest record for HALT and DONE, the tractor's set for PAPER, the set for
LINK. With none pending it answers NONE (R159, R161, R162). -/
def Obligations.ReadAttentionReportsTheMostUrgent : Prop :=
  (∀ b : Blocks,
    (b.pendingSet.getLsbD 0 = true ↔ ¬ b.attention.faultRecord = none) ∧
    (b.pendingSet.getLsbD 1 = true ↔ ∃ r ∈ b.orders.records, r.state = .halted ∧ r.reported = false) ∧
    (b.pendingSet.getLsbD 2 = true ↔ ¬ b.attention.paperA = 0 ∨ ¬ b.attention.paperB = 0) ∧
    (b.pendingSet.getLsbD 3 = true ↔
      ∃ r ∈ b.orders.records, (r.state = .done ∨ r.state = .cancelled) ∧ r.reported = false) ∧
    (b.pendingSet.getLsbD 4 = true ↔ ¬ b.attention.linkTrouble = 0)) ∧
  (∀ (t : OrderTable) (o : Order), t.ok →
    (t.unreportedHalt = some o ↔ o ∈ t.records ∧ o.state = .halted ∧ o.reported = false ∧
      ∀ r ∈ t.records, r.state = .halted → r.reported = false → o.admission ≤ r.admission) ∧
    (t.unreportedClosed = some o ↔ o ∈ t.records ∧ (o.state = .done ∨ o.state = .cancelled) ∧ o.reported = false ∧
      ∀ r ∈ t.records, r.state = .done ∨ r.state = .cancelled → r.reported = false → o.admission ≤ r.admission)) ∧
  (∀ s : State, s.attn = true ↔
    s.held = false ∧ ∃ i, s.blocks.pendingSet.getLsbD i = true ∧ s.blocks.attention.mask.getLsbD i = false) ∧
  ∀ s : State, s.Ready → ∃ t, exec (.readAttention .addressed) s = .next t ∧
    let b := s.blocks
    let a := b.attention
    let reply := fun (cause : Byte) (detail : List Byte) (after : Blocks) =>
      s.Answered t .readAttention .ok
        ([cause, after.pendingSet.zeroExtend 8, b.controller.state.byte] ++ detail) after
    let marked := fun (o : Order) => b.withOrders (b.orders.update o.tag fun x => { x with reported := true })
    (∀ r, a.faultRecord = some r →
      reply 1 [r.kind.byte, optionalByte (r.tractor.map Tractor.byte), r.activity.byte, byteOf r.count, 0, 0] b) ∧
    (a.faultRecord = none → ∀ o, b.orders.unreportedHalt = some o →
      reply 2 [byteOf o.tag, optionalByte (o.halt.map HaltReason.byte), 0, 0, 0, 0] (marked o)) ∧
    (a.faultRecord = none → b.orders.unreportedHalt = none → a.paperA ≠ 0 →
      reply 3 [0, a.paperA.zeroExtend 8, 0, 0, 0, 0] (b.withAttention { a with paperA := 0 })) ∧
    (a.faultRecord = none → b.orders.unreportedHalt = none → a.paperA = 0 → a.paperB ≠ 0 →
      reply 3 [1, a.paperB.zeroExtend 8, 0, 0, 0, 0] (b.withAttention { a with paperB := 0 })) ∧
    (a.faultRecord = none → b.orders.unreportedHalt = none → a.paperA = 0 → a.paperB = 0 →
      ∀ o, b.orders.unreportedClosed = some o →
        reply 4 [byteOf o.tag, o.state.byte, byteOf o.done, byteOf o.voided, 0, 0] (marked o)) ∧
    (a.faultRecord = none → b.orders.unreportedHalt = none → a.paperA = 0 → a.paperB = 0 →
      b.orders.unreportedClosed = none → a.linkTrouble ≠ 0 →
        reply 5 [a.linkTrouble.zeroExtend 8, 0, 0, 0, 0, 0] (b.withAttention { a with linkTrouble := 0 })) ∧
    (a.faultRecord = none → b.orders.unreportedHalt = none → a.paperA = 0 → a.paperB = 0 →
      b.orders.unreportedClosed = none → a.linkTrouble = 0 → s.Answered t .readAttention .none [] b)

/-- CONFIGURE is refused BAD_VALUE for a tick period outside 1, 2, 4, 8 or a debounce time outside 2, 4, 8, 16; else
it writes its five values together. A changed period restarts the refill timer, a changed debounce time every debounce
timer in flight, and a changed idle release time acts on the idle timer by R169; a value written equal to the old one
restarts nothing (R166, R167, R169). -/
def Obligations.ConfigureWritesItsValues : Prop :=
  ∀ (s : State) (tick debounce idle station mask : Byte), s.Ready →
    ∃ t, exec (.configure .addressed tick debounce idle station mask) s = .next t ∧
      s.Tested t .configure
        [(¬ (tick ∈ [1, 2, 4, 8] ∧ debounce ∈ [2, 4, 8, 16]), .badValue)]
        (∃ b, s.Answered t .configure .ok [] b ∧
          b.attention.tickPeriod = tick.toNat ∧ b.attention.debounceTime = debounce.toNat ∧
          b.attention.idleTime = idle.toNat ∧ b.attention.stationMask = station.truncate 5 ∧
          b.attention.mask = mask.truncate 5 ∧
          b.head = (if s.blocks.attention.tickPeriod = tick.toNat then s.blocks.head
            else { s.blocks.head with refillTimer := tick.toNat }) ∧
          (∀ k, b.paper.inputs.get k =
            (if s.blocks.attention.debounceTime = debounce.toNat then s.blocks.paper.inputs.get k
             else { s.blocks.paper.inputs.get k with
                    timer := (s.blocks.paper.inputs.get k).timer.map fun _ => debounce.toNat })) ∧
          (s.blocks.attention.idleTime = idle.toNat → b.attention.idleTimer = s.blocks.attention.idleTimer) ∧
          (¬ s.blocks.attention.idleTime = idle.toNat →
            (∀ n, s.blocks.attention.idleTimer = .running n →
              b.attention.idleTimer = if idle = 0 then .stopped else .running idle.toNat) ∧
            (s.blocks.attention.idleTimer = .expired → b.attention.idleTimer = .expired) ∧
            (s.blocks.attention.idleTimer = .stopped → b.attention.idleTimer =
              if s.blocks.attention.idleTime = 0 ∧ s.blocks.atRest = true then .running idle.toNat else .stopped)) ∧
          b.forms = s.blocks.forms ∧ b.pool = s.blocks.pool ∧ b.glyphs = s.blocks.glyphs ∧
          b.composer = s.blocks.composer ∧ b.orders = s.blocks.orders ∧ b.controller = s.blocks.controller ∧
          b.paper.stockA = s.blocks.paper.stockA ∧ b.paper.stockB = s.blocks.paper.stockB ∧
          b.paper.motion = s.blocks.paper.motion ∧ b.attention.faultRecord = s.blocks.attention.faultRecord ∧
          b.attention.paperA = s.blocks.attention.paperA ∧ b.attention.paperB = s.blocks.attention.paperB ∧
          b.attention.linkTrouble = s.blocks.attention.linkTrouble ∧ b.attention.address = s.blocks.attention.address)

/-- CLEAR_FAULT is refused WRONG_STATE outside FAULTED, then BUSY while a homing is in flight, then COVER_OPEN; else
it is ACCEPTED and the homing begins (R68, R164). With HOME not asserted the homing is then in flight for it, the idle
timer is stopped, and nothing else changes. With HOME asserted it succeeds with no step taken: the carriage is homed at
coordinate 0 with next direction LEFT_TO_RIGHT, the fault record is removed and the controller is IDLE (R68, R156,
R164), where an order that may start then starts (R135). That homed stands and the idle timer stops while the homing is
in flight is deduced (assumption logs 18 and 31), and so is the order of what follows (log 32). -/
def Obligations.ClearFaultBeginsAHoming : Prop :=
  ∀ s : State, s.Ready → ∃ t, exec (.clearFault .addressed) s = .next t ∧
    let h := s.blocks.head
    s.Tested t .clearFault
      [(¬ s.blocks.controller.state = .faulted, .wrongState), (h.carriage.activity = .homing, .busy),
       (s.blocks.coverOpen = true, .coverOpen)]
      ((s.blocks.homeSeen = false → h.carriage.activity = .idle → s.Answered t .clearFault .accepted []
        { s.blocks with
          head :=
            { h with
              carriage := { h.carriage with activity := .homing, motor := .held }
              segment := none
              homeFor := [.clearFault]
              homingSteps := 0
              stallCount := 0
              firing := 0 }
          attention := { s.blocks.attention with idleTimer := .stopped } }) ∧
       (s.blocks.homeSeen = true → h.carriage.activity = .idle → s.AnsweredSettled t .clearFault .accepted
        { s.blocks with
          head := (s.blocks.homingFor .clearFault).head.homedAt
          controller := { s.blocks.controller with state := .idle }
          attention := { s.blocks.attention with faultRecord := none, idleTimer := .stopped } }))

/-- SOFT_RESET is answered OK before any of its effects is made, and the end of that reply makes them (R173, R186): a
ticket in flight ends voided, with its struck counters advanced, its staged contents live and its in-flight mark clear
(R143, R157); every order record is removed, the controller record and the composer are as after hard reset, the event
sets are empty (R116, R157, R173); a pass ends, a stock that was moving is LOST with its form kept (R71, R102); and a
homing is in flight, or, with HOME asserted, has succeeded and removed the fault record (R68, R174). Everything else
is kept: the forms and fields, the glyphs, the heat accounts, the plan record, all configuration values (R66, R173).
That the homing stops the idle timer and what homed holds meanwhile are deduced (assumption logs 18, 31), and so is
the order of what follows (log 32). -/
def Obligations.SoftResetFollowsItsReply : Prop :=
  (∀ s : State, s.Ready → ∃ t, exec (.softReset .addressed) s = .next t ∧
    s.Answered t .softReset .ok [] s.blocks ∧
    ∃ u, exec .replyComplete t = .next u ∧ u.blocks = s.blocks.softReset ∧ u.held = false ∧ u.pending = s.pending ∧
      u.link = { t.link with reply := none, paused := false, resetDue := false }) ∧
  ∀ b : Blocks,
    let c := b.softReset
    let h := b.head
    let reset :=
      { b.attention with paperA := 0, paperB := 0, linkTrouble := 0, idleTimer := .stopped }
    let parked := { h with pass := none, segment := none, hold := .none, firing := 0, homingSteps := 0, stallCount := 0 }
    ((∀ o, b.currentOrder = some o → (b.form o.form).inFlight = false) → c.forms = b.forms ∧ c.pool = b.pool) ∧
    (∀ o, b.currentOrder = some o → (b.form o.form).inFlight = true →
      c.forms = b.forms.set o.form { b.form o.form with inFlight := false } ∧ c.pool = b.ticketPool o.form) ∧
    c.glyphs = b.glyphs ∧ c.composer = { image := [], spans := [], passSpan := none } ∧
    c.orders = { records := [], next := 1 } ∧
    c.controller =
      { state := .idle, current := none, phase := .none, line := none, struck := [], heldReason := none,
        voidMotion := none, remembered := none, coverMark := false, awaitsHoming := false, presentFinal := false } ∧
    (b.paper.motion = none → c.paper = { b.paper with waiting := false }) ∧
    (∀ m, b.paper.motion = some m →
      c.paper =
        { b.paper.setStock m.tractor { b.paper.stock m.tractor with state := .lost, offset := none } with
          motion := none
          waiting := false }) ∧
    (b.homeSeen = false →
      c.head =
        { parked with
          carriage :=
            { h.carriage with
              homed :=
                if h.carriage.activity = .homing ∨ h.carriage.activity = .approach ∨
                    h.carriage.activity = .segment then false
                else h.carriage.homed
              activity := .homing
              motor := .held }
          homeFor := [.softReset] } ∧
      c.attention = reset) ∧
    (b.homeSeen = true →
      c.head =
        { parked with
          carriage :=
            { coordinate := 0, homed := true, motor := .held, activity := .idle, next := .leftToRight }
          homeFor := [] } ∧
      c.attention =
        { reset with
          faultRecord := none
          idleTimer := if b.attention.idleTime = 0 then .stopped else .running b.attention.idleTime })

/-- REPLY_COMPLETE: TXD is released and the pause mark cleared; the records change only where the reply was
SOFT_RESET's (R179, R186, R187). With no reply being sent it changes nothing (assumption log 2). A reply is held whole
until then (the model's choice, assumption log 22). -/
def Obligations.ReplyCompleteEndsThePause : Prop :=
  ∀ s : State, s.held = false → ∃ t, exec .replyComplete s = .next t ∧
    (s.link.reply = none → t = s) ∧
    (s.link.reply ≠ none → t.link = { s.link with paused := false, reply := none, resetDue := false } ∧
      t.held = s.held ∧ t.pending = s.pending ∧
      t.blocks = if s.link.resetDue = true then s.blocks.softReset else s.blocks)

/-! ## Forms -/

/-- FORM_DEFINE is refused BAD_VALUE for an illegal geometry or value, then EXISTS for a DEFINED form; else the record
is DEFINED with the carried values, UNLOCKED, its counts 0 and its in-flight mark clear, and no other record changes
(R3, R13, R14). -/
def Obligations.FormDefineWritesANewRecord : Prop :=
  ∀ (s : State) (a : FormBytes), s.Ready → ∃ t, exec (.formDefine .addressed a) s = .next t ∧
    s.Tested t .formDefine
      [(¬ a.legal, .badValue), ((s.blocks.form a.form.toNat).defined = true, .exists)]
      (s.Answered t .formDefine .ok []
        { s.blocks with forms := s.blocks.forms.set a.form.toNat { a.into FormRecord.empty with defined := true } })

/-- FORM_AMEND is refused BAD_VALUE, NO_FORM, FROZEN, LOCKED, IN_USE for a form on a stock or named by an order that
is not closed, OUT_OF_FORM where a field would leave the printable lines; else the geometry and the settings are
replaced and every other value of the record is kept (R8, R12, R13, R15). FORM_LOCK is refused BAD_VALUE, NO_FORM, and
FROZEN where a FROZEN form would become LOCKED or UNLOCKED; else the lock alone is replaced (R7, R13, R17). -/
def Obligations.FormsAreAmendedAndLocked : Prop :=
  (∀ (s : State) (a : FormBytes), s.Ready → ∃ t, exec (.formAmend .addressed a) s = .next t ∧
     let old := s.blocks.form a.form.toNat
     s.Tested t .formAmend
       [(¬ a.legal, .badValue), (old.defined = false, .noForm), (old.lock = .frozen, .frozen),
        (old.lock = .locked, .locked),
        (s.blocks.carried a.form.toNat ∨
           ∃ o ∈ s.blocks.orders.records, o.form = a.form.toNat ∧ ¬ o.state = .done ∧ ¬ o.state = .cancelled, .inUse),
        (∃ q ∈ s.blocks.pool, q.form = a.form.toNat ∧
           ¬ (a.top.toNat ≤ q.line ∧ q.line + a.bottom.toNat < a.lines.toNat), .outOfForm)]
       (s.Answered t .formAmend .ok [] { s.blocks with forms := s.blocks.forms.set a.form.toNat (a.into old) })) ∧
  ∀ (s : State) (form target : Byte), s.Ready → ∃ t, exec (.formLock .addressed form target) s = .next t ∧
    let old := s.blocks.form form.toNat
    s.Tested t .formLock
      [(¬ (form.toNat ≤ 7 ∧ target.toNat ≤ 2), .badValue), (old.defined = false, .noForm),
       (old.lock = .frozen ∧ ¬ target = 2, .frozen)]
      (s.Answered t .formLock .ok []
        { s.blocks with
          forms := s.blocks.forms.set form.toNat
            { old with lock := if target = 0 then .unlocked else if target = 1 then .locked else .frozen } })

/-- FORM_RETIRE is refused BAD_VALUE, NO_FORM, FROZEN, LOCKED, IN_USE for a form on a stock or named by any order;
else the record becomes EMPTY and every field of the form leaves the pool, the others staying in their order (R12,
R13, R18). -/
def Obligations.FormRetireEmptiesTheForm : Prop :=
  ∀ (s : State) (form : Byte), s.Ready → ∃ t, exec (.formRetire .addressed form) s = .next t ∧
    let old := s.blocks.form form.toNat
    s.Tested t .formRetire
      [(¬ form.toNat ≤ 7, .badValue), (old.defined = false, .noForm), (old.lock = .frozen, .frozen),
       (old.lock = .locked, .locked),
       (s.blocks.carried form.toNat ∨ ∃ o ∈ s.blocks.orders.records, o.form = form.toNat, .inUse)]
      (s.Answered t .formRetire .ok []
        { s.blocks with
          forms := s.blocks.forms.set form.toNat FormRecord.empty
          pool := s.blocks.pool.filter fun q => decide (¬ q.form = form.toNat) })

/-! ## Fields -/

/-- FIELD_DEFINE is refused in the order of R39 and R40: BAD_VALUE, NO_FORM, FROZEN, LOCKED, IN_FLIGHT, EXISTS,
OUT_OF_FORM, OVERLAP, NO_FIELD for a link without a target or to a link, FULL; else the record enters the pool at its
place in print order and the form's field count goes up by one (R23, R41). -/
def Obligations.FieldDefineEntersThePool : Prop :=
  ∀ (s : State) (a : FieldBytes), s.Ready → ∃ t, exec (.fieldDefine .addressed a) s = .next t ∧
    let f := a.form.toNat
    let form := s.blocks.form f
    s.Tested t .fieldDefine
      [(¬ a.legal, .badValue), (form.defined = false, .noForm), (form.lock = .frozen, .frozen),
       (form.lock = .locked, .locked), (form.inFlight = true, .inFlight),
       (¬ s.blocks.field f a.field.toNat = none, .exists),
       (¬ (form.top ≤ a.line.toNat ∧ a.line.toNat + form.bottom < form.lines), .outOfForm),
       (∃ q ∈ s.blocks.pool, q.form = f ∧ q.line = a.line.toNat ∧ a.column.toNat < q.column + q.width ∧
          q.column < a.column.toNat + a.width.toNat, .overlap),
       (a.kind = 3 ∧ ∀ q, s.blocks.field f a.target.toNat = some q → ∃ c n, q.body = .link c n, .noField),
       (160 ≤ s.blocks.pool.length ∨ 40 ≤ (s.blocks.fieldsOf f).length, .full)]
      (s.Answered t .fieldDefine .ok []
        { s.blocks with
          pool := insertField a.record s.blocks.pool
          forms := s.blocks.forms.set f { form with fieldCount := form.fieldCount + 1 } })

/-- FIELD_SET is refused BAD_LENGTH for a text no frame carries (assumption log 24), BAD_VALUE, NO_FORM, NO_FIELD,
BAD_VALUE for another kind, FROZEN and LOCKED for a protected field alone, BAD_VALUE for a text longer than the field,
BAD_CHAR, STALE; else the text is written live (OK) or, while the form's in-flight mark is set, staged (STAGED), and
the revision goes up by one, modulo 65,536, and is returned (R32 to R35, R39, R42). -/
def Obligations.FieldSetWritesLiveOrStaged : Prop :=
  ∀ (s : State) (form field mark : Byte) (expected : Half) (text : List Byte), s.Ready →
    ∃ t, exec (.fieldSet .addressed form field mark expected text) s = .next t ∧
      let f := form.toNat
      s.Tested t .fieldSet
        [(195 < text.length, .badLength),
         (¬ (f ≤ 7 ∧ field.toNat ≤ 63 ∧ mark.toNat ≤ 1 ∧ text.length ≤ 48), .badValue),
         ((s.blocks.form f).defined = false, .noForm), (s.blocks.field f field.toNat = none, .noField)]
        (∀ r, s.blocks.field f field.toNat = some r →
          ((∀ c g l p, ¬ r.body = .text c g l p) → s.Refused t .fieldSet .badValue) ∧
          ∀ c g l p, r.body = .text c g l p →
            s.Tested t .fieldSet
              [(g = true ∧ (s.blocks.form f).lock = .frozen, .frozen),
               (g = true ∧ (s.blocks.form f).lock = .locked, .locked), (r.width < text.length, .badValue),
               (¬ ∀ x ∈ text, 0x20 ≤ x.toNat ∧ x.toNat ≤ (if c.glyphSet = 2 then 0x5F else 0x7E), .badChar),
               (mark = 1 ∧ ¬ r.revision = expected, .stale)]
              (s.Answered t .fieldSet (if (s.blocks.form f).inFlight = true then .staged else .ok)
                (halfBytes (r.revision + 1).toNat)
                { s.blocks with
                  pool := updateField s.blocks.pool f field.toNat fun q =>
                    { q with
                      revision := q.revision + 1
                      body :=
                        if (s.blocks.form f).inFlight = true then .text c g l (some text)
                        else .text c g (if text = [] then none else some text) p } }))

/-- COUNTER_SET is refused BAD_VALUE (a nonzero half that is no decimal digit among them), NO_FORM, NO_FIELD,
BAD_VALUE for another kind, FROZEN, LOCKED, BAD_VALUE for a value of more digits than the counter has, STALE; else the
value is written live (OK), its exhausted mark cleared, or staged (STAGED), and the revision goes up by one and is
returned (R28, R33 to R35, R39, R43). -/
def Obligations.CounterSetWritesLiveOrStaged : Prop :=
  ∀ (s : State) (form field mark : Byte) (expected : Half) (value : Bcd), s.Ready →
    ∃ t, exec (.counterSet .addressed form field mark expected value) s = .next t ∧
      let f := form.toNat
      s.Tested t .counterSet
        [(¬ (f ≤ 7 ∧ field.toNat ≤ 63 ∧ mark.toNat ≤ 1 ∧ ∀ d ∈ decadesOf value, d ≤ 9), .badValue),
         ((s.blocks.form f).defined = false, .noForm), (s.blocks.field f field.toNat = none, .noField)]
        (∀ r, s.blocks.field f field.toNat = some r →
          ((∀ c p v, ¬ r.body = .counter c p v) → s.Refused t .counterSet .badValue) ∧
          ∀ c p v, r.body = .counter c p v →
            s.Tested t .counterSet
              [((s.blocks.form f).lock = .frozen, .frozen), ((s.blocks.form f).lock = .locked, .locked),
               (¬ ∀ d ∈ (decadesOf value).drop p.decades.length, d = 0, .badValue),
               (mark = 1 ∧ ¬ r.revision = expected, .stale)]
              (let carried := (decadesOf value).take p.decades.length
               s.Answered t .counterSet (if (s.blocks.form f).inFlight = true then .staged else .ok)
                (halfBytes (r.revision + 1).toNat)
                { s.blocks with
                  pool := updateField s.blocks.pool f field.toNat fun q =>
                    { q with
                      revision := q.revision + 1
                      body :=
                        if (s.blocks.form f).inFlight = true then .counter c p (some carried)
                        else .counter c { p with decades := carried, exhausted := false } v } }))

/-- FIELD_RETIRE is refused BAD_VALUE, NO_FORM, FROZEN, LOCKED, IN_FLIGHT, NO_FIELD, LINKED; else the field leaves the
pool, the others staying in their order, and the form's field count goes down by one (R31, R39, R46). -/
def Obligations.FieldRetireLeavesThePool : Prop :=
  ∀ (s : State) (form field : Byte), s.Ready → ∃ t, exec (.fieldRetire .addressed form field) s = .next t ∧
    let f := form.toNat
    let old := s.blocks.form f
    s.Tested t .fieldRetire
      [(¬ (f ≤ 7 ∧ field.toNat ≤ 63), .badValue), (old.defined = false, .noForm), (old.lock = .frozen, .frozen),
       (old.lock = .locked, .locked), (old.inFlight = true, .inFlight),
       (s.blocks.field f field.toNat = none, .noField),
       (∃ q ∈ s.blocks.pool, q.form = f ∧ ∃ c, q.body = .link c field.toNat, .linked)]
      (s.Answered t .fieldRetire .ok []
        { s.blocks with
          pool := s.blocks.pool.filter fun q => decide (¬ (q.form = f ∧ q.field = field.toNat))
          forms := s.blocks.forms.set f { old with fieldCount := old.fieldCount - 1 } })

/-- A carried counter value is ten decades, two in a byte, the highest decade in the high half of the first byte and
the units in the low half of the fifth, and a reply carries it so (R190). One advance of a counter whose decades are
decimal and whose step is 1 to 9: below 10^digits the value goes up by the step; past it a WRAP counter drops the
carry and a STOP counter keeps its value and is exhausted. The digit count and the other values stay, and the field's
revision goes up by one, modulo 65,536 (R27, R33). -/
def Obligations.CounterAdvanceIsDecimal : Prop :=
  (∀ (p : List Byte) (i : Nat),
    let byte := fun k => (p.getD (i + k) 0).toNat
    decadesOf (payloadBcd p i) =
      [byte 4 % 16, byte 4 / 16, byte 3 % 16, byte 3 / 16, byte 2 % 16, byte 2 / 16, byte 1 % 16, byte 1 / 16,
        byte 0 % 16, byte 0 / 16]) ∧
  (∀ decades : List Nat,
    let half := fun k => decades.getD k 0
    bcdBytes decades =
      [BitVec.ofNat 8 (16 * half 9 + half 8), BitVec.ofNat 8 (16 * half 7 + half 6),
        BitVec.ofNat 8 (16 * half 5 + half 4), BitVec.ofNat 8 (16 * half 3 + half 2),
        BitVec.ofNat 8 (16 * half 1 + half 0)]) ∧
  ∀ (r : FieldRecord) (c : CharPart) (p : CounterPart) (v : Option (List Nat)), r.body = .counter c p v →
    (∀ d ∈ p.decades, d ≤ 9) → 1 ≤ p.stride → p.stride ≤ 9 → 1 ≤ p.decades.length →
    ∃ q, r.advance = { r with body := .counter c q v, revision := r.revision + 1 } ∧
      q.decades.length = p.decades.length ∧ (∀ d ∈ q.decades, d ≤ 9) ∧ q.stride = p.stride ∧ q.policy = p.policy ∧
      q.zeroFill = p.zeroFill ∧
      (decimalValue p.decades + p.stride < 10 ^ p.decades.length →
        decimalValue q.decades = decimalValue p.decades + p.stride ∧ q.exhausted = p.exhausted) ∧
      (10 ^ p.decades.length ≤ decimalValue p.decades + p.stride →
        (p.policy = .wrap →
          decimalValue q.decades + 10 ^ p.decades.length = decimalValue p.decades + p.stride ∧
            q.exhausted = p.exhausted) ∧
        (p.policy = .stop → q.decades = p.decades ∧ q.exhausted = true))

/-! ## Glyphs, composition and plans -/

/-- R51: GLYPH_LOAD is refused BAD_VALUE for a code outside 0x21..0x5F, then BUSY while any form's in-flight mark is
set; else the ten patterns replace the glyph's and its loaded mark is set. (A list of other than ten patterns, which
no frame carries, is answered BAD_LENGTH: the model's choice, assumption log 24.) -/
def Obligations.GlyphLoadReplacesTheGlyph : Prop :=
  ∀ (s : State) (code : Byte) (columns : List Column), s.Ready →
    ∃ t, exec (.glyphLoad .addressed code columns) s = .next t ∧
      s.Tested t .glyphLoad
        [(¬ columns.length = 10, .badLength), (¬ (0x21 ≤ code.toNat ∧ code.toNat ≤ 0x5F), .badValue),
         (∃ r ∈ s.blocks.forms, r.inFlight = true, .busy)]
        (s.Answered t .glyphLoad .ok []
          { s.blocks with
            glyphs := s.blocks.glyphs.set (code.toNat - 0x20) { columns := columns, loaded := true } })

/-- R53: GLYPH_QUERY is refused BAD_VALUE for a set outside 0..2 or a code outside the set's range; else it returns
the set, the code, the loaded mark (always set for sets 0 and 1) and the ten column patterns the store holds, and
changes nothing. -/
def Obligations.GlyphQueryReturnsTheGlyph : Prop :=
  ∀ (s : State) (set code : Byte), s.Ready → s.blocks.glyphsOk →
    ∃ t, exec (.glyphQuery .addressed set code) s = .next t ∧
      s.Tested t .glyphQuery
        [(¬ (set.toNat ≤ 2 ∧ 0x20 ≤ code.toNat ∧ code.toNat ≤ (if set = 2 then 0x5F else 0x7E)), .badValue)]
        (∃ (loaded : Byte) (columns : List Column), columns.length = 10 ∧
          s.Answered t .glyphQuery .ok ([set, code, loaded] ++ columns.flatMap fun c => halfBytes c.toNat) s.blocks ∧
          (¬ set = 2 → loaded = 1 ∧ columns = s.blocks.glyphColumns set.toNat code) ∧
          (set = 2 → ∃ g, s.blocks.glyphs[code.toNat - 0x20]? = some g ∧ columns = g.columns ∧
            loaded = if g.loaded = true then 1 else 0))

/-- Whatever dots the resident glyphs hold (the model's free value, assumption log 8), every one has ten columns, the
one for 0x20 is blank, every other holds a dot, and none holds a dot for one pin in two adjacent columns (R47, R48).
-/
def Obligations.ResidentGlyphsAreLegal : Prop :=
  ∀ (b : Blocks) (set : Nat) (code : Byte), set < 2 → 0x20 ≤ code.toNat → code.toNat ≤ 0x7E →
    (b.glyphColumns set code).length = 10 ∧
      (code = 0x20 → ∀ c ∈ b.glyphColumns set code, c = 0) ∧
      (¬ code = 0x20 → ∃ c ∈ b.glyphColumns set code, ¬ c = 0) ∧
      ∀ i c d, (b.glyphColumns set code)[i]? = some c → (b.glyphColumns set code)[i + 1]? = some d → c &&& d = 0

/-- A composed line: each of the 1,536 dot columns fires what the line's fields fire there, the image lists the firing
columns lowest first, every field has its span in print order with the counter it serves (a counter its own, a link to
a counter its target's, any other none), and the pass span runs from the lowest firing column to the highest, or is
empty where none fires; only the composer changes (R54, R63, R64). -/
def Obligations.CompositionGathersTheLine : Prop :=
  ∀ (b : Blocks) (f line : Nat),
    let fields := b.pool.filter fun r => decide (r.form = f ∧ r.line = line)
    let c := b.compose f line
    c = { b with composer := c.composer } ∧
      (∀ d < 1536, ∀ i, (imagePins c.composer.image d).getLsbD i = true ↔
        ∃ r ∈ fields, (b.fieldPins r d).getLsbD i = true) ∧
      (c.composer.image.map (·.column)).Pairwise (· < ·) ∧ (∀ x ∈ c.composer.image, x.column < 1536 ∧ ¬ x.pins = 0) ∧
      (∃ served : FieldRecord → Option Nat,
        c.composer.spans = fields.map (fun r =>
          { field := r.field, first := 12 * r.column, last := 12 * (r.column + r.width) - 1, counter := served r }) ∧
          ∀ r : FieldRecord,
            (∀ a p v, r.body = .counter a p v → served r = some r.field) ∧
            (∀ a n q e p v, r.body = .link a n → b.field r.form n = some q → q.body = .counter e p v →
              served r = some n) ∧
            (∀ a n, r.body = .link a n → (∀ q e p v, b.field r.form n = some q → ¬ q.body = .counter e p v) →
              served r = none) ∧
            ((∀ a p v, ¬ r.body = .counter a p v) → (∀ a n, ¬ r.body = .link a n) → served r = none)) ∧
      (c.composer.passSpan = none ↔ c.composer.image = []) ∧
      (∀ first last, c.composer.passSpan = some (first, last) →
        (∃ x ∈ c.composer.image, x.column = first) ∧ (∃ x ∈ c.composer.image, x.column = last) ∧
          ∀ x ∈ c.composer.image, first ≤ x.column ∧ x.column ≤ last)

/-- The characters of a field: a text's live content; a counter's digits, highest first, all of them with zero-fill,
else without leading zeros, and 0 for the value 0; none for a rule; a link's are its target's (R25, R59). Its cells:
the content cut to the width, keeping its last characters under RIGHT and its first else, padded with 0x20 by the
alignment, and a code outside the glyph set drawn as 0x3F (R55 to R58). What a field fires in a dot column: nothing
outside its span; a rule its pins in every column of it; a character field the glyph of its cell, whose column repeats
one to the right under BOLD, with pin 17 along the whole span under UNDERLINE (R29, R47, R55, R60 to R62). -/
def Obligations.FieldsFireWithinTheirSpans : Prop :=
  (∀ (b : Blocks) (r : FieldRecord),
    (∀ c g l p, r.body = .text c g l p → b.content r = l.getD []) ∧
    (∀ y, r.body = .rule y → b.content r = []) ∧
    (∀ c p v, r.body = .counter c p v →
      let digits := p.decades.reverse.map fun d => BitVec.ofNat 8 (0x30 + d)
      let zeros := fun n => List.replicate n (0x30 : Byte)
      (p.zeroFill = true → b.content r = digits) ∧
      (p.zeroFill = false →
        (∃ n first rest, digits = zeros n ++ b.content r ∧ b.content r = first :: rest ∧ ¬ first = 0x30) ∨
          digits = zeros p.decades.length ∧ b.content r = [0x30])) ∧
    ∀ c n q, r.body = .link c n → b.field r.form n = some q → (∀ e m, ¬ q.body = .link e m) →
      b.content r = b.content q) ∧
  (∀ (c : CharPart) (width : Nat) (content : List Byte),
    let length := min content.length width
    let left := if c.align = .left then 0 else if c.align = .right then width - length else (width - length) / 2
    let cut := if c.align = .right then content.length - length else 0
    let drawn := fun x : Byte =>
      if 0x20 ≤ x.toNat ∧ x.toNat ≤ (if c.glyphSet = 2 then 0x5F else 0x7E) then x else 0x3F
    (cells c width content).length = width ∧
      ∀ i < width, (cells c width content)[i]? =
        some (drawn (if left ≤ i ∧ i < left + length then content.getD (cut + (i - left)) 0x20 else 0x20))) ∧
  ∀ (b : Blocks) (r : FieldRecord) (d : Nat), 1 ≤ r.width →
    (¬ (12 * r.column ≤ d ∧ d < 12 * (r.column + r.width)) → b.fieldPins r d = 0) ∧
    (12 * r.column ≤ d → d < 12 * (r.column + r.width) →
      (r.body = .rule .thin → b.fieldPins r d = pin 9) ∧
      (r.body = .rule .thick → b.fieldPins r d = pin 8 ||| pin 9) ∧
      (r.body = .rule .base → b.fieldPins r d = pin 18) ∧
      ∀ c, r.body.chars = some c →
        let glyph := b.glyphColumns c.glyphSet ((cells c r.width (b.content r)).getD (d / 12 - r.column) 0x20)
        (∀ row < 16, (b.fieldPins r d).getLsbD (17 - row) = true ↔
          (glyph.getD (d % 12) 0).getLsbD (15 - row) = true ∨
            c.emphasis = .bold ∧ 0 < d % 12 ∧ (glyph.getD (d % 12 - 1) 0).getLsbD (15 - row) = true) ∧
        ((b.fieldPins r d).getLsbD 1 = true ↔ c.emphasis = .underline) ∧ (b.fieldPins r d).getLsbD 0 = false)

/-- A plan never fires a pin that is short: FULL only for the whole part, with no pin in two adjacent columns and
every firing affordable at FULL; else HALF over the longest run that is affordable at HALF; a dwell only where the
first column is short (R77 to R81). -/
def Obligations.PlansAreAffordable : Prop :=
  ∀ (image : List Dots) (strike : Nat) (d : PassDirection) (first last : Nat) (heat : List Nat),
    let columns := travel d first last
    let fits := fun (v : Speed) (k : Nat) =>
      short strike (imagePins image (columns.getD k 0)) (heatAt image strike v columns heat k) = false
    let joined := ∃ i, first ≤ i ∧ i < last ∧ ¬ imagePins image i &&& imagePins image (i + 1) = 0
    (∀ n, planPart image strike d first last heat = .segment .full n →
      n = columns.length ∧ ¬ joined ∧ ∀ k < n, fits .full k) ∧
    (∀ n, planPart image strike d first last heat = .segment .half n →
      1 ≤ n ∧ n ≤ columns.length ∧ (∀ k < n, fits .half k) ∧ (n < columns.length → ¬ fits .half n) ∧
        (joined ∨ ∃ k < columns.length, ¬ fits .full k)) ∧
    (∀ n, ¬ planPart image strike d first last heat = .segment .none n) ∧
    (planPart image strike d first last heat = .dwell →
      ¬ columns = [] ∧ ¬ fits .half 0 ∧ (joined ∨ ∃ k < columns.length, ¬ fits .full k))

/-! ## Queries -/

/-- FORM_QUERY returns the 17 bytes of the record, with its length and strike class (R5, R16); FIELD_QUERY the 28
bytes of the field, by kind, and its contents (R44); FIELD_LIST the counts and at most sixteen ids in print order from
the start index (R45). Each is refused as its rule gives, and none changes a record. -/
def Obligations.FormAndFieldQueriesReturnTheRecords : Prop :=
  ∀ s : State, s.Ready →
    (∀ form : Byte, ∃ t, exec (.formQuery .addressed form) s = .next t ∧
      let r := s.blocks.form form.toNat
      s.Tested t .formQuery [(¬ form.toNat ≤ 7, .badValue)]
        (s.Answered t .formQuery .ok
          [form, if r.defined = true then 1 else 0, byteOf r.lines, byteOf r.pitch, byteOf (r.lines * r.pitch / 256),
            byteOf (r.lines * r.pitch), byteOf r.top, byteOf r.bottom, byteOf r.copies, byteOf ((r.copies + 1) / 2),
            r.direction.byte, r.policy.byte, r.lock.byte, byteOf (r.issueCount / 256), byteOf r.issueCount,
            byteOf r.fieldCount, if r.inFlight = true then 1 else 0] s.blocks)) ∧
    (∀ form field : Byte, ∃ t, exec (.fieldQuery .addressed form field) s = .next t ∧
      s.Tested t .fieldQuery
        [(¬ (form.toNat ≤ 7 ∧ field.toNat ≤ 63), .badValue), ((s.blocks.form form.toNat).defined = false, .noForm),
         (s.blocks.field form.toNat field.toNat = none, .noField)]
        (∀ r, s.blocks.field form.toNat field.toNat = some r →
          let place := [form, field]
          let size := [byteOf r.line, byteOf r.column, byteOf r.width]
          let revision := [byteOf (r.revision.toNat / 256), byteOf r.revision.toNat]
          let reply := fun (kind : Byte) (chars counter tail : List Byte) =>
            s.Answered t .fieldQuery .ok (place ++ [kind] ++ size ++ chars ++ revision ++ counter ++ tail) s.blocks
          (∀ c g l p, r.body = .text c g l p →
            reply 0 [c.align.byte, byteOf c.glyphSet, c.emphasis.byte, if g = true then 1 else 0] (List.replicate 10 0)
              ([0, 0, if l = none then 0 else 1, byteOf (l.getD []).length, if p = none then 0 else 1,
                byteOf (p.getD []).length] ++ l.getD [] ++ p.getD [])) ∧
          (∀ c p v, r.body = .counter c p v →
            reply 1 [c.align.byte, byteOf c.glyphSet, c.emphasis.byte, 0]
              ([byteOf p.decades.length, byteOf p.stride, p.policy.byte, if p.zeroFill = true then 1 else 0,
                if p.exhausted = true then 1 else 0] ++ bcdBytes p.decades)
              (match v with
               | none => [0, 0, 0, 0, 0, 0]
               | some x => [0, 0, 0, 0, 1, 5] ++ bcdBytes x)) ∧
          (∀ y, r.body = .rule y →
            reply 2 [0xFF, 0xFF, 0xFF, 0] (List.replicate 10 0) [y.byte, 0, 0, 0, 0, 0]) ∧
          (∀ c n, r.body = .link c n →
            reply 3 [c.align.byte, byteOf c.glyphSet, c.emphasis.byte, 0] (List.replicate 10 0)
              [0, byteOf n, 0, 0, 0, 0]))) ∧
    (∀ form start : Byte, ∃ t, exec (.fieldList .addressed form start) s = .next t ∧
      let ids := (((s.blocks.pool.filter fun r => decide (r.form = form.toNat)).drop start.toNat).take 16).map (·.field)
      s.Tested t .fieldList
        [(¬ (form.toNat ≤ 7 ∧ start.toNat ≤ 39), .badValue), ((s.blocks.form form.toNat).defined = false, .noForm)]
        (s.Answered t .fieldList .ok
          ([byteOf (s.blocks.form form.toNat).fieldCount, byteOf s.blocks.pool.length, start, byteOf ids.length] ++
            ids.map byteOf) s.blocks))

/-- READ_IDENTITY returns the 17 bytes of the identity record, and a broadcast one is discarded (R171); STOCK_QUERY
the 19 bytes of the stock record, its sensor, the cover, the feed motor and the motion that moves it (R113);
HEAD_QUERY the 30 bytes of the carriage, the pass plan and the heat accounts (R88); ORDER_QUERY the 12 bytes of one
record, or the list for tag 0 (R131). Each is refused as its rule gives, and none changes a record. -/
def Obligations.StateQueriesReturnTheRecords : Prop :=
  ∀ s : State, s.Ready →
    ((∃ t, exec (.readIdentity .addressed) s = .next t ∧
      s.Answered t .readIdentity .ok
        [74, 0x0C, 0x30, 1, 8, 160, 40, 4, 18, 128, 2, 1, 64, 0x0F, BitVec.ofNat 8 s.blocks.attention.rate,
          BitVec.ofNat 8 s.blocks.attention.address, 3] s.blocks) ∧
      exec (.readIdentity .broadcast) s = .next s) ∧
    (∀ tractor : Byte, 1 < tractor.toNat →
      ∃ t, exec (.stockQuery .addressed tractor) s = .next t ∧ s.Refused t .stockQuery .badValue) ∧
    (∀ k : Tractor, ∃ t, exec (.stockQuery .addressed k.byte) s = .next t ∧
      let x := s.blocks.paper.stock k
      let word := fun (v : Option Nat) => match v with | some n => [byteOf (n / 256), byteOf n] | none => [0xFF, 0xFF]
      s.Answered t .stockQuery .ok
        ([k.byte, x.state.byte, match x.form with | some f => byteOf f | none => 0xFF] ++ word x.offset ++
          word x.endRemaining ++
          [if s.blocks.paper.sensor k = true then 1 else 0, if s.blocks.coverOpen = true then 1 else 0,
            s.blocks.paper.feedMotor.byte] ++
          match s.blocks.paper.motion with
          | some m =>
            if m.tractor = k then
              [1, m.kind.byte, m.direction.byte, m.requester.byte, byteOf m.phase, byteOf (m.done / 256), byteOf m.done,
                byteOf (m.toGo / 256), byteOf m.toGo]
            else List.replicate 9 0
          | none => List.replicate 9 0) s.blocks) ∧
    (∃ t, exec (.headQuery .addressed) s = .next t ∧
      let c := s.blocks.head.carriage
      let p := s.blocks.head.plan
      s.Answered t .headQuery .ok
        ([byteOf (c.coordinate / 256), byteOf c.coordinate, if c.homed = true then 1 else 0, c.motor.byte,
          c.activity.byte, c.next.byte, match p.line with | some n => byteOf n | none => 0xFF, p.direction.byte,
          p.speed.byte, byteOf (p.segments / 256), byteOf p.segments, if p.dwellTaken = true then 1 else 0] ++
          s.blocks.head.heat.map byteOf) s.blocks) ∧
    (∀ tag : Byte, ∃ t, exec (.orderQuery .addressed tag) s = .next t ∧
      (tag = 0 → s.Answered t .orderQuery .ok
        ([byteOf s.blocks.orders.records.length, byteOf (s.blocks.orders.next / 256), byteOf s.blocks.orders.next] ++
          s.blocks.orders.records.flatMap fun o => [byteOf o.tag, o.state.byte]) s.blocks) ∧
      (¬ tag = 0 → s.Tested t .orderQuery [(s.blocks.orders.find tag.toNat = none, .noOrder)]
        (∀ o, s.blocks.orders.find tag.toNat = some o →
          s.Answered t .orderQuery .ok
            [byteOf o.tag, byteOf o.form, byteOf o.requested, byteOf o.done, byteOf o.voided, o.policy.byte,
              o.state.byte, match o.halt with | some h => h.byte | none => 0xFF,
              if o.cancelPending = true then 1 else 0, byteOf (o.admission / 256), byteOf o.admission,
              if o.reported = true then 1 else 0] s.blocks)))

/-! ## Stocks and paper -/

/-- R106: STOCK_ASSIGN is refused BAD_VALUE, NO_FORM, WRONG_STATE for a stock that is not SENSED, IN_USE for a form on
the other stock; else the stock becomes PARKED with the form, its offset not valid and its end remaining absent. -/
def Obligations.StockAssignParksTheStock : Prop :=
  (∀ (s : State) (tractor form : Byte), s.Ready → 1 < tractor.toNat →
    ∃ t, exec (.stockAssign .addressed tractor form) s = .next t ∧ s.Refused t .stockAssign .badValue) ∧
  ∀ (s : State) (k : Tractor) (form : Byte), s.Ready →
    ∃ t, exec (.stockAssign .addressed k.byte form) s = .next t ∧
      s.Tested t .stockAssign
        [(¬ form.toNat ≤ 7, .badValue), ((s.blocks.form form.toNat).defined = false, .noForm),
         (¬ (s.blocks.paper.stock k).state = .sensed, .wrongState),
         ((s.blocks.paper.stock k.other).form = some form.toNat, .inUse)]
        (s.Answered t .stockAssign .ok []
          { s.blocks with
            paper := s.blocks.paper.setStock k
              { state := .parked, form := some form.toNat, offset := none, endRemaining := none } })

/-- STOCK_RELEASE is refused BAD_VALUE, WRONG_STATE for a stock neither PARKED nor LOST, BUSY for a form the RUNNING
order names; else the form is dropped, and the stock is SENSED, or ABSENT where it was LOST and its sensor shows no
paper (R107). -/
def Obligations.StockReleaseDropsTheForm : Prop :=
  (∀ (s : State) (tractor : Byte), s.Ready → 1 < tractor.toNat →
    ∃ t, exec (.stockRelease .addressed tractor) s = .next t ∧ s.Refused t .stockRelease .badValue) ∧
  ∀ (s : State) (k : Tractor), s.Ready → ∃ t, exec (.stockRelease .addressed k.byte) s = .next t ∧
    let x := s.blocks.paper.stock k
    s.Tested t .stockRelease
      [(¬ (x.state = .parked ∨ x.state = .lost), .wrongState),
       (∃ o ∈ s.blocks.orders.records, o.state = .running ∧ x.form = some o.form, .busy)]
      (s.Answered t .stockRelease .ok []
        { s.blocks with
          paper := s.blocks.paper.setStock k
            { state := if x.state = .lost ∧ s.blocks.paper.sensor k = false then .absent else .sensed
              form := none
              offset := none
              endRemaining := none } })

/-- STOCK_PARK is refused BAD_VALUE, BUSY, COVER_OPEN, WRONG_STATE; a PARKED stock is left as it is (OK); else the
stock is moved back by a PARK motion of offset (432 from PRESENTED) + distance, or ejected by end remaining + 48 where
its end has passed the load mark (R98, R99, R105, R108). STOCK_SELECT is refused BAD_VALUE, BUSY, COVER_OPEN,
WRONG_STATE; a stock AT_PRINT is left as it is (OK); else phase 1 parks or ejects the other stock where it lies
AT_PRINT or PRESENTED, and phase 2, at once where the path is clear, advances the stock by its distance, or ejects it
where no paper is left of it (R99, R105, R109). An offset that is not valid, which no step leaves AT_PRINT, reads as 0
(the model's choice, assumption log 26). -/
def Obligations.StocksAreParkedAndSelected : Prop :=
  ((∀ (s : State) (tractor : Byte), s.Ready → 1 < tractor.toNat →
     ∃ t, exec (.stockPark .addressed tractor) s = .next t ∧ s.Refused t .stockPark .badValue) ∧
   ∀ (s : State) (k : Tractor), s.Ready → ∃ t, exec (.stockPark .addressed k.byte) s = .next t ∧
     let x := s.blocks.paper.stock k
     s.Tested t .stockPark
       [(s.blocks.hostBusy, .busy), (s.blocks.coverOpen = true, .coverOpen),
        (¬ (x.state = .parked ∨ x.state = .atPrint ∨ x.state = .presented), .wrongState)]
       ((x.state = .parked → s.Answered t .stockPark .ok [] s.blocks) ∧
         (¬ x.state = .parked →
           (x.endRemaining = none → s.Answered t .stockPark .accepted []
             (s.blocks.inMotion k .park .reverse
               ((if x.state = .presented then 432 else x.offset.getD 0) + k.distance) .terminal 0)) ∧
           ∀ r, x.endRemaining = some r → s.Answered t .stockPark .accepted []
             (s.blocks.inMotion k .eject .forward (r + 48) .terminal 0)))) ∧
  (∀ (s : State) (tractor : Byte), s.Ready → 1 < tractor.toNat →
    ∃ t, exec (.stockSelect .addressed tractor) s = .next t ∧ s.Refused t .stockSelect .badValue) ∧
  ∀ (s : State) (k : Tractor), s.Ready → ∃ t, exec (.stockSelect .addressed k.byte) s = .next t ∧
    let x := s.blocks.paper.stock k
    let y := s.blocks.paper.stock k.other
    s.Tested t .stockSelect
      [(s.blocks.hostBusy, .busy), (s.blocks.coverOpen = true, .coverOpen),
       (¬ (x.state = .parked ∨ x.state = .atPrint) ∨ y.state = .lost, .wrongState)]
      ((x.state = .atPrint → s.Answered t .stockSelect .ok [] s.blocks) ∧
        (¬ x.state = .atPrint →
          (y.state = .atPrint ∨ y.state = .presented →
            (y.endRemaining = none → s.Answered t .stockSelect .accepted []
              (s.blocks.inMotion k.other .park .reverse
                ((if y.state = .presented then 432 else y.offset.getD 0) + k.other.distance) .terminal 1)) ∧
            ∀ r, y.endRemaining = some r → s.Answered t .stockSelect .accepted []
              (s.blocks.inMotion k.other .eject .forward (r + 48) .terminal 1)) ∧
          (¬ (y.state = .atPrint ∨ y.state = .presented) →
            (¬ x.endRemaining = some 0 → s.Answered t .stockSelect .accepted []
              (s.blocks.inMotion k .advance .forward k.distance .terminal 2)) ∧
            (x.endRemaining = some 0 → s.Answered t .stockSelect .accepted []
              (s.blocks.inMotion k .eject .forward 48 .terminal 2)))))

/-- FEED, PRESENT and RETRACT are refused BAD_VALUE (a count above 3,168), BUSY, COVER_OPEN, NO_STOCK, WRONG_STATE;
else the stock in the path moves: forward by the count, or to the next form top; forward 432; back 432. A forward
motion of a stock with no paper left, and a RETRACT whose trailing edge would pass the load mark, are ejections (R98,
R99, R105, R110 to R112). An offset that is not valid, which no step leaves AT_PRINT, reads as 0 (the model's choice,
assumption log 26). -/
def Obligations.PathMotionsMoveTheStockInThePath : Prop :=
  ∀ s : State, s.Ready →
    (∀ count : Half, ∃ t, exec (.feed .addressed count) s = .next t ∧
      s.Tested t .feed
        [(3168 < count.toNat, .badValue), (s.blocks.hostBusy, .busy), (s.blocks.coverOpen = true, .coverOpen),
         (s.blocks.paper.pathTractor = none, .noStock)]
        (∀ k, s.blocks.paper.pathTractor = some k →
          let x := s.blocks.paper.stock k
          let top := s.blocks.stockLength k - x.offset.getD 0
          s.Tested t .feed [(¬ x.state = .atPrint, .wrongState)]
            ((¬ x.endRemaining = some 0 → s.Answered t .feed .accepted []
                (if count = 0 then s.blocks.inMotion k .feedToTop .forward top .terminal 0
                 else s.blocks.inMotion k .feed .forward count.toNat .terminal 0)) ∧
              (x.endRemaining = some 0 → (count = 0 → 0 < top) → s.Answered t .feed .accepted []
                (s.blocks.inMotion k .eject .forward 48 .terminal 0))))) ∧
    (∃ t, exec (.present .addressed) s = .next t ∧
      s.Tested t .present
        [(s.blocks.hostBusy, .busy), (s.blocks.coverOpen = true, .coverOpen),
         (s.blocks.paper.pathTractor = none, .noStock)]
        (∀ k, s.blocks.paper.pathTractor = some k →
          let x := s.blocks.paper.stock k
          s.Tested t .present [(¬ (x.state = .atPrint ∧ x.offset = some 0), .wrongState)]
            ((¬ x.endRemaining = some 0 →
                s.Answered t .present .accepted [] (s.blocks.inMotion k .present .forward 432 .terminal 0)) ∧
              (x.endRemaining = some 0 →
                s.Answered t .present .accepted [] (s.blocks.inMotion k .eject .forward 48 .terminal 0))))) ∧
    (∃ t, exec (.retract .addressed) s = .next t ∧
      s.Tested t .retract
        [(s.blocks.hostBusy, .busy), (s.blocks.coverOpen = true, .coverOpen),
         (s.blocks.paper.pathTractor = none, .noStock)]
        (∀ k, s.blocks.paper.pathTractor = some k →
          let x := s.blocks.paper.stock k
          s.Tested t .retract [(¬ x.state = .presented, .wrongState)]
            (((∀ r, x.endRemaining = some r → r + 432 ≤ k.distance) →
                s.Answered t .retract .accepted [] (s.blocks.inMotion k .retract .reverse 432 .terminal 0)) ∧
              ∀ r, x.endRemaining = some r → k.distance < r + 432 →
                s.Answered t .retract .accepted [] (s.blocks.inMotion k .eject .forward (r + 48) .terminal 0))))

/-! ## Orders -/

/-- ORDER_ISSUE is refused BAD_VALUE, NO_FORM, EXISTS, FULL; else a QUEUED record with the carried values, or the
form's default policy, is admitted last with the next admission number, the table being renumbered first where that
number is 65,535; the Issue Controller may then take it up at once (R117, R121, R125, R126, R135). An order for a form
whose stock is PARKED, issued to an idle part with the path clear, the cover closed, no motion in flight and no order
waiting or HALTED, is started by the same ORDER_ISSUE: it is RUNNING and current, the controller is STAGING, and the
ADVANCE of its stock is in flight (R122, R135 to R137). What follows of itself is in the order of assumption log 32.
-/
def Obligations.OrderIssueAdmitsAndStages : Prop :=
  (∀ (s : State) (tag form requested policy : Byte), s.Ready →
     ∃ t, exec (.orderIssue .addressed tag form requested policy) s = .next t ∧
       let o := s.blocks.orders
       s.Tested t .orderIssue
         [(¬ (1 ≤ tag.toNat ∧ form.toNat ≤ 7 ∧ 1 ≤ requested.toNat ∧ requested.toNat ≤ 250 ∧
             (policy.toNat ≤ 2 ∨ policy = 0xFF)), .badValue),
          ((s.blocks.form form.toNat).defined = false, .noForm), (¬ o.find tag.toNat = none, .exists),
          (4 ≤ o.records.length, .full)]
         (let kept := if o.next < 65535 then o.records else o.records.mapIdx fun i r => { r with admission := i + 1 }
          let number := if o.next < 65535 then o.next else o.records.length + 1
          s.AnsweredSettled t .orderIssue .accepted
            { s.blocks with
              orders :=
                { records :=
                    kept ++
                      [{ tag := tag.toNat
                         form := form.toNat
                         requested := requested.toNat
                         done := 0
                         voided := 0
                         policy :=
                           if policy = 0 then .none else if policy = 1 then .last else if policy = 2 then .each
                           else (s.blocks.form form.toNat).policy
                         state := .queued
                         halt := none
                         cancelPending := false
                         admission := number
                         reported := true }]
                  next := number + 1 } })) ∧
  ∀ (s : State) (k : Tractor) (tag form requested : Byte), s.Ready → s.blocks.controller.state = .idle →
    s.blocks.controller.coverMark = false → s.blocks.coverOpen = false → s.blocks.paper.motion = none →
    (s.blocks.paper.stock k).state = .parked → (s.blocks.paper.stock k).form = some form.toNat →
    ¬ (s.blocks.paper.stock k).endRemaining = some 0 → (s.blocks.paper.stock k.other).state.inPath = false →
    ¬ (s.blocks.paper.stock k.other).form = some form.toNat → 1 ≤ tag.toNat → form.toNat ≤ 7 → 1 ≤ requested.toNat →
    requested.toNat ≤ 250 → (s.blocks.form form.toNat).defined = true → s.blocks.orders.records.length < 4 →
    s.blocks.orders.next < 65535 → (∀ r ∈ s.blocks.orders.records, ¬ r.tag = tag.toNat ∧ ¬ r.state = .queued ∧
      ¬ r.state = .halted) →
    ∃ t, exec (.orderIssue .addressed tag form requested 0xFF) s = .next t ∧
      s.Answered t .orderIssue .accepted []
        { s.blocks.inMotion k .advance .forward k.distance .issue 0 with
          orders :=
            { records :=
                s.blocks.orders.records ++
                  [{ tag := tag.toNat
                     form := form.toNat
                     requested := requested.toNat
                     done := 0
                     voided := 0
                     policy := (s.blocks.form form.toNat).policy
                     state := .running
                     halt := none
                     cancelPending := false
                     admission := s.blocks.orders.next
                     reported := true }]
              next := s.blocks.orders.next + 1 }
          controller :=
            { s.blocks.controller with
              state := .staging
              current := some tag.toNat
              struck := []
              heldReason := none
              voidMotion := none } }

/-- ORDER_AMEND is refused BAD_VALUE, NO_ORDER, WRONG_STATE, BAD_VALUE below the floor (done, or done + 1 with a
ticket of the order in flight); else the requested count is replaced, and a record that waits is DONE, unreported and
without halt reason, where the count equals done (R127). What follows of itself is in the order of assumption log 32.
-/
def Obligations.OrderAmendReplacesTheCount : Prop :=
  ∀ (s : State) (tag requested : Byte), s.Ready → ∃ t, exec (.orderAmend .addressed tag requested) s = .next t ∧
    s.Tested t .orderAmend
      [(¬ (1 ≤ tag.toNat ∧ 1 ≤ requested.toNat ∧ requested.toNat ≤ 250), .badValue),
       (s.blocks.orders.find tag.toNat = none, .noOrder)]
      (∀ o, s.blocks.orders.find tag.toNat = some o →
        s.Tested t .orderAmend
          [(o.state = .done ∨ o.state = .cancelled, .wrongState),
           (requested.toNat <
              (if o.state = .running ∧ (s.blocks.form o.form).inFlight = true then o.done + 1 else o.done), .badValue)]
          (s.blocks.orders.ok →
            s.AnsweredSettled t .orderAmend .ok
              { s.blocks with
                orders := s.blocks.orders.update tag.toNat fun _ =>
                  if ¬ o.state = .running ∧ requested.toNat = o.done then
                    { o with requested := requested.toNat, state := .done, halt := none, reported := false }
                  else { o with requested := requested.toNat } }))

/-- ORDER_HOLD is refused BAD_VALUE, NO_ORDER, WRONG_STATE for a record that is not QUEUED; else the record becomes
HELD and keeps every other value, and nothing else changes (R128). ORDER_RESUME is refused BAD_VALUE, NO_ORDER,
WRONG_STATE for a record neither HELD nor HALTED; else the record becomes QUEUED without halt reason, in its old
place, and waiting orders may start (R129, R135). What follows of itself is in the order of assumption log 32. -/
def Obligations.OrdersAreHeldAndResumed : Prop :=
  (∀ (s : State) (tag : Byte), s.Ready → ∃ t, exec (.orderHold .addressed tag) s = .next t ∧
     s.Tested t .orderHold [(tag = 0, .badValue), (s.blocks.orders.find tag.toNat = none, .noOrder)]
       (∀ o, s.blocks.orders.find tag.toNat = some o →
         s.Tested t .orderHold [(¬ o.state = .queued, .wrongState)]
           (s.Answered t .orderHold .ok []
             { s.blocks with orders := s.blocks.orders.update tag.toNat fun x => { x with state := .held } }))) ∧
  ∀ (s : State) (tag : Byte), s.Ready → ∃ t, exec (.orderResume .addressed tag) s = .next t ∧
    s.Tested t .orderResume [(tag = 0, .badValue), (s.blocks.orders.find tag.toNat = none, .noOrder)]
      (∀ o, s.blocks.orders.find tag.toNat = some o →
        s.Tested t .orderResume [(¬ (o.state = .held ∨ o.state = .halted), .wrongState)]
          (s.AnsweredSettled t .orderResume .ok
            { s.blocks with
              orders := s.blocks.orders.update tag.toNat fun x => { x with state := .queued, halt := none } }))

/-- ORDER_CANCEL is refused BAD_VALUE, NO_ORDER, WRONG_STATE for a closed record; a record that waits becomes
CANCELLED, unreported and without halt reason; a RUNNING one has its cancel-pending mark set, at most once. In STAGING
and VOIDING, in a pause that returns to VOIDING, and in PRINTING with no ticket in flight, that is all. With a ticket in
flight a void motion is held, FEED TO TOP unless EJECT is, and a pass gets an end-pass request (a dwell ends at once,
and VOIDING is entered); in PAUSED the pause then returns to VOIDING. In every other phase of PRINTING nothing is sent:
a feed or the closing feed goes on, and so does the wait for a homing before a pass, which the model holds in phase
FEED (the model's choice, assumption log 35). In AWAIT_TEAR the work ends; a pause that returns to STAGING or
AWAIT_TEAR ends it too, and returns to IDLE (R86, R130, R149 to R151, R154). In a pause that returns to PRINTING with no
ticket in flight the mark alone is set: R151 gives this for a final PRESENT that is done, and for every other such
pause it is deduced (assumption log 14). What follows of itself is in the order of assumption log 32. -/
def Obligations.OrderCancelClosesOrMarks : Prop :=
  ∀ (s : State) (tag : Byte), s.Ready → ∃ t, exec (.orderCancel .addressed tag) s = .next t ∧
    s.Tested t .orderCancel [(tag = 0, .badValue), (s.blocks.orders.find tag.toNat = none, .noOrder)]
      (∀ o, s.blocks.orders.find tag.toNat = some o → s.blocks.orders.ok →
        s.Tested t .orderCancel [(o.state = .done ∨ o.state = .cancelled, .wrongState)]
          (let c := s.blocks.controller
           let h := s.blocks.head
           let a := h.carriage.activity
           let marked :=
             { s.blocks with orders := s.blocks.orders.update tag.toNat fun _ => { o with cancelPending := true } }
           let void :=
             { c with voidMotion := if c.voidMotion = some .eject then some .eject else some .feedToTop }
           let inFlight := s.blocks.ticketInFlight = true
           (¬ o.state = .running → s.AnsweredSettled t .orderCancel .ok
             { s.blocks with
               orders := s.blocks.orders.update tag.toNat fun _ =>
                 { o with state := .cancelled, halt := none, reported := false } }) ∧
           (o.state = .running → o.cancelPending = true → s.AnsweredSettled t .orderCancel .ok s.blocks) ∧
           (o.state = .running → o.cancelPending = false →
             (c.state = .staging ∨ c.state = .voiding → s.AnsweredSettled t .orderCancel .ok marked) ∧
             (c.state = .printing → ¬ inFlight → s.AnsweredSettled t .orderCancel .ok marked) ∧
             (c.state = .printing → inFlight → ¬ c.phase = .pass →
               s.AnsweredSettled t .orderCancel .ok { marked with controller := void }) ∧
             (c.state = .printing → inFlight → c.phase = .pass → c.awaitsHoming = false → ¬ h.pass = none →
               (a = .homing ∨ a = .approach ∨ a = .segment →
                 s.AnsweredSettled t .orderCancel .ok { marked with controller := void, head := h.endAsked }) ∧
               (a = .dwell → s.AnsweredSettled t .orderCancel .ok
                 (Blocks.enterVoiding { marked with controller := void, head := h.endAsked }))) ∧
             (c.state = .awaitTear → s.AnsweredSettled t .orderCancel .ok (marked.endWork none)) ∧
             (c.state = .paused →
               (c.remembered = some .staging ∨ c.remembered = some .awaitTear → s.blocks.currentOrder = some o →
                 s.AnsweredSettled t .orderCancel .ok
                   { s.blocks with
                     orders := s.blocks.orders.update tag.toNat fun _ =>
                       { o with
                         state := if o.done = o.requested then .done else .cancelled
                         halt := none
                         reported := false }
                     controller :=
                       { state := .paused, current := none, phase := .none, line := none, struck := [],
                         heldReason := none, voidMotion := none, remembered := some .idle, coverMark := false,
                         awaitsHoming := false, presentFinal := false } }) ∧
               (c.remembered = some .printing → inFlight → s.AnsweredSettled t .orderCancel .ok
                 { marked with controller := { void with remembered := some .voiding }, head := h.endAsked }) ∧
               (c.remembered = some .printing → ¬ inFlight → s.AnsweredSettled t .orderCancel .ok marked) ∧
               (c.remembered = some .voiding → s.AnsweredSettled t .orderCancel .ok marked)))))

/-- R132: ORDER_RELEASE is refused BAD_VALUE, NO_ORDER, WRONG_STATE for a record that is not closed; else the record
leaves the table, the others keeping their order and their values, and nothing else changes. -/
def Obligations.OrderReleaseFreesTheSlot : Prop :=
  ∀ (s : State) (tag : Byte), s.Ready → ∃ t, exec (.orderRelease .addressed tag) s = .next t ∧
    s.Tested t .orderRelease [(tag = 0, .badValue), (s.blocks.orders.find tag.toNat = none, .noOrder)]
      (∀ o, s.blocks.orders.find tag.toNat = some o →
        s.Tested t .orderRelease
          [(o.state = .queued ∨ o.state = .held ∨ o.state = .running ∨ o.state = .halted, .wrongState)]
          (s.Answered t .orderRelease .ok []
            { s.blocks with
              orders :=
                { s.blocks.orders with
                  records := s.blocks.orders.records.filter fun x => decide (¬ x.tag = tag.toNat) } }))

/-! ## The work on an order -/

/-- A ticket end, carried out whole: each struck counter of the form advances once, a completed ticket raises the
issue count (to 65,535 at most), done or voided (to 255 at most) is counted, staged contents become live, the
in-flight mark is cleared, the struck set, the void motion, the cursor and the composer are emptied, and nothing else
changes (R9, R11, R27, R37, R65, R123, R143). Only a ticket in flight is ended voided. An end of work closes the
current record unreported: DONE where done has reached requested, else CANCELLED for a cancel, else HALTED with the
held reason or the one carried; the controller is IDLE with a clear record, and a cover opened and closed again
meanwhile is taken there by a home request (R124, R146, R152, R153). That this homing leaves homed as it is and stops
the idle timer is deduced (assumption logs 18, 31). -/
def Obligations.TicketsAndWorkEndWhole : Prop :=
  (∀ (b : Blocks) (o : Order) (completed : Bool),
    let f := b.form o.form
    b.endTicket o completed =
      { b with
        forms := b.forms.set o.form
          { f with
            inFlight := false
            issueCount := if completed = true ∧ f.issueCount < 65535 then f.issueCount + 1 else f.issueCount }
        pool := b.pool.map fun r : FieldRecord =>
          if r.form = o.form then
            let q := if r.field ∈ b.controller.struck then r.advance else r
            { q with body := q.body.applyStaged }
          else r
        composer := { image := [], spans := [], passSpan := none }
        orders := b.orders.update o.tag fun x =>
          if completed = true then { x with done := x.done + 1 }
          else { x with voided := if x.voided < 255 then x.voided + 1 else x.voided }
        controller :=
          { b.controller with struck := [], voidMotion := none, phase := .none, line := none, awaitsHoming := false } }) ∧
  (∀ c g l x, (FieldBody.text c g l (some x)).applyStaged = .text c g (if x = [] then none else some x) none) ∧
  (∀ c p v, (FieldBody.counter c p (some v)).applyStaged = .counter c { p with decades := v, exhausted := false } none) ∧
  (∀ x : FieldBody, x.isStaged = false → x.applyStaged = x) ∧
  (∀ b : Blocks,
    ((∀ o, b.currentOrder = some o → (b.form o.form).inFlight = false) → b.voidTicket = b) ∧
    ∀ o, b.currentOrder = some o → (b.form o.form).inFlight = true → b.voidTicket = b.endTicket o false) ∧
  ∀ (b : Blocks) (o : Order) (halt : Option HaltReason), b.orders.ok → b.currentOrder = some o →
    let closed :=
      { b with
        orders := b.orders.update o.tag fun _ =>
          { o with
            cancelPending := false
            reported := false
            state :=
              if o.done = o.requested then .done else if o.cancelPending = true ∨ halt = none then .cancelled else .halted
            halt :=
              if o.done = o.requested ∨ o.cancelPending = true then none
              else halt.map fun r => b.controller.heldReason.getD r }
        controller :=
          { state := .idle, current := none, phase := .none, line := none, struck := [], heldReason := none,
            voidMotion := none, remembered := none, coverMark := false, awaitsHoming := false, presentFinal := false } }
    (b.controller.coverMark = false ∨ b.coverOpen = true → b.endWork halt = closed) ∧
      (b.controller.coverMark = true → b.coverOpen = false → b.head.carriage.activity = .idle → b.homeSeen = false →
        b.endWork halt = closed.homingFor .cover)

/-- Staging of the current order. The checks wait for a TERMINAL or TEAR motion; a cancel or a reached count ends the
work; so do, halted, no stock with the form, its stock LOST, and the other stock LOST; else come the motions, each
begun as an ISSUE motion where it applies: PARK of the other stock in the path, RETRACT, ADVANCE, FEED TO TOP of the
order's own, each as the ejection it turns into where the paper has run out; a stock at a form top goes to ticket
start (R98, R99, R136, R137). With the cover mark set the controller enters PAUSED before it requests (R134, R152).
That the wait is one mark and that a ticket start ends work before the pause are deduced (assumption logs 13, 15); an
offset that is absent reads as 0 (log 26). -/
def Obligations.StagingChecksAndMotions : Prop :=
  ∀ (b : Blocks) (o : Order), b.currentOrder = some o →
    let passes := (∀ m, b.paper.motion = some m → m.requester = .issue) ∧ o.cancelPending = false ∧ ¬ o.done = o.requested
    (∀ m, b.paper.motion = some m → ¬ m.requester = .issue →
      b.stagingChecks = { b with paper := { b.paper with waiting := true } }) ∧
    ((∀ m, b.paper.motion = some m → m.requester = .issue) → o.cancelPending = true ∨ o.done = o.requested →
      b.stagingChecks = b.endWork none) ∧
    (passes → (∀ t, ¬ (b.paper.stock t).form = some o.form) → b.stagingChecks = b.endWork (some .noStock)) ∧
    ∀ t, (b.paper.stock t).form = some o.form → ¬ (b.paper.stock t.other).form = some o.form →
      let x := b.paper.stock t
      let y := b.paper.stock t.other
      let clear := ¬ y.state = .atPrint ∧ ¬ y.state = .presented
      let begins := fun (u : Tractor) (kind : MotionKind) (d : FeedDirection) (n : Nat) =>
        b.stagingNext o =
          if b.controller.coverMark = true then
            { b with
              controller := { b.controller with state := .paused, remembered := some .staging, coverMark := false } }
          else b.feeding u kind d n .issue 0
      (passes → x.state = .lost → b.stagingChecks = b.endWork (some .stockLost)) ∧
      (passes → ¬ x.state = .lost → y.state = .lost → b.stagingChecks = b.endWork (some .pathBlocked)) ∧
      (passes → ¬ x.state = .lost → ¬ y.state = .lost → b.stagingChecks = b.stagingNext o) ∧
      (¬ clear → y.endRemaining = none →
        begins t.other .park .reverse ((if y.state = .presented then 432 else y.offset.getD 0) + t.other.distance)) ∧
      (∀ r, ¬ clear → y.endRemaining = some r → begins t.other .eject .forward (r + 48)) ∧
      (clear → x.state = .presented → (∀ r, x.endRemaining = some r → r + 432 ≤ t.distance) →
        begins t .retract .reverse 432) ∧
      (∀ r, clear → x.state = .presented → x.endRemaining = some r → t.distance < r + 432 →
        begins t .eject .forward (r + 48)) ∧
      (clear → y.state.inPath = false → x.state = .parked → ¬ x.endRemaining = some 0 →
        begins t .advance .forward t.distance) ∧
      (clear → y.state.inPath = false → x.state = .parked → x.endRemaining = some 0 → begins t .eject .forward 48) ∧
      (∀ n, clear → x.state = .atPrint → x.offset = some n → 0 < n → ¬ x.endRemaining = some 0 →
        begins t .feedToTop .forward ((b.form o.form).length - n)) ∧
      (∀ n, clear → x.state = .atPrint → x.offset = some n → 0 < n → n < (b.form o.form).length →
        x.endRemaining = some 0 → begins t .eject .forward 48) ∧
      (clear → x.state = .atPrint → x.offset = some 0 → b.stagingNext o = b.ticketStart o .staging)

/-- Ticket start: a cancel, a reached count and an exhausted counter end the work; then a set cover mark pauses; then
paper shorter than the form asks for EJECT with PAPER_END held; else the form's in-flight mark is set, the struck set
empty, the controller PRINTING, and the walk begins (R11, R138; the order of the pause is deduced, assumption log 13).
The walk visits the printable lines with a field in ascending order: a line ahead is fed to in phase FEED, a line
reached is composed; an empty one is passed over, another sends its pass request; after the last comes FEED TO TOP in
phase CLOSE (R139). The pass request goes out with the head IDLE in phase PASS, taking its direction at once or behind
a homing of its own; with a homing in flight the controller waits for it (R76, R82, R140), the phase being FEED until
then (the model's choice, log 35). That a homing leaves homed as it is stays deduced (log 18). -/
def Obligations.TicketStartAndWalk : Prop :=
  (∀ (b : Blocks) (o : Order) (q : ControllerState),
    let spent := ∃ r ∈ b.pool, r.form = o.form ∧ ∃ c p v, r.body = .counter c p v ∧ p.exhausted = true
    let cleared := { b.controller with state := .staging, phase := .none, line := none, awaitsHoming := false }
    let wanted := o.cancelPending = false ∧ ¬ o.done = o.requested
    (¬ wanted → b.ticketStart o q = b.endWork none) ∧
    (wanted → spent → b.ticketStart o q = b.endWork (some .counterLimit)) ∧
    (wanted → ¬ spent → b.controller.coverMark = true → b.ticketStart o q =
      { b with controller := { b.controller with state := .paused, remembered := some q, coverMark := false } }) ∧
    ∀ t, wanted → ¬ spent → b.controller.coverMark = false → (b.paper.stock t).form = some o.form →
      ¬ (b.paper.stock t.other).form = some o.form →
        let x := b.paper.stock t
        (∀ r, x.endRemaining = some r → r < (b.form o.form).length → x.state = .atPrint ∨ x.state = .presented →
          b.currentOrder = some o → b.ticketStart o q =
            { b.feeding t .eject .forward (r + 48) .issue 0 with
              controller := { cleared with heldReason := some .paperEnd } }) ∧
        ((∀ r, x.endRemaining = some r → (b.form o.form).length ≤ r) → b.ticketStart o q =
          Blocks.walkFrom
            { b with
              forms := b.forms.set o.form { b.form o.form with inFlight := true }
              controller := { cleared with state := .printing, struck := [] } } o fun _ => true)) ∧
  (∀ (b : Blocks) (o : Order) (keep : Nat → Bool),
    b.walkFrom o keep = Blocks.walkLines o.form ((b.visited o.form).filter keep) b ∧
      (b.visited o.form).Pairwise (· < ·) ∧
      ∀ n, n ∈ b.visited o.form ↔ (b.form o.form).top ≤ n ∧ n + (b.form o.form).bottom < (b.form o.form).lines ∧
        ∃ r ∈ b.pool, r.form = o.form ∧ r.line = n) ∧
  (∀ (b : Blocks) (form n first last : Nat),
    let f := b.form form
    let h := b.head
    let sent := { b.controller with phase := .pass, awaitsHoming := false }
    let pass := fun d : Option PassDirection =>
      { line := n, strike := (f.copies + 1) / 2, unidirectional := decide (f.direction = .unidirectional),
        direction := d, first := first, last := last : Pass }
    let d := if f.direction = .unidirectional then .leftToRight else h.carriage.next
    (h.carriage.activity = .homing → b.sendPass form n (first, last) =
      { b with controller := { b.controller with awaitsHoming := true } }) ∧
    (h.carriage.activity = .idle → h.carriage.homed = true → b.sendPass form n (first, last) =
      { b with
        head :=
          { h with
            carriage :=
              { h.carriage with
                activity := .approach
                motor := .held
                next := if d = .leftToRight then .rightToLeft else .leftToRight }
            pass := some (pass (some d))
            plan := { line := some n, direction := d, speed := .none, segments := 0, dwellTaken := false }
            segment := none
            stallCount := 0
            firing := 0 }
        controller := sent }) ∧
    (h.carriage.activity = .idle → h.carriage.homed = false → b.homeSeen = false →
      b.sendPass form n (first, last) =
        { b with
          head :=
            { h with
              carriage := { h.carriage with activity := .homing, motor := .held }
              pass := some (pass none)
              segment := none
              hold := .none
              homeFor := [.pass]
              homingSteps := 0
              stallCount := 0
              firing := 0 }
          controller := sent })) ∧
  ∀ (b : Blocks) (o : Order) (t : Tractor) (k n : Nat) (rest : List Nat), b.currentOrder = some o →
    (b.paper.stock t).form = some o.form → ¬ (b.paper.stock t.other).form = some o.form →
    (b.paper.stock t).state = .atPrint → (b.paper.stock t).offset = some k →
    let f := b.form o.form
    let out := (b.paper.stock t).endRemaining = some 0
    let at_ := fun (phase : Phase) (line : Option Nat) => { b.controller with phase := phase, line := line }
    let feeds := fun (kind : MotionKind) (steps : Nat) (phase : Phase) (line : Option Nat) =>
      { b.feeding t kind .forward steps .issue 0 with controller := at_ phase line }
    (¬ out → Blocks.walkLines o.form [] b = feeds .feedToTop (f.length - k) .close none) ∧
    (out → k < f.length → Blocks.walkLines o.form [] b = feeds .eject 48 .close none) ∧
    (k < n * f.pitch → ¬ out → Blocks.walkLines o.form (n :: rest) b = feeds .feed (n * f.pitch - k) .feed (some n)) ∧
    (k < n * f.pitch → out → Blocks.walkLines o.form (n :: rest) b = feeds .eject 48 .feed (some n)) ∧
    (n * f.pitch ≤ k →
      let c := Blocks.compose { b with controller := at_ .feed (some n) } o.form n
      (c.composer.passSpan = none → Blocks.walkLines o.form (n :: rest) b = Blocks.walkLines o.form rest c) ∧
      ∀ span, c.composer.passSpan = some span →
        Blocks.walkLines o.form (n :: rest) b = c.sendPass o.form n span)

/-- After a completed ticket: the work ends, PRESENT is requested, or the next ticket starts, by counts, policy and
cancel; after a PRESENT: the work ends, staging begins again, or AWAIT_TEAR (R144, R145). A void held is entered where
a pass or a homing is over, and requests EJECT or FEED TO TOP; its end ends the ticket voided and the work with the
held reason (R140, R147, R148). A pass over goes on with the lines after its own; a homing over sends the pass that
waited; a pass SUSPENDED pauses (R140, R152). With the cover mark set PAUSED is entered before any request (R134,
R152). Leaving PAUSED goes on with the remembered state: the checks, the void motion, the walk at its line, the pass
resumed, the present's answer (R153). The order of end, pause and request, the pass image and what marks a PRESENT
final are deduced (assumption logs 13, 16, 23); the phase FEED of a wait is the model's choice (log 35). -/
def Obligations.WhatFollowsATicket : Prop :=
  ∀ (b : Blocks) (o : Order), b.currentOrder = some o →
    let c := b.controller
    let complete := o.done = o.requested
    let unlessPaused := fun (q : ControllerState) (next : Blocks) =>
      if c.coverMark = true then
        { b with controller := { c with state := .paused, remembered := some q, coverMark := false } }
      else next
    let presents := fun final : Bool =>
      Blocks.askOwn { b with controller := { c with phase := .present, awaitsHoming := false, presentFinal := final } }
        .present 0
    let staged := { c with state := .staging, phase := .none, line := none, awaitsHoming := false }
    let ready := { b with controller := { c with awaitsHoming := false } }
    (complete → o.policy = .none ∨ o.cancelPending = true → b.afterTicket = b.endWork none) ∧
    (complete → ¬ o.policy = .none → o.cancelPending = false → b.afterTicket = unlessPaused .printing (presents true)) ∧
    (¬ complete → o.cancelPending = true → b.afterTicket = b.endWork none) ∧
    (¬ complete → o.cancelPending = false → o.policy = .each → b.afterTicket = unlessPaused .printing (presents false)) ∧
    (¬ complete → o.cancelPending = false → ¬ o.policy = .each → b.afterTicket = b.ticketStart o .printing) ∧
    (c.presentFinal = true → complete ∨ o.cancelPending = true → b.presentDone = b.endWork none) ∧
    (c.presentFinal = true → ¬ complete → o.cancelPending = false →
      b.presentDone = unlessPaused .printing (Blocks.stagingChecks { b with controller := staged })) ∧
    (c.presentFinal = false → o.cancelPending = true → b.presentDone = b.endWork none) ∧
    (c.presentFinal = false → o.cancelPending = false →
      b.presentDone = unlessPaused .printing { b with controller := { staged with state := .awaitTear } }) ∧
    b.enterVoiding = unlessPaused .voiding (Blocks.askVoid { b with controller := { c with state := .voiding } }) ∧
    b.endVoided = b.voidTicket.endWork c.heldReason ∧
    (¬ c.voidMotion = none → b.passOver = b.enterVoiding ∧ b.homingOver = ready.enterVoiding) ∧
    (c.voidMotion = none → b.passOver =
      unlessPaused .printing (b.walkFrom o fun n => decide (c.line.getD 0 < n))) ∧
    (∀ n span, c.voidMotion = none → c.line = some n → b.composer.passSpan = some span →
      b.homingOver =
        if c.coverMark = true then
          { b with
            controller :=
              { c with state := .paused, remembered := some .printing, coverMark := false, awaitsHoming := false } }
        else ready.sendPass o.form n span) ∧
    (∀ t, (b.paper.stock t).form = some o.form → ¬ (b.paper.stock t.other).form = some o.form →
      let x := b.paper.stock t
      (∀ final, x.state = .atPrint → x.offset = some 0 →
        presents final =
          { b.feeding t (if x.endRemaining = some 0 then .eject else .present) .forward
              (if x.endRemaining = some 0 then 48 else 432) .issue 0 with
            controller := { c with phase := .present, awaitsHoming := false, presentFinal := final } }) ∧
      (∀ r, c.voidMotion = some .eject → x.state = .atPrint ∨ x.state = .presented → x.endRemaining = some r →
        b.askVoid = b.feeding t .eject .forward (r + 48) .issue 0) ∧
      (∀ k, c.voidMotion = some .feedToTop → x.state = .atPrint → x.offset = some k → ¬ x.endRemaining = some 0 →
        b.askVoid = b.feeding t .feedToTop .forward ((b.form o.form).length - k) .issue 0) ∧
      (∀ k, c.voidMotion = some .feedToTop → x.state = .atPrint → x.offset = some k → x.endRemaining = some 0 →
        k < (b.form o.form).length → b.askVoid = b.feeding t .eject .forward 48 .issue 0)) ∧
    (¬ c.state = .printing → b.headAnswered = b) ∧
    (c.state = .printing →
      let active := b.head.carriage.activity
      (c.awaitsHoming = true → b.headAnswered = if active = .homing then b else b.homingOver) ∧
      (c.awaitsHoming = false → c.phase = .pass → b.head.pass = none → b.headAnswered = b.passOver) ∧
      (c.awaitsHoming = false → c.phase = .pass → ¬ b.head.pass = none → b.headAnswered =
        if active = .suspended then
          { b with controller := { c with state := .paused, remembered := some .printing, coverMark := false } }
        else b) ∧
      (c.awaitsHoming = false → ¬ c.phase = .pass → b.headAnswered = b)) ∧
    ∀ q, c.remembered = some q →
      let back := { b with controller := { c with state := q, remembered := none } }
      (q = .staging → b.leavePaused = back.stagingChecks) ∧
      (q = .voiding → b.leavePaused = back.askVoid) ∧
      (q = .awaitTear ∨ q = .idle → b.leavePaused = back) ∧
      (q = .printing → c.phase = .none → b.leavePaused = back.afterTicket) ∧
      (q = .printing → c.phase = .present → b.leavePaused = back.presentDone) ∧
      (q = .printing → c.phase = .feed → b.leavePaused =
        Blocks.walkFrom { b with controller := { c with state := q, remembered := none, awaitsHoming := false } } o
          fun n => decide (c.line.getD 0 ≤ n)) ∧
      (q = .printing → c.phase = .pass → b.head.pass = none → b.leavePaused = back.passOver) ∧
      (q = .printing → c.phase = .pass → ¬ b.head.pass = none → b.head.carriage.activity = .suspended →
        b.head.carriage.homed = true → b.leavePaused =
          { back with
            head :=
              { b.head with
                carriage := { b.head.carriage with activity := .approach, motor := .held }
                segment := none
                stallCount := 0
                firing := 0 } })

/-- What the inputs do under a current order. Paper that goes from its stock in the path leaves end remaining and
ENDED. With no ticket in flight, or paper enough for it, that is all; else PAPER_END and EJECT are held, a pass gets
an end-pass request (a dwell or a suspended pass ends at once, and VOIDING is entered), and a pause then returns to
VOIDING; in VOIDING PAPER_END is held where no reason is (R86, R96, R99, R147, R154). The cover opening in PRINTING
sets the mark, with a pause request for a pass no void is held for; closing in PAUSED begins a homing, joins the one
in flight, or with HOME asserted leaves the pause at once; elsewhere but IDLE it does nothing (R68, R84, R152, R153).
TEAR in AWAIT_TEAR enters STAGING and retracts the presented stock, or ejects it (R99, R145); elsewhere but IDLE it
does nothing (R114, R154). That short paper in a pause replaces a held FEED TO TOP, and how a homing leaves homed and
the idle timer, are deduced (assumption logs 18, 27, 31, 33); the settling after it by log 32; an absent offset reads
as 0 (log 26). -/
def Obligations.InterruptionsUnderAnOrder : Prop :=
  ∀ (s : State) (k : Input) (o : Order), s.held = false → s.blocks.currentOrder = some o →
    ¬ (s.blocks.paper.inputs.get k).timer = none → ∃ t, exec (.debounceExpiry k) s = .next t ∧
      let x := s.blocks.paper.inputs.get k
      let b := s.blocks.debounced k
      let c := b.controller
      let h := b.head
      let a := h.carriage.activity
      let input := fun u : Tractor => match u with | .a => Input.psa | .b => Input.psb
      (∀ u, k = input u → x.level = false → (b.paper.stock u).form = some o.form →
        ¬ (b.paper.stock u.other).form = some o.form →
        (b.paper.stock u).state = .moving ∨ (b.paper.stock u).state = .atPrint ∨ (b.paper.stock u).state = .presented →
        (b.paper.stock u).endRemaining = none →
          let ran := b.ranOut u
          let inFlight := (b.form o.form).inFlight = true
          let position :=
            match b.paper.motion with
            | some m => if m.tractor = u then m.startOffset.getD 0 + m.done else (b.paper.stock u).offset.getD 0
            | none => (b.paper.stock u).offset.getD 0
          let short := u.distance < (b.form o.form).length - position
          let forward := ∀ m, b.paper.motion = some m → m.tractor = u → m.direction = .forward
          let shorted := { c with heldReason := some .paperEnd, voidMotion := some .eject }
          (c.state = .staging ∨ c.state = .awaitTear → s.Settled t ran) ∧
          (c.state = .printing ∨ c.state = .paused → ¬ inFlight → s.Settled t ran) ∧
          (c.state = .printing ∨ c.state = .paused → inFlight → forward → ¬ short → s.Settled t ran) ∧
          (c.state = .printing → inFlight → forward → short → ¬ c.phase = .pass →
            s.Settled t { ran with controller := shorted }) ∧
          (c.state = .printing → inFlight → forward → short → c.phase = .pass → c.awaitsHoming = false →
            ¬ h.pass = none →
              (a = .homing ∨ a = .approach ∨ a = .segment →
                s.Settled t { ran with controller := shorted, head := h.endAsked }) ∧
              (a = .dwell ∨ a = .suspended →
                s.Settled t (Blocks.enterVoiding { ran with controller := shorted, head := h.endAsked }))) ∧
          (c.state = .paused → inFlight → forward → short →
            s.Settled t { ran with controller := { shorted with remembered := some .voiding }, head := h.endAsked }) ∧
          (c.state = .voiding →
            s.Settled t { ran with controller := { c with heldReason := some (c.heldReason.getD .paperEnd) } })) ∧
      (k = .cover → x.level = true → c.state = .printing →
        let marked := { c with coverMark := true }
        (¬ c.phase = .pass ∨ ¬ c.voidMotion = none → s.Settled t { b with controller := marked }) ∧
        (c.phase = .pass → c.voidMotion = none →
          (a = .idle ∨ a = .suspended → s.Settled t { b with controller := marked }) ∧
          (¬ a = .idle → ¬ a = .suspended → s.Settled t
            { b with
              controller := marked
              head := { h with hold := if h.hold = .endPass then .endPass else .pause } }))) ∧
      (k = .cover → x.level = true → c.state = .paused → s.Settled t b) ∧
      (k = .cover → x.level = false →
        (¬ c.state = .idle → ¬ c.state = .paused → s.Settled t b) ∧
        (c.state = .paused → a = .idle ∨ a = .suspended → b.homeSeen = false → s.Became t (b.homingFor .cover)) ∧
        (c.state = .paused → a = .idle ∨ a = .suspended → b.homeSeen = true →
          let left := Blocks.leavePaused { b.homingFor .cover with head := (b.homingFor .cover).head.homedAt }
          ¬ left.controller.state = .paused → s.Settled t left) ∧
        (c.state = .paused → a = .homing → s.Became t
          { b.notIdle with
            head := { h with homeFor := if .cover ∈ h.homeFor then h.homeFor else h.homeFor ++ [.cover] } })) ∧
      (k = .tear → x.level = true →
        let staged := { c with state := .staging, phase := .none, line := none, awaitsHoming := false }
        (¬ c.state = .idle → ¬ c.state = .awaitTear → s.Settled t b) ∧
        ∀ u, c.state = .awaitTear → (b.paper.stock u).form = some o.form →
          ¬ (b.paper.stock u.other).form = some o.form →
          let y := b.paper.stock u
          (¬ y.state = .presented → s.Settled t (Blocks.stagingChecks { b with controller := staged })) ∧
          (y.state = .presented → (∀ r, y.endRemaining = some r → r + 432 ≤ u.distance) →
            s.Settled t { b.feeding u .retract .reverse 432 .issue 0 with controller := staged }) ∧
          ∀ r, y.state = .presented → y.endRemaining = some r → u.distance < r + 432 →
            s.Settled t { b.feeding u .eject .forward (r + 48) .issue 0 with controller := staged })

/-! ## Inputs and timers -/

/-- DEBOUNCE_START: a level that has changed starts the input's debounce timer with the debounce time, or abandons it
where it is back at the debounced state; a level that has not changed does nothing (R93). DEBOUNCE_EXPIRY: the
debounced state takes the level and the change goes to its receiver (R94). Paper at an ABSENT stock makes it SENSED;
gone from a SENSED or PARKED one it makes it ABSENT; gone from a stock in the path whose form is not the current
order's it sets end remaining and turns a reverse motion into an ejection; at a stock in the path with end remaining
present, and at a LOST one, neither change does anything (R95, R96, R99). An open cover sets the mark in STAGING and
VOIDING, pauses AWAIT_TEAR, and does nothing in IDLE, PAUSED and FAULTED; a closed one begins a homing in IDLE and in
a pause that returns to IDLE, or joins the one in flight, or finds HOME asserted, and does nothing elsewhere (R68,
R152, R153). HOME and a released TEAR go no further; TEAR pressed in IDLE retracts a presented stock, and where a
condition of R114 does not hold it does nothing. With no timer running DEBOUNCE_EXPIRY does nothing (assumption log
2). That a homing leaves homed as it is and stops the idle timer, that every requester of one homing takes its
success, that VOIDING sets the mark, and the order of what follows of itself are deduced (assumption logs 18, 28, 31,
32, 33); an order waiting in IDLE is taken up behind the home request of a closed cover (log 36). -/
def Obligations.DebouncedChangesReachTheirReceivers : Prop :=
  ∀ (s : State) (k : Input), s.held = false →
    let x := s.blocks.paper.inputs.get k
    let wired := fun (b : Blocks) (y : LevelInput) =>
      { b with paper := { b.paper with inputs := b.paper.inputs.put k y } }
    let input := fun u : Tractor => match u with | .a => Input.psa | .b => Input.psb
    (∀ level : Bool, ∃ t, exec (.debounceStart k level) s = .next t ∧ (level = x.level → t = s) ∧
      (¬ level = x.level → s.Became t
        (wired s.blocks
          { x with
            level := level
            timer := if level = x.debounced then none else some s.blocks.attention.debounceTime }))) ∧
    ∃ t, exec (.debounceExpiry k) s = .next t ∧ (x.timer = none → t = s) ∧
      (¬ x.timer = none →
        let b := wired s.blocks { x with debounced := x.level, timer := none }
        (k = .home → s.Settled t b) ∧
        (∀ u, k = input u → x.level = true → (b.paper.stock u).state = .absent →
          s.Settled t
            { b with
              paper := b.paper.setStock u { b.paper.stock u with state := .sensed }
              attention := b.attention.setPaperSet u (b.attention.paperSet u ||| 1) }) ∧
        (∀ u, k = input u → x.level = false →
          (b.paper.stock u).state = .sensed ∨ (b.paper.stock u).state = .parked →
            s.Settled t
              { b with
                paper := b.paper.setStock u { state := .absent, form := none, offset := none, endRemaining := none }
                attention := b.attention.setPaperSet u (b.attention.paperSet u ||| 2) }) ∧
        (∀ u, k = input u → x.level = false →
          (b.paper.stock u).state = .moving ∨ (b.paper.stock u).state = .atPrint ∨
              (b.paper.stock u).state = .presented →
            (b.paper.stock u).endRemaining = none →
              (∀ o, b.currentOrder = some o → ¬ (b.paper.stock u).form = some o.form) → s.Settled t (b.ranOut u)) ∧
        (∀ u, k = input u →
          ((b.paper.stock u).state = .moving ∨ (b.paper.stock u).state = .atPrint ∨
                (b.paper.stock u).state = .presented) ∧ ¬ (b.paper.stock u).endRemaining = none ∨
              (b.paper.stock u).state = .lost → s.Settled t b) ∧
        (k = .cover → x.level = true →
          b.controller.state = .idle ∨ b.controller.state = .paused ∨ b.controller.state = .faulted →
            s.Settled t b) ∧
        (k = .cover → x.level = true → b.controller.state = .staging ∨ b.controller.state = .voiding →
          s.Settled t { b with controller := { b.controller with coverMark := true } }) ∧
        (k = .cover → x.level = true → b.controller.state = .awaitTear →
          s.Settled t
            { b with
              controller :=
                { b.controller with state := .paused, remembered := some .awaitTear, coverMark := false } }) ∧
        (k = .cover → x.level = false →
          let a := b.head.carriage.activity
          let begins := b.homingFor .cover
          let homed := { begins with head := begins.head.homedAt }
          let joined :=
            { b.notIdle with
              head :=
                { b.head with
                  homeFor := if .cover ∈ b.head.homeFor then b.head.homeFor else b.head.homeFor ++ [.cover] } }
          (¬ b.controller.state = .idle → ¬ b.controller.state = .paused → s.Settled t b) ∧
          (b.controller.state = .idle →
            (a = .idle ∨ a = .suspended → b.homeSeen = false → s.Settled t begins) ∧
            (a = .idle ∨ a = .suspended → b.homeSeen = true → s.Settled t homed) ∧
            (a = .homing → s.Settled t joined)) ∧
          (b.controller.state = .paused → b.controller.remembered = some .idle →
            (a = .idle ∨ a = .suspended → b.homeSeen = false → s.Became t begins) ∧
            (a = .idle ∨ a = .suspended → b.homeSeen = true → s.Settled t
              { homed with controller := { b.controller with state := .idle, remembered := none } }) ∧
            (a = .homing → s.Became t joined))) ∧
        (k = .tear → x.level = false → s.Settled t b) ∧
        (∀ u, k = .tear → x.level = true → b.controller.state = .idle → b.paper.pathTractor = some u →
          (b.paper.stock u).state = .presented → b.paper.motion = none → ¬ b.head.carriage.activity = .homing →
            b.coverOpen = false → b.calm →
              ((∀ r, (b.paper.stock u).endRemaining = some r → r + 432 ≤ u.distance) →
                s.Became t (b.inMotion u .retract .reverse 432 .tear 0)) ∧
              ∀ r, (b.paper.stock u).endRemaining = some r → u.distance < r + 432 →
                s.Became t (b.inMotion u .eject .forward (r + 48) .tear 0)) ∧
        (k = .tear → x.level = true → ¬ b.controller.state = .awaitTear →
          ¬ b.controller.state = .idle ∨ (∀ u, b.paper.pathTractor = some u → ¬ (b.paper.stock u).state = .presented) ∨
              ¬ b.paper.motion = none ∨ b.head.carriage.activity = .homing ∨ b.coverOpen = true → s.Settled t b))

/-- REFILL_TICK starts the refill timer again with the tick period and credits every account below 96 with one unit,
unless a segment is in flight. A dwell in which every account is then full ends: what is left of the pass is planned,
and its next segment begins; a pause request pending suspends the pass instead, and the controller is PAUSED
remembering PRINTING (R74, R81, R83, R84, R152). What follows of itself is in the order of assumption log 32. -/
def Obligations.RefillTickCreditsTheAccounts : Prop :=
  ∀ s : State, s.held = false → s.blocks.passGoesOn → ∃ t, exec .refillTick s = .next t ∧
    let h := s.blocks.head
    let filled := h.heat.map fun x => if x < 96 then x + 1 else x
    let ticked := fun heat : List Nat => { h with heat := heat, refillTimer := s.blocks.attention.tickPeriod }
    let full := ticked filled
    (h.carriage.activity = .segment → s.Settled t { s.blocks with head := ticked h.heat }) ∧
    (¬ h.carriage.activity = .segment → ¬ h.carriage.activity = .dwell → s.Settled t { s.blocks with head := full }) ∧
    (h.carriage.activity = .dwell → (∃ x ∈ filled, x < 96) → s.Settled t { s.blocks with head := full }) ∧
    (h.carriage.activity = .dwell → (∀ x ∈ filled, 96 ≤ x) → h.hold = .none → ∀ p d v n, h.pass = some p →
      p.direction = some d → planPart s.blocks.composer.image p.strike d p.first p.last filled = .segment v n →
        s.Settled t
          { s.blocks with
            head :=
              { full with
                carriage := { h.carriage with activity := .segment, motor := .held }
                segment :=
                  some
                    { speed := v
                      first := if d = .leftToRight then p.first else p.last + 1 - n
                      last := if d = .leftToRight then p.first + n - 1 else p.last
                      traversed := 0 }
                plan := { h.plan with speed := v, segments := h.plan.segments + 1 }
                stallCount := 0
                firing := 0 } }) ∧
    (h.carriage.activity = .dwell → (∀ x ∈ filled, 96 ≤ x) → h.hold = .pause → ¬ h.pass = none →
      s.blocks.controller.state = .printing → s.blocks.controller.phase = .pass →
        s.Settled t
          { s.blocks with
            head :=
              { full with
                carriage := { h.carriage with activity := .suspended }
                segment := none
                hold := .none
                firing := 0 }
            controller :=
              { s.blocks.controller with state := .paused, remembered := some .printing, coverMark := false } })

/-- IDLE_TIMER_EXPIRY of a running timer releases both motors, unhomes the carriage and leaves the timer expired (R72,
R97, R170). A CFB pulse clears the stall count of a carriage move, a PMS pulse the jam count of a motion (R70, R101),
before the count has reached its limit. Without its occasion each does nothing (assumption log 2). -/
def Obligations.TimersAndPulses : Prop :=
  ∀ s : State, s.held = false →
    (∃ t, exec .idleTimerExpiry s = .next t ∧
      (∀ n, s.blocks.attention.idleTimer = .running n → s.Became t
        { s.blocks with
          head := { s.blocks.head with carriage := { s.blocks.head.carriage with motor := .released, homed := false } }
          paper := { s.blocks.paper with feedMotor := .released }
          attention := { s.blocks.attention with idleTimer := .expired } }) ∧
      ((∀ n, ¬ s.blocks.attention.idleTimer = .running n) → t = s)) ∧
    (∃ t, exec .cfbPulse s = .next t ∧
      (s.blocks.head.carriage.activity = .homing ∨ s.blocks.head.carriage.activity = .approach ∨
          s.blocks.head.carriage.activity = .segment → s.blocks.head.stallCount < 16 →
        s.Became t { s.blocks with head := { s.blocks.head with stallCount := 0 } }) ∧
      (¬ (s.blocks.head.carriage.activity = .homing ∨ s.blocks.head.carriage.activity = .approach ∨
          s.blocks.head.carriage.activity = .segment) → t = s)) ∧
    ∃ t, exec .pmsPulse s = .next t ∧
      (∀ m, s.blocks.paper.motion = some m → m.jamCount < 96 →
        s.Became t { s.blocks with paper := { s.blocks.paper with motion := some { m with jamCount := 0 } } }) ∧
      (s.blocks.paper.motion = none → t = s)

/-! ## The carriage -/

/-- CARRIAGE_STEP: a homing steps left; an approach steps towards the start of the pass; a segment fires the pins of
its next column, debits each by the strike class, credits every account below 96 in every column at HALF and in every
second at FULL, and steps on. Each step counts towards a stall; no step is made where none is in flight, or past
sixteen without a pulse (R67, R70, R73, R75). That a step without its occasion changes nothing is the model's choice
(assumption logs 2 and 29), and so is that the pins fired stand until the next step (log 21). -/
def Obligations.CarriageStepMovesAndFires : Prop :=
  ∀ s : State, s.held = false → ∃ t, exec .carriageStep s = .next t ∧
    let h := s.blocks.head
    let x := h.carriage.coordinate
    let moved := fun (g : Head) (y : Nat) =>
      s.Became t
        { s.blocks with head := { g with carriage := { h.carriage with coordinate := y }, stallCount := h.stallCount + 1 } }
    (h.carriage.activity = .homing → s.blocks.homeSeen = false → h.homingSteps < 1700 → h.stallCount < 16 →
      moved { h with homingSteps := h.homingSteps + 1, firing := 0 } (x - 1)) ∧
    (∀ p d, h.carriage.activity = .approach → h.pass = some p → p.direction = some d → h.stallCount < 16 →
      let goal := (if d = .leftToRight then p.first else p.last) + 32
      (x < goal → goal ≤ 1599 → moved { h with firing := 0 } (x + 1)) ∧
        (goal < x → moved { h with firing := 0 } (x - 1)) ∧ (goal = x → t = s)) ∧
    (∀ p d g, h.carriage.activity = .segment → h.pass = some p → p.direction = some d → h.segment = some g →
      g.traversed < g.last + 1 - g.first → h.stallCount < 16 →
        let pins := imagePins s.blocks.composer.image
          (if d = .leftToRight then g.first + g.traversed else g.last - g.traversed)
        let debited := h.heat.mapIdx fun i y => if pins.getLsbD (17 - i) = true then y - p.strike else y
        moved
          { h with
            firing := pins
            segment := some { g with traversed := g.traversed + 1 }
            heat :=
              if g.speed = .half ∨ g.speed = .full ∧ (g.traversed + 1) % 2 = 0 then
                debited.map fun y => if y < 96 then y + 1 else y
              else debited }
          (if d = .leftToRight then min (x + 1) 1599 else x - 1)) ∧
    (h.carriage.activity = .idle ∨ h.carriage.activity = .dwell ∨ h.carriage.activity = .suspended ∨
      16 ≤ h.stallCount → t = s)

/-- STALL comes of a carriage move where the count of steps since the last CFB pulse and the steps left reach sixteen,
HOME_LOST where a homing makes its 1,700th step without HOME, JAM where the count of feed steps since the last PMS
pulse and the steps left reach 96; nowhere else (R69, R70, R101). Each makes the fault record in every controller state,
FAULTED included, where the work, the orders and the other block stand. Outside FAULTED each stops both blocks, voids
the ticket in flight, ends the work and leaves the controller FAULTED: the order is DONE where it was finished,
CANCELLED where its cancel was pending, else HALTED (R71, R102, R124, R143, R155, R163). A jam leaves its stock LOST
with its form, its end remaining counted up to the jam (R96, R101). Without its occasion each does nothing (the model's
choice, assumption log 2; log 3 says which steps a row stands for, log 29 what a count at its limit means). That in
IDLE too both stops are sent is the model's choice (log 34). -/
def Obligations.FaultsStopTheWork : Prop :=
  ∀ s : State, s.held = false →
    let h := s.blocks.head
    let a := h.carriage.activity
    let moves := a = .homing ∨ a = .approach ∨ a = .segment
    let seen := s.blocks.homeSeen
    (∃ t, exec .stall s = .next t ∧ ((a = .approach → h.target ≤ 1599) →
      (moves → 16 ≤ h.stallCount + h.stepsLeft seen → s.Became t t.blocks ∧ t.blocks.head.carriage.homed = false ∧
        s.blocks.Faulted t.blocks .stall none (if a = .homing then .homing else .pass)) ∧
      (¬ moves ∨ h.stallCount + h.stepsLeft seen < 16 → t = s))) ∧
    (∃ t, exec .homeLost s = .next t ∧
      (a = .homing → seen = false → h.stallCount + min (1700 - h.homingSteps) 1 < 16 →
        s.Became t t.blocks ∧ t.blocks.head.carriage.homed = false ∧ s.blocks.Faulted t.blocks .homeLost none .homing) ∧
      (¬ a = .homing ∨ seen = true ∨ 16 ≤ h.stallCount + min (1700 - h.homingSteps) 1 → t = s)) ∧
    ∃ t, exec .jam s = .next t ∧ (s.blocks.paper.motion = none → t = s) ∧
      ∀ m, s.blocks.paper.motion = some m →
        let x := s.blocks.paper.stock m.tractor
        let left := m.stepsLeft x.endRemaining
        let made := 96 - m.jamCount
        (96 ≤ m.jamCount + left →
          s.Became t t.blocks ∧ s.blocks.Faulted t.blocks .jam (some m.tractor) .feed ∧
            t.blocks.paper =
              { s.blocks.paper.setStock m.tractor
                  { x with
                    state := .lost
                    offset := none
                    endRemaining := x.endRemaining.map fun r => if m.direction = .forward then r - made else r + made } with
                motion := none
                waiting := false } ∧
            (¬ s.blocks.controller.state = .faulted → moves → t.blocks.head.carriage.homed = false)) ∧
        (m.jamCount + left < 96 → t = s)

/-- HOMING_COMPLETE at HOME: the carriage is homed at coordinate 0 with next direction LEFT_TO_RIGHT. With no pass
behind it, or an end-pass request pending, the head is IDLE with no pass; a pass request behind it takes its direction
and goes on to its approach, a resume request goes on to its approach too; a pass with a pause pending, or suspended
before another's homing, is SUSPENDED (R68, R76, R84 to R86). CLEAR_FAULT's homing leaves FAULTED and removes the
fault record, SOFT_RESET's removes it too; the homing of a closed cover leaves PAUSED if the cover is still closed; in
PRINTING a homing waited for is over, and a pass ended or suspended is taken up (R140, R152, R153, R164, R174). The
row stands for the steps left of the move (assumption log 3); what follows of itself is in the order of log 32; that
every requester takes the success is deduced (log 33). -/
def Obligations.HomingCompleteHomesTheCarriage : Prop :=
  ∀ s : State, s.held = false → s.blocks.head.carriage.activity = .homing → s.blocks.homeSeen = true →
    s.blocks.head.stallCount < 16 → ∃ t, exec .homingComplete s = .next t ∧
      let h := s.blocks.head
      let c := s.blocks.controller
      let a := s.blocks.attention
      let found := h.homedAt
      let leaves := c.state = .faulted ∧ .clearFault ∈ h.homeFor
      let b : Blocks :=
        { s.blocks with
          head := found
          controller := { c with state := if leaves then .idle else c.state }
          attention := { a with faultRecord := if leaves ∨ .softReset ∈ h.homeFor then none else a.faultRecord } }
      let covered := c.state = .paused ∧ .cover ∈ h.homeFor ∧ s.blocks.coverOpen = false
      (¬ c.state = .printing → ¬ covered → s.Settled t b) ∧
      (covered → s.Settled t b.leavePaused.headAnswered) ∧
      (c.state = .printing → c.awaitsHoming = true → s.Settled t b.homingOver) ∧
      (c.state = .printing → c.awaitsHoming = false → ¬ c.phase = .pass → s.Settled t b) ∧
      (c.state = .printing → c.awaitsHoming = false → c.phase = .pass →
        (found.pass = none → s.Settled t b.passOver) ∧
        (¬ found.pass = none → found.carriage.activity = .suspended → s.Settled t
          { b with controller := { c with state := .paused, remembered := some .printing, coverMark := false } }) ∧
        (¬ found.pass = none → ¬ found.carriage.activity = .suspended → s.Settled t b))

/-- APPROACH_COMPLETE: the carriage stands at the start of what is left of the pass. With nothing pending that is
planned, and a segment of the planned speed and columns begins, or a dwell (R76 to R81, R83). With a pause request
pending the pass is SUSPENDED before the next plan, and the controller that prints it PAUSED remembering PRINTING (R84,
R152); with an end-pass request pending the pass ends with nothing fired, and the controller goes on from it (R86,
R140). The row stands for the steps left of the move (assumption log 3); what follows of itself is in the order of
log 32. -/
def Obligations.ApproachCompleteFollowsThePlan : Prop :=
  ∀ (s : State) (p : Pass) (d : PassDirection), s.held = false →
    (s.blocks.controller.state = .printing → s.blocks.controller.awaitsHoming = false) →
    s.blocks.head.carriage.activity = .approach → s.blocks.head.pass = some p → p.direction = some d →
    let h := s.blocks.head
    let goal := (if d = .leftToRight then p.first else p.last) + 32
    (goal = h.carriage.coordinate → h.stallCount < 16) → (¬ goal = h.carriage.coordinate → h.stallCount < 15) →
    ∃ t, exec .approachComplete s = .next t ∧
      let c := s.blocks.controller
      let prints := c.state = .printing ∧ c.phase = .pass
      let plan := planPart s.blocks.composer.image p.strike d p.first p.last h.heat
      let held :=
        { h with
          carriage := { h.carriage with coordinate := goal, activity := .suspended }
          segment := none
          hold := .none
          firing := 0 }
      let ended :=
        { h with
          carriage := { h.carriage with coordinate := goal, activity := .idle }
          pass := none
          segment := none
          hold := .none
          homeFor := []
          firing := 0 }
      (h.hold = .none → ∀ v n, plan = .segment v n → s.Settled t
        { s.blocks with
          head :=
            { h with
              carriage := { h.carriage with coordinate := goal, activity := .segment, motor := .held }
              segment :=
                some
                  { speed := v
                    first := if d = .leftToRight then p.first else p.last + 1 - n
                    last := if d = .leftToRight then p.first + n - 1 else p.last
                    traversed := 0 }
              plan := { h.plan with speed := v, segments := h.plan.segments + 1 }
              stallCount := 0
              firing := 0 } }) ∧
      (h.hold = .none → plan = .dwell → s.Settled t
        { s.blocks with
          head :=
            { h with
              carriage := { h.carriage with coordinate := goal, activity := .dwell }
              segment := none
              plan := { h.plan with dwellTaken := true }
              firing := 0 } }) ∧
      (h.hold = .pause →
        (prints → s.Settled t
          { s.blocks with
            head := held
            controller := { c with state := .paused, remembered := some .printing, coverMark := false } }) ∧
        (¬ prints → s.Settled t { s.blocks with head := held })) ∧
      (h.hold = .endPass →
        (prints → s.Settled t (Blocks.passOver { s.blocks with head := ended })) ∧
        (¬ prints → s.Settled t { s.blocks with head := ended }))

/-- SEGMENT_COMPLETE: the balances are those of the segment's walk, the carriage stands a step on for each column, and
every counter in whose span a column of the segment fired is struck. With no column of the span left, or an end-pass
request pending, the pass is over and the controller goes on; with a pause request pending it is SUSPENDED and the
controller PAUSED remembering PRINTING; else the columns left are planned, and a segment or a dwell begins (R67, R75,
R76, R83, R84, R86, R141, R152). `start` is the balances the segment began with. The row stands for the columns left
of the segment (assumption log 3); what follows of itself is in the order of log 32. -/
def Obligations.SegmentCompleteSplitsThePass : Prop :=
  ∀ (s : State) (p : Pass) (d : PassDirection) (g : Segment) (start : List Nat), s.held = false →
    s.blocks.controller.state = .printing → s.blocks.controller.phase = .pass → s.blocks.controller.awaitsHoming = false →
    s.blocks.head.carriage.activity = .segment → s.blocks.head.pass = some p → p.direction = some d →
    s.blocks.head.segment = some g → g.first ≤ g.last → g.traversed ≤ g.last + 1 - g.first →
    s.blocks.head.stallCount + min (g.last + 1 - g.first - g.traversed) 1 < 16 →
    s.blocks.head.heat = heatAt s.blocks.composer.image p.strike g.speed (travel d g.first g.last) start g.traversed →
    ∃ t struck, exec .segmentComplete s = .next t ∧
      let h := s.blocks.head
      let c := s.blocks.controller
      let left := g.last + 1 - g.first - g.traversed
      let more := if d = .leftToRight then g.last < p.last else p.first < g.first
      let rest := if d = .leftToRight then { p with first := g.last + 1 } else { p with last := g.first - 1 }
      let heat := heatAt s.blocks.composer.image p.strike g.speed (travel d g.first g.last) start (g.last + 1 - g.first)
      let x :=
        if left = 0 then h.carriage.coordinate
        else if d = .leftToRight then min (h.carriage.coordinate + left) 1599 else h.carriage.coordinate - left
      let fired :=
        { h with carriage := { h.carriage with coordinate := x }, heat := heat, segment := none, firing := 0 }
      let onward := { fired with pass := some rest }
      let b := fun k : Head => { s.blocks with head := k, controller := { c with struck := struck } }
      let plan := planPart s.blocks.composer.image p.strike d rest.first rest.last heat
      (∀ i, i ∈ struck ↔ i ∈ c.struck ∨ ∃ e ∈ s.blocks.composer.spans, e.counter = some i ∧
        ∃ y ∈ s.blocks.composer.image, g.first ≤ y.column ∧ y.column ≤ g.last ∧ e.first ≤ y.column ∧ y.column ≤ e.last) ∧
      (¬ more ∨ h.hold = .endPass → s.Settled t
        (b { fired with
             carriage := { fired.carriage with activity := .idle }
             pass := none
             hold := .none
             homeFor := [] }).passOver) ∧
      (more → h.hold = .pause → s.Settled t
        { b { onward with carriage := { fired.carriage with activity := .suspended }, hold := .none } with
          controller := { c with struck := struck, state := .paused, remembered := some .printing, coverMark := false } }) ∧
      (more → h.hold = .none →
        (∀ v m, plan = .segment v m → s.Settled t
          (b { onward with
               carriage := { fired.carriage with activity := .segment, motor := .held }
               segment :=
                 some
                   { speed := v
                     first := if d = .leftToRight then rest.first else rest.last + 1 - m
                     last := if d = .leftToRight then rest.first + m - 1 else rest.last
                     traversed := 0 }
               plan := { h.plan with speed := v, segments := h.plan.segments + 1 }
               stallCount := 0 })) ∧
        (plan = .dwell → s.Settled t
          (b { onward with
               carriage := { fired.carriage with activity := .dwell }
               plan := { h.plan with dwellTaken := true } })))

/-! ## The paper -/

/-- FEED_STEP: one step is done and one less is to go, end remaining goes down by one forwards and up by one in
reverse, and a forward motion whose stock runs out with steps to go becomes an ejection of 48 more; a motion with no
step to go, jammed, or absent makes none (R92, R96, R99, R101; the model's choice, assumption logs 2 and 29). -/
def Obligations.FeedStepCountsTheSteps : Prop :=
  ∀ s : State, s.held = false → ∃ t, exec .feedStep s = .next t ∧
    (s.blocks.paper.motion = none → t = s) ∧
    ∀ m, s.blocks.paper.motion = some m →
      let x := s.blocks.paper.stock m.tractor
      let left := x.endRemaining.map fun r => if m.direction = .forward then r - 1 else r + 1
      let moved := { m with done := m.done + 1, toGo := m.toGo - 1, jamCount := m.jamCount + 1 }
      let out := m.direction = .forward ∧ ¬ m.kind = .eject ∧ left = some 0 ∧ 1 < m.toGo
      (0 < m.toGo → m.jamCount < 96 → s.Became t
        { s.blocks with
          paper :=
            { s.blocks.paper.setStock m.tractor { x with endRemaining := left } with
              motion := some (if out then { moved with kind := .eject, toGo := 48 } else moved) } }) ∧
      (m.toGo = 0 ∨ 96 ≤ m.jamCount → t = s)

/-- MOTION_COMPLETE of a TERMINAL or TEAR motion: the stock takes the end state, offset and end remaining of the
motion's kind, or leaves by ejection with REMOVED (and SENSED where paper lies at the mark); phase 2 of STOCK_SELECT
begins where the stock it named is PARKED, as an ejection where no paper is left of it; else MOTION_DONE is latched,
for STOCK_SELECT on the tractor it named, and a controller that waited for the motion makes its staging checks (R96,
R98 to R100, R109, R136; the row stands for the steps left of the motion, assumption log 3). The one mark of the wait
and what follows of itself are deduced (logs 15 and 32), and an absent start offset reads as 0 (the model's choice,
log 26). -/
def Obligations.MotionCompleteLandsTheStock : Prop :=
  ∀ (s : State) (m : Motion), s.held = false → s.blocks.paper.motion = some m → ¬ m.requester = .issue →
    m.jamCount + min m.toGo 1 < 96 → ∃ t, exec .motionComplete s = .next t ∧
      let ended := s.blocks.motionEnded m
      let u := m.tractor.other
      let y := s.blocks.paper.stock u
      let told := fun (k : Tractor) =>
        { ended with attention := ended.attention.setPaperSet k (ended.attention.paperSet k ||| 8) }
      let waited := fun (b : Blocks) =>
        if b.paper.waiting = true then Blocks.stagingChecks { b with paper := { b.paper with waiting := false } } else b
      (¬ m.phase = 1 → s.Settled t (waited (told m.tractor))) ∧
      (m.phase = 1 → y.state = .parked →
        (¬ y.endRemaining = some 0 → s.Settled t (ended.feeding u .advance .forward u.distance m.requester 2)) ∧
          (y.endRemaining = some 0 → s.Settled t (ended.feeding u .eject .forward 48 m.requester 2))) ∧
      (m.phase = 1 → ¬ y.state = .parked → s.Settled t (waited (told u)))

/-- MOTION_COMPLETE of a motion of the Issue Controller lands its stock as any other and latches no MOTION_DONE (R98
to R100, R103); then the controller goes on. The order's own stock ejected: in staging the work ends halted PAPER_END;
a walk feed or the closing feed ends the ticket voided with PAPER_END held; a final PRESENT ends the work, another
halts it PAPER_END (R138, R148). Else: staging ends for a cancel or takes its next step; a walk feed leads into a void
held, the pause of a set cover mark, or on from its line; the closing feed ends the ticket completed; a PRESENT is
answered (R137, R139, R142, R144, R150, R152). A void motion's end, ejected or not, ends the ticket voided and the
work (R148). The row stands for the steps left (assumption log 3); what follows of itself is in the order of log 32;
an absent start offset reads as 0 (log 26). -/
def Obligations.IssueMotionsLeadOn : Prop :=
  ∀ (s : State) (m : Motion) (o : Order), s.held = false → s.blocks.paper.pathOk → s.blocks.paper.motion = some m →
    m.requester = .issue → m.jamCount + min m.toGo 1 < 96 → s.blocks.currentOrder = some o →
    ∃ t, exec .motionComplete s = .next t ∧
      let b := s.blocks.motionEnded m
      let c := s.blocks.controller
      let ejected := (s.blocks.paper.stock m.tractor).form = some o.form ∧ s.blocks.endsOut m
      (ejected →
        (c.state = .staging → s.Settled t (b.endWork (some .paperEnd))) ∧
        (c.state = .printing → c.phase = .feed ∨ c.phase = .close →
          s.Settled t (Blocks.endVoided { b with controller := { c with heldReason := some .paperEnd } })) ∧
        (c.state = .printing → c.phase = .present →
          s.Settled t (b.endWork (if c.presentFinal = true then none else some .paperEnd)))) ∧
      (¬ ejected →
        (c.state = .staging → o.cancelPending = true → s.Settled t (b.endWork none)) ∧
        (c.state = .staging → o.cancelPending = false → s.Settled t (b.stagingNext o)) ∧
        (c.state = .printing → c.phase = .feed → ¬ c.voidMotion = none → s.Settled t b.enterVoiding) ∧
        (c.state = .printing → c.phase = .feed → c.voidMotion = none → s.Settled t
          (if c.coverMark = true then
            { b with controller := { c with state := .paused, remembered := some .printing, coverMark := false } }
          else b.walkFrom o fun n => decide (c.line.getD 0 ≤ n))) ∧
        (c.state = .printing → c.phase = .close → s.Settled t (b.endTicket o true).afterTicket) ∧
        (c.state = .printing → c.phase = .present → s.Settled t b.presentDone)) ∧
      (c.state = .voiding → s.Settled t b.endVoided)

/-- The closing feed of the last ticket wanted of an order whose policy is NONE, carried to its end: every struck
counter has advanced once, the issue count has gone up by one (to 65,535 at most), the staged contents are live, the
in-flight mark is clear, the composer is empty, the record is DONE and unreported with its last ticket counted, and
the controller is IDLE with no order; then the part settles (R37, R123, R124, R142 to R144, R146). The row stands for
the steps left of the motion (assumption log 3); what follows of itself is in the order of assumption log 32. -/
def Obligations.TheLastClosingFeedEndsTheOrder : Prop :=
  ∀ (s : State) (m : Motion) (o : Order), s.held = false → s.blocks.orders.ok →
    s.blocks.controller.state = .printing → s.blocks.controller.phase = .close →
    s.blocks.controller.coverMark = false → s.blocks.currentOrder = some o → o.done + 1 = o.requested →
    o.policy = .none → s.blocks.paper.motion = some m → m.requester = .issue → m.kind = .feedToTop →
    m.direction = .forward →
    (∀ r, (s.blocks.paper.stock m.tractor).endRemaining = some r → m.toGo ≤ r) → m.jamCount + min m.toGo 1 < 96 →
    ∃ t, exec .motionComplete s = .next t ∧
      let f := s.blocks.form o.form
      let x := s.blocks.paper.stock m.tractor
      s.Became t
        { s.blocks with
          forms := s.blocks.forms.set o.form
            { f with inFlight := false, issueCount := if f.issueCount < 65535 then f.issueCount + 1 else f.issueCount }
          pool := s.blocks.pool.map fun r : FieldRecord =>
            if r.form = o.form then
              let q := if r.field ∈ s.blocks.controller.struck then r.advance else r
              { q with body := q.body.applyStaged }
            else r
          composer := { image := [], spans := [], passSpan := none }
          paper :=
            { s.blocks.paper.setStock m.tractor
                { x with state := .atPrint, offset := some 0, endRemaining := x.endRemaining.map fun r => r - m.toGo }
              with
              motion := none }
          orders := s.blocks.orders.update o.tag fun _ =>
            { o with done := o.done + 1, state := .done, halt := none, cancelPending := false, reported := false }
          controller :=
            { state := .idle
              current := none
              phase := .none
              line := none
              struck := []
              heldReason := none
              voidMotion := none
              remembered := none
              coverMark := false
              awaitsHoming := false
              presentFinal := false } }.settle

/-! ## The link -/

/-- RECEIVE_CHARACTER ends both idle indications and stores the character with its gap mark, HOLD asserted at 48; at a
full FIFO the FIFO is lost, HOLD released, OVERRUN latched and the parser discards until a short idle; in DISCARD the
character is dropped (R176 to R178). SHORT_IDLE makes the short indication hold and ends DISCARD; LONG_IDLE makes both
hold, and truncates a frame in assembly with the FIFO empty (R179, R181). The long-gap mark is the long indication as it
stood, and LONG_IDLE makes the short one hold too (deduced, assumption logs 10 and 11). -/
def Obligations.TheReceiverKeepsTheFifo : Prop :=
  ∀ s : State, s.held = false →
    let latch := fun n : BitVec 4 =>
      { s.blocks with attention := { s.blocks.attention with linkTrouble := s.blocks.attention.linkTrouble ||| n } }
    let fresh : Parser :=
      { state := .hunt, sum := 0, headerTaken := 0, station := 0, command := 0, length := 0, payload := [],
        checkHigh := none }
    let became := fun (t : State) (l : Link) (b : Blocks) =>
      t.link = l ∧ t.blocks = b ∧ t.held = s.held ∧ t.pending = s.pending
    (∀ x : Byte, ∃ t, exec (.receiveCharacter x) s = .next t ∧
      let l := { s.link with shortIdle := false, longIdle := false }
      (s.link.parser.state = .discard → became t l s.blocks) ∧
      (¬ s.link.parser.state = .discard → s.link.fifo.length < 64 →
        became t
          { l with
            fifo := s.link.fifo ++ [{ byte := x, longGap := s.link.longIdle }]
            hold := if 48 ≤ s.link.fifo.length + 1 then true else s.link.hold } s.blocks) ∧
      (¬ s.link.parser.state = .discard → 64 ≤ s.link.fifo.length →
        became t { l with fifo := [], hold := false, parser := { fresh with state := .discard } } (latch 8))) ∧
    (∃ t, exec .shortIdle s = .next t ∧
      (¬ s.link.parser.state = .discard → became t { s.link with shortIdle := true } s.blocks) ∧
      (s.link.parser.state = .discard → s.link.shortIdle = false →
        became t { s.link with shortIdle := true, parser := fresh } s.blocks)) ∧
    ∃ t, exec .longIdle s = .next t ∧ (s.link.longIdle = true → t = s) ∧
      (s.link.longIdle = false →
        let inFrame := s.link.parser.state = .header ∨ s.link.parser.state = .payload ∨ s.link.parser.state = .check
        (inFrame → s.link.fifo = [] →
          became t { s.link with shortIdle := true, longIdle := true, parser := fresh } (latch 4)) ∧
        (¬ inFrame ∨ ¬ s.link.fifo = [] → ¬ s.link.parser.state = .discard →
          became t { s.link with shortIdle := true, longIdle := true } s.blocks))

/-- PARSER_DRAW takes one entry from the front of the FIFO and releases HOLD at 16 entries or less; a paused or
discarding parser and an empty FIFO draw nothing. In HUNT a byte 0x5A begins a frame and another is dropped. In a
frame a long gap truncates it, and the byte is taken in HUNT; without a gap the byte is STATION, COMMAND or LENGTH
(201 and more is a format fault), a payload byte, or a check byte, the first three and the payload added to the sum; a
check that does not match latches CHECK (R177, R179 to R182). -/
def Obligations.TheParserTakesOneByte : Prop :=
  ∀ s : State, s.held = false → ∃ t, exec .parserDraw s = .next t ∧
    let p := s.link.parser
    (s.link.paused = true ∨ p.state = .discard ∨ s.link.fifo = [] → t = s) ∧
    ∀ e rest, s.link.fifo = e :: rest → s.link.paused = false → ¬ p.state = .discard →
      let latch := fun n : BitVec 4 =>
        { s.blocks with attention := { s.blocks.attention with linkTrouble := s.blocks.attention.linkTrouble ||| n } }
      let fresh : Parser :=
        { state := .hunt, sum := 0, headerTaken := 0, station := 0, command := 0, length := 0, payload := [],
          checkHigh := none }
      let begun := { fresh with state := .header }
      let summed := { p with sum := p.sum + e.byte.zeroExtend 16 }
      let became := fun (q : Parser) (b : Blocks) =>
        t.link = { s.link with fifo := rest, hold := if rest.length ≤ 16 then false else s.link.hold, parser := q } ∧
          t.blocks = b ∧ t.held = s.held ∧ t.pending = s.pending
      (p.state = .hunt → became (if e.byte = 0x5A then begun else p) s.blocks) ∧
      (¬ p.state = .hunt → e.longGap = true → became (if e.byte = 0x5A then begun else fresh) (latch 4)) ∧
      (e.longGap = false →
        (p.state = .header → p.headerTaken = 0 →
          became { summed with headerTaken := 1, station := e.byte } s.blocks) ∧
        (p.state = .header → p.headerTaken = 1 →
          became { summed with headerTaken := 2, command := e.byte } s.blocks) ∧
        (p.state = .header → p.headerTaken = 2 → e.byte.toNat ≤ 200 →
          became
            { summed with headerTaken := 3, length := e.byte, state := if e.byte = 0 then .check else .payload }
            s.blocks) ∧
        (p.state = .header → p.headerTaken = 2 → 200 < e.byte.toNat → became fresh (latch 2)) ∧
        (p.state = .payload →
          became
            { summed with
              payload := p.payload ++ [e.byte]
              state := if p.payload.length + 1 = p.length.toNat then .check else .payload } s.blocks) ∧
        (p.state = .check → p.checkHigh = none → became { p with checkHigh := some e.byte } s.blocks) ∧
        (∀ high, p.state = .check → p.checkHigh = some high → ¬ high ++ e.byte = p.sum → became fresh (latch 1)))

/-- A good frame that stands at the front of the FIFO with no gap in it, drawn character by character, is the command
it carries: the part ends as the row of that command leaves it, on the link with the frame taken out of the FIFO. A
frame of another station is dropped; a code outside the table is answered BAD_COMMAND and a payload length outside its
command's BAD_LENGTH, to an addressed frame alone (R177, R179 to R185, R189 to R191; assumption log 25 for the row's
route). -/
def Obligations.AGoodFrameIsItsCommand : Prop :=
  ∀ (s : State) (station code : Byte) (p : List Byte) (rest : List FifoEntry), s.Ready → s.link.ok →
    s.link.paused = false → s.link.parser.state = .hunt → p.length ≤ 200 →
    s.link.fifo = unbroken (frame station code p) ++ rest →
    let a := s.blocks.attention
    let mine := station.toNat ≤ 30 ∧
      (BitVec.ofNat 5 station.toNat ^^^ BitVec.ofNat 5 a.address) &&& ~~~a.stationMask = 0
    let taken := s.withLink
      { s.link with
        fifo := rest
        hold := if rest.length ≤ 16 then false else s.link.hold
        parser :=
          { state := .hunt, sum := 0, headerTaken := 0, station := 0, command := 0, length := 0, payload := [],
            checkHigh := none } }
    let run := execAll (List.replicate (p.length + 6) .parserDraw) s
    (¬ mine → ¬ station = 31 → run = .next taken) ∧
    (∀ c, Command.ofCode code = some c → c.accepts p.length = true →
      (mine → run = exec (c.row .addressed p) taken) ∧ (station = 31 → run = exec (c.row .broadcast p) taken)) ∧
    (∀ c, Command.ofCode code = some c → c.accepts p.length = false →
      (mine → ∃ t, run = .next t ∧ taken.TurnedAway t code .badLength) ∧
        (station = 31 → run = .next taken)) ∧
    (Command.ofCode code = none →
      (mine → ∃ t, run = .next t ∧ taken.TurnedAway t code .badCommand) ∧
        (station = 31 → run = .next taken))

/-- A broadcast command gets no reply and leaves the link alone: a reading command is discarded, SOFT_RESET takes effect
at once, and any other changes the records as it would addressed (R173, R184). The route is an operand of the row (the
model's choice, assumption log 25). -/
def Obligations.BroadcastIsSilent : Prop :=
  ∀ (s : State) (c : Command) (p : List Byte), s.Ready →
    ∃ t, exec (c.row .broadcast p) s = .next t ∧ t.link = s.link ∧ t.held = s.held ∧ t.pending = s.pending ∧
      (c.reading = true → t = s) ∧
      (c = .softReset → t.blocks = s.blocks.softReset) ∧
      (c.reading = false → ¬ c = .softReset → ∃ u, exec (c.row .addressed p) s = .next u ∧ t.blocks = u.blocks)

/-! ## Invariants -/

/-- Every step keeps the eighteen heat accounts within 0 to 96 (R73); the print path held by one stock at most, with a
stock MOVING exactly while the motion in flight moves it (R91, R97); and the bounds of the FIFO, the agreement of HOLD
with its count, and the parser paused in HUNT or DISCARD while a reply is being sent (R176, R177, R179). -/
def Obligations.EveryStepKeepsHeatPathAndLink : Prop :=
  ∀ s t : State, step s = .next t →
    (s.blocks.head.heatOk → t.blocks.head.heatOk) ∧ (s.blocks.paper.pathOk → t.blocks.paper.pathOk) ∧
      (s.link.ok → t.link.ok)

/-- Every step keeps the Order Table within its bounds, its records within their values, no record with more tickets
done than requested, and the admission numbers from 1 to 65,535 in admission order (R115, R117, R119, R120); and it
keeps the RUNNING record the controller's current order, so that at most one runs, and the ticket in flight and wanted
while its walk is made (R12, R133, R138). -/
def Obligations.EveryStepKeepsTheOrders : Prop :=
  ∀ s t : State, step s = .next t → s.blocks.orders.ok →
    t.blocks.orders.ok ∧ (s.blocks.runsOne → t.blocks.runsOne) ∧ (s.blocks.ticketsOk → t.blocks.ticketsOk)

/-- Every step keeps the forms and the fields in agreement (R1, R10, R19, R21 to R23, R38) and the
glyphs of set 2 in their shape (R47, R49). -/
def Obligations.EveryStepKeepsRecordsAndGlyphs : Prop :=
  ∀ s t : State, step s = .next t →
    (s.blocks.recordsOk → t.blocks.recordsOk) ∧ (s.blocks.glyphsOk → t.blocks.glyphsOk)

/-- The state after reset satisfies every invariant that the steps keep. -/
def Obligations.ResetHoldsTheInvariants : Prop :=
  State.reset.blocks.head.heatOk ∧ State.reset.blocks.paper.pathOk ∧ State.reset.link.ok ∧
    State.reset.blocks.orders.ok ∧ State.reset.blocks.runsOne ∧ State.reset.blocks.ticketsOk ∧
    State.reset.blocks.recordsOk ∧
    State.reset.blocks.glyphsOk
end

