-- ==== Sys2Proof/Laws/State.lean ====
section
/-! SUPPORT. One lemma per field per update: what each update of the records writes and what it leaves. -/

set_option Elab.async false

namespace Sys2Proof.Machine

@[simp] theorem Blocks.withForms_forms (b : Blocks) (x : List FormRecord) : (b.withForms x).forms = x := rfl
@[simp] theorem Blocks.withForms_pool (b : Blocks) (x : List FormRecord) : (b.withForms x).pool = b.pool := rfl
@[simp] theorem Blocks.withForms_glyphs (b : Blocks) (x : List FormRecord) : (b.withForms x).glyphs = b.glyphs := rfl
@[simp] theorem Blocks.withForms_composer (b : Blocks) (x : List FormRecord) : (b.withForms x).composer = b.composer := rfl
@[simp] theorem Blocks.withForms_head (b : Blocks) (x : List FormRecord) : (b.withForms x).head = b.head := rfl
@[simp] theorem Blocks.withForms_paper (b : Blocks) (x : List FormRecord) : (b.withForms x).paper = b.paper := rfl
@[simp] theorem Blocks.withForms_orders (b : Blocks) (x : List FormRecord) : (b.withForms x).orders = b.orders := rfl
@[simp] theorem Blocks.withForms_controller (b : Blocks) (x : List FormRecord) : (b.withForms x).controller = b.controller := rfl
@[simp] theorem Blocks.withForms_attention (b : Blocks) (x : List FormRecord) : (b.withForms x).attention = b.attention := rfl

@[simp] theorem Blocks.withPool_forms (b : Blocks) (x : List FieldRecord) : (b.withPool x).forms = b.forms := rfl
@[simp] theorem Blocks.withPool_pool (b : Blocks) (x : List FieldRecord) : (b.withPool x).pool = x := rfl
@[simp] theorem Blocks.withPool_glyphs (b : Blocks) (x : List FieldRecord) : (b.withPool x).glyphs = b.glyphs := rfl
@[simp] theorem Blocks.withPool_composer (b : Blocks) (x : List FieldRecord) : (b.withPool x).composer = b.composer := rfl
@[simp] theorem Blocks.withPool_head (b : Blocks) (x : List FieldRecord) : (b.withPool x).head = b.head := rfl
@[simp] theorem Blocks.withPool_paper (b : Blocks) (x : List FieldRecord) : (b.withPool x).paper = b.paper := rfl
@[simp] theorem Blocks.withPool_orders (b : Blocks) (x : List FieldRecord) : (b.withPool x).orders = b.orders := rfl
@[simp] theorem Blocks.withPool_controller (b : Blocks) (x : List FieldRecord) : (b.withPool x).controller = b.controller := rfl
@[simp] theorem Blocks.withPool_attention (b : Blocks) (x : List FieldRecord) : (b.withPool x).attention = b.attention := rfl

@[simp] theorem Blocks.withGlyphs_forms (b : Blocks) (x : List Glyph) : (b.withGlyphs x).forms = b.forms := rfl
@[simp] theorem Blocks.withGlyphs_pool (b : Blocks) (x : List Glyph) : (b.withGlyphs x).pool = b.pool := rfl
@[simp] theorem Blocks.withGlyphs_glyphs (b : Blocks) (x : List Glyph) : (b.withGlyphs x).glyphs = x := rfl
@[simp] theorem Blocks.withGlyphs_composer (b : Blocks) (x : List Glyph) : (b.withGlyphs x).composer = b.composer := rfl
@[simp] theorem Blocks.withGlyphs_head (b : Blocks) (x : List Glyph) : (b.withGlyphs x).head = b.head := rfl
@[simp] theorem Blocks.withGlyphs_paper (b : Blocks) (x : List Glyph) : (b.withGlyphs x).paper = b.paper := rfl
@[simp] theorem Blocks.withGlyphs_orders (b : Blocks) (x : List Glyph) : (b.withGlyphs x).orders = b.orders := rfl
@[simp] theorem Blocks.withGlyphs_controller (b : Blocks) (x : List Glyph) : (b.withGlyphs x).controller = b.controller := rfl
@[simp] theorem Blocks.withGlyphs_attention (b : Blocks) (x : List Glyph) : (b.withGlyphs x).attention = b.attention := rfl

@[simp] theorem Blocks.withComposer_forms (b : Blocks) (x : Composer) : (b.withComposer x).forms = b.forms := rfl
@[simp] theorem Blocks.withComposer_pool (b : Blocks) (x : Composer) : (b.withComposer x).pool = b.pool := rfl
@[simp] theorem Blocks.withComposer_glyphs (b : Blocks) (x : Composer) : (b.withComposer x).glyphs = b.glyphs := rfl
@[simp] theorem Blocks.withComposer_composer (b : Blocks) (x : Composer) : (b.withComposer x).composer = x := rfl
@[simp] theorem Blocks.withComposer_head (b : Blocks) (x : Composer) : (b.withComposer x).head = b.head := rfl
@[simp] theorem Blocks.withComposer_paper (b : Blocks) (x : Composer) : (b.withComposer x).paper = b.paper := rfl
@[simp] theorem Blocks.withComposer_orders (b : Blocks) (x : Composer) : (b.withComposer x).orders = b.orders := rfl
@[simp] theorem Blocks.withComposer_controller (b : Blocks) (x : Composer) : (b.withComposer x).controller = b.controller := rfl
@[simp] theorem Blocks.withComposer_attention (b : Blocks) (x : Composer) : (b.withComposer x).attention = b.attention := rfl

@[simp] theorem Blocks.withHead_forms (b : Blocks) (x : Head) : (b.withHead x).forms = b.forms := rfl
@[simp] theorem Blocks.withHead_pool (b : Blocks) (x : Head) : (b.withHead x).pool = b.pool := rfl
@[simp] theorem Blocks.withHead_glyphs (b : Blocks) (x : Head) : (b.withHead x).glyphs = b.glyphs := rfl
@[simp] theorem Blocks.withHead_composer (b : Blocks) (x : Head) : (b.withHead x).composer = b.composer := rfl
@[simp] theorem Blocks.withHead_head (b : Blocks) (x : Head) : (b.withHead x).head = x := rfl
@[simp] theorem Blocks.withHead_paper (b : Blocks) (x : Head) : (b.withHead x).paper = b.paper := rfl
@[simp] theorem Blocks.withHead_orders (b : Blocks) (x : Head) : (b.withHead x).orders = b.orders := rfl
@[simp] theorem Blocks.withHead_controller (b : Blocks) (x : Head) : (b.withHead x).controller = b.controller := rfl
@[simp] theorem Blocks.withHead_attention (b : Blocks) (x : Head) : (b.withHead x).attention = b.attention := rfl

@[simp] theorem Blocks.withPaper_forms (b : Blocks) (x : Paper) : (b.withPaper x).forms = b.forms := rfl
@[simp] theorem Blocks.withPaper_pool (b : Blocks) (x : Paper) : (b.withPaper x).pool = b.pool := rfl
@[simp] theorem Blocks.withPaper_glyphs (b : Blocks) (x : Paper) : (b.withPaper x).glyphs = b.glyphs := rfl
@[simp] theorem Blocks.withPaper_composer (b : Blocks) (x : Paper) : (b.withPaper x).composer = b.composer := rfl
@[simp] theorem Blocks.withPaper_head (b : Blocks) (x : Paper) : (b.withPaper x).head = b.head := rfl
@[simp] theorem Blocks.withPaper_paper (b : Blocks) (x : Paper) : (b.withPaper x).paper = x := rfl
@[simp] theorem Blocks.withPaper_orders (b : Blocks) (x : Paper) : (b.withPaper x).orders = b.orders := rfl
@[simp] theorem Blocks.withPaper_controller (b : Blocks) (x : Paper) : (b.withPaper x).controller = b.controller := rfl
@[simp] theorem Blocks.withPaper_attention (b : Blocks) (x : Paper) : (b.withPaper x).attention = b.attention := rfl

@[simp] theorem Blocks.withOrders_forms (b : Blocks) (x : OrderTable) : (b.withOrders x).forms = b.forms := rfl
@[simp] theorem Blocks.withOrders_pool (b : Blocks) (x : OrderTable) : (b.withOrders x).pool = b.pool := rfl
@[simp] theorem Blocks.withOrders_glyphs (b : Blocks) (x : OrderTable) : (b.withOrders x).glyphs = b.glyphs := rfl
@[simp] theorem Blocks.withOrders_composer (b : Blocks) (x : OrderTable) : (b.withOrders x).composer = b.composer := rfl
@[simp] theorem Blocks.withOrders_head (b : Blocks) (x : OrderTable) : (b.withOrders x).head = b.head := rfl
@[simp] theorem Blocks.withOrders_paper (b : Blocks) (x : OrderTable) : (b.withOrders x).paper = b.paper := rfl
@[simp] theorem Blocks.withOrders_orders (b : Blocks) (x : OrderTable) : (b.withOrders x).orders = x := rfl
@[simp] theorem Blocks.withOrders_controller (b : Blocks) (x : OrderTable) : (b.withOrders x).controller = b.controller := rfl
@[simp] theorem Blocks.withOrders_attention (b : Blocks) (x : OrderTable) : (b.withOrders x).attention = b.attention := rfl

@[simp] theorem Blocks.withController_forms (b : Blocks) (x : Controller) : (b.withController x).forms = b.forms := rfl
@[simp] theorem Blocks.withController_pool (b : Blocks) (x : Controller) : (b.withController x).pool = b.pool := rfl
@[simp] theorem Blocks.withController_glyphs (b : Blocks) (x : Controller) : (b.withController x).glyphs = b.glyphs := rfl
@[simp] theorem Blocks.withController_composer (b : Blocks) (x : Controller) : (b.withController x).composer = b.composer := rfl
@[simp] theorem Blocks.withController_head (b : Blocks) (x : Controller) : (b.withController x).head = b.head := rfl
@[simp] theorem Blocks.withController_paper (b : Blocks) (x : Controller) : (b.withController x).paper = b.paper := rfl
@[simp] theorem Blocks.withController_orders (b : Blocks) (x : Controller) : (b.withController x).orders = b.orders := rfl
@[simp] theorem Blocks.withController_controller (b : Blocks) (x : Controller) : (b.withController x).controller = x := rfl
@[simp] theorem Blocks.withController_attention (b : Blocks) (x : Controller) : (b.withController x).attention = b.attention := rfl

@[simp] theorem Blocks.withAttention_forms (b : Blocks) (x : Attention) : (b.withAttention x).forms = b.forms := rfl
@[simp] theorem Blocks.withAttention_pool (b : Blocks) (x : Attention) : (b.withAttention x).pool = b.pool := rfl
@[simp] theorem Blocks.withAttention_glyphs (b : Blocks) (x : Attention) : (b.withAttention x).glyphs = b.glyphs := rfl
@[simp] theorem Blocks.withAttention_composer (b : Blocks) (x : Attention) : (b.withAttention x).composer = b.composer := rfl
@[simp] theorem Blocks.withAttention_head (b : Blocks) (x : Attention) : (b.withAttention x).head = b.head := rfl
@[simp] theorem Blocks.withAttention_paper (b : Blocks) (x : Attention) : (b.withAttention x).paper = b.paper := rfl
@[simp] theorem Blocks.withAttention_orders (b : Blocks) (x : Attention) : (b.withAttention x).orders = b.orders := rfl
@[simp] theorem Blocks.withAttention_controller (b : Blocks) (x : Attention) : (b.withAttention x).controller = b.controller := rfl
@[simp] theorem Blocks.withAttention_attention (b : Blocks) (x : Attention) : (b.withAttention x).attention = x := rfl

@[simp] theorem State.withBlocks_blocks (s : State) (x : Blocks) : (s.withBlocks x).blocks = x := rfl
@[simp] theorem State.withBlocks_link (s : State) (x : Blocks) : (s.withBlocks x).link = s.link := rfl
@[simp] theorem State.withBlocks_held (s : State) (x : Blocks) : (s.withBlocks x).held = s.held := rfl
@[simp] theorem State.withBlocks_pending (s : State) (x : Blocks) : (s.withBlocks x).pending = s.pending := rfl

@[simp] theorem State.withLink_blocks (s : State) (x : Link) : (s.withLink x).blocks = s.blocks := rfl
@[simp] theorem State.withLink_link (s : State) (x : Link) : (s.withLink x).link = x := rfl
@[simp] theorem State.withLink_held (s : State) (x : Link) : (s.withLink x).held = s.held := rfl
@[simp] theorem State.withLink_pending (s : State) (x : Link) : (s.withLink x).pending = s.pending := rfl

@[simp] theorem State.withHeld_blocks (s : State) (x : Bool) : (s.withHeld x).blocks = s.blocks := rfl
@[simp] theorem State.withHeld_link (s : State) (x : Bool) : (s.withHeld x).link = s.link := rfl
@[simp] theorem State.withHeld_held (s : State) (x : Bool) : (s.withHeld x).held = x := rfl
@[simp] theorem State.withHeld_pending (s : State) (x : Bool) : (s.withHeld x).pending = s.pending := rfl

@[simp] theorem State.withPending_blocks (s : State) (x : List Instr) : (s.withPending x).blocks = s.blocks := rfl
@[simp] theorem State.withPending_link (s : State) (x : List Instr) : (s.withPending x).link = s.link := rfl
@[simp] theorem State.withPending_held (s : State) (x : List Instr) : (s.withPending x).held = s.held := rfl
@[simp] theorem State.withPending_pending (s : State) (x : List Instr) : (s.withPending x).pending = x := rfl

/-! The controller's record alone changes under `control`. -/

@[simp] theorem Blocks.control_forms (b : Blocks) (g : Controller → Controller) : (b.control g).forms = b.forms := rfl
@[simp] theorem Blocks.control_pool (b : Blocks) (g : Controller → Controller) : (b.control g).pool = b.pool := rfl
@[simp] theorem Blocks.control_glyphs (b : Blocks) (g : Controller → Controller) : (b.control g).glyphs = b.glyphs := rfl
@[simp] theorem Blocks.control_composer (b : Blocks) (g : Controller → Controller) : (b.control g).composer = b.composer := rfl
@[simp] theorem Blocks.control_head (b : Blocks) (g : Controller → Controller) : (b.control g).head = b.head := rfl
@[simp] theorem Blocks.control_paper (b : Blocks) (g : Controller → Controller) : (b.control g).paper = b.paper := rfl
@[simp] theorem Blocks.control_orders (b : Blocks) (g : Controller → Controller) : (b.control g).orders = b.orders := rfl
@[simp] theorem Blocks.control_controller (b : Blocks) (g : Controller → Controller) : (b.control g).controller = g b.controller := rfl
@[simp] theorem Blocks.control_attention (b : Blocks) (g : Controller → Controller) : (b.control g).attention = b.attention := rfl

/-! Writing a form writes the Form Table alone; latching an event writes the Attention Unit alone. -/

@[simp] theorem Blocks.setForm_pool (b : Blocks) (f : Nat) (r : FormRecord) : (b.setForm f r).pool = b.pool := rfl
@[simp] theorem Blocks.setForm_glyphs (b : Blocks) (f : Nat) (r : FormRecord) : (b.setForm f r).glyphs = b.glyphs := rfl
@[simp] theorem Blocks.setForm_composer (b : Blocks) (f : Nat) (r : FormRecord) : (b.setForm f r).composer = b.composer := rfl
@[simp] theorem Blocks.setForm_head (b : Blocks) (f : Nat) (r : FormRecord) : (b.setForm f r).head = b.head := rfl
@[simp] theorem Blocks.setForm_paper (b : Blocks) (f : Nat) (r : FormRecord) : (b.setForm f r).paper = b.paper := rfl
@[simp] theorem Blocks.setForm_orders (b : Blocks) (f : Nat) (r : FormRecord) : (b.setForm f r).orders = b.orders := rfl
@[simp] theorem Blocks.setForm_controller (b : Blocks) (f : Nat) (r : FormRecord) : (b.setForm f r).controller = b.controller := rfl
@[simp] theorem Blocks.setForm_attention (b : Blocks) (f : Nat) (r : FormRecord) : (b.setForm f r).attention = b.attention := rfl
@[simp] theorem Blocks.setForm_forms (b : Blocks) (f : Nat) (r : FormRecord) : (b.setForm f r).forms = b.forms.set f r := rfl

@[simp] theorem Blocks.latch_forms (b : Blocks) (k : Tractor) (e : PaperEvent) : (b.latch k e).forms = b.forms := rfl
@[simp] theorem Blocks.latch_pool (b : Blocks) (k : Tractor) (e : PaperEvent) : (b.latch k e).pool = b.pool := rfl
@[simp] theorem Blocks.latch_glyphs (b : Blocks) (k : Tractor) (e : PaperEvent) : (b.latch k e).glyphs = b.glyphs := rfl
@[simp] theorem Blocks.latch_composer (b : Blocks) (k : Tractor) (e : PaperEvent) : (b.latch k e).composer = b.composer := rfl
@[simp] theorem Blocks.latch_head (b : Blocks) (k : Tractor) (e : PaperEvent) : (b.latch k e).head = b.head := rfl
@[simp] theorem Blocks.latch_paper (b : Blocks) (k : Tractor) (e : PaperEvent) : (b.latch k e).paper = b.paper := rfl
@[simp] theorem Blocks.latch_orders (b : Blocks) (k : Tractor) (e : PaperEvent) : (b.latch k e).orders = b.orders := rfl
@[simp] theorem Blocks.latch_controller (b : Blocks) (k : Tractor) (e : PaperEvent) : (b.latch k e).controller = b.controller := rfl

@[simp] theorem Blocks.stopIdle_forms (b : Blocks) : b.stopIdle.forms = b.forms := rfl
@[simp] theorem Blocks.stopIdle_pool (b : Blocks) : b.stopIdle.pool = b.pool := rfl
@[simp] theorem Blocks.stopIdle_glyphs (b : Blocks) : b.stopIdle.glyphs = b.glyphs := rfl
@[simp] theorem Blocks.stopIdle_composer (b : Blocks) : b.stopIdle.composer = b.composer := rfl
@[simp] theorem Blocks.stopIdle_head (b : Blocks) : b.stopIdle.head = b.head := rfl
@[simp] theorem Blocks.stopIdle_paper (b : Blocks) : b.stopIdle.paper = b.paper := rfl
@[simp] theorem Blocks.stopIdle_orders (b : Blocks) : b.stopIdle.orders = b.orders := rfl
@[simp] theorem Blocks.stopIdle_controller (b : Blocks) : b.stopIdle.controller = b.controller := rfl

/-! Stocks. -/

@[simp] theorem Paper.setStock_same (p : Paper) (t : Tractor) (x : Stock) : (p.setStock t x).stock t = x := by
  cases t <;> rfl

@[simp] theorem Paper.setStock_other (p : Paper) (t : Tractor) (x : Stock) :
    (p.setStock t x).stock t.other = p.stock t.other := by
  cases t <;> rfl

@[simp] theorem Paper.setStock_motion (p : Paper) (t : Tractor) (x : Stock) : (p.setStock t x).motion = p.motion := by
  cases t <;> rfl

@[simp] theorem Paper.setStock_inputs (p : Paper) (t : Tractor) (x : Stock) : (p.setStock t x).inputs = p.inputs := by
  cases t <;> rfl

@[simp] theorem Paper.setStock_waiting (p : Paper) (t : Tractor) (x : Stock) : (p.setStock t x).waiting = p.waiting := by
  cases t <;> rfl

@[simp] theorem Paper.setStock_feedMotor (p : Paper) (t : Tractor) (x : Stock) :
    (p.setStock t x).feedMotor = p.feedMotor := by
  cases t <;> rfl

@[simp] theorem Tractor.other_other (t : Tractor) : t.other.other = t := by cases t <;> rfl

theorem Tractor.eq_or_other (t u : Tractor) : u = t ∨ u = t.other := by cases t <;> cases u <;> simp [Tractor.other]

@[simp] theorem Tractor.other_ne (t : Tractor) : ¬ t.other = t := by cases t <;> simp [Tractor.other]

end Sys2Proof.Machine
end

