-- ==== Sys2Proof/Laws/Heat.lean ====
section
/-! SUPPORT. What each operation of the Head Drive does to the heat accounts: all but a column of a segment and a refill
tick leave them as they are, and every one keeps them 18 balances of 0 to 96. -/

set_option Elab.async false

namespace Sys2Proof.Machine

/-! ## The accounts themselves -/

theorem length_debit (k : Nat) (p : Pins) (l : List Nat) : (debit k p l).length = l.length := by simp [debit]

theorem length_credit (l : List Nat) : (credit l).length = l.length := by simp [credit]

theorem le_of_mem_debit {k : Nat} {p : Pins} {l : List Nat} {n : Nat} (h : ∀ x ∈ l, x ≤ n) :
    ∀ x ∈ debit k p l, x ≤ n := by
  intro x hx
  simp only [debit, List.mem_map] at hx
  obtain ⟨y, hy, rfl⟩ := hx
  have := h y.1 (List.fst_mem_of_mem_zipIdx hy)
  split <;> omega

theorem le_of_mem_credit {l : List Nat} (h : ∀ x ∈ l, x ≤ Config.heatFull) : ∀ x ∈ credit l, x ≤ Config.heatFull := by
  intro x hx
  simp only [credit, List.mem_map] at hx
  obtain ⟨y, hy, rfl⟩ := hx
  have := h y hy
  split <;> omega

theorem columnCredit_ok {v : Speed} {k : Nat} {l : List Nat} (h : l.length = 18 ∧ ∀ x ∈ l, x ≤ Config.heatFull) :
    (columnCredit v k l).length = 18 ∧ ∀ x ∈ columnCredit v k l, x ≤ Config.heatFull := by
  have hc : (credit l).length = 18 ∧ ∀ x ∈ credit l, x ≤ Config.heatFull :=
    ⟨by rw [length_credit]; exact h.1, le_of_mem_credit h.2⟩
  unfold columnCredit
  split
  · exact hc
  · split
    · exact hc
    · exact h
  · exact h

theorem columnHeat_ok {n : Nat} {v : Speed} {k : Nat} {p : Pins} {l : List Nat}
    (h : l.length = 18 ∧ ∀ x ∈ l, x ≤ Config.heatFull) :
    (columnHeat n v k p l).length = 18 ∧ ∀ x ∈ columnHeat n v k p l, x ≤ Config.heatFull :=
  columnCredit_ok ⟨by rw [length_debit]; exact h.1, le_of_mem_debit h.2⟩

/-! ## Operations that leave the accounts as they are -/

@[simp] theorem Head.clearWork_heat (h : Head) : h.clearWork.heat = h.heat := rfl
@[simp] theorem Head.stop_heat (h : Head) : h.stop.heat = h.heat := by unfold Head.stop; split <;> rfl
@[simp] theorem Head.lose_heat (h : Head) : h.lose.heat = h.heat := rfl
@[simp] theorem Head.release_heat (h : Head) : h.release.heat = h.heat := rfl
@[simp] theorem Head.beginSegment_heat (h : Head) (p : Pass) (d : PassDirection) (v : Speed) (n : Nat) :
    (h.beginSegment p d v n).heat = h.heat := rfl
@[simp] theorem Head.beginDwell_heat (h : Head) : h.beginDwell.heat = h.heat := rfl
@[simp] theorem Head.suspend_heat (h : Head) : h.suspend.heat = h.heat := rfl
@[simp] theorem Head.approach_heat (h : Head) : h.approach.heat = h.heat := rfl
@[simp] theorem Head.takeDirection_heat (h : Head) (p : Pass) : (h.takeDirection p).heat = h.heat := rfl

@[simp] theorem Head.planNext_heat (image : List Dots) (h : Head) : (h.planNext image).heat = h.heat := by
  unfold Head.planNext
  split
  · rfl
  · rfl
  · split
    · rfl
    · split
      · rfl
      · split <;> rfl

@[simp] theorem Head.afterHoming_heat (h : Head) : h.afterHoming.heat = h.heat := by
  unfold Head.afterHoming
  split
  · rfl
  · split
    · rfl
    · split <;> rfl
    · split
      · rfl
      · split <;> rfl

@[simp] theorem Head.foundHome_heat (h : Head) : h.foundHome.heat = h.heat := by simp [Head.foundHome]

@[simp] theorem Head.beginHoming_heat (b : Bool) (q : HomeRequester) (h : Head) :
    (h.beginHoming b q).heat = h.heat := by
  unfold Head.beginHoming
  cases b <;> simp

@[simp] theorem Head.home_heat (b : Bool) (q : HomeRequester) (h : Head) : (h.home b q).heat = h.heat := by
  unfold Head.home
  split <;> simp

@[simp] theorem Head.request_heat (b : Bool) (p : Pass) (h : Head) : (h.request b p).heat = h.heat := by
  unfold Head.request
  split <;> simp

@[simp] theorem Head.pause_heat (h : Head) : h.pause.heat = h.heat := by unfold Head.pause; split <;> rfl
@[simp] theorem Head.resume_heat (b : Bool) (h : Head) : (h.resume b).heat = h.heat := by
  unfold Head.resume
  split
  · split <;> simp
  all_goals rfl
@[simp] theorem Head.endPass_heat (h : Head) : h.endPass.heat = h.heat := by unfold Head.endPass; split <;> rfl
@[simp] theorem Head.pulse_heat (h : Head) : h.pulse.heat = h.heat := by unfold Head.pulse; split <;> rfl

/-- An operation that leaves the accounts as they are keeps their bounds. -/
theorem Head.heatOk_of_eq {h k : Head} (e : k.heat = h.heat) (ok : h.heatOk) : k.heatOk := by
  unfold Head.heatOk at *
  rw [e]
  exact ok

/-! ## Operations that debit and credit -/

theorem Head.segmentStep_heatOk {image : List Dots} {h : Head} {g : Segment} (ok : h.heatOk) :
    (h.segmentStep image g).heatOk := columnHeat_ok ok

theorem Head.move_heatOk {image : List Dots} {h : Head} (ok : h.heatOk) : (h.move image).heatOk := by
  unfold Head.move
  split
  · exact ok
  · split <;> exact ok
  · split
    · exact Head.segmentStep_heatOk ok
    · exact ok
  all_goals exact ok

theorem Head.step_heatOk {image : List Dots} {b : Bool} {h : Head} (ok : h.heatOk) : (h.step image b).heatOk := by
  unfold Head.step
  split
  · exact Head.heatOk_of_eq (h := h.move image) rfl (Head.move_heatOk ok)
  · exact ok

theorem Head.steps_heatOk {image : List Dots} {b : Bool} (n : Nat) {h : Head} (ok : h.heatOk) :
    (h.steps image b n).heatOk := by
  induction n generalizing h with
  | zero => exact ok
  | succ n ih => exact ih (Head.step_heatOk ok)

theorem Head.traverse_heatOk {image : List Dots} (n : Nat) {h : Head} (ok : h.heatOk) :
    (h.traverse image n).heatOk := by
  induction n generalizing h with
  | zero => exact ok
  | succ n ih => exact ih (Head.move_heatOk ok)

theorem Head.tick_heatOk {image : List Dots} {h : Head} (ok : h.heatOk) : (h.tick image).heatOk := by
  have hc : (credit h.heat).length = 18 ∧ ∀ x ∈ credit h.heat, x ≤ Config.heatFull :=
    ⟨by rw [length_credit]; exact ok.1, le_of_mem_credit ok.2⟩
  unfold Head.tick
  split
  · exact ok
  · dsimp only
    split
    · exact Head.heatOk_of_eq (h := { h with heat := credit h.heat }) (Head.planNext_heat _ _) hc
    · exact hc
  all_goals exact hc

/-! ## The ends of moves -/

theorem Head.stalling_heatOk {image : List Dots} {b : Bool} {h k : Head} (e : h.stalling image b = some k)
    (ok : h.heatOk) : k.heatOk := by
  unfold Head.stalling at e
  split at e
  · dsimp only at e
    split at e
    · cases e
      exact Head.steps_heatOk _ ok
    · cases e
  · cases e

theorem Head.homingDone_heat {b : Bool} {h k : Head} (e : h.homingDone b = some k) : k.heat = h.heat := by
  unfold Head.homingDone at e
  split at e
  · cases e
    simp
  · cases e

theorem Head.homingLost_heat {b : Bool} {h k : Head} (e : h.homingLost b = some k) : k.heat = h.heat := by
  unfold Head.homingLost at e
  dsimp only at e
  split at e
  · cases e
    rfl
  · cases e

theorem Head.approachDone_heat {image : List Dots} {h k : Head} (e : h.approachDone image = some k) :
    k.heat = h.heat := by
  unfold Head.approachDone at e
  dsimp only at e
  split at e
  · cases e
    simp
  · cases e

theorem Head.segmentDone_heatOk {image : List Dots} {h k : Head} {a z : Nat}
    (e : h.segmentDone image = some (k, a, z)) (ok : h.heatOk) : k.heatOk := by
  unfold Head.segmentDone at e
  split at e
  · dsimp only at e
    split at e
    · split at e
      · cases e
        exact Head.heatOk_of_eq (by rfl) (Head.traverse_heatOk _ ok)
      · cases e
        exact Head.heatOk_of_eq (h := h.traverse image _) (by simp; rfl) (Head.traverse_heatOk _ ok)
    · cases e
  · cases e

end Sys2Proof.Machine
end

