-- ==== Sys2Proof/Laws/Path.lean ====
section
/-! SUPPORT. What each operation of the Paper Path Controller does to the print path: every one keeps at most one stock in
it, and a stock MOVING exactly while its motion is in flight. -/

set_option Elab.async false

namespace Sys2Proof.Machine

/-! ## The path invariant, tractor by tractor -/

/-- `pathOk`, told for a tractor and the other one. -/
theorem Paper.pathOk_iff (p : Paper) (t : Tractor) :
    p.pathOk ↔
      ¬ ((p.stock t).state.inPath = true ∧ (p.stock t.other).state.inPath = true) ∧
        (((p.stock t).state = .moving ↔ ∃ m, p.motion = some m ∧ m.tractor = t) ∧
          ((p.stock t.other).state = .moving ↔ ∃ m, p.motion = some m ∧ m.tractor = t.other)) ∧
        (∀ m, p.motion = some m → m.phase = 1 → m.kind = .park ∨ m.kind = .eject) ∧
        (∀ f, ¬ ((p.stock t).form = some f ∧ (p.stock t.other).form = some f)) := by
  have all : ∀ Q : Tractor → Prop, (∀ u, Q u) ↔ Q t ∧ Q t.other := by
    intro Q
    refine ⟨fun h => ⟨h t, h t.other⟩, fun h u => ?_⟩
    rcases Tractor.eq_or_other t u with e | e <;> rw [e]
    · exact h.1
    · exact h.2
  unfold Paper.pathOk
  rw [all]
  cases t
  · exact Iff.rfl
  · have a : p.stock .b = p.stockB := rfl
    have b : p.stock (Tractor.other .b) = p.stockA := rfl
    rw [a, b]
    constructor
    · rintro ⟨h1, h2, h3, h4⟩
      exact ⟨fun h => h1 ⟨h.2, h.1⟩, h2, h3, fun f h => h4 f ⟨h.2, h.1⟩⟩
    · rintro ⟨h1, h2, h3, h4⟩
      exact ⟨fun h => h1 ⟨h.2, h.1⟩, h2, h3, fun f h => h4 f ⟨h.2, h.1⟩⟩

/-- What a MOVING stock of one tractor says of the motion. -/
theorem Paper.pathOk.moving {p : Paper} (ok : p.pathOk) (t : Tractor) :
    (p.stock t).state = .moving ↔ ∃ m, p.motion = some m ∧ m.tractor = t := ok.2.1 t

/-- With a stock of the path elsewhere than MOVING no motion is in flight. -/
theorem Paper.pathOk.no_motion {p : Paper} (ok : p.pathOk) {t : Tractor} (hin : (p.stock t).state.inPath = true)
    (hmov : ¬ (p.stock t).state = .moving) : p.motion = none := by
  rw [Paper.pathOk_iff p t] at ok
  obtain ⟨h1, ⟨h2, h3⟩, _, _⟩ := ok
  cases hm : p.motion with
  | none => rfl
  | some m =>
    exfalso
    rcases Tractor.eq_or_other t m.tractor with e | e
    · exact hmov (h2.2 ⟨m, hm, e⟩)
    · have := h3.2 ⟨m, hm, e⟩
      exact h1 ⟨hin, by rw [this]; rfl⟩

/-- A change of the parts of the record that the path does not read. -/
theorem Paper.pathOk_of_same {p q : Paper} (ok : p.pathOk) (a : q.stockA = p.stockA) (b : q.stockB = p.stockB)
    (m : q.motion = p.motion) : q.pathOk := by
  have s : ∀ t, q.stock t = p.stock t := by intro t; cases t <;> simp [Paper.stock, a, b]
  unfold Paper.pathOk at *
  rw [a, b, m]
  refine ⟨ok.1, fun t => ?_, ok.2.2⟩
  rw [s]
  exact ok.2.1 t

/-- A stock that stays out of the path, without a form of the other's. -/
theorem Paper.pathOk_setStock_out {p : Paper} (ok : p.pathOk) (t : Tractor) (x : Stock)
    (was : ¬ (p.stock t).state = .moving) (out : x.state.inPath = false)
    (form : ∀ f, x.form = some f → (p.stock t.other).form = some f → False) : (p.setStock t x).pathOk := by
  rw [Paper.pathOk_iff _ t] at *
  obtain ⟨h1, ⟨h2, h3⟩, h4, h5⟩ := ok
  simp only [Paper.setStock_same, Paper.setStock_other, Paper.setStock_motion]
  refine ⟨fun h => ?_, ⟨?_, h3⟩, h4, fun f h => form f h.1 h.2⟩
  · rw [out] at h
    exact Bool.noConfusion h.1
  · constructor
    · intro e
      rw [e] at out
      exact Bool.noConfusion out
    · intro e
      exact absurd (h2.2 e) was

/-! ## Beginning, stepping, losing (R97 to R102) -/

/-- A motion begins with the other stock out of the path; phase 1 only to clear it. -/
theorem Paper.begin_pathOk {p : Paper} (ok : p.pathOk) (t : Tractor) (c : Course) (q : Requester) (n : Nat)
    (out : (p.stock t.other).state.inPath = false)
    (clears : n = 1 → c.kind = .park ∨ c.kind = .eject) : (p.begin t c q n).pathOk := by
  rw [Paper.pathOk_iff _ t] at *
  obtain ⟨_, ⟨_, h3⟩, _, h5⟩ := ok
  have other : (p.begin t c q n).stock t.other = p.stock t.other := by cases t <;> rfl
  have own : (p.begin t c q n).stock t = { p.stock t with state := .moving, offset := none } := by
    cases t <;> rfl
  have still : ¬ (p.stock t.other).state = .moving := by
    intro e
    rw [e] at out
    exact Bool.noConfusion out
  rw [other, own]
  refine ⟨fun h => ?_, ⟨?_, ?_⟩, ?_, h5⟩
  · rw [out] at h
    exact Bool.noConfusion h.2
  · exact ⟨fun _ => ⟨_, rfl, rfl⟩, fun _ => rfl⟩
  · constructor
    · intro e
      exact absurd e still
    · rintro ⟨m, hm, ht⟩
      cases hm
      exact absurd ht.symm (Tractor.other_ne t)
  · intro m hm hp
    cases hm
    exact clears hp

theorem Motion.eject_tractor (m : Motion) (n : Nat) : (m.eject n).tractor = m.tractor := rfl

/-- A feed step. -/
theorem Paper.step_pathOk {p : Paper} (ok : p.pathOk) : p.step.pathOk := by
  unfold Paper.step
  split
  · exact ok
  · rename_i m hm
    split
    · dsimp only
      rw [Paper.pathOk_iff _ m.tractor] at *
      obtain ⟨h1, ⟨h2, h3⟩, h4, h5⟩ := ok
      have own : ∀ y mo, ({ p.setStock m.tractor y with motion := mo } : Paper).stock m.tractor = y := by
        intro y mo; cases m.tractor <;> rfl
      have other : ∀ y mo, ({ p.setStock m.tractor y with motion := mo } : Paper).stock m.tractor.other
          = p.stock m.tractor.other := by
        intro y mo; cases m.tractor <;> rfl
      rw [own, other]
      refine ⟨h1, ⟨?_, ?_⟩, ?_, h5⟩
      · constructor
        · intro _
          exact ⟨_, rfl, by split <;> rfl⟩
        · intro _
          exact h2.2 ⟨m, hm, rfl⟩
      · constructor
        · intro e
          obtain ⟨k, hk, ht⟩ := h3.1 e
          rw [hm] at hk
          cases hk
          exact absurd ht.symm (Tractor.other_ne _)
        · rintro ⟨k, hk, ht⟩
          cases hk
          exfalso
          revert ht
          split <;> exact fun ht => absurd ht.symm (Tractor.other_ne _)
      · intro k hk hp
        cases hk
        revert hp
        split
        · intro _
          exact Or.inr rfl
        · exact h4 m hm
    · exact ok

theorem Paper.steps_pathOk (n : Nat) {p : Paper} (ok : p.pathOk) : (p.steps n).pathOk := by
  induction n generalizing p with
  | zero => exact ok
  | succ n ih => exact ih (Paper.step_pathOk ok)

/-- A jam or a stop. -/
theorem Paper.lose_pathOk {p : Paper} (ok : p.pathOk) : p.lose.pathOk := by
  unfold Paper.lose
  split
  · exact Paper.pathOk_of_same ok rfl rfl rfl
  · rename_i m hm
    rw [Paper.pathOk_iff _ m.tractor] at *
    obtain ⟨h1, ⟨h2, h3⟩, _, h5⟩ := ok
    have own : ∀ y mo w, ({ p.setStock m.tractor y with motion := mo, waiting := w } : Paper).stock m.tractor = y := by
      intro y mo w; cases m.tractor <;> rfl
    have other : ∀ y mo w, ({ p.setStock m.tractor y with motion := mo, waiting := w } : Paper).stock m.tractor.other
        = p.stock m.tractor.other := by
      intro y mo w; cases m.tractor <;> rfl
    have moving : (p.stock m.tractor).state = .moving := h2.2 ⟨m, hm, rfl⟩
    rw [own, other]
    refine ⟨fun h => h1 ⟨by rw [moving]; rfl, h.2⟩, ⟨?_, ?_⟩, ?_, h5⟩
    · exact ⟨fun e => (by cases e), fun ⟨_, e, _⟩ => (by cases e)⟩
    · constructor
      · intro e
        exact absurd ⟨by rw [moving]; rfl, by rw [e]; rfl⟩ h1
      · rintro ⟨_, e, _⟩
        cases e
    · intro k e
      cases e

theorem Paper.jamming_pathOk {p q : Paper} (e : p.jamming = some q) (ok : p.pathOk) : q.pathOk := by
  unfold Paper.jamming at e
  split at e
  · cases e
  · dsimp only at e
    split at e
    · split at e
      · cases e
        exact Paper.steps_pathOk _ ok
      · cases e
    · cases e

theorem Paper.pulse_pathOk_aux {p : Paper} {m : Motion} (hm : p.motion = some m) (ok : p.pathOk) (k : Motion)
    (ht : k.tractor = m.tractor) (hk : k.phase = 1 → k.kind = .park ∨ k.kind = .eject) :
    ({ p with motion := some k } : Paper).pathOk := by
  refine ⟨ok.1, fun t => ?_, ?_, ok.2.2.2⟩
  · have := ok.2.1 t
    have s : ({ p with motion := some k } : Paper).stock t = p.stock t := by cases t <;> rfl
    rw [s, this]
    constructor
    · rintro ⟨j, hj, e⟩
      rw [hm] at hj
      cases hj
      exact ⟨k, rfl, by rw [ht]; exact e⟩
    · rintro ⟨j, hj, e⟩
      cases hj
      exact ⟨m, hm, by rw [← ht]; exact e⟩
  · intro j hj
    cases hj
    exact hk

/-- A reverse motion turned into an ejection. -/
theorem Paper.turnedBack_pathOk {p : Paper} (ok : p.pathOk) (t : Tractor) (r : Nat) : (p.turnedBack t r).pathOk := by
  unfold Paper.turnedBack
  split
  · rename_i m hm
    split
    · exact Paper.pulse_pathOk_aux hm ok _ rfl fun _ => Or.inr rfl
    · exact ok
  · exact ok

/-! ## The end of a motion (R98 to R100, R109) -/

/-- What a motion lands as is neither MOVING nor LOST. -/
theorem Motion.landed_state (m : Motion) (x : Stock) (n : Nat) (s : Bool) :
    ¬ (m.landed x n s).state = .moving ∧ ¬ (m.landed x n s).state = .lost := by
  unfold Motion.landed
  split
  · cases s <;> simp [Stock.ejected]
  · cases hk : m.kind <;> simp [Motion.endState, hk]

/-- A motion that clears the path lands out of it. -/
theorem Motion.landed_out {m : Motion} (x : Stock) (n : Nat) (s : Bool) (h : m.kind = .park ∨ m.kind = .eject) :
    (m.landed x n s).state.inPath = false := by
  unfold Motion.landed
  split
  · cases s <;> rfl
  · rcases h with h | h <;> simp [Motion.endState, h, StockState.inPath]

theorem Motion.landed_form {m : Motion} {x : Stock} {n : Nat} {s : Bool} {f : Nat}
    (h : (m.landed x n s).form = some f) : x.form = some f := by
  unfold Motion.landed at h
  split at h
  · cases h
  · exact h

/-- The record once a motion has landed. -/
theorem Paper.landed_pathOk {p : Paper} (ok : p.pathOk) {m : Motion} (hm : p.motion = some m) (n : Nat) (s : Bool) :
    ({ p.setStock m.tractor (m.landed (p.stock m.tractor) n s) with motion := none } : Paper).pathOk := by
  rw [Paper.pathOk_iff _ m.tractor] at *
  obtain ⟨h1, ⟨h2, h3⟩, _, h5⟩ := ok
  have own : ∀ y mo, ({ p.setStock m.tractor y with motion := mo } : Paper).stock m.tractor = y := by
    intro y mo; cases m.tractor <;> rfl
  have other : ∀ y mo, ({ p.setStock m.tractor y with motion := mo } : Paper).stock m.tractor.other
      = p.stock m.tractor.other := by
    intro y mo; cases m.tractor <;> rfl
  have moving : (p.stock m.tractor).state = .moving := h2.2 ⟨m, hm, rfl⟩
  rw [own, other]
  refine ⟨fun h => h1 ⟨by rw [moving]; rfl, h.2⟩, ⟨?_, ?_⟩, ?_, ?_⟩
  · constructor
    · intro e
      exact absurd e (Motion.landed_state m _ _ _).1
    · rintro ⟨_, e, _⟩
      cases e
  · constructor
    · intro e
      exact absurd ⟨by rw [moving]; rfl, by rw [e]; rfl⟩ h1
    · rintro ⟨_, e, _⟩
      cases e
  · intro k e
    cases e
  · intro f h
    exact h5 f ⟨Motion.landed_form h.1, h.2⟩

@[simp] theorem Blocks.landMotion_paper (b : Blocks) (m : Motion) :
    (b.landMotion m).paper =
      { b.paper.setStock m.tractor
          (m.landed (b.paper.stock m.tractor) (b.stockLength m.tractor) (b.paper.sensor m.tractor)) with
        motion := none } := by
  unfold Blocks.landMotion
  dsimp only
  split
  · split <;> rfl
  · rfl

theorem Blocks.landMotion_pathOk {b : Blocks} {m : Motion} (hm : b.paper.motion = some m) (ok : b.paper.pathOk) :
    (b.landMotion m).paper.pathOk := by
  rw [Blocks.landMotion_paper]
  exact Paper.landed_pathOk ok hm _ _

/-- The course of a PARK motion clears the path. -/
theorem courseOf_park (t : Tractor) (x : Stock) (n c : Nat) :
    (courseOf t x n .park c).kind = .park ∨ (courseOf t x n .park c).kind = .eject := by
  unfold courseOf
  dsimp only
  split
  · rename_i r _
    right
    unfold Course.converted
    split
    · split <;> rfl
    · rfl
  · left
    rfl

/-- A motion of the Issue Controller begins only where its need is met. -/
theorem Paper.meetsNeed_ready {p : Paper} (ok : p.pathOk) {t : Tractor} {k : MotionKind} (h : p.meetsNeed t k = true) :
    p.motion = none ∧ (p.stock t.other).state.inPath = false := by
  have key : (p.stock t).state.inPath = true → ¬ (p.stock t).state = .moving →
      p.motion = none ∧ (p.stock t.other).state.inPath = false := by
    intro hin hmov
    refine ⟨ok.no_motion hin hmov, ?_⟩
    have := ((Paper.pathOk_iff p t).1 ok).1
    cases e : (p.stock t.other).state.inPath with
    | false => rfl
    | true => exact absurd ⟨hin, e⟩ this
  unfold Paper.meetsNeed at h
  cases k <;> simp only [Bool.and_eq_true, Bool.or_eq_true, beq_iff_eq, Bool.not_eq_true'] at h
  · obtain ⟨hp, ho⟩ := h
    refine ⟨?_, ho⟩
    cases hm : p.motion with
    | none => rfl
    | some m =>
      exfalso
      rcases Tractor.eq_or_other t m.tractor with e | e
      · have := (ok.moving t).2 ⟨m, hm, e⟩
        rw [hp] at this
        cases this
      · have := (ok.moving t.other).2 ⟨m, hm, e⟩
        rw [this] at ho
        exact Bool.noConfusion ho
  · rcases h with h | h <;> exact key (by rw [h]; rfl) (by rw [h]; simp)
  · exact key (by rw [h]; rfl) (by rw [h]; simp)
  · exact key (by rw [h]; rfl) (by rw [h]; simp)
  · exact key (by rw [h.1]; rfl) (by rw [h.1]; simp)
  · exact key (by rw [h]; rfl) (by rw [h]; simp)
  · rcases h.1 with h | h <;> exact key (by rw [h]; rfl) (by rw [h]; simp)

/-- A motion that begins outside STOCK_SELECT's phase 1. -/
theorem Blocks.beginMotion_pathOk {b : Blocks} (ok : b.paper.pathOk) (t : Tractor) (k : MotionKind) (c : Nat)
    (q : Requester) (n : Nat) (out : (b.paper.stock t.other).state.inPath = false)
    (clears : n = 1 → k = .park) : (b.beginMotion t k c q n).paper.pathOk := by
  refine Paper.begin_pathOk ok t _ q n out fun hn => ?_
  rw [clears hn]
  exact courseOf_park _ _ _ _

theorem Blocks.requestMotion_pathOk {b c : Blocks} {t : Tractor} {k : MotionKind} {n : Nat}
    (e : b.requestMotion t k n = some c) (ok : b.paper.pathOk) : c.paper.pathOk := by
  unfold Blocks.requestMotion at e
  split at e
  · rename_i h
    cases e
    exact Blocks.beginMotion_pathOk ok t k n _ 0 (Paper.meetsNeed_ready ok h).2 (fun h => by cases h)
  · cases e

/-- What follows a TERMINAL or TEAR motion. -/
theorem Blocks.afterHostMotion_pathOk {b : Blocks} {m : Motion} (hm : b.paper.motion = some m) (ok : b.paper.pathOk) :
    ((b.landMotion m).afterHostMotion m).paper.pathOk := by
  have landed := Blocks.landMotion_pathOk hm ok
  unfold Blocks.afterHostMotion
  split
  · rename_i h1
    split
    · refine Blocks.beginMotion_pathOk landed _ _ _ _ _ ?_ (fun h => by cases h)
      have own : ∀ y mo, ({ b.paper.setStock m.tractor y with motion := mo } : Paper).stock m.tractor = y := by
        intro y mo; cases m.tractor <;> rfl
      rw [Tractor.other_other, Blocks.landMotion_paper, own]
      exact Motion.landed_out _ _ _ (ok.2.2.1 m hm h1)
    · exact landed
  · exact landed

/-! ## Sensors (R95) -/

theorem Blocks.paperAppears_pathOk {b : Blocks} (ok : b.paper.pathOk) (t : Tractor) :
    (b.paperAppears t).paper.pathOk := by
  unfold Blocks.paperAppears
  dsimp only
  split
  · rename_i h
    refine Paper.pathOk_setStock_out ok t _ (by rw [h]; simp) rfl fun f h1 h2 => ?_
    exact ((Paper.pathOk_iff _ t).1 ok).2.2.2 f ⟨h1, h2⟩
  all_goals exact ok

/-- End remaining is set: the path does not read it. -/
theorem Paper.setEnd_pathOk {p : Paper} (ok : p.pathOk) (t : Tractor) (r : Option Nat) :
    (p.setStock t { p.stock t with endRemaining := r }).pathOk := by
  rw [Paper.pathOk_iff _ t] at *
  simpa only [Paper.setStock_same, Paper.setStock_other, Paper.setStock_motion] using ok

theorem Blocks.paperGoes_pathOk {b : Blocks} (ok : b.paper.pathOk) (t : Tractor) : (b.paperGoes t).paper.pathOk := by
  have gone : ¬ (b.paper.stock t).state = .moving →
      ((b.withPaper (b.paper.setStock t (Stock.ejected false))).latch t .removed).paper.pathOk := by
    intro h
    exact Paper.pathOk_setStock_out ok t _ h rfl fun f h1 _ => by cases h1
  unfold Blocks.paperGoes
  dsimp only
  split
  · rename_i h
    exact gone (by rw [h]; simp)
  · rename_i h
    exact gone (by rw [h]; simp)
  all_goals first
    | exact ok
    | (split
       · exact ok
       · exact Paper.turnedBack_pathOk (Paper.setEnd_pathOk ok t _) t _)

end Sys2Proof.Machine
end

