-- ==== Sys2Proof/Laws/Records.lean ====
section
/-! SUPPORT. What each operation of the Form Table and the Field Pool does to their agreement: every one keeps it. -/

set_option Elab.async false

namespace Sys2Proof.Machine

/-! ## Reading what was written -/

theorem Blocks.form_setForm (b : Blocks) (f g : Nat) (r : FormRecord) :
    (b.setForm f r).form g = if g = f ∧ f < b.forms.length then r else b.form g := by
  unfold Blocks.form
  rw [Blocks.setForm_forms, List.getD_eq_getElem?_getD, List.getElem?_set, List.getD_eq_getElem?_getD]
  by_cases e : f = g
  · subst e
    by_cases l : f < b.forms.length
    · simp [l]
    · simp [l]
  · have : ¬ g = f := fun h => e h.symm
    simp [e, this]

theorem Blocks.form_setForm_same {b : Blocks} {f : Nat} (r : FormRecord) (h : f < b.forms.length) :
    (b.setForm f r).form f = r := by
  rw [Blocks.form_setForm]
  simp [h]

theorem Blocks.form_setForm_other {b : Blocks} {f g : Nat} (r : FormRecord) (h : ¬ g = f) :
    (b.setForm f r).form g = b.form g := by
  rw [Blocks.form_setForm]
  simp [h]

@[simp] theorem Blocks.fieldsOf_setForm (b : Blocks) (f g : Nat) (r : FormRecord) :
    (b.setForm f r).fieldsOf g = b.fieldsOf g := rfl

/-- An id outside 0..7 reads as EMPTY (R1). -/
theorem Blocks.form_outside {b : Blocks} {f : Nat} (h : b.forms.length ≤ f) : b.form f = FormRecord.empty := by
  unfold Blocks.form
  rw [List.getD_eq_getElem?_getD, List.getElem?_eq_none h]
  rfl

theorem Blocks.mem_fieldsOf {b : Blocks} {f : Nat} {r : FieldRecord} : r ∈ b.fieldsOf f ↔ r ∈ b.pool ∧ r.form = f := by
  unfold Blocks.fieldsOf
  simp

/-- A field found by its key is live and has the key. -/
theorem Blocks.field_some {b : Blocks} {f i : Nat} {r : FieldRecord} (h : b.field f i = some r) :
    r ∈ b.pool ∧ r.form = f ∧ r.field = i := by
  unfold Blocks.field at h
  refine ⟨List.mem_of_find?_eq_some h, ?_⟩
  simpa using List.find?_some h

theorem Blocks.field_none {b : Blocks} {f i : Nat} (h : b.field f i = none) :
    ∀ r ∈ b.pool, ¬ (r.form = f ∧ r.field = i) := by
  unfold Blocks.field at h
  intro r hr e
  have := List.find?_eq_none.1 h r hr
  simp [e.1, e.2] at this

/-! ## The agreement -/

/-- It reads the Form Table and the Field Pool alone. -/
theorem Blocks.recordsOk.of_same {b c : Blocks} (ok : b.recordsOk) (f : c.forms = b.forms) (p : c.pool = b.pool) :
    c.recordsOk := by
  have ef : ∀ n, c.form n = b.form n := by intro n; unfold Blocks.form; rw [f]
  have ep : ∀ n, c.fieldsOf n = b.fieldsOf n := by intro n; unfold Blocks.fieldsOf; rw [p]
  constructor
  · rw [f]; exact ok.forms
  · rw [p]; exact ok.pool
  · intro n; rw [ep]; exact ok.perForm n
  · rw [p]; exact ok.keys
  · rw [p]; exact ok.apart
  · rw [p]; exact ok.order
  · rw [p]; exact ok.placed
  · intro r hr; rw [ef]; exact ok.lines r (p ▸ hr)
  · intro r hr; rw [ef]; exact ok.defined r (p ▸ hr)
  · intro r hr; rw [ef]; exact ok.staged r (p ▸ hr)
  · intro n hn; rw [ef, ep]; exact ok.counts n hn

/-- A form record is written that suits the form's live fields. -/
theorem Blocks.recordsOk.setForm {b : Blocks} (ok : b.recordsOk) (f : Nat) (r : FormRecord)
    (lines : ∀ q ∈ b.pool, q.form = f → r.printable q.line = true)
    (defined : ∀ q ∈ b.pool, q.form = f → r.defined = true)
    (staged : ∀ q ∈ b.pool, q.form = f → q.body.isStaged = true → r.inFlight = true)
    (counts : r.fieldCount = (b.fieldsOf f).length) : (b.setForm f r).recordsOk := by
  have key : ∀ {P : FormRecord → Prop} {g : Nat}, (g = f → P r) → P (b.form g) → P ((b.setForm f r).form g) := by
    intro P g h1 h2
    rw [Blocks.form_setForm]
    split
    · rename_i h
      exact h1 h.1
    · exact h2
  constructor
  · rw [Blocks.setForm_forms, List.length_set]; exact ok.forms
  · exact ok.pool
  · exact ok.perForm
  · exact ok.keys
  · exact ok.apart
  · exact ok.order
  · exact ok.placed
  · intro q hq
    exact key (P := fun x => x.printable q.line = true) (lines q hq) (ok.lines q hq)
  · intro q hq
    exact key (P := fun x => x.defined = true) (defined q hq) (ok.defined q hq)
  · intro q hq hs
    exact key (P := fun x => x.inFlight = true) (fun e => staged q hq e hs) (ok.staged q hq hs)
  · intro g hg
    refine key (P := fun x => x.fieldCount = (b.fieldsOf g).length) (fun e => ?_) (ok.counts g hg)
    rw [e]
    exact counts

/-- A form record is rewritten with geometry, state and field count kept, and the in-flight mark not cleared. -/
theorem Blocks.recordsOk.rewriteForm {b : Blocks} (ok : b.recordsOk) (f : Nat) (r : FormRecord)
    (top : r.top = (b.form f).top) (lines : r.lines = (b.form f).lines) (bottom : r.bottom = (b.form f).bottom)
    (defined : r.defined = (b.form f).defined) (mark : (b.form f).inFlight = true → r.inFlight = true)
    (count : r.fieldCount = (b.form f).fieldCount) : (b.setForm f r).recordsOk := by
  by_cases h : f < Config.forms
  · refine ok.setForm f r (fun q hq e => ?_) (fun q hq e => ?_) (fun q hq e s => ?_) ?_
    · have := ok.lines q hq
      rw [e] at this
      unfold FormRecord.printable at *
      rw [top, lines, bottom]
      exact this
    · rw [defined, ← e]
      exact ok.defined q hq
    · apply mark
      rw [← e]
      exact ok.staged q hq s
    · rw [count]
      exact ok.counts f h
  · refine ok.of_same ?_ rfl
    rw [Blocks.setForm_forms]
    exact List.set_eq_of_length_le (by rw [ok.forms]; omega)

theorem fieldsOf_map {l : List FieldRecord} {g : FieldRecord → FieldRecord} (hf : ∀ r, (g r).form = r.form) (f : Nat) :
    (l.map g).filter (fun r => r.form == f) = (l.filter fun r => r.form == f).map g := by
  rw [List.filter_map]
  congr 1
  apply List.filter_congr
  intro r _
  simp [hf]

/-- Every field is rewritten in its place; staged content appears only where the in-flight mark is set. -/
theorem Blocks.recordsOk.mapPool {b : Blocks} (ok : b.recordsOk) (g : FieldRecord → FieldRecord)
    (form : ∀ r, (g r).form = r.form) (field : ∀ r, (g r).field = r.field) (line : ∀ r, (g r).line = r.line)
    (column : ∀ r, (g r).column = r.column) (width : ∀ r, (g r).width = r.width)
    (staged : ∀ r ∈ b.pool, (g r).body.isStaged = true → (b.form r.form).inFlight = true) :
    (b.withPool (b.pool.map g)).recordsOk := by
  have of : ∀ n, ((b.withPool (b.pool.map g)).fieldsOf n).length = (b.fieldsOf n).length := by
    intro n
    show ((b.pool.map g).filter _).length = _
    rw [fieldsOf_map form, List.length_map]
    rfl
  have all : ∀ {P : FieldRecord → Prop}, (∀ r ∈ b.pool, P (g r)) → ∀ r ∈ (b.withPool (b.pool.map g)).pool, P r := by
    intro P h r hr
    obtain ⟨q, hq, rfl⟩ := List.mem_map.1 hr
    exact h q hq
  constructor
  · exact ok.forms
  · show (b.pool.map g).length ≤ _
    rw [List.length_map]
    exact ok.pool
  · intro n
    rw [of]
    exact ok.perForm n
  · show (b.pool.map g).Pairwise _
    rw [List.pairwise_map]
    refine ok.keys.imp fun h e => h ?_
    rw [form, form, field, field] at e
    exact e
  · show (b.pool.map g).Pairwise _
    rw [List.pairwise_map]
    refine ok.apart.imp fun {r q} h => ?_
    unfold FieldRecord.overlaps at *
    rw [form, form, line, line, column, column, width, width]
    exact h
  · show (b.pool.map g).Pairwise _
    rw [List.pairwise_map]
    refine ok.order.imp fun {r q} h => ?_
    unfold FieldRecord.before at *
    rw [form, form, line, line, column, column]
    exact h
  · refine all fun r hr => ?_
    rw [field, width, column]
    exact ok.placed r hr
  · refine all fun r hr => ?_
    rw [form, line]
    exact ok.lines r hr
  · refine all fun r hr => ?_
    rw [form]
    exact ok.defined r hr
  · refine all fun r hr => ?_
    rw [form]
    exact staged r hr
  · intro n hn
    rw [of]
    exact ok.counts n hn

/-! ## Form commands -/

theorem FormRecord.written_some {r q : FormRecord} {a : FormBytes} (h : r.written a = some q) :
    a.form.toNat < Config.forms ∧ q.defined = r.defined ∧ q.lock = r.lock ∧ q.issueCount = r.issueCount ∧
      q.fieldCount = r.fieldCount ∧ q.inFlight = r.inFlight := by
  unfold FormRecord.written at h
  split at h
  · split at h
    · rename_i c
      simp only [Bool.and_eq_true, decide_eq_true_eq] at c
      cases h
      exact ⟨c.1.1.1, rfl, rfl, rfl, rfl, rfl⟩
    · cases h
  · cases h

/-- What a command leaves where it is refused, and what it makes where no test refuses it. -/
theorem Blocks.checked_cases (b : Blocks) (tests : List (Bool × Result)) (go : Answer) :
    (∃ r, firstRefusal tests = some r ∧ b.checked tests go = b.refuse r) ∨
      (firstRefusal tests = none ∧ b.checked tests go = go) := by
  unfold Blocks.checked
  cases h : firstRefusal tests with
  | some r => exact Or.inl ⟨r, rfl, rfl⟩
  | none => exact Or.inr ⟨rfl, rfl⟩

/-- No test refuses: every condition is false. -/
theorem firstRefusal_none {tests : List (Bool × Result)} : firstRefusal tests = none ↔ ∀ x ∈ tests, x.1 = false := by
  induction tests with
  | nil => simp [firstRefusal]
  | cons x rest ih =>
    obtain ⟨c, r⟩ := x
    cases c <;> simp [firstRefusal, ih]

theorem Blocks.formDefine_recordsOk {b : Blocks} (ok : b.recordsOk) (a : FormBytes) :
    (b.formDefine a).blocks.recordsOk := by
  unfold Blocks.formDefine
  split
  · exact ok
  · rename_i r h
    rcases Blocks.checked_cases b _ ((b.setForm a.form.toNat { r with defined := true }).answer .ok)
      with ⟨_, _, e⟩ | ⟨t, e⟩ <;> rw [e]
    · exact ok
    · rw [firstRefusal_none] at t
      have nd : (b.form a.form.toNat).defined = false := by simpa using t
      have none : ∀ q ∈ b.pool, ¬ q.form = a.form.toNat := by
        intro q hq e
        have := ok.defined q hq
        rw [e, nd] at this
        exact Bool.noConfusion this
      have w := FormRecord.written_some h
      refine ok.setForm _ _ (fun q hq e => absurd e (none q hq)) (fun q hq e => absurd e (none q hq))
        (fun q hq e => absurd e (none q hq)) ?_
      have zero : b.fieldsOf a.form.toNat = [] := by
        apply List.eq_nil_iff_forall_not_mem.2
        intro q hq
        obtain ⟨hp, e⟩ := Blocks.mem_fieldsOf.1 hq
        exact none q hp e
      rw [zero]
      exact w.2.2.2.2.1

theorem Blocks.formAmend_recordsOk {b : Blocks} (ok : b.recordsOk) (a : FormBytes) :
    (b.formAmend a).blocks.recordsOk := by
  unfold Blocks.formAmend
  dsimp only
  split
  · exact ok
  · rename_i r h
    rcases Blocks.checked_cases b _ ((b.setForm a.form.toNat r).answer .ok) with ⟨_, _, e⟩ | ⟨t, e⟩ <;> rw [e]
    · exact ok
    · rw [firstRefusal_none] at t
      have w := FormRecord.written_some h
      have lines : ∀ q ∈ b.pool, q.form = a.form.toNat → r.printable q.line = true := by
        intro q hq e
        have := t (((b.fieldsOf a.form.toNat).any fun q => !r.printable q.line), .outOfForm) (by simp)
        simp only [List.any_eq_false] at this
        simpa using this q (Blocks.mem_fieldsOf.2 ⟨hq, e⟩)
      refine ok.setForm _ _ lines (fun q hq e => ?_) (fun q hq e s => ?_) ?_
      · rw [w.2.1, ← e]
        exact ok.defined q hq
      · rw [w.2.2.2.2.2, ← e]
        exact ok.staged q hq s
      · rw [w.2.2.2.2.1]
        exact ok.counts _ w.1

theorem Blocks.formLock_recordsOk {b : Blocks} (ok : b.recordsOk) (f l : Byte) : (b.formLock f l).blocks.recordsOk := by
  unfold Blocks.formLock
  dsimp only
  split
  · exact ok
  · rename_i k _
    rcases Blocks.checked_cases b _ ((b.setForm f.toNat { b.form f.toNat with lock := k }).answer .ok)
      with ⟨_, _, e⟩ | ⟨_, e⟩ <;> rw [e]
    · exact ok
    · exact ok.rewriteForm _ _ rfl rfl rfl rfl id rfl

theorem Blocks.emptyForm_recordsOk {b : Blocks} (ok : b.recordsOk) (f : Nat) : (b.emptyForm f).recordsOk := by
  have other : ∀ q ∈ (b.emptyForm f).pool, q ∈ b.pool ∧ ¬ q.form = f := by
    intro q hq
    have : q ∈ b.pool.filter fun q => !(q.form == f) := hq
    simpa using List.mem_filter.1 this
  have form : ∀ n, ¬ n = f → (b.emptyForm f).form n = b.form n := fun n h => Blocks.form_setForm_other _ h
  have of : ∀ n, (b.emptyForm f).fieldsOf n = if n = f then [] else b.fieldsOf n := by
    intro n
    show (b.pool.filter fun q => !(q.form == f)).filter (fun r => r.form == n) = _
    rw [List.filter_filter]
    split
    · rename_i h
      apply List.filter_eq_nil_iff.2
      intro q _
      by_cases e : q.form = f <;> simp [h, e]
    · rename_i h
      apply List.filter_congr
      intro q _
      by_cases e : q.form = n
      · have : ¬ n = f := h
        simp [e, this]
      · simp [e]
  constructor
  · show (b.forms.set f FormRecord.empty).length = _
    rw [List.length_set]
    exact ok.forms
  · exact (List.length_filter_le _ _).trans ok.pool
  · intro n
    rw [of]
    split
    · exact Nat.zero_le _
    · exact ok.perForm n
  · exact ok.keys.sublist List.filter_sublist
  · exact ok.apart.sublist List.filter_sublist
  · exact ok.order.sublist List.filter_sublist
  · intro q hq
    exact ok.placed q (other q hq).1
  · intro q hq
    obtain ⟨hp, h⟩ := other q hq
    rw [form _ h]
    exact ok.lines q hp
  · intro q hq
    obtain ⟨hp, h⟩ := other q hq
    rw [form _ h]
    exact ok.defined q hp
  · intro q hq
    obtain ⟨hp, h⟩ := other q hq
    rw [form _ h]
    exact ok.staged q hp
  · intro n hn
    rw [of]
    split
    · rename_i h
      subst h
      show ((b.setForm n FormRecord.empty).form n).fieldCount = _
      rw [Blocks.form_setForm_same _ (by rw [ok.forms]; exact hn)]
      rfl
    · rename_i h
      rw [form n h]
      exact ok.counts n hn

theorem Blocks.formRetire_recordsOk {b : Blocks} (ok : b.recordsOk) (f : Byte) : (b.formRetire f).blocks.recordsOk := by
  unfold Blocks.formRetire
  dsimp only
  rcases Blocks.checked_cases b _ ((b.emptyForm f.toNat).answer .ok) with ⟨_, _, e⟩ | ⟨_, e⟩ <;> rw [e]
  · exact ok
  · exact Blocks.emptyForm_recordsOk ok _

theorem Blocks.raiseIssue_recordsOk {b : Blocks} (ok : b.recordsOk) (f : Nat) : (b.raiseIssue f).recordsOk :=
  ok.rewriteForm _ _ rfl rfl rfl rfl id rfl

theorem Blocks.markInFlight_recordsOk {b : Blocks} (ok : b.recordsOk) (f : Nat) : (b.setInFlight f true).recordsOk :=
  ok.rewriteForm _ _ rfl rfl rfl rfl (fun _ => rfl) rfl

/-! ## Field commands -/

theorem insertField_perm (r : FieldRecord) (l : List FieldRecord) : (insertField r l).Perm (r :: l) := by
  induction l with
  | nil => exact List.Perm.refl _
  | cons q rest ih =>
    unfold insertField
    split
    · exact List.Perm.refl _
    · exact (ih.cons q).trans (List.Perm.swap _ _ _)

theorem FieldRecord.overlaps_comm (r q : FieldRecord) : r.overlaps q = q.overlaps r := by
  rw [Bool.eq_iff_iff]
  simp only [FieldRecord.overlaps, Bool.and_eq_true, beq_iff_eq, decide_eq_true_eq]
  constructor <;> rintro ⟨⟨⟨a, b⟩, c⟩, d⟩ <;> exact ⟨⟨⟨a.symm, b.symm⟩, d⟩, c⟩

/-- Two records of which neither comes first share a position of a line (R21, R23). -/
theorem FieldRecord.before_or {r q : FieldRecord} (apart : r.overlaps q = false) (hr : 1 ≤ r.width) (hq : 1 ≤ q.width) :
    r.before q = true ∨ q.before r = true := by
  by_contra h
  simp only [not_or, Bool.not_eq_true] at h
  obtain ⟨h1, h2⟩ := h
  simp only [FieldRecord.before, Bool.or_eq_false_iff, Bool.and_eq_false_iff, decide_eq_false_iff_not,
    beq_eq_false_iff_ne, ne_eq, Nat.not_lt] at h1 h2
  have form : r.form = q.form := by omega
  have line : r.line = q.line := by
    have a := h1.2.resolve_left (fun x => x form)
    have b := h2.2.resolve_left (fun x => x form.symm)
    omega
  have column : r.column = q.column := by
    have a := (h1.2.resolve_left (fun x => x form)).2.resolve_left (fun x => x line)
    have b := (h2.2.resolve_left (fun x => x form.symm)).2.resolve_left (fun x => x line.symm)
    omega
  simp only [FieldRecord.overlaps, form, line, column, beq_self_eq_true, Bool.true_and, Bool.and_eq_false_iff,
    decide_eq_false_iff_not] at apart
  omega

theorem FieldRecord.before_trans {r q x : FieldRecord} (h : r.before q = true) (k : q.before x = true) :
    r.before x = true := by
  simp only [FieldRecord.before, Bool.or_eq_true, Bool.and_eq_true, decide_eq_true_eq, beq_iff_eq] at *
  omega

/-- A new record takes its place in print order (R23). -/
theorem insertField_order {r : FieldRecord} {l : List FieldRecord} (h : l.Pairwise fun x y => x.before y = true)
    (place : ∀ q ∈ l, r.before q = true ∨ q.before r = true) :
    (insertField r l).Pairwise fun x y => x.before y = true := by
  induction l with
  | nil => exact List.pairwise_singleton _ _
  | cons q rest ih =>
    rw [List.pairwise_cons] at h
    unfold insertField
    split
    · rename_i c
      rw [List.pairwise_cons]
      refine ⟨fun x hx => ?_, List.pairwise_cons.2 h⟩
      rcases List.mem_cons.1 hx with rfl | hx
      · exact c
      · exact FieldRecord.before_trans c (h.1 x hx)
    · rename_i c
      rw [List.pairwise_cons]
      refine ⟨fun x hx => ?_, ih h.2 fun x hx => place x (List.mem_cons_of_mem _ hx)⟩
      rcases List.mem_cons.1 ((insertField_perm r rest).mem_iff.1 hx) with rfl | hx
      · exact (place q List.mem_cons_self).resolve_left c
      · exact h.1 x hx

theorem carriedRecord_placed {a : FieldBytes} {r : FieldRecord} (h : carriedRecord a = some r) :
    r.field < 64 ∧ 1 ≤ r.width ∧ r.width ≤ 48 ∧ r.column + r.width ≤ 128 := by
  unfold carriedRecord at h
  split at h
  · rename_i c
    simp only [Option.map_eq_some_iff] at h
    obtain ⟨body, _, rfl⟩ := h
    simp only [carriedPlaced, Bool.and_eq_true, decide_eq_true_eq] at c
    exact ⟨c.1.1.1.1.2, c.1.1.2, c.1.2, c.2⟩
  · cases h

/-- A FIELD_DEFINE makes a record of the form it carries, without staged content, with revision 0 (R41). -/
theorem carriedRecord_some {a : FieldBytes} {r : FieldRecord} (h : carriedRecord a = some r) :
    r.form < Config.forms ∧ r.form = a.form.toNat ∧ r.field = a.field.toNat ∧ r.body.isStaged = false ∧
      r.revision = 0 := by
  unfold carriedRecord at h
  split at h
  · rename_i c
    simp only [Option.map_eq_some_iff] at h
    obtain ⟨body, hb, rfl⟩ := h
    refine ⟨?_, rfl, rfl, ?_, rfl⟩
    · unfold carriedPlaced at c
      simp only [Bool.and_eq_true, decide_eq_true_eq] at c
      exact c.1.1.1.1.1
    · unfold carriedBody at hb
      split at hb
      · simp only [Option.map_eq_some_iff] at hb
        obtain ⟨_, _, rfl⟩ := hb
        rfl
      · split at hb
        · cases hb
          rfl
        · cases hb
      · simp only [Option.map_eq_some_iff] at hb
        obtain ⟨_, _, rfl⟩ := hb
        rfl
      · split at hb
        · simp only [Option.map_eq_some_iff] at hb
          obtain ⟨_, _, rfl⟩ := hb
          rfl
        · cases hb
      · cases hb
  · cases h

theorem Blocks.fieldDefine_recordsOk {b : Blocks} (ok : b.recordsOk) (a : FieldBytes) :
    (b.fieldDefine a).blocks.recordsOk := by
  unfold Blocks.fieldDefine
  split
  · exact ok
  · rename_i r h
    dsimp only
    rcases Blocks.checked_cases b _
      (((b.withPool (insertField r b.pool)).setForm r.form
        { b.form r.form with fieldCount := (b.form r.form).fieldCount + 1 }).answer .ok) with ⟨_, _, e⟩ | ⟨t, e⟩ <;>
      rw [e]
    · exact ok
    · rw [firstRefusal_none] at t
      have hd : (b.form r.form).defined = true := by
        simpa using t (!(b.form r.form).defined, .noForm) (by simp)
      have hk : b.field r.form r.field = none := by
        have := t ((b.field r.form r.field).isSome, .exists) (by simp)
        simpa using this
      have hl : (b.form r.form).printable r.line = true := by
        simpa using t (!(b.form r.form).printable r.line, .outOfForm) (by simp)
      have ho : b.pool.any r.overlaps = false := t (b.pool.any r.overlaps, .overlap) (by simp)
      have hf := t (decide (Config.poolCapacity ≤ b.pool.length) ||
        decide (Config.fieldsPerForm ≤ (b.fieldsOf r.form).length), .full) (by simp)
      simp only [Bool.or_eq_false_iff, decide_eq_false_iff_not, Nat.not_le] at hf
      have c := carriedRecord_some h
      have placed := carriedRecord_placed h
      have perm := insertField_perm r b.pool
      have mem : ∀ q ∈ insertField r b.pool, q = r ∨ q ∈ b.pool := fun q hq => by
        simpa using perm.mem_iff.1 hq
      have of : ∀ n, ((insertField r b.pool).filter fun q => q.form == n).length =
          (b.fieldsOf n).length + if r.form = n then 1 else 0 := by
        intro n
        rw [(perm.filter _).length_eq, List.filter_cons]
        split
        · rename_i e1
          simp only [beq_iff_eq] at e1
          simp [e1, Blocks.fieldsOf]
        · rename_i e1
          simp only [beq_iff_eq] at e1
          simp [e1, Blocks.fieldsOf]
      have form : ∀ n, ((b.withPool (insertField r b.pool)).setForm r.form
          { b.form r.form with fieldCount := (b.form r.form).fieldCount + 1 }).form n =
          if n = r.form then { b.form r.form with fieldCount := (b.form r.form).fieldCount + 1 } else b.form n := by
        intro n
        rw [Blocks.form_setForm]
        have : r.form < (b.withPool (insertField r b.pool)).forms.length := by
          show r.form < b.forms.length
          rw [ok.forms]
          exact c.1
        simp only [this, and_true]
        rfl
      have old : ∀ (P : FormRecord → Prop) (n : Nat),
          (∀ k : Nat, P (b.form n) → P { b.form n with fieldCount := k }) → P (b.form n) →
          P (((b.withPool (insertField r b.pool)).setForm r.form
            { b.form r.form with fieldCount := (b.form r.form).fieldCount + 1 }).form n) := by
        intro P n hP h0
        rw [form]
        split
        · rename_i e1
          subst e1
          exact hP _ h0
        · exact h0
      constructor
      · show (b.forms.set _ _).length = _
        rw [List.length_set]
        exact ok.forms
      · show (insertField r b.pool).length ≤ _
        rw [perm.length_eq, List.length_cons]
        exact hf.1
      · intro n
        show ((insertField r b.pool).filter _).length ≤ _
        rw [of]
        split
        · rename_i e1
          subst e1
          exact hf.2
        · exact ok.perForm n
      · show (insertField r b.pool).Pairwise _
        rw [perm.pairwise_iff (fun {x y} hxy e => hxy ⟨e.1.symm, e.2.symm⟩), List.pairwise_cons]
        refine ⟨fun q hq e => ?_, ok.keys⟩
        exact Blocks.field_none hk q hq ⟨e.1.symm, e.2.symm⟩
      · show (insertField r b.pool).Pairwise _
        rw [perm.pairwise_iff (fun {x y} hxy => by rw [FieldRecord.overlaps_comm]; exact hxy), List.pairwise_cons]
        refine ⟨fun q hq => ?_, ok.apart⟩
        have := List.any_eq_false.1 ho q hq
        simpa using this
      · refine insertField_order ok.order fun q hq => ?_
        have := List.any_eq_false.1 ho q hq
        exact FieldRecord.before_or (by simpa using this) placed.2.1 (ok.placed q hq).2.1
      · intro q hq
        rcases mem q hq with rfl | hq
        · exact placed
        · exact ok.placed q hq
      · intro q hq
        refine old (fun x => x.printable q.line = true) q.form (fun k hk => hk) ?_
        rcases mem q hq with rfl | hq
        · exact hl
        · exact ok.lines q hq
      · intro q hq
        refine old (fun x => x.defined = true) q.form (fun k hk => hk) ?_
        rcases mem q hq with rfl | hq
        · exact hd
        · exact ok.defined q hq
      · intro q hq hs
        refine old (fun x => x.inFlight = true) q.form (fun k hk => hk) ?_
        rcases mem q hq with rfl | hq
        · rw [c.2.2.2.1] at hs
          exact Bool.noConfusion hs
        · exact ok.staged q hq hs
      · intro n hn
        show (_ : Nat) = ((insertField r b.pool).filter _).length
        rw [of]
        refine (congrArg FormRecord.fieldCount (form n)).trans ?_
        split
        · rename_i e1
          subst e1
          simp only [if_true]
          have := ok.counts r.form hn
          omega
        · rename_i e1
          have : ¬ r.form = n := fun e2 => e1 e2.symm
          simp only [this, if_false]
          exact ok.counts n hn

theorem updateField_recordsOk {b : Blocks} (ok : b.recordsOk) (f i : Nat) (g : FieldRecord → FieldRecord)
    (form : ∀ r, (g r).form = r.form) (field : ∀ r, (g r).field = r.field) (line : ∀ r, (g r).line = r.line)
    (column : ∀ r, (g r).column = r.column) (width : ∀ r, (g r).width = r.width)
    (staged : ∀ r ∈ b.pool, r.form = f → r.field = i → (g r).body.isStaged = true → (b.form f).inFlight = true) :
    (b.withPool (updateField b.pool f i g)).recordsOk := by
  refine ok.mapPool _ ?_ ?_ ?_ ?_ ?_ ?_
  · intro r; split <;> simp [form]
  · intro r; split <;> simp [field]
  · intro r; split <;> simp [line]
  · intro r; split <;> simp [column]
  · intro r; split <;> simp [width]
  · intro r hr
    split
    · rename_i h
      simp only [Bool.and_eq_true, beq_iff_eq] at h
      rw [h.1]
      exact staged r hr h.1 h.2
    · exact ok.staged r hr

theorem Blocks.writeField_recordsOk {b : Blocks} (ok : b.recordsOk) (f i : Nat) (r : FieldRecord) (body : FieldBody)
    (staged : body.isStaged = true → (b.form f).inFlight = true) : (b.writeField f i r body).blocks.recordsOk :=
  updateField_recordsOk ok f i _ (fun _ => rfl) (fun _ => rfl) (fun _ => rfl) (fun _ => rfl) (fun _ => rfl)
    fun _ _ _ _ h => staged h

theorem Blocks.fieldSet_recordsOk {b : Blocks} (ok : b.recordsOk) (f i m : Byte) (e : Half) (text : List Byte) :
    (b.fieldSet f i m e text).blocks.recordsOk := by
  unfold Blocks.fieldSet
  dsimp only
  rcases Blocks.checked_cases b _ _ with ⟨_, _, h⟩ | ⟨_, h⟩ <;> rw [h]
  · exact ok
  · split
    · exact ok
    · rename_i r hr
      split
      · rename_i c g live staged hb
        rcases Blocks.checked_cases b _ _ with ⟨_, _, h⟩ | ⟨_, h⟩ <;> rw [h]
        · exact ok
        · refine Blocks.writeField_recordsOk ok _ _ _ _ ?_
          split
          · rename_i h
            exact fun _ => h
          · intro hs
            have := Blocks.field_some hr
            rw [← this.2.1]
            apply ok.staged r this.1
            rw [hb]
            exact hs
      all_goals exact ok

theorem Blocks.counterSet_recordsOk {b : Blocks} (ok : b.recordsOk) (f i m : Byte) (e : Half) (v : Bcd) :
    (b.counterSet f i m e v).blocks.recordsOk := by
  unfold Blocks.counterSet
  dsimp only
  rcases Blocks.checked_cases b _ _ with ⟨_, _, h⟩ | ⟨_, h⟩ <;> rw [h]
  · exact ok
  · split
    · exact ok
    · rename_i r hr
      split
      · rename_i c p staged hb
        rcases Blocks.checked_cases b _ _ with ⟨_, _, h⟩ | ⟨_, h⟩ <;> rw [h]
        · exact ok
        · refine Blocks.writeField_recordsOk ok _ _ _ _ ?_
          split
          · rename_i h
            exact fun _ => h
          · intro hs
            have := Blocks.field_some hr
            rw [← this.2.1]
            apply ok.staged r this.1
            rw [hb]
            exact hs
      all_goals exact ok

/-- Exactly one field leaves with its key. -/
theorem removeField_length {l : List FieldRecord} {f i : Nat} (keys : l.Pairwise fun r q => ¬ (r.form = q.form ∧ r.field = q.field))
    {r : FieldRecord} (mem : r ∈ l) (hf : r.form = f) (hi : r.field = i) :
    ((removeField l f i).filter fun q => q.form == f).length + 1 = (l.filter fun q => q.form == f).length := by
  induction l with
  | nil => cases mem
  | cons q rest ih =>
    rw [List.pairwise_cons] at keys
    unfold removeField at *
    by_cases e : q.form = f ∧ q.field = i
    · have keep : ∀ x ∈ rest, (!(x.form == f && x.field == i)) = true := by
        intro x hx
        have := keys.1 x hx
        rw [e.1, e.2] at this
        by_contra h
        simp only [Bool.not_eq_true, Bool.not_eq_false', Bool.and_eq_true, beq_iff_eq] at h
        exact this ⟨h.1.symm, h.2.symm⟩
      rw [List.filter_cons]
      simp only [e.1, e.2, beq_self_eq_true, Bool.and_self, Bool.not_true, Bool.false_eq_true, if_false]
      rw [List.filter_eq_self.2 keep]
      simp [e.1]
    · have : r ∈ rest := by
        rcases List.mem_cons.1 mem with h | h
        · subst h
          exact absurd ⟨hf, hi⟩ e
        · exact h
      have ih := ih keys.2 this
      rw [List.filter_cons]
      have : (!(q.form == f && q.field == i)) = true := by
        cases h1 : (q.form == f) <;> cases h2 : (q.field == i) <;> simp_all
      rw [if_pos this]
      by_cases h1 : q.form = f
      · simp only [List.filter_cons, h1, beq_self_eq_true, if_true, List.length_cons]
        omega
      · simp only [List.filter_cons, beq_iff_eq, h1, if_false]
        exact ih

theorem removeField_other {l : List FieldRecord} {f i n : Nat} (h : ¬ n = f) :
    ((removeField l f i).filter fun q => q.form == n) = l.filter fun q => q.form == n := by
  unfold removeField
  rw [List.filter_filter]
  apply List.filter_congr
  intro q _
  by_cases e : q.form = n
  · have : ¬ q.form = f := by rw [e]; exact h
    simp [e, h]
  · simp [e]

theorem Blocks.fieldRetire_recordsOk {b : Blocks} (ok : b.recordsOk) (f i : Byte) :
    (b.fieldRetire f i).blocks.recordsOk := by
  unfold Blocks.fieldRetire
  dsimp only
  rcases Blocks.checked_cases b _ _ with ⟨_, _, h⟩ | ⟨t, h⟩ <;> rw [h]
  · exact ok
  · rw [firstRefusal_none] at t
    have hid : f.toNat < Config.forms := by
      have := t (badKey f i, .badValue) (by simp)
      unfold badKey badForm at this
      simp only [Bool.or_eq_false_iff, decide_eq_false_iff_not, Nat.not_le] at this
      exact this.1
    have hsome : (b.field f.toNat i.toNat).isSome = true := by
      have := t ((b.field f.toNat i.toNat).isNone, .noField) (by simp)
      cases hq : b.field f.toNat i.toNat with
      | none => rw [hq] at this; exact Bool.noConfusion this
      | some _ => rfl
    obtain ⟨r, hr⟩ := Option.isSome_iff_exists.1 hsome
    obtain ⟨hm, hf, hi⟩ := Blocks.field_some hr
    have mem : ∀ q ∈ removeField b.pool f.toNat i.toNat, q ∈ b.pool := fun q hq => (List.mem_filter.1 hq).1
    have form : ∀ n, ((b.withPool (removeField b.pool f.toNat i.toNat)).setForm f.toNat
        { b.form f.toNat with fieldCount := (b.form f.toNat).fieldCount - 1 }).form n =
        if n = f.toNat then { b.form f.toNat with fieldCount := (b.form f.toNat).fieldCount - 1 } else b.form n := by
      intro n
      rw [Blocks.form_setForm]
      have : f.toNat < (b.withPool (removeField b.pool f.toNat i.toNat)).forms.length := by
        show f.toNat < b.forms.length
        rw [ok.forms]
        exact hid
      simp only [this, and_true]
      rfl
    have old : ∀ (P : FormRecord → Prop) (n : Nat),
        (∀ k : Nat, P (b.form n) → P { b.form n with fieldCount := k }) → P (b.form n) →
        P (((b.withPool (removeField b.pool f.toNat i.toNat)).setForm f.toNat
          { b.form f.toNat with fieldCount := (b.form f.toNat).fieldCount - 1 }).form n) := by
      intro P n hP h0
      rw [form]
      split
      · rename_i e1
        rw [e1] at hP h0
        exact hP _ h0
      · exact h0
    have len := removeField_length ok.keys hm hf hi
    constructor
    · show (b.forms.set _ _).length = _
      rw [List.length_set]
      exact ok.forms
    · exact (List.length_filter_le _ _).trans ok.pool
    · intro n
      refine le_trans ?_ (ok.perForm n)
      exact (List.filter_sublist.filter _).length_le
    · exact ok.keys.sublist List.filter_sublist
    · exact ok.apart.sublist List.filter_sublist
    · exact ok.order.sublist List.filter_sublist
    · intro q hq
      exact ok.placed q (mem q hq)
    · intro q hq
      exact old (fun x => x.printable q.line = true) q.form (fun k hk => hk) (ok.lines q (mem q hq))
    · intro q hq
      exact old (fun x => x.defined = true) q.form (fun k hk => hk) (ok.defined q (mem q hq))
    · intro q hq hs
      exact old (fun x => x.inFlight = true) q.form (fun k hk => hk) (ok.staged q (mem q hq) hs)
    · intro n hn
      show (_ : Nat) = ((removeField b.pool f.toNat i.toNat).filter fun q => q.form == n).length
      refine (congrArg FormRecord.fieldCount (form n)).trans ?_
      split
      · rename_i e1
        subst e1
        have := ok.counts f.toNat hn
        unfold Blocks.fieldsOf at this
        simp only
        omega
      · rename_i e1
        rw [removeField_other e1]
        exact ok.counts n hn

/-! ## Ticket end (R143) -/

theorem FieldRecord.advance_place (r : FieldRecord) :
    r.advance.form = r.form ∧ r.advance.field = r.field ∧ r.advance.line = r.line ∧ r.advance.column = r.column ∧
      r.advance.width = r.width ∧ r.advance.body.isStaged = r.body.isStaged := by
  unfold FieldRecord.advance
  split
  · rename_i h
    rw [h]
    exact ⟨rfl, rfl, rfl, rfl, rfl, rfl⟩
  all_goals exact ⟨rfl, rfl, rfl, rfl, rfl, rfl⟩

theorem Blocks.advanceStruck_recordsOk {b : Blocks} (ok : b.recordsOk) (f : Nat) (l : List Nat) :
    (b.advanceStruck f l).recordsOk := by
  have a := FieldRecord.advance_place
  refine ok.mapPool _ ?_ ?_ ?_ ?_ ?_ ?_
  · intro r; split <;> simp [a]
  · intro r; split <;> simp [a]
  · intro r; split <;> simp [a]
  · intro r; split <;> simp [a]
  · intro r; split <;> simp [a]
  · intro r hr
    split
    · rw [(a r).2.2.2.2.2]
      exact ok.staged r hr
    · exact ok.staged r hr

theorem FieldBody.applyStaged_clear (x : FieldBody) : x.applyStaged.isStaged = false := by
  unfold FieldBody.applyStaged
  split
  · rfl
  · rfl
  · rename_i h1 h2
    cases x with
    | text c g l s =>
      cases s with
      | none => rfl
      | some t => exact absurd rfl (h1 c g l t)
    | counter c p s =>
      cases s with
      | none => rfl
      | some t => exact absurd rfl (h2 c p t)
    | rule _ => rfl
    | link _ _ => rfl

/-- The staged contents are applied, and the in-flight mark is cleared after them (R37, R143). -/
theorem Blocks.clearTicket_recordsOk {b : Blocks} (ok : b.recordsOk) (f : Nat) :
    ((b.applyStaged f).setInFlight f false).recordsOk := by
  have applied : (b.applyStaged f).recordsOk := by
    refine ok.mapPool _ ?_ ?_ ?_ ?_ ?_ ?_
    · intro r; split <;> rfl
    · intro r; split <;> rfl
    · intro r; split <;> rfl
    · intro r; split <;> rfl
    · intro r; split <;> rfl
    · intro r hr
      split
      · intro h
        rw [FieldBody.applyStaged_clear] at h
        exact Bool.noConfusion h
      · exact ok.staged r hr
  have none : ∀ q ∈ (b.applyStaged f).pool, q.form = f → q.body.isStaged = false := by
    intro q hq e
    obtain ⟨r, _, rfl⟩ := List.mem_map.1 hq
    revert e
    split
    · intro _
      exact FieldBody.applyStaged_clear _
    · rename_i h
      intro e
      exact absurd (by simpa using e) h
  by_cases h : f < Config.forms
  · refine applied.setForm f _ (fun q hq e => ?_) (fun q hq e => ?_) (fun q hq e s => ?_) ?_
    · have := applied.lines q hq
      rw [e] at this
      exact this
    · have := applied.defined q hq
      rw [e] at this
      exact this
    · rw [none q hq e] at s
      exact Bool.noConfusion s
    · exact applied.counts f h
  · refine applied.of_same ?_ rfl
    show (b.applyStaged f).forms.set f _ = _
    exact List.set_eq_of_length_le (by rw [applied.forms]; omega)

theorem Blocks.endTicket_recordsOk {b : Blocks} (ok : b.recordsOk) (o : Order) (c : Bool) :
    (b.endTicket o c).recordsOk := by
  have a := Blocks.advanceStruck_recordsOk ok o.form b.controller.struck
  unfold Blocks.endTicket
  dsimp only
  refine Blocks.recordsOk.of_same (b := ((Blocks.withOrders _ _).applyStaged o.form).setInFlight o.form false) ?_ rfl rfl
  refine Blocks.clearTicket_recordsOk ?_ _
  refine Blocks.recordsOk.of_same (b := if c = true then _ else _) ?_ rfl rfl
  split
  · exact Blocks.raiseIssue_recordsOk a _
  · exact a

end Sys2Proof.Machine
end

