-- ==== Sys2Proof/Laws/Orders.lean ====
section
/-! SUPPORT. The Order Table: every operation keeps its bounds, its distinct tags and the values of its records (R115). -/

set_option Elab.async false

namespace Sys2Proof.Machine

theorem OrderTable.empty_ok : OrderTable.empty.ok where
  size := Nat.zero_le _
  tags := List.nodup_nil
  legal r hr := by cases hr
  order := List.Pairwise.nil
  numbers r hr := by cases hr
  next := by decide

/-- A tag names one record. -/
theorem OrderTable.ok.unique {t : OrderTable} (ok : t.ok) {o r : Order} (ho : o ∈ t.records) (hr : r ∈ t.records)
    (h : r.tag = o.tag) : r = o := List.inj_on_of_nodup_map ok.tags hr ho h

theorem OrderTable.find_mem {t : OrderTable} {tag : Nat} {o : Order} (h : t.find tag = some o) :
    o ∈ t.records ∧ o.tag = tag :=
  ⟨List.mem_of_find?_eq_some h, by simpa using List.find?_some h⟩

theorem OrderTable.find_none {t : OrderTable} {tag : Nat} (h : t.find tag = none) : tag ∉ t.records.map (·.tag) := by
  intro hm
  obtain ⟨o, ho, e⟩ := List.mem_map.1 hm
  have := List.find?_eq_none.1 h o ho
  simp [e] at this

theorem OrderTable.nextQueued_mem {t : OrderTable} {o : Order} (h : t.nextQueued = some o) :
    o ∈ t.records ∧ o.state = .queued :=
  ⟨List.mem_of_find?_eq_some h, by simpa using List.find?_some h⟩

/-- A record is found under its tag. -/
theorem OrderTable.ok.find_of_mem {t : OrderTable} (ok : t.ok) {o : Order} (ho : o ∈ t.records) :
    t.find o.tag = some o := by
  cases f : t.find o.tag with
  | none => exact absurd (List.mem_map_of_mem ho) (OrderTable.find_none f)
  | some x =>
    obtain ⟨hx, ex⟩ := OrderTable.find_mem f
    rw [ok.unique ho hx ex]

/-! ## What an update of one record does -/

theorem OrderTable.mem_update {t : OrderTable} {tag : Nat} {g : Order → Order} {r : Order}
    (h : r ∈ (t.update tag g).records) : (r ∈ t.records ∧ ¬ r.tag = tag) ∨ ∃ o ∈ t.records, o.tag = tag ∧ r = g o := by
  obtain ⟨o, ho, rfl⟩ := List.mem_map.1 h
  by_cases e : o.tag = tag
  · refine Or.inr ⟨o, ho, e, ?_⟩
    simp [e]
  · refine Or.inl ?_
    simp [e, ho]

theorem OrderTable.update_ok {t : OrderTable} (ok : t.ok) (tag : Nat) (g : Order → Order)
    (h : ∀ o ∈ t.records, o.tag = tag → o.legal →
      (g o).tag = o.tag ∧ (g o).admission = o.admission ∧ (g o).legal) : (t.update tag g).ok where
  size := by
    show (t.records.map _).length ≤ _
    rw [List.length_map]
    exact ok.size
  tags := by
    have e : (t.update tag g).records.map (·.tag) = t.records.map (·.tag) := by
      show (t.records.map _).map _ = _
      rw [List.map_map]
      apply List.map_congr_left
      intro o ho
      show (if _ then _ else _ : Order).tag = _
      split
      · rename_i c
        exact (h o ho (by simpa using c) (ok.legal o ho)).1
      · rfl
    rw [e]
    exact ok.tags
  legal r hr := by
    rcases OrderTable.mem_update hr with ⟨hr, _⟩ | ⟨o, ho, e, rfl⟩
    · exact ok.legal r hr
    · exact (h o ho e (ok.legal o ho)).2.2
  order := by
    refine List.pairwise_map.2 (ok.order.imp_of_mem ?_)
    intro a b ha hb lt
    have same : ∀ o ∈ t.records, (if (o.tag == tag) = true then g o else o).admission = o.admission := by
      intro o ho
      split
      · rename_i c
        exact (h o ho (by simpa using c) (ok.legal o ho)).2.1
      · rfl
    rw [same a ha, same b hb]
    exact lt
  numbers r hr := by
    rcases OrderTable.mem_update hr with ⟨hr, _⟩ | ⟨o, ho, e, rfl⟩
    · exact ok.numbers r hr
    · rw [(h o ho e (ok.legal o ho)).2.1]
      exact ok.numbers o ho
  next := ok.next

/-- An update that leaves RUNNING records as they were, or moves none into RUNNING. -/
theorem OrderTable.update_running {t : OrderTable} {tag : Nat} {g : Order → Order} (keep : ∀ o, (g o).tag = o.tag)
    (run : ∀ o ∈ t.records, o.tag = tag → (g o).state = .running → o.state = .running) :
    ∀ r ∈ (t.update tag g).records, r.state = .running → ∃ o ∈ t.records, o.state = .running ∧ o.tag = r.tag := by
  intro r hr hs
  rcases OrderTable.mem_update hr with ⟨hr, _⟩ | ⟨o, ho, e, rfl⟩
  · exact ⟨r, hr, hs, rfl⟩
  · exact ⟨o, ho, run o ho e hs, (keep o).symm⟩

/-- What is found under a tag after an update. -/
theorem OrderTable.find_update {t : OrderTable} {tag n : Nat} {g : Order → Order} (tags : ∀ x : Order, (g x).tag = x.tag)
    {o : Order} (h : t.find n = some o) : (t.update tag g).find n = some (if o.tag = tag then g o else o) := by
  unfold OrderTable.find OrderTable.update at *
  dsimp only
  revert h
  induction t.records with
  | nil => intro h; cases h
  | cons x l ih =>
    intro h
    have same : (if (x.tag == tag) = true then g x else x).tag = x.tag := by
      split
      · exact tags x
      · rfl
    by_cases c : x.tag = n
    · rw [List.find?_cons_of_pos (by simpa using c)] at h
      cases h
      rw [List.map_cons, List.find?_cons_of_pos (by rw [same]; simpa using c)]
      simp
    · rw [List.find?_cons_of_neg (by simpa using c)] at h
      rw [List.map_cons, List.find?_cons_of_neg (by rw [same]; simpa using c)]
      exact ih h

/-! ## The requests of the Issue Controller -/

theorem OrderTable.start_ok {t : OrderTable} (ok : t.ok) {o : Order} (h : t.nextQueued = some o) : (t.start o.tag).ok := by
  obtain ⟨ho, hq⟩ := OrderTable.nextQueued_mem h
  refine OrderTable.update_ok ok _ _ fun r hr e l => ⟨rfl, rfl, ?_⟩
  have := ok.unique ho hr e
  subst this
  refine ⟨l.tag, l.form, l.requested, l.voided, ?_, fun c => by cases c⟩
  have := l.halt
  rw [hq] at this
  simpa using this

theorem Order.counted_tag (o : Order) (c : Bool) : (o.counted c).tag = o.tag := by
  unfold Order.counted; split <;> rfl

theorem Order.counted_admission (o : Order) (c : Bool) : (o.counted c).admission = o.admission := by
  unfold Order.counted; split <;> rfl

theorem Order.counted_state (o : Order) (c : Bool) : (o.counted c).state = o.state := by
  unfold Order.counted; split <;> rfl

theorem Order.counted_legal {o : Order} (l : o.legal) (c : Bool) : (o.counted c).legal := by
  unfold Order.counted
  split
  · exact ⟨l.tag, l.form, l.requested, l.voided, l.halt, l.cancel⟩
  · refine ⟨l.tag, l.form, l.requested, ?_, l.halt, l.cancel⟩
    show (if o.voided < 255 then o.voided + 1 else o.voided) ≤ 255
    have := l.voided
    split <;> omega

theorem OrderTable.count_ok {t : OrderTable} (ok : t.ok) (tag : Nat) (c : Bool) : (t.count tag c).ok :=
  OrderTable.update_ok ok tag _ fun o _ _ l => ⟨o.counted_tag c, o.counted_admission c, Order.counted_legal l c⟩

theorem Order.ended_tag (o : Order) (h : Option HaltReason) : (o.ended h).tag = o.tag := by
  unfold Order.ended
  dsimp only
  split
  · rfl
  · split
    · rfl
    · split <;> rfl

theorem Order.ended_admission (o : Order) (h : Option HaltReason) : (o.ended h).admission = o.admission := by
  unfold Order.ended
  dsimp only
  split
  · rfl
  · split
    · rfl
    · split <;> rfl

theorem Order.ended_legal {o : Order} (l : o.legal) (h : Option HaltReason) : (o.ended h).legal := by
  unfold Order.ended
  dsimp only
  split
  · exact ⟨l.tag, l.form, l.requested, l.voided, by simp, by simp⟩
  · split
    · exact ⟨l.tag, l.form, l.requested, l.voided, by simp, by simp⟩
    · split
      · exact ⟨l.tag, l.form, l.requested, l.voided, by simp, by simp⟩
      · exact ⟨l.tag, l.form, l.requested, l.voided, by simp, by simp⟩

/-- An end of work moves the record out of RUNNING. -/
theorem Order.ended_state (o : Order) (h : Option HaltReason) : ¬ (o.ended h).state = .running := by
  unfold Order.ended
  dsimp only
  split
  · simp
  · split
    · simp
    · split <;> simp

theorem OrderTable.endWork_ok {t : OrderTable} (ok : t.ok) (tag : Nat) (h : Option HaltReason) :
    (t.endWork tag h).ok :=
  OrderTable.update_ok ok tag _ fun o _ _ l => ⟨o.ended_tag h, o.ended_admission h, Order.ended_legal l h⟩

/-! ## The order commands -/

theorem Order.amended_tag (o : Order) (n : Nat) : (o.amended n).tag = o.tag := by
  unfold Order.amended
  dsimp only
  split
  · split <;> rfl
  · split <;> rfl
  · split <;> rfl
  all_goals rfl

theorem Order.amended_admission (o : Order) (n : Nat) : (o.amended n).admission = o.admission := by
  unfold Order.amended
  dsimp only
  split
  · split <;> rfl
  · split <;> rfl
  · split <;> rfl
  all_goals rfl

theorem Order.amended_counts (o : Order) (n : Nat) :
    (o.amended n).done = o.done ∧ (o.amended n).requested = n ∧ (o.amended n).form = o.form := by
  unfold Order.amended
  dsimp only
  split
  · split <;> exact ⟨rfl, rfl, rfl⟩
  · split <;> exact ⟨rfl, rfl, rfl⟩
  · split <;> exact ⟨rfl, rfl, rfl⟩
  all_goals exact ⟨rfl, rfl, rfl⟩

theorem Order.legal.idle {o : Order} (l : o.legal) (h : ¬ o.state = .running) : o.cancelPending = false := by
  cases e : o.cancelPending
  · rfl
  · exact absurd (l.cancel e) h

theorem Order.amended_legal {o : Order} (l : o.legal) {n : Nat} (low : 1 ≤ n) (high : n ≤ 250) : (o.amended n).legal := by
  have keep : ({ o with requested := n } : Order).legal :=
    ⟨l.tag, l.form, ⟨low, high⟩, l.voided, l.halt, l.cancel⟩
  have closed : o.cancelPending = false →
      ({ o with requested := n, state := .done, halt := none, reported := false } : Order).legal := by
    intro c
    exact ⟨l.tag, l.form, ⟨low, high⟩, l.voided, by simp, by simp [c]⟩
  unfold Order.amended
  dsimp only
  split
  · rename_i e
    split
    · exact closed (l.idle (by rw [e]; simp))
    · exact keep
  · rename_i e
    split
    · exact closed (l.idle (by rw [e]; simp))
    · exact keep
  · rename_i e
    split
    · exact closed (l.idle (by rw [e]; simp))
    · exact keep
  all_goals exact keep

theorem Order.amended_state (o : Order) (n : Nat) : (o.amended n).state = .running → o.state = .running := by
  unfold Order.amended
  dsimp only
  split
  · split <;> simp_all
  · split <;> simp_all
  · split <;> simp_all
  all_goals exact id

theorem Order.cancelled_tag (o : Order) : o.cancelled.tag = o.tag := by
  unfold Order.cancelled; split <;> rfl

theorem Order.cancelled_admission (o : Order) : o.cancelled.admission = o.admission := by
  unfold Order.cancelled; split <;> rfl

theorem Order.cancelled_counts (o : Order) :
    o.cancelled.done = o.done ∧ o.cancelled.requested = o.requested ∧ o.cancelled.form = o.form := by
  unfold Order.cancelled; split <;> exact ⟨rfl, rfl, rfl⟩

theorem Order.cancelled_legal {o : Order} (l : o.legal) : o.cancelled.legal := by
  unfold Order.cancelled
  split
  · rename_i e
    exact ⟨l.tag, l.form, l.requested, l.voided, l.halt, fun _ => e⟩
  all_goals first
    | exact l
    | (rename_i e
       have := l.idle (by rw [e]; simp)
       exact ⟨l.tag, l.form, l.requested, l.voided, by simp, by simp [this]⟩)

theorem Order.cancelled_state (o : Order) : o.cancelled.state = .running → o.state = .running := by
  unfold Order.cancelled
  split <;> simp_all

/-! ## Admission -/

theorem renumbered_mem {l : List Order} {r : Order} (h : r ∈ renumbered l) :
    ∃ o ∈ l, ∃ n, r = { o with admission := n } := by
  obtain ⟨x, hx, rfl⟩ := List.mem_map.1 h
  exact ⟨x.1, (List.mem_zipIdx hx).2.2 ▸ List.getElem_mem _, x.2 + 1, rfl⟩

theorem renumbered_tags (l : List Order) : (renumbered l).map (·.tag) = l.map (·.tag) := by
  show (l.zipIdx.map _).map _ = _
  rw [List.map_map]
  conv => rhs; rw [← List.zipIdx_map_fst 0 l]
  rw [List.map_map]
  rfl

theorem OrderTable.prepared_mem {t : OrderTable} {r : Order} (h : r ∈ t.prepared.records) :
    ∃ o ∈ t.records, ∃ n, r = { o with admission := n } := by
  unfold OrderTable.prepared at h
  split at h
  · exact renumbered_mem h
  · exact ⟨r, h, r.admission, rfl⟩

theorem OrderTable.prepared_tags (t : OrderTable) : t.prepared.records.map (·.tag) = t.records.map (·.tag) := by
  unfold OrderTable.prepared
  split
  · exact renumbered_tags _
  · rfl

theorem renumbered_admissions (l : List Order) :
    (renumbered l).map (·.admission) = (List.range l.length).map fun i => i + 1 := by
  show (l.zipIdx.map _).map _ = _
  rw [List.map_map, List.zipIdx_eq_zip_range', List.range_eq_range', ← List.map_snd_zip (l₁ := l) (l₂ := List.range' 0 l.length)
    (by simp), List.map_map]
  simp [List.map_snd_zip]

/-- What the renumbering promises: the numbers rise along the table and lie below the next one, which leaves room (R117). -/
theorem OrderTable.prepared_numbers {t : OrderTable} (ok : t.ok) (room : t.records.length < Config.orderSlots) :
    (t.prepared.records.Pairwise fun r q => r.admission < q.admission) ∧
      (∀ r ∈ t.prepared.records, 1 ≤ r.admission ∧ r.admission < t.prepared.next) ∧
      1 ≤ t.prepared.next ∧ t.prepared.next < Config.lastAdmission := by
  unfold OrderTable.prepared
  split
  · refine ⟨?_, ?_, Nat.succ_le_succ (Nat.zero_le _), ?_⟩
    · refine (List.pairwise_map (f := fun o : Order => o.admission) (R := (· < ·))).1 ?_
      show ((renumbered t.records).map fun o : Order => o.admission).Pairwise (· < ·)
      rw [renumbered_admissions, List.pairwise_map]
      exact List.pairwise_lt_range.imp fun h => Nat.succ_lt_succ h
    · intro r hr
      have : r.admission ∈ (renumbered t.records).map (·.admission) := List.mem_map_of_mem hr
      rw [renumbered_admissions] at this
      obtain ⟨i, hi, e⟩ := List.mem_map.1 this
      have := List.mem_range.1 hi
      show 1 ≤ r.admission ∧ r.admission < t.records.length + 1
      omega
    · show t.records.length + 1 < 65535
      have : t.records.length < 4 := room
      omega
  · rename_i h
    exact ⟨ok.order, ok.numbers, ok.next.1, Nat.lt_of_not_le h⟩

/-- The renumbering leaves each record under its tag. -/
theorem OrderTable.prepared_find {t : OrderTable} (ok : t.ok) {n : Nat} {o : Order} (h : t.find n = some o) :
    ∃ k, t.prepared.find n = some { o with admission := k } := by
  obtain ⟨ho, rfl⟩ := OrderTable.find_mem h
  cases f : t.prepared.find o.tag with
  | none =>
    have := OrderTable.find_none f
    rw [OrderTable.prepared_tags] at this
    exact absurd (List.mem_map_of_mem ho) this
  | some x =>
    obtain ⟨hx, ex⟩ := OrderTable.find_mem f
    obtain ⟨y, hy, k, rfl⟩ := OrderTable.prepared_mem hx
    rw [ok.unique ho hy ex]
    exact ⟨k, rfl⟩

theorem OrderTable.admit_ok {t : OrderTable} (ok : t.ok) {tag f n : Nat} (p : Policy)
    (free : t.find tag = none) (room : t.records.length < Config.orderSlots) (low : 1 ≤ tag) (high : tag ≤ 255)
    (form : f < Config.forms) (few : 1 ≤ n) (many : n ≤ 250) : (t.enter tag f n p).ok where
  size := by
    have len : t.prepared.records.length = t.records.length := by
      simpa using congrArg List.length t.prepared_tags
    show (t.prepared.records ++ [_]).length ≤ _
    rw [List.length_append, len]
    exact room
  tags := by
    show ((t.prepared.records ++ [_]).map _).Nodup
    rw [List.map_append, List.nodup_append, t.prepared_tags]
    refine ⟨ok.tags, List.nodup_singleton _, ?_⟩
    intro a ha b hb e
    have : b = tag := by simpa using hb
    exact OrderTable.find_none free (this ▸ e ▸ ha)
  legal r hr := by
    rcases List.mem_append.1 hr with h | h
    · obtain ⟨o, ho, _, rfl⟩ := OrderTable.prepared_mem h
      have l := ok.legal o ho
      exact ⟨l.tag, l.form, l.requested, l.voided, l.halt, l.cancel⟩
    · rw [List.mem_singleton] at h
      subst h
      exact ⟨⟨low, high⟩, form, ⟨few, many⟩, Nat.zero_le _, by simp, by simp⟩
  order := by
    refine List.pairwise_append.2 ⟨(OrderTable.prepared_numbers ok room).1, List.pairwise_singleton _ _, ?_⟩
    intro a ha b hb
    rw [List.mem_singleton] at hb
    subst hb
    exact ((OrderTable.prepared_numbers ok room).2.1 a ha).2
  numbers r hr := by
    have p := OrderTable.prepared_numbers ok room
    show 1 ≤ r.admission ∧ r.admission < t.prepared.next + 1
    rcases List.mem_append.1 hr with h | h
    · have := p.2.1 r h
      omega
    · rw [List.mem_singleton] at h
      subst h
      exact ⟨p.2.2.1, Nat.lt_succ_self _⟩
  next := by
    have p := OrderTable.prepared_numbers ok room
    exact ⟨Nat.succ_le_succ (Nat.zero_le _), p.2.2.2⟩

theorem OrderTable.admit_running {t : OrderTable} {tag f n : Nat} {p : Policy} :
    ∀ r ∈ (t.enter tag f n p).records, r.state = .running → ∃ o ∈ t.records, o.state = .running ∧ o.tag = r.tag := by
  intro r hr hs
  rcases List.mem_append.1 hr with h | h
  · obtain ⟨o, ho, _, rfl⟩ := OrderTable.prepared_mem h
    exact ⟨o, ho, hs, rfl⟩
  · rw [List.mem_singleton] at h
    subst h
    cases hs

theorem OrderTable.filter_ok {t : OrderTable} (ok : t.ok) (p : Order → Bool) :
    ({ t with records := t.records.filter p } : OrderTable).ok where
  size := (List.length_filter_le _ _).trans ok.size
  tags := ok.tags.sublist (List.filter_sublist.map _)
  legal r hr := ok.legal r (List.mem_filter.1 hr).1
  order := ok.order.sublist List.filter_sublist
  numbers r hr := ok.numbers r (List.mem_filter.1 hr).1
  next := ok.next

/-- In admission order the first record of a kind is the oldest of that kind (R117, R159). -/
theorem find_oldest {l : List Order} (sorted : l.Pairwise fun r q => r.admission < q.admission) (P : Order → Bool)
    (o : Order) : l.find? P = some o ↔ o ∈ l ∧ P o = true ∧ ∀ r ∈ l, P r = true → o.admission ≤ r.admission := by
  induction l with
  | nil => simp
  | cons x l ih =>
    rw [List.pairwise_cons] at sorted
    by_cases p : P x = true
    · rw [List.find?_cons_of_pos p]
      constructor
      · intro e
        cases e
        refine ⟨List.mem_cons_self .., p, fun r hr _ => ?_⟩
        rcases List.mem_cons.1 hr with rfl | hr
        · exact Nat.le_refl _
        · exact Nat.le_of_lt (sorted.1 r hr)
      · rintro ⟨hm, _, least⟩
        rcases List.mem_cons.1 hm with rfl | hm
        · rfl
        · exact absurd (least x (List.mem_cons_self ..) p) (Nat.not_le_of_lt (sorted.1 o hm))
    · rw [List.find?_cons_of_neg p, ih sorted.2]
      constructor
      · rintro ⟨hm, po, least⟩
        refine ⟨List.mem_cons_of_mem _ hm, po, fun r hr pr => ?_⟩
        rcases List.mem_cons.1 hr with rfl | hr
        · exact absurd pr p
        · exact least r hr pr
      · rintro ⟨hm, po, least⟩
        rcases List.mem_cons.1 hm with rfl | hm
        · exact absurd po p
        · exact ⟨hm, po, fun r hr pr => least r (List.mem_cons_of_mem _ hr) pr⟩

end Sys2Proof.Machine
end

