-- ==== Sys2Proof/Laws/Tickets.lean ====
section
/-! SUPPORT. The agreement of tickets, orders and forms (`ticketsOk`): what keeps it, by the part that is written. -/

set_option Elab.async false

namespace Sys2Proof.Machine

/-- The current order has a ticket in flight and wants it still. -/
def Blocks.wanted (b : Blocks) : Prop :=
  ∀ o, b.currentOrder = some o → (b.form o.form).inFlight = true ∧ o.done < o.requested

theorem Blocks.currentOrder_some {b : Blocks} {o : Order} (h : b.currentOrder = some o) :
    b.controller.current = some o.tag ∧ b.orders.find o.tag = some o := by
  unfold Blocks.currentOrder at h
  cases e : b.controller.current with
  | none => rw [e] at h; cases h
  | some tag =>
    rw [e] at h
    have f : b.orders.find tag = some o := h
    obtain ⟨_, rfl⟩ := OrderTable.find_mem f
    exact ⟨rfl, f⟩

theorem Blocks.currentOrder_mem {b : Blocks} {o : Order} (h : b.currentOrder = some o) : o ∈ b.orders.records :=
  (OrderTable.find_mem (Blocks.currentOrder_some h).2).1

/-- The current order rests on the controller's current tag and the table alone. -/
theorem Blocks.currentOrder_congr {b c : Blocks} (current : c.controller.current = b.controller.current)
    (orders : c.orders = b.orders) : c.currentOrder = b.currentOrder := by
  unfold Blocks.currentOrder
  rw [current, orders]

theorem Blocks.currentOrder_none {b : Blocks} (h : b.controller.current = none) : b.currentOrder = none := by
  unfold Blocks.currentOrder
  rw [h]
  rfl

theorem Blocks.form_congr {b c : Blocks} (forms : c.forms = b.forms) (f : Nat) : c.form f = b.form f := by
  unfold Blocks.form
  rw [forms]

theorem Blocks.wanted.congr {b c : Blocks} (h : b.wanted) (current : c.controller.current = b.controller.current)
    (orders : c.orders = b.orders) (forms : c.forms = b.forms) : c.wanted := by
  intro o ho
  rw [Blocks.form_congr forms]
  exact h o (Blocks.currentOrder_congr current orders ▸ ho)

/-- How the controller moves outside ticket starts: it comes into a walk from a walk alone, and waits for a homing within a
walk alone. -/
def Controller.Walks (c d : Controller) : Prop :=
  (d.prints → d.inWalk → c.prints ∧ c.inWalk) ∧ ((c.awaitsHoming = true → c.inWalk) → d.awaitsHoming = true → d.inWalk)

/-- The controller moves. -/
theorem Blocks.ticketsOk.walks {b : Blocks} {d : Controller} (h : b.ticketsOk)
    (current : d.current = b.controller.current) (w : b.controller.Walks d) : (b.withController d).ticketsOk where
  counts := h.counts
  running tag e := h.running tag (current ▸ e)
  named := h.named
  walk p q o ho := by
    obtain ⟨p, q⟩ := w.1 p q
    exact h.walk p q o (Blocks.currentOrder_congr (b := b) (c := b.withController d) current rfl ▸ ho)
  waits := w.2 h.waits

/-- The controller moves within the walk of a ticket that is in flight and wanted. -/
theorem Blocks.ticketsOk.walking {b : Blocks} {d : Controller} (h : b.ticketsOk)
    (current : d.current = b.controller.current) (w : b.wanted) (waits : d.awaitsHoming = true → d.inWalk) :
    (b.withController d).ticketsOk where
  counts := h.counts
  running tag e := h.running tag (current ▸ e)
  named := h.named
  walk _ _ o ho := w o (Blocks.currentOrder_congr (b := b) (c := b.withController d) current rfl ▸ ho)
  waits := waits

/-- No order is current. -/
theorem Blocks.ticketsOk.rested {b : Blocks} {d : Controller} (current : d.current = none)
    (waits : d.awaitsHoming = false) (counts : ∀ r ∈ b.orders.records, r.done ≤ r.requested)
    (named : ∀ r ∈ b.orders.records, (b.form r.form).defined = true) : (b.withController d).ticketsOk where
  counts := counts
  running tag e := by
    rw [show (b.withController d).controller.current = none from current] at e
    cases e
  named := named
  walk _ _ o ho := by
    rw [Blocks.currentOrder_none (b := b.withController d) current] at ho
    cases ho
  waits e := by
    rw [show (b.withController d).controller.awaitsHoming = false from waits] at e
    cases e

/-- The controller stands as it did, the forms that records name keep their marks, and the current order stays a RUNNING
record whose ticket, where it was wanted, is wanted still. -/
theorem Blocks.ticketsOk.of_records {b c : Blocks} (h : b.ticketsOk) (controller : c.controller = b.controller)
    (counts : ∀ r ∈ c.orders.records, r.done ≤ r.requested)
    (named : ∀ r ∈ c.orders.records, (c.form r.form).defined = true)
    (current : ∀ o, b.currentOrder = some o → o.state = .running → ∃ r, c.orders.find o.tag = some r ∧
      r.state = .running ∧
      ((b.form o.form).inFlight = true ∧ o.done < o.requested → (c.form r.form).inFlight = true ∧ r.done < r.requested)) :
    c.ticketsOk where
  counts := counts
  running tag e := by
    rw [controller] at e
    obtain ⟨o, ho, run⟩ := h.running tag e
    obtain ⟨_, rfl⟩ := OrderTable.find_mem ho
    obtain ⟨r, hr, run2, _⟩ := current o (by unfold Blocks.currentOrder; rw [e]; exact ho) run
    exact ⟨r, hr, run2⟩
  named := named
  walk p q r hr := by
    rw [controller] at p q
    obtain ⟨e, f⟩ := Blocks.currentOrder_some hr
    rw [controller] at e
    obtain ⟨o, ho, run⟩ := h.running r.tag e
    have co : b.currentOrder = some o := by unfold Blocks.currentOrder; rw [e]; exact ho
    obtain ⟨x, hx, _, w⟩ := current o co run
    rw [(OrderTable.find_mem ho).2, f] at hx
    cases hx
    exact w (h.walk p q o co)
  waits := by
    rw [controller]
    exact h.waits

/-- The controller and the table stand as they did, and the forms that records name keep their marks. -/
theorem Blocks.ticketsOk.of_forms {b c : Blocks} (h : b.ticketsOk) (controller : c.controller = b.controller)
    (orders : c.orders = b.orders)
    (forms : ∀ r ∈ b.orders.records, (b.form r.form).defined = true →
      (c.form r.form).defined = true ∧ (c.form r.form).inFlight = (b.form r.form).inFlight) : c.ticketsOk := by
  refine h.of_records controller (fun r hr => h.counts r (orders ▸ hr))
    (fun r hr => (forms r (orders ▸ hr) (h.named r (orders ▸ hr))).1) fun o ho run =>
      ⟨o, orders ▸ (Blocks.currentOrder_some ho).2, run, fun w => ?_⟩
  have m := Blocks.currentOrder_mem ho
  rw [(forms o m (h.named o m)).2]
  exact w

/-- Nothing that the agreement reads changes. -/
theorem Blocks.ticketsOk.of_same {b c : Blocks} (h : b.ticketsOk) (controller : c.controller = b.controller)
    (orders : c.orders = b.orders) (forms : c.forms = b.forms) : c.ticketsOk := by
  refine h.of_forms controller orders fun r _ d => ?_
  rw [Blocks.form_congr forms]
  exact ⟨d, rfl⟩

/-- One record is written: its tag and form stay, its counts agree, and where it is current it stays RUNNING and a ticket
that is wanted stays wanted. -/
theorem Blocks.ticketsOk.update {b : Blocks} (h : b.ticketsOk) {tag : Nat} {g : Order → Order}
    (tags : ∀ x : Order, (g x).tag = x.tag) (forms : ∀ x : Order, (g x).form = x.form)
    (counts : ∀ o ∈ b.orders.records, o.tag = tag → o.done ≤ o.requested → (g o).done ≤ (g o).requested)
    (current : ∀ o, b.currentOrder = some o → o.tag = tag → o.state = .running → (g o).state = .running ∧
      ((b.form o.form).inFlight = true → o.done < o.requested → (g o).done < (g o).requested)) :
    (b.withOrders (b.orders.update tag g)).ticketsOk := by
  refine h.of_records rfl (fun r hr => ?_) (fun r hr => ?_) fun o ho run => ?_
  · rcases OrderTable.mem_update hr with ⟨hr, _⟩ | ⟨o, ho, e, rfl⟩
    · exact h.counts r hr
    · exact counts o ho e (h.counts o ho)
  · show (b.form r.form).defined = true
    rcases OrderTable.mem_update hr with ⟨hr, _⟩ | ⟨o, ho, e, rfl⟩
    · exact h.named r hr
    · rw [forms]
      exact h.named o ho
  · have found := (Blocks.currentOrder_some ho).2
    refine ⟨_, OrderTable.find_update tags found, ?_⟩
    by_cases e : o.tag = tag
    · rw [if_pos e]
      refine ⟨(current o ho e run).1, fun w => ⟨?_, (current o ho e run).2 w.1 w.2⟩⟩
      show (b.form (g o).form).inFlight = true
      rw [forms]
      exact w.1
    · rw [if_neg e]
      exact ⟨run, fun w => w⟩

/-- A new record joins the table (R117, R126). -/
theorem Blocks.ticketsOk.enter {b : Blocks} (h : b.ticketsOk) (ok : b.orders.ok) (tag f n : Nat) (p : Policy)
    (named : (b.form f).defined = true) : (b.withOrders (b.orders.enter tag f n p)).ticketsOk := by
  have old : ∀ r ∈ b.orders.prepared.records, r.done ≤ r.requested ∧ (b.form r.form).defined = true := by
    intro r hr
    obtain ⟨o, ho, _, rfl⟩ := OrderTable.prepared_mem hr
    exact ⟨h.counts o ho, h.named o ho⟩
  refine h.of_records rfl (fun r hr => ?_) (fun r hr => ?_) fun o ho run => ?_
  · rcases List.mem_append.1 hr with hr | hr
    · exact (old r hr).1
    · rw [List.mem_singleton.1 hr]
      exact Nat.zero_le _
  · show (b.form r.form).defined = true
    rcases List.mem_append.1 hr with hr | hr
    · exact (old r hr).2
    · rw [List.mem_singleton.1 hr]
      exact named
  · obtain ⟨k, e⟩ := OrderTable.prepared_find ok (Blocks.currentOrder_some ho).2
    refine ⟨{ o with admission := k }, ?_, run, fun w => w⟩
    show (b.orders.prepared.records ++ [_]).find? _ = _
    rw [List.find?_append]
    rw [show b.orders.prepared.records.find? _ = _ from e]
    rfl

/-- A set of one form that keeps its marks, or of one that no record names. -/
theorem Blocks.ticketsOk.setForm {b c : Blocks} (h : b.ticketsOk) (f : Nat) (r : FormRecord)
    (controller : c.controller = b.controller) (orders : c.orders = b.orders) (forms : c.forms = b.forms.set f r)
    (keep : ∀ o ∈ b.orders.records, o.form = f → (b.form f).defined = true →
      r.defined = true ∧ r.inFlight = (b.form f).inFlight) : c.ticketsOk := by
  refine h.of_forms controller orders fun o ho d => ?_
  rw [Blocks.form_congr (b := b.setForm f r) forms]
  by_cases e : o.form = f
  · rw [e] at d ⊢
    have k := keep o ho e d
    rw [Blocks.form_setForm]
    split
    · exact k
    · exact ⟨d, rfl⟩
  · rw [Blocks.form_setForm_other r e]
    exact ⟨d, rfl⟩

/-- A DEFINED form has an id. -/
theorem Blocks.defined_lt {b : Blocks} {f : Nat} (h : (b.form f).defined = true) : f < b.forms.length := by
  by_contra c
  unfold Blocks.form at h
  rw [List.getD_eq_getElem?_getD, List.getElem?_eq_none (Nat.le_of_not_lt c)] at h
  cases h

/-- A ticket start makes the ticket of the current order wanted (R138). -/
theorem Blocks.ticketsOk.wanted_start {b : Blocks} (h : b.ticketsOk) {o : Order} (cur : b.currentOrder = some o)
    (more : ¬ o.done = o.requested) {c : Blocks} (current : c.controller.current = b.controller.current)
    (orders : c.orders = b.orders) (forms : c.forms = (b.setInFlight o.form true).forms) : c.wanted := by
  intro r hr
  rw [Blocks.currentOrder_congr current orders, cur] at hr
  cases hr
  have m := Blocks.currentOrder_mem cur
  have lt := h.counts o m
  rw [Blocks.form_congr forms]
  unfold Blocks.setInFlight
  rw [Blocks.form_setForm_same _ (Blocks.defined_lt (h.named o m))]
  exact ⟨rfl, by omega⟩

end Sys2Proof.Machine
end

