-- ==== Sys2Proof/Laws/Keeps.lean ====
section
/-! SUPPORT. `b.Keeps c`: what is an invariant of `b` is one of `c`. One lemma per operation of the Issue Controller, so
that the invariants of Safety.lean go through commands and events without any of them unfolded again. -/

set_option Elab.async false

namespace Sys2Proof.Machine

/-- Each invariant of the blocks passes from `b` to `c`. -/
structure Blocks.Keeps (b c : Blocks) : Prop where
  heat : b.head.heatOk → c.head.heatOk
  path : b.paper.pathOk → c.paper.pathOk
  orders : b.orders.ok → c.orders.ok
  records : b.recordsOk → c.recordsOk
  glyphs : b.glyphsOk → c.glyphsOk
  runs : b.orders.ok → b.runsOne → c.runsOne
  tickets : b.orders.ok → b.ticketsOk → c.ticketsOk

theorem Blocks.Keeps.refl (b : Blocks) : b.Keeps b := ⟨id, id, id, id, id, fun _ => id, fun _ => id⟩

theorem Blocks.Keeps.trans {a b c : Blocks} (h : a.Keeps b) (k : b.Keeps c) : a.Keeps c :=
  ⟨k.heat ∘ h.heat, k.path ∘ h.path, k.orders ∘ h.orders, k.records ∘ h.records, k.glyphs ∘ h.glyphs,
    fun ok r => k.runs (h.orders ok) (h.runs ok r), fun ok t => k.tickets (h.orders ok) (h.tickets ok t)⟩

/-- The controller stands as it did, and every RUNNING record was one. -/
theorem Blocks.runsOne.of_orders {b c : Blocks} (h : b.runsOne) (controller : c.controller = b.controller)
    (sub : ∀ r ∈ c.orders.records, r.state = .running → ∃ o ∈ b.orders.records, o.state = .running ∧ o.tag = r.tag) :
    c.runsOne where
  atRest := by rw [controller]; exact h.atRest
  paused := by rw [controller]; exact h.paused
  only r hr hs := by
    obtain ⟨o, ho, hos, e⟩ := sub r hr hs
    rw [controller, ← e]
    exact h.only o ho hos

/-- The controller and the table stand as they did. -/
theorem Blocks.runsOne.of_same {b c : Blocks} (h : b.runsOne) (controller : c.controller = b.controller)
    (orders : c.orders = b.orders) : c.runsOne :=
  h.of_orders controller fun r hr hs => ⟨r, orders ▸ hr, hs, rfl⟩

theorem Blocks.glyphsOk.of_same {b c : Blocks} (h : b.glyphsOk) (glyphs : c.glyphs = b.glyphs) : c.glyphsOk := by
  unfold Blocks.glyphsOk at *
  rw [glyphs]
  exact h

/-- Nothing that an invariant reads changes. -/
theorem Blocks.Keeps.of_same {b c : Blocks} (heat : c.head.heat = b.head.heat := by rfl)
    (paper : c.paper = b.paper := by rfl) (orders : c.orders = b.orders := by rfl)
    (forms : c.forms = b.forms := by rfl) (pool : c.pool = b.pool := by rfl)
    (glyphs : c.glyphs = b.glyphs := by rfl) (controller : c.controller = b.controller := by rfl) : b.Keeps c where
  heat := Head.heatOk_of_eq heat
  path ok := paper ▸ ok
  orders ok := orders ▸ ok
  records ok := ok.of_same forms pool
  glyphs ok := ok.of_same glyphs
  runs _ r := r.of_same controller orders
  tickets _ t := t.of_same controller orders forms

/-- Two branches of a choice. -/
theorem Blocks.Keeps.ite {b x y : Blocks} {c : Prop} [Decidable c] (h : c → b.Keeps x) (k : ¬ c → b.Keeps y) :
    b.Keeps (if c then x else y) := by
  split
  · exact h ‹_›
  · exact k ‹_›

/-! ## One block at a time -/

/-- How the controller moves outside the ends of work: its current order stays; it stays in its state, or takes up a state
with a current order; a pause may come to remember VOIDING. -/
def Controller.Goes (c d : Controller) : Prop :=
  d.current = c.current ∧
    ((d.state = c.state ∧ (d.remembered = c.remembered ∨ d.remembered = some .voiding)) ∨
      d.state = .staging ∨ d.state = .printing ∨ d.state = .voiding ∨ d.state = .awaitTear)

theorem Blocks.runsOne.goes {b : Blocks} {d : Controller} (h : b.runsOne) (g : b.controller.Goes d) :
    (b.withController d).runsOne := by
  obtain ⟨current, g⟩ := g
  refine ⟨?_, ?_, ?_⟩
  · show d.state = .idle ∨ d.state = .faulted → d.current = none
    intro e
    rcases g with ⟨st, _⟩ | g
    · rw [current]
      exact h.atRest (st ▸ e)
    · rcases g with g | g | g | g <;> rw [g] at e <;> simp at e
  · show d.state = .paused → ∃ r, d.remembered = some r ∧ (r = .idle → d.current = none) ∧ ¬ r = .faulted ∧ ¬ r = .paused
    intro e
    rcases g with ⟨st, g⟩ | g
    · rw [current]
      rcases g with g | g
      · rw [g]
        exact h.paused (st ▸ e)
      · exact ⟨.voiding, g, by simp, by simp, by simp⟩
    · rcases g with g | g | g | g <;> rw [g] at e <;> simp at e
  · intro r hr hs
    show d.current = _
    rw [current]
    exact h.only r hr hs

theorem Blocks.keeps_control (b : Blocks) (g : Controller → Controller)
    (h : ∀ c, Controller.Goes c (g c) := by
      intro c
      first
        | exact ⟨rfl, Or.inl ⟨rfl, Or.inl rfl⟩⟩
        | exact ⟨rfl, Or.inl ⟨rfl, Or.inr rfl⟩⟩
        | exact ⟨rfl, Or.inr (Or.inl rfl)⟩
        | exact ⟨rfl, Or.inr (Or.inr (Or.inl rfl))⟩
        | exact ⟨rfl, Or.inr (Or.inr (Or.inr (Or.inl rfl)))⟩
        | exact ⟨rfl, Or.inr (Or.inr (Or.inr (Or.inr rfl)))⟩)
    (w : ∀ c, Controller.Walks c (g c) := by
      intro c
      first
        | exact ⟨fun h k => ⟨h, k⟩, fun h => h⟩
        | (refine ⟨fun h k => ?_, fun h k => ?_⟩ <;>
            simp_all [Controller.prints, Controller.inWalk, Controller.cursorCleared, Controller.shortPaper,
              Controller.cancelVoid])) : b.Keeps (b.control g) :=
  ⟨id, id, id, fun r => r.of_same rfl rfl, id, fun _ r => r.goes (h _), fun _ t => t.walks (h _).1 (w _)⟩

/-- The controller moves within a walk, its state kept or taken up, while the ticket is in flight and wanted. -/
theorem Blocks.Keeps.cursor {a b : Blocks} (h : a.Keeps b) {g : Controller → Controller}
    (goes : b.controller.Goes (g b.controller)) (wanted : a.orders.ok → a.ticketsOk → b.wanted)
    (waits : a.orders.ok → a.ticketsOk → (b.controller.awaitsHoming = true → b.controller.inWalk) →
      (g b.controller).awaitsHoming = true → (g b.controller).inWalk) : a.Keeps (b.control g) :=
  ⟨h.heat, h.path, h.orders, fun r => (h.records r).of_same rfl rfl, h.glyphs, fun ok r => (h.runs ok r).goes goes,
    fun ok t => (h.tickets ok t).walking goes.1 (wanted ok t) (waits ok t (h.tickets ok t).waits)⟩

theorem Blocks.keeps_withHead {b : Blocks} {h : Head} (ok : b.head.heatOk → h.heatOk) : b.Keeps (b.withHead h) :=
  ⟨ok, id, id, fun r => r.of_same rfl rfl, id, fun _ r => r.of_same rfl rfl, fun _ t => t.of_same rfl rfl rfl⟩

theorem Blocks.keeps_withPaper {b : Blocks} {p : Paper} (ok : b.paper.pathOk → p.pathOk) : b.Keeps (b.withPaper p) :=
  ⟨id, ok, id, fun r => r.of_same rfl rfl, id, fun _ r => r.of_same rfl rfl, fun _ t => t.of_same rfl rfl rfl⟩

theorem Blocks.keeps_withOrders {b : Blocks} {t : OrderTable} (ok : b.orders.ok → t.ok)
    (sub : ∀ r ∈ t.records, r.state = .running → ∃ o ∈ b.orders.records, o.state = .running ∧ o.tag = r.tag)
    (tickets : b.orders.ok → b.ticketsOk → (b.withOrders t).ticketsOk) :
    b.Keeps (b.withOrders t) := ⟨id, id, ok, fun r => r.of_same rfl rfl, id, fun _ r => r.of_orders rfl sub, tickets⟩

theorem Blocks.keeps_withAttention (b : Blocks) (a : Attention) : b.Keeps (b.withAttention a) := .of_same

theorem Blocks.keeps_withComposer (b : Blocks) (c : Composer) : b.Keeps (b.withComposer c) := .of_same

theorem Blocks.keeps_stopIdle (b : Blocks) : b.Keeps b.stopIdle := .of_same

theorem Blocks.keeps_settleIdle (b : Blocks) : b.Keeps b.settleIdle := by
  unfold Blocks.settleIdle
  split
  · split
    · split
      · exact .refl b
      · exact .of_same
    all_goals exact .refl b
  · exact .of_same

theorem Blocks.keeps_compose (b : Blocks) (f n : Nat) : b.Keeps (b.compose f n) := by
  unfold Blocks.compose
  exact Blocks.keeps_withComposer _ _

/-- A composition leaves every block but the composer (R54). -/
theorem Blocks.compose_same (b : Blocks) (f n : Nat) : (b.compose f n).controller = b.controller ∧
    (b.compose f n).orders = b.orders ∧ (b.compose f n).forms = b.forms := by
  unfold Blocks.compose
  exact ⟨Blocks.withComposer_controller _ _, Blocks.withComposer_orders _ _, Blocks.withComposer_forms _ _⟩

theorem Blocks.keeps_requestMotion {b c : Blocks} {t : Tractor} {k : MotionKind} {n : Nat}
    (e : b.requestMotion t k n = some c) : b.Keeps c := by
  have path := Blocks.requestMotion_pathOk e
  unfold Blocks.requestMotion at e
  split at e
  · cases e
    exact ⟨id, path, id, fun r => r.of_same rfl rfl, id, fun _ r => r.of_same rfl rfl, fun _ t => t.of_same rfl rfl rfl⟩
  · cases e

theorem Blocks.keeps_landMotion {b : Blocks} {m : Motion} (h : b.paper.motion = some m) : b.Keeps (b.landMotion m) := by
  have path := Blocks.landMotion_pathOk h
  revert path
  unfold Blocks.landMotion
  dsimp only
  intro path
  split
  · rename_i e
    rw [if_pos e] at path
    split
    · rename_i e1
      rw [if_pos e1] at path
      exact ⟨id, path, id, fun r => r.of_same rfl rfl, id, fun _ r => r.of_same rfl rfl, fun _ t => t.of_same rfl rfl rfl⟩
    · rename_i e1
      rw [if_neg e1] at path
      exact ⟨id, path, id, fun r => r.of_same rfl rfl, id, fun _ r => r.of_same rfl rfl, fun _ t => t.of_same rfl rfl rfl⟩
  · rename_i e
    rw [if_neg e] at path
    exact ⟨id, path, id, fun r => r.of_same rfl rfl, id, fun _ r => r.of_same rfl rfl, fun _ t => t.of_same rfl rfl rfl⟩

theorem Blocks.keeps_afterHostMotion {b : Blocks} {m : Motion} (h : b.paper.motion = some m) :
    b.Keeps ((b.landMotion m).afterHostMotion m) := by
  have land := Blocks.keeps_landMotion h
  have path := Blocks.afterHostMotion_pathOk h
  revert path
  unfold Blocks.afterHostMotion
  intro path
  split
  · rename_i e
    rw [if_pos e] at path
    split
    · rename_i e1
      rw [if_pos e1] at path
      exact ⟨land.heat, path, land.orders, fun r => (land.records r).of_same rfl rfl, land.glyphs,
        fun ok r => (land.runs ok r).of_same rfl rfl, fun ok t => (land.tickets ok t).of_same rfl rfl rfl⟩
    · exact land.trans .of_same
  · exact land.trans .of_same

theorem Blocks.keeps_paperAppears (b : Blocks) (t : Tractor) : b.Keeps (b.paperAppears t) := by
  have path := Blocks.paperAppears_pathOk (b := b) (t := t)
  revert path
  unfold Blocks.paperAppears
  dsimp only
  intro path
  split
  · rename_i e
    rw [e] at path
    exact ⟨id, path, id, fun r => r.of_same rfl rfl, id, fun _ r => r.of_same rfl rfl, fun _ t => t.of_same rfl rfl rfl⟩
  all_goals exact .refl b

theorem Blocks.keeps_paperGoes (b : Blocks) (t : Tractor) : b.Keeps (b.paperGoes t) := by
  have path := Blocks.paperGoes_pathOk (b := b) (t := t)
  have rest : (b.paperGoes t).head = b.head ∧ (b.paperGoes t).orders = b.orders ∧ (b.paperGoes t).forms = b.forms ∧
      (b.paperGoes t).pool = b.pool ∧ (b.paperGoes t).glyphs = b.glyphs ∧
      (b.paperGoes t).controller = b.controller := by
    unfold Blocks.paperGoes
    dsimp only
    split
    · exact ⟨rfl, rfl, rfl, rfl, rfl, rfl⟩
    · exact ⟨rfl, rfl, rfl, rfl, rfl, rfl⟩
    all_goals first
      | exact ⟨rfl, rfl, rfl, rfl, rfl, rfl⟩
      | (split <;> exact ⟨rfl, rfl, rfl, rfl, rfl, rfl⟩)
  obtain ⟨e1, e2, e3, e4, e5, e6⟩ := rest
  exact ⟨Head.heatOk_of_eq (by rw [e1]), path, fun ok => e2 ▸ ok, fun ok => ok.of_same e3 e4, fun ok => ok.of_same e5,
    fun _ r => r.of_same e6 e2, fun _ t => t.of_same e6 e2 e3⟩

/-! ## The Issue Controller -/

/-- A state that a pause may remember with an order current. -/
def ControllerState.working (r : ControllerState) : Prop := r = .staging ∨ r = .printing ∨ r = .voiding ∨ r = .awaitTear

/-- A pause that remembers PRINTING is entered from PRINTING. -/
def Blocks.mayPause (b : Blocks) (r : ControllerState) : Prop := r.working ∧ (r = .printing → b.controller.state = .printing)

theorem Blocks.keeps_enterPaused (b : Blocks) {r : ControllerState} (m : b.mayPause r) : b.Keeps (b.enterPaused r) := by
  obtain ⟨w, p⟩ := m
  refine ⟨id, id, id, fun r => r.of_same rfl rfl, id, fun _ h => ⟨?_, ?_, h.only⟩, fun _ t => t.walks rfl ⟨?_, fun h => h⟩⟩
  · show ControllerState.paused = .idle ∨ ControllerState.paused = .faulted → _
    simp
  · intro _
    refine ⟨r, rfl, ?_, ?_, ?_⟩ <;> rcases w with w | w | w | w <;> subst w <;> simp
  · rintro (e | ⟨_, e⟩) k
    · cases e
    · exact ⟨Or.inl (p (Option.some.inj e)), k⟩

theorem Blocks.keeps_unlessCover {b g : Blocks} {r : ControllerState} {c : Blocks} (w : b.mayPause r) (h : c.Keeps b)
    (k : c.Keeps g) : c.Keeps (b.unlessCover r g) := .ite (fun _ => h.trans (b.keeps_enterPaused w)) fun _ => k

theorem Blocks.mayPause_staging (b : Blocks) : b.mayPause .staging := ⟨Or.inl rfl, fun h => by cases h⟩
theorem Blocks.mayPause_printing {b : Blocks} (h : b.controller.state = .printing) : b.mayPause .printing :=
  ⟨Or.inr (Or.inl rfl), fun _ => h⟩
theorem Blocks.mayPause_voiding (b : Blocks) : b.mayPause .voiding := ⟨Or.inr (Or.inr (Or.inl rfl)), fun h => by cases h⟩
theorem Blocks.mayPause_awaitTear (b : Blocks) : b.mayPause .awaitTear :=
  ⟨Or.inr (Or.inr (Or.inr rfl)), fun h => by cases h⟩

theorem Blocks.keeps_sendHome (b : Blocks) (q : HomeRequester) : b.Keeps (b.sendHome q) :=
  (Blocks.keeps_withHead (Head.heatOk_of_eq (Head.home_heat _ _ _))).trans (Blocks.keeps_stopIdle _)

/-- Counting a ticket leaves tag, form and state, and moves the counts within what was requested (R123). -/
theorem Order.counted_counts (o : Order) (c : Bool) (h : o.done ≤ o.requested) (w : c = true → o.done < o.requested) :
    (o.counted c).done ≤ (o.counted c).requested := by
  cases c
  · exact h
  · exact w rfl

theorem Order.counted_form (o : Order) (c : Bool) : (o.counted c).form = o.form := by
  unfold Order.counted; split <;> rfl

theorem Order.ended_counts (o : Order) (h : Option HaltReason) :
    (o.ended h).done = o.done ∧ (o.ended h).requested = o.requested ∧ (o.ended h).form = o.form := by
  unfold Order.ended
  dsimp only
  split
  · exact ⟨rfl, rfl, rfl⟩
  · split
    · exact ⟨rfl, rfl, rfl⟩
    · split <;> exact ⟨rfl, rfl, rfl⟩

/-- A ticket end keeps what a form that is DEFINED is (R9, R11). -/
theorem Blocks.endTicket_defined (b : Blocks) (o : Order) (c : Bool) {f : Nat} (h : (b.form f).defined = true) :
    ((b.endTicket o c).form f).defined = true := by
  have key : ∀ (d : Blocks) (r : FormRecord), (d.form f).defined = true → (r.defined = (d.form o.form).defined) →
      ((d.setForm o.form r).form f).defined = true := by
    intro d r hd hr
    rw [Blocks.form_setForm]
    split
    · rename_i e
      rw [hr, ← e.1]
      exact hd
    · exact hd
  unfold Blocks.endTicket
  dsimp only
  cases c
  · exact key ((Blocks.withOrders _ _).applyStaged _) _ h rfl
  · exact key ((Blocks.withOrders _ _).applyStaged _) _ (key (b.advanceStruck _ _) _ h rfl) rfl

theorem Blocks.keeps_endTicket {b : Blocks} {o : Order} {c : Bool} (cur : b.currentOrder = some o)
    (w : c = true → b.ticketsOk → o.done < o.requested) : b.Keeps (b.endTicket o c) := by
  have e : (b.endTicket o c).head = b.head ∧ (b.endTicket o c).paper = b.paper ∧
      (b.endTicket o c).glyphs = b.glyphs ∧ (b.endTicket o c).orders = b.orders.count o.tag c ∧
      (b.endTicket o c).controller =
        { b.controller with struck := [], voidMotion := none, phase := .none, line := none, awaitsHoming := false } := by
    unfold Blocks.endTicket
    cases c <;> exact ⟨rfl, rfl, rfl, rfl, rfl⟩
  obtain ⟨e1, e2, e3, e4, e5⟩ := e
  refine ⟨Head.heatOk_of_eq (by rw [e1]), fun ok => e2 ▸ ok, fun ok => e4 ▸ OrderTable.count_ok ok _ _,
    fun ok => Blocks.endTicket_recordsOk ok o c, fun ok => ok.of_same e3, fun _ r => ?_, fun ok t => ?_⟩
  swap
  · have counts : ∀ r ∈ (b.endTicket o c).orders.records, r.done ≤ r.requested := by
      intro r hr
      rw [e4] at hr
      rcases OrderTable.mem_update hr with ⟨hr, _⟩ | ⟨x, hx, ex, rfl⟩
      · exact t.counts r hr
      · refine x.counted_counts c (t.counts x hx) fun h => ?_
        rw [ok.unique (Blocks.currentOrder_mem cur) hx ex]
        exact w h t
    have named : ∀ r ∈ (b.endTicket o c).orders.records, ((b.endTicket o c).form r.form).defined = true := by
      intro r hr
      refine b.endTicket_defined o c ?_
      rw [e4] at hr
      rcases OrderTable.mem_update hr with ⟨hr, _⟩ | ⟨x, hx, _, rfl⟩
      · exact t.named r hr
      · rw [x.counted_form]
        exact t.named x hx
    refine ⟨counts, fun tag q => ?_, named, fun _ q => ?_, fun q => ?_⟩
    · rw [e5] at q
      obtain ⟨x, hx, run⟩ := t.running tag q
      rw [e4]
      refine ⟨_, OrderTable.find_update (fun y => y.counted_tag c) hx, ?_⟩
      split
      · rw [x.counted_state]
        exact run
      · exact run
    · rw [Controller.inWalk, e5] at q
      simp at q
    · rw [e5] at q
      cases q
  have counted : (b.withOrders (b.orders.count o.tag c)).runsOne :=
    r.of_orders rfl (OrderTable.update_running (fun x => x.counted_tag c) fun x _ _ h => x.counted_state c ▸ h)
  refine Blocks.runsOne.of_same (counted.goes (d := { b.controller with
    struck := [], voidMotion := none, phase := .none, line := none, awaitsHoming := false }) ⟨rfl, Or.inl ⟨rfl, Or.inl rfl⟩⟩) e5 e4

theorem Blocks.keeps_voidTicket (b : Blocks) : b.Keeps b.voidTicket := by
  unfold Blocks.voidTicket
  split
  · rename_i cur
    exact .ite (fun _ => Blocks.keeps_endTicket cur fun h => by cases h) fun _ => .refl b
  · exact .refl b

/-- An end of work leaves no record RUNNING. -/
theorem Blocks.closeWork_stops {b : Blocks} (h : b.runsOne) (halt : Option HaltReason) (st : ControllerState) :
    ∀ r ∈ (b.closeWork halt st).orders.records, ¬ r.state = .running := by
  unfold Blocks.closeWork
  split
  · rename_i tag e
    intro r hr hs
    rcases OrderTable.mem_update hr with ⟨hr, ne⟩ | ⟨o, _, _, rfl⟩
    · have := h.only r hr hs
      rw [e] at this
      cases this
      exact ne rfl
    · exact o.ended_state _ hs
  · rename_i e
    intro r hr hs
    have := h.only r hr hs
    rw [e] at this
    cases this

theorem Blocks.closeWork_controller (b : Blocks) (halt : Option HaltReason) (st : ControllerState) :
    (b.closeWork halt st).controller = { Controller.hardReset with state := st } := by
  unfold Blocks.closeWork
  split <;> rfl

/-- What an end of work keeps, whatever state it leads to. -/
theorem Blocks.closeWork_keeps (b : Blocks) (halt : Option HaltReason) (st : ControllerState) {c : Blocks}
    (e : c = b.closeWork halt st ∨ ∃ g, c = (b.closeWork halt st).control g ∧
      (g { Controller.hardReset with state := st }).current = none ∧
      (g { Controller.hardReset with state := st }).awaitsHoming = false) (runs : b.runsOne → c.runsOne) :
    b.Keeps c := by
  have base : (b.head.heatOk → (b.closeWork halt st).head.heatOk) ∧ (b.paper.pathOk → (b.closeWork halt st).paper.pathOk) ∧
      (b.orders.ok → (b.closeWork halt st).orders.ok) ∧ (b.recordsOk → (b.closeWork halt st).recordsOk) ∧
      (b.glyphsOk → (b.closeWork halt st).glyphsOk) ∧
      (b.ticketsOk → ∀ d : Controller, d.current = none → d.awaitsHoming = false →
        ((b.closeWork halt st).withController d).ticketsOk) := by
    unfold Blocks.closeWork
    split
    · refine ⟨id, id, fun ok => OrderTable.endWork_ok ok _ _, fun r => r.of_same rfl rfl, id, fun t d hd hw =>
        .rested hd hw (fun r hr => ?_) fun r hr => ?_⟩
      · rcases OrderTable.mem_update hr with ⟨hr, _⟩ | ⟨x, hx, _, rfl⟩
        · exact t.counts r hr
        · rw [(x.ended_counts _).1, (x.ended_counts _).2.1]
          exact t.counts x hx
      · show (b.form r.form).defined = true
        rcases OrderTable.mem_update hr with ⟨hr, _⟩ | ⟨x, hx, _, rfl⟩
        · exact t.named r hr
        · rw [(x.ended_counts _).2.2]
          exact t.named x hx
    · exact ⟨id, id, id, fun r => r.of_same rfl rfl, id, fun t d hd hw => .rested hd hw t.counts t.named⟩
  obtain ⟨h1, h2, h3, h4, h5, h6⟩ := base
  have rest : (b.closeWork halt st).controller = { Controller.hardReset with state := st } := by
    unfold Blocks.closeWork
    split <;> rfl
  rcases e with rfl | ⟨g, rfl, c1, c2⟩
  · refine ⟨h1, h2, h3, h4, h5, fun _ => runs, fun _ t => ?_⟩
    exact h6 t (b.closeWork halt st).controller (by rw [rest]; rfl) (by rw [rest]; rfl)
  · refine ⟨h1, h2, h3, fun r => (h4 r).of_same rfl rfl, h5, fun _ => runs, fun _ t => ?_⟩
    rw [← rest] at c1 c2
    exact h6 t (g (b.closeWork halt st).controller) c1 c2

theorem Blocks.keeps_closeWork (b : Blocks) (h : Option HaltReason) {st : ControllerState} (ns : ¬ st = .paused) :
    b.Keeps (b.closeWork h st) := by
  refine b.closeWork_keeps h st (Or.inl rfl) fun r => ⟨?_, ?_, fun q hq hs => absurd hs (Blocks.closeWork_stops r h st q hq)⟩
  · rw [Blocks.closeWork_controller]
    exact fun _ => rfl
  · rw [Blocks.closeWork_controller]
    exact fun e => absurd e ns

/-- The end of work of a paused order: the pause returns to IDLE (R151). -/
theorem Blocks.keeps_closePaused (b : Blocks) :
    b.Keeps ((b.closeWork none .paused).control fun c => { c with remembered := some .idle }) := by
  refine b.closeWork_keeps none .paused (Or.inr ⟨_, rfl, rfl, rfl⟩) fun r =>
    ⟨?_, ?_, fun q hq hs => absurd hs (Blocks.closeWork_stops r none .paused q hq)⟩
  · rw [Blocks.control_controller, Blocks.closeWork_controller]
    exact fun _ => rfl
  · rw [Blocks.control_controller, Blocks.closeWork_controller]
    exact fun _ => ⟨.idle, rfl, fun _ => rfl, by simp, by simp⟩

theorem Blocks.keeps_endWork (b : Blocks) (h : Option HaltReason) : b.Keeps (b.endWork h) := by
  unfold Blocks.endWork
  exact .ite (fun _ => (b.keeps_closeWork h (by simp)).trans (Blocks.keeps_sendHome _ _)) fun _ => b.keeps_closeWork h (by simp)

theorem Blocks.keeps_askMotion (b : Blocks) (t : Tractor) (k : MotionKind) (n : Nat) : b.Keeps (b.askMotion t k n) := by
  unfold Blocks.askMotion
  cases h : b.requestMotion t k n with
  | none => exact .refl b
  | some c => exact Blocks.keeps_requestMotion h

theorem Blocks.keeps_askOwn (b : Blocks) (k : MotionKind) (n : Nat) : b.Keeps (b.askOwn k n) := by
  unfold Blocks.askOwn
  split
  · exact b.keeps_askMotion _ _ _
  · exact .refl b

/-- The pass request of a line, or the wait for a homing, within the walk of a ticket in flight and wanted. -/
theorem Blocks.Keeps.sendPass {a b : Blocks} (h : a.Keeps b) (f n : Nat) (span : Nat × Nat)
    (walks : a.orders.ok → a.ticketsOk → b.wanted ∧ b.controller.inWalk) : a.Keeps (b.sendPass f n span) := by
  unfold Blocks.sendPass
  refine .ite (fun _ => ?_) fun _ => ?_
  · exact h.cursor (g := fun c => { c with awaitsHoming := true }) ⟨rfl, Or.inl ⟨rfl, Or.inl rfl⟩⟩
      (fun ok t => (walks ok t).1) fun ok t _ _ => (walks ok t).2
  · refine (h.trans (Blocks.keeps_withHead (Head.heatOk_of_eq (Head.request_heat _ _ _)))).cursor
      ⟨rfl, Or.inl ⟨rfl, Or.inl rfl⟩⟩ (fun ok t => ?_) fun _ _ _ e => by cases e
    exact (walks ok t).1.congr rfl rfl rfl

theorem Blocks.Keeps.visitLine {a b : Blocks} (h : a.Keeps b) (f n : Nat) {next : Blocks → Blocks}
    (wanted : a.orders.ok → a.ticketsOk → b.wanted)
    (rest : ∀ c : Blocks, a.Keeps c → (a.orders.ok → a.ticketsOk → c.wanted) → a.Keeps (next c)) :
    a.Keeps (b.visitLine f n next) := by
  unfold Blocks.visitLine
  dsimp only
  have here : a.Keeps (b.control fun c => { c with phase := .feed, line := some n }) :=
    h.cursor ⟨rfl, Or.inl ⟨rfl, Or.inl rfl⟩⟩ wanted fun _ _ _ _ => Or.inl rfl
  refine .ite (fun _ => here.trans (Blocks.keeps_askOwn _ _ _)) fun _ => ?_
  have composed := here.trans (Blocks.keeps_compose _ f n)
  obtain ⟨e1, e2, e3⟩ := Blocks.compose_same (b.control fun c => { c with phase := .feed, line := some n }) f n
  have still := fun ok t => (wanted ok t).congr (c := Blocks.compose _ f n) (by rw [e1]; rfl) e2 e3
  split
  · exact composed.sendPass _ _ _ fun ok t => ⟨still ok t, Or.inl (by rw [e1]; rfl)⟩
  · exact rest _ composed still

theorem Blocks.Keeps.walkLines {a b : Blocks} (h : a.Keeps b) (f : Nat) (l : List Nat)
    (wanted : a.orders.ok → a.ticketsOk → b.wanted) : a.Keeps (Blocks.walkLines f l b) := by
  induction l generalizing b with
  | nil =>
    have here : a.Keeps (b.control fun c => { c with phase := .close, line := none }) :=
      h.cursor ⟨rfl, Or.inl ⟨rfl, Or.inl rfl⟩⟩ wanted fun _ _ _ _ => Or.inr (Or.inr rfl)
    exact here.trans (Blocks.keeps_askOwn _ .feedToTop 0)
  | cons n rest ih => exact h.visitLine f n wanted fun _ k w => ih k w

theorem Blocks.Keeps.walkFrom {a b : Blocks} (h : a.Keeps b) (o : Order) (k : Nat → Bool)
    (wanted : a.orders.ok → a.ticketsOk → b.wanted) : a.Keeps (b.walkFrom o k) := h.walkLines _ _ wanted

/-- The walk of a ticket goes on (R139, R140). -/
theorem Blocks.keeps_walkFrom {b : Blocks} (o : Order) (k : Nat → Bool) (printing : b.controller.state = .printing)
    (inWalk : b.controller.inWalk) : b.Keeps (b.walkFrom o k) :=
  (Blocks.Keeps.refl b).walkFrom o k fun _ t => t.walk (Or.inl printing) inWalk

theorem Blocks.keeps_markInFlight (b : Blocks) (f : Nat) : b.Keeps (b.setInFlight f true) := by
  refine ⟨id, id, id, fun ok => Blocks.markInFlight_recordsOk ok f, id, fun _ r => r.of_same rfl rfl, fun _ t => ?_⟩
  have key : ∀ g, (b.form g).defined = true → ((b.setInFlight f true).form g).defined = true := by
    intro g d
    unfold Blocks.setInFlight
    rw [Blocks.form_setForm]
    split
    · rename_i e
      rw [← e.1]
      exact d
    · exact d
  refine t.of_records rfl t.counts (fun r hr => key _ (t.named r hr)) fun r hr run =>
    ⟨r, (Blocks.currentOrder_some hr).2, run, fun w => ⟨?_, w.2⟩⟩
  unfold Blocks.setInFlight
  rw [Blocks.form_setForm]
  split
  · rfl
  · exact w.1

theorem Blocks.Keeps.beginTicket {a b : Blocks} (h : a.Keeps b) {o : Order} (cur : b.currentOrder = some o)
    (more : ¬ o.done = o.requested) : a.Keeps (b.beginTicket o) := by
  unfold Blocks.beginTicket
  have started : a.orders.ok → a.ticketsOk → ((b.setInFlight o.form true).control fun c =>
      { c with state := .printing, struck := [] }).wanted := fun ok t =>
    (h.tickets ok t).wanted_start cur more rfl rfl rfl
  refine ((h.trans (b.keeps_markInFlight _)).cursor (g := fun c => { c with state := .printing, struck := [] })
    ⟨rfl, Or.inr (Or.inr (Or.inl rfl))⟩ (fun ok t => (started ok t).congr rfl rfl rfl) fun _ _ w e => w e).walkFrom _ _
    started

theorem Blocks.keeps_ticketStart {b : Blocks} {o : Order} (cur : b.currentOrder = some o) {r : ControllerState}
    (m : b.mayPause r) : b.Keeps (b.ticketStart o r) := by
  unfold Blocks.ticketStart
  refine .ite (fun _ => b.keeps_endWork _) fun more => .ite (fun _ => b.keeps_endWork _) fun _ => ?_
  simp only [Bool.or_eq_true, beq_iff_eq, not_or] at more
  have staging := b.keeps_control fun c => { c.cursorCleared with state := .staging }
  refine Blocks.keeps_unlessCover m (.refl b) (.ite (fun _ => ?_) fun _ => ?_)
  · exact (staging.trans (Blocks.keeps_control _ _)).trans (Blocks.keeps_askOwn _ _ _)
  · exact staging.beginTicket cur more.2

theorem Blocks.keeps_stagingNext {b : Blocks} {o : Order} (cur : b.currentOrder = some o) : b.Keeps (b.stagingNext o) := by
  unfold Blocks.stagingNext
  split
  · refine Blocks.keeps_unlessCover b.mayPause_staging (.refl b) ?_
    split
    · exact b.keeps_endWork _
    · exact .refl b
  · split
    · exact Blocks.keeps_unlessCover b.mayPause_staging (.refl b) (b.keeps_askMotion _ _ _)
    · exact Blocks.keeps_ticketStart cur b.mayPause_staging

theorem Blocks.keeps_setWaiting (b : Blocks) (w : Bool) : b.Keeps (b.withPaper { b.paper with waiting := w }) :=
  Blocks.keeps_withPaper fun ok => Paper.pathOk_of_same ok rfl rfl rfl

theorem Blocks.keeps_stagingChecks (b : Blocks) : b.Keeps b.stagingChecks := by
  unfold Blocks.stagingChecks
  split
  · exact .refl b
  · rename_i cur
    refine .ite (fun _ => b.keeps_setWaiting true) fun _ => ?_
    split
    · exact b.keeps_endWork _
    · exact Blocks.keeps_stagingNext cur

theorem Blocks.keeps_enterStaging (b : Blocks) : b.Keeps b.enterStaging :=
  (b.keeps_control _).trans (Blocks.keeps_stagingChecks _)

/-- The chosen order becomes RUNNING and current where none was (R122, R135). -/
theorem Blocks.keeps_choose {b : Blocks} {o : Order} (may : b.mayStart = true) (h : b.orders.nextQueued = some o) :
    b.Keeps ((b.withOrders (b.orders.start o.tag)).control fun c =>
      { c with state := .staging, current := some o.tag, struck := [], heldReason := none, voidMotion := none }) := by
  refine ⟨id, id, fun ok => OrderTable.start_ok ok h, fun r => r.of_same rfl rfl, id, fun _ r => ⟨?_, ?_, ?_⟩,
    fun ok t => ?_⟩
  rotate_left 3
  · obtain ⟨ho, hq⟩ := OrderTable.nextQueued_mem h
    have counts : ∀ r ∈ (b.orders.start o.tag).records, r.done ≤ r.requested ∧ (b.form r.form).defined = true := by
      intro r hr
      rcases OrderTable.mem_update hr with ⟨hr, _⟩ | ⟨x, hx, _, rfl⟩
      · exact ⟨t.counts r hr, t.named r hr⟩
      · exact ⟨t.counts x hx, t.named x hx⟩
    refine ⟨fun r hr => (counts r hr).1, fun tag q => ?_, fun r hr => (counts r hr).2, fun p => ?_, t.waits⟩
    · cases q
      have started := (OrderTable.start_ok ok h).find_of_mem (o := { o with state := .running, cancelPending := false })
        (List.mem_map.2 ⟨o, ho, by simp⟩)
      exact ⟨_, started, rfl⟩
    · rcases p with e | ⟨e, _⟩ <;> cases e
  · show ControllerState.staging = .idle ∨ ControllerState.staging = .faulted → _
    simp
  · show ControllerState.staging = .paused → _
    simp
  · intro q hq hs
    have idle : b.controller.state = .idle := by
      unfold Blocks.mayStart at may
      simp only [Bool.and_eq_true, beq_iff_eq] at may
      exact may.1.1
    have free := r.atRest (Or.inl idle)
    rcases OrderTable.mem_update hq with ⟨hq, _⟩ | ⟨x, _, e, rfl⟩
    · have := r.only q hq hs
      rw [free] at this
      cases this
    · show some o.tag = some x.tag
      rw [e]

theorem Blocks.keeps_startOrders (n : Nat) (b : Blocks) : b.Keeps (Blocks.startOrders n b) := by
  induction n generalizing b with
  | zero => exact .refl b
  | succ n ih =>
    unfold Blocks.startOrders
    refine .ite (fun may => ?_) fun _ => .refl b
    split
    · exact .refl b
    · rename_i h
      refine .trans ?_ (ih _)
      refine .trans ?_ (Blocks.keeps_stagingChecks _)
      exact (Blocks.keeps_choose may h).trans (Blocks.keeps_stopIdle _)

theorem Blocks.keeps_present (b : Blocks) (f : Bool) : b.Keeps (b.present f) :=
  (b.keeps_control _).trans (Blocks.keeps_askOwn _ _ _)

theorem Blocks.keeps_afterTicket {b : Blocks} (printing : b.controller.state = .printing) : b.Keeps b.afterTicket := by
  have pause := Blocks.mayPause_printing printing
  unfold Blocks.afterTicket
  split
  · exact .refl b
  · rename_i cur
    refine .ite (fun _ => ?_) fun _ => .ite (fun _ => b.keeps_endWork _) fun _ => ?_
    · exact .ite (fun _ => b.keeps_endWork _) fun _ => Blocks.keeps_unlessCover pause (.refl b) (b.keeps_present _)
    · split
      · exact Blocks.keeps_unlessCover pause (.refl b) (b.keeps_present _)
      all_goals exact Blocks.keeps_ticketStart cur pause

theorem Blocks.keeps_presentDone {b : Blocks} (printing : b.controller.state = .printing) : b.Keeps b.presentDone := by
  have pause := Blocks.mayPause_printing printing
  unfold Blocks.presentDone
  split
  · exact .refl b
  · refine .ite (fun _ => ?_) fun _ => .ite (fun _ => b.keeps_endWork _) fun _ => ?_
    · exact .ite (fun _ => b.keeps_endWork _) fun _ => Blocks.keeps_unlessCover pause (.refl b) b.keeps_enterStaging
    · exact Blocks.keeps_unlessCover pause (.refl b) (b.keeps_control _)

theorem Blocks.keeps_askVoid (b : Blocks) : b.Keeps b.askVoid := by
  unfold Blocks.askVoid
  split
  · exact b.keeps_askOwn _ _
  · exact b.keeps_askOwn _ _
  · exact .refl b

theorem Blocks.keeps_enterVoiding (b : Blocks) : b.Keeps b.enterVoiding :=
  Blocks.keeps_unlessCover (Blocks.mayPause_voiding _) (b.keeps_control _) ((b.keeps_control _).trans (Blocks.keeps_askVoid _))

theorem Blocks.keeps_endVoided (b : Blocks) : b.Keeps b.endVoided := b.keeps_voidTicket.trans (Blocks.keeps_endWork _ _)

theorem Blocks.keeps_passOver {b : Blocks} (printing : b.controller.state = .printing) (pass : b.controller.phase = .pass) :
    b.Keeps b.passOver := by
  unfold Blocks.passOver
  refine .ite (fun _ => b.keeps_enterVoiding) fun _ => ?_
  split
  · exact .refl b
  · exact Blocks.keeps_unlessCover (Blocks.mayPause_printing printing) (.refl b)
      (Blocks.keeps_walkFrom _ _ printing (Or.inr (Or.inl pass)))

theorem Blocks.keeps_homingOver {b : Blocks} (printing : b.controller.state = .printing)
    (awaits : b.controller.awaitsHoming = true) : b.Keeps b.homingOver := by
  unfold Blocks.homingOver
  dsimp only
  have ready := b.keeps_control fun c => { c with awaitsHoming := false }
  refine .ite (fun _ => ready.trans (Blocks.keeps_enterVoiding _)) fun _ => ?_
  split
  · exact ready
  · refine Blocks.keeps_unlessCover (Blocks.mayPause_printing printing) ready ?_
    split
    · exact ready.sendPass _ _ _ fun _ t => ⟨(Blocks.wanted.congr (b := b) (t.walk (Or.inl printing) (t.waits awaits)) rfl rfl rfl),
        t.waits awaits⟩
    · exact ready

theorem Blocks.keeps_headAnswered (b : Blocks) : b.Keeps b.headAnswered := by
  unfold Blocks.headAnswered
  split
  · rename_i printing
    refine .ite (fun w => .ite (fun _ => .refl b) fun _ => Blocks.keeps_homingOver printing w) fun _ =>
      .ite (fun pass => ?_) fun _ => .refl b
    exact .ite (fun _ => Blocks.keeps_passOver printing pass) fun _ =>
      .ite (fun _ => b.keeps_enterPaused (Blocks.mayPause_printing printing)) fun _ => .refl b
  all_goals exact .refl b

theorem Blocks.keeps_takeSegment (b : Blocks) (x y : Nat) : b.Keeps (b.takeSegment x y) := b.keeps_control _

theorem Blocks.keeps_ownEjected (b : Blocks) : b.Keeps b.ownEjected := by
  unfold Blocks.ownEjected
  split
  · exact b.keeps_endWork _
  · split
    · exact (b.keeps_control _).trans (Blocks.keeps_endVoided _)
    · exact (b.keeps_control _).trans (Blocks.keeps_endVoided _)
    · exact b.keeps_endWork _
    all_goals exact .refl b
  · exact b.keeps_endVoided
  all_goals exact .refl b

theorem Blocks.keeps_motionDone (b : Blocks) : b.Keeps b.motionDone := by
  unfold Blocks.motionDone
  split
  · exact .refl b
  · rename_i o cur
    split
    · exact .ite (fun _ => b.keeps_endWork _) fun _ => Blocks.keeps_stagingNext cur
    · rename_i printing
      split
      · rename_i feed
        exact .ite (fun _ => b.keeps_enterVoiding) fun _ => Blocks.keeps_unlessCover (Blocks.mayPause_printing printing)
          (.refl b) (Blocks.keeps_walkFrom _ _ printing (Or.inl feed))
      · rename_i close
        refine (Blocks.keeps_endTicket cur fun _ t => ?_).trans (Blocks.keeps_afterTicket ?_)
        · exact (t.walk (Or.inl printing) (Or.inr (Or.inr close)) o cur).2
        · show (b.endTicket o true).controller.state = _
          unfold Blocks.endTicket
          exact printing
      · exact Blocks.keeps_presentDone printing
      all_goals exact .refl b
    · exact b.keeps_endVoided
    all_goals exact .refl b

theorem Blocks.keeps_hostMotionOver (b : Blocks) : b.Keeps b.hostMotionOver := by
  unfold Blocks.hostMotionOver
  exact .ite (fun _ => (b.keeps_setWaiting false).trans (Blocks.keeps_stagingChecks _)) fun _ => .refl b

/-- The controller takes up the state the pause remembers (R153). -/
theorem Blocks.keeps_back {b : Blocks} (h : b.controller.state = .paused) :
    b.Keeps (b.control fun c => { c with state := c.remembered.getD .idle, remembered := none }) := by
  refine ⟨id, id, id, fun r => r.of_same rfl rfl, id, fun _ r => ?_, fun _ t => t.walks rfl ⟨fun p k => ?_, fun w => w⟩⟩
  swap
  · refine ⟨Or.inr ⟨h, ?_⟩, k⟩
    rcases p with p | ⟨_, p⟩
    · change b.controller.remembered.getD .idle = .printing at p
      cases e : b.controller.remembered with
      | none => rw [e] at p; cases p
      | some q => rw [e] at p; exact congrArg some p
    · cases p
  obtain ⟨q, e, none, nf, np⟩ := r.paused h
  refine ⟨?_, ?_, r.only⟩
  · show b.controller.remembered.getD .idle = .idle ∨ b.controller.remembered.getD .idle = .faulted → b.controller.current = _
    rw [e]
    rintro (x | x)
    · exact none x
    · exact absurd x nf
  · show b.controller.remembered.getD .idle = .paused → _
    rw [e]
    exact fun x => absurd x np

theorem Blocks.keeps_leavePaused {b : Blocks} (h : b.controller.state = .paused) : b.Keeps b.leavePaused := by
  unfold Blocks.leavePaused
  dsimp only
  have back := Blocks.keeps_back h
  split
  · exact back.trans (Blocks.keeps_stagingChecks _)
  · rename_i printing
    have state : (b.control fun c => { c with state := c.remembered.getD .idle, remembered := none }).controller.state =
        .printing := by
      show b.controller.remembered.getD .idle = _
      rw [printing]
      rfl
    refine back.trans ?_
    split
    · exact .refl _
    · split
      · rename_i pass
        refine .ite (fun _ => ?_) fun _ => Blocks.keeps_passOver state pass
        exact Blocks.keeps_withHead (Head.heatOk_of_eq (Head.resume_heat _ _))
      · rename_i feed
        exact (Blocks.keeps_control _ _).trans (Blocks.keeps_walkFrom _ _ state (Or.inl feed))
      · exact Blocks.keeps_presentDone state
      · exact Blocks.keeps_afterTicket state
      · exact .refl _
  · exact back.trans (Blocks.keeps_askVoid _)
  all_goals exact back

/-- CLEAR_FAULT's homing has succeeded: FAULTED becomes IDLE (R164). -/
theorem Blocks.keeps_leaveFaulted {b : Blocks} (h : b.controller.state = .faulted) :
    b.Keeps (b.clearRecord.control fun c => { c with state := .idle }) := by
  refine ⟨id, id, id, fun r => r.of_same rfl rfl, id, fun _ r => ⟨fun _ => r.atRest (Or.inr h), ?_, r.only⟩,
    fun _ t => ?_⟩
  swap
  · refine (t.walks (d := { b.controller with state := .idle }) rfl ⟨fun p _ => ?_, fun w => w⟩).of_same rfl rfl rfl
    rcases p with e | ⟨e, _⟩ <;> cases e
  show ControllerState.idle = .paused → _
  simp

theorem Blocks.keeps_homed (b : Blocks) (l : List HomeRequester) : b.Keeps (b.homed l) := by
  unfold Blocks.homed
  dsimp only
  have cleared : b.Keeps (if (l.contains .clearFault && b.controller.state == .faulted) = true then
      b.clearRecord.control fun c => { c with state := .idle } else b) := by
    refine .ite (fun h => Blocks.keeps_leaveFaulted ?_) fun _ => .refl b
    simp only [Bool.and_eq_true, beq_iff_eq] at h
    exact h.2
  generalize (if (l.contains .clearFault && b.controller.state == .faulted) = true then
      b.clearRecord.control fun c => { c with state := .idle } else b) = d at *
  have renewed : b.Keeps (if l.contains .softReset = true then d.clearRecord else d) :=
    .ite (fun _ => cleared.trans (Blocks.keeps_withAttention _ _)) fun _ => cleared
  refine .ite (fun h => renewed.trans (Blocks.keeps_leavePaused ?_)) fun _ => renewed
  simp only [Bool.and_eq_true, beq_iff_eq] at h
  exact h.1.2

theorem Blocks.keeps_requestHome (b : Blocks) (q : HomeRequester) : b.Keeps (b.requestHome q) := by
  unfold Blocks.requestHome
  exact .ite (fun _ => b.keeps_sendHome q) fun _ => (b.keeps_sendHome q).trans (Blocks.keeps_homed _ _)

theorem Blocks.keeps_settle (b : Blocks) : b.Keeps b.settle := by
  unfold Blocks.settle
  have covered : b.Keeps b.takeClosedCover := .ite (fun _ => b.keeps_requestHome _) fun _ => .refl b
  exact (covered.trans (Blocks.keeps_startOrders _ _)).trans (Blocks.keeps_settleIdle _)

theorem Blocks.keeps_endHeadPass (b : Blocks) : b.Keeps (b.withHead b.head.endPass) :=
  Blocks.keeps_withHead (Head.heatOk_of_eq (Head.endPass_heat _))

theorem Blocks.keeps_endPass (b : Blocks) : b.Keeps b.endPass := b.keeps_endHeadPass.trans (Blocks.keeps_headAnswered _)

theorem Blocks.keeps_paperEndNotice (b : Blocks) (t : Tractor) : b.Keeps (b.paperEndNotice t) := by
  unfold Blocks.paperEndNotice
  split
  · exact .refl b
  · refine .ite (fun _ => ?_) fun _ => .refl b
    split
    · refine .ite (fun _ => .ite (fun _ => ?_) fun _ => b.keeps_control _) fun _ => .refl b
      exact (b.keeps_control _).trans (Blocks.keeps_endPass _)
    · refine .ite (fun _ => ?_) fun _ => .refl b
      exact (b.keeps_control _).trans (Blocks.keeps_endHeadPass _)
    · exact b.keeps_control _
    all_goals exact .refl b

theorem Blocks.keeps_cancelNotice (b : Blocks) : b.Keeps b.cancelNotice := by
  unfold Blocks.cancelNotice
  split
  · refine .ite (fun _ => .ite (fun _ => ?_) fun _ => b.keeps_control _) fun _ => .refl b
    exact (b.keeps_control _).trans (Blocks.keeps_endPass _)
  · exact b.keeps_endWork _
  · split
    · exact b.keeps_closePaused
    · exact b.keeps_closePaused
    · refine .ite (fun _ => ?_) fun _ => .refl b
      exact (b.keeps_control _).trans (Blocks.keeps_endHeadPass _)
    all_goals exact .refl b
  all_goals exact .refl b

theorem Blocks.keeps_coverOpens (b : Blocks) : b.Keeps b.coverOpens := by
  unfold Blocks.coverOpens
  split
  · exact b.keeps_control _
  · exact b.keeps_control _
  · refine .ite (fun _ => ?_) fun _ => b.keeps_control _
    exact (b.keeps_control _).trans (Blocks.keeps_withHead (Head.heatOk_of_eq (Head.pause_heat _)))
  · exact b.keeps_enterPaused b.mayPause_awaitTear
  all_goals exact .refl b

theorem Blocks.keeps_coverCloses (b : Blocks) : b.Keeps b.coverCloses := by
  unfold Blocks.coverCloses
  split
  · exact b.keeps_requestHome _
  all_goals exact .refl b

theorem Paper.pathTractor_out {p : Paper} (ok : p.pathOk) {t : Tractor} (h : p.pathTractor = some t) :
    (p.stock t.other).state.inPath = false := by
  have apart := ok.1
  unfold Paper.pathTractor at h
  split at h
  · rename_i ha
    cases h
    show p.stockB.state.inPath = false
    rw [← Bool.not_eq_true]
    exact fun hb => apart ⟨ha, hb⟩
  · split at h
    · rename_i ha hb
      cases h
      show p.stockA.state.inPath = false
      simpa using ha
    · cases h

theorem Blocks.keeps_beginMotion {b : Blocks} {t : Tractor} {k : MotionKind} {n : Nat} {q : Requester} {ph : Nat}
    (out : b.paper.pathOk → (b.paper.stock t.other).state.inPath = false) (clears : ph = 1 → k = .park) :
    b.Keeps (b.beginMotion t k n q ph) :=
  ⟨id, fun ok => Blocks.beginMotion_pathOk ok t k n q ph (out ok) clears, id, fun r => r.of_same rfl rfl, id, fun _ r => r.of_same rfl rfl, fun _ t => t.of_same rfl rfl rfl⟩

theorem Blocks.keeps_tearPressed (b : Blocks) : b.Keeps b.tearPressed := by
  unfold Blocks.tearPressed
  split
  · dsimp only
    have staging := b.keeps_control fun c => { c.cursorCleared with state := .staging }
    split
    · split
      · rename_i moving e
        exact staging.trans (Blocks.keeps_requestMotion e)
      · exact staging.trans (Blocks.keeps_stagingChecks _)
    · exact staging.trans (Blocks.keeps_stagingChecks _)
  · split
    · rename_i t e
      refine .ite (fun _ => ?_) fun _ => .refl b
      exact Blocks.keeps_beginMotion (fun ok => Paper.pathTractor_out ok e) fun h => by cases h
    · exact .refl b
  all_goals exact .refl b

theorem Blocks.keeps_stopWork (b : Blocks) : b.Keeps ((b.withHead b.head.stop).withPaper b.paper.lose) :=
  (Blocks.keeps_withHead (Head.heatOk_of_eq (Head.stop_heat _))).trans (Blocks.keeps_withPaper Paper.lose_pathOk)

theorem Blocks.keeps_fault (b : Blocks) (k : FaultKind) (t : Option Tractor) (a : FaultActivity) :
    b.Keeps (b.fault k t a) := by
  unfold Blocks.fault
  dsimp only
  have recorded := b.keeps_withAttention (b.attention.recordFault k t a)
  refine recorded.trans (.ite (fun _ => .refl _) fun _ => ?_)
  exact ((Blocks.keeps_stopWork _).trans (Blocks.keeps_voidTicket _)).trans (Blocks.keeps_closeWork _ _ (by simp))

/-- The Order Table, the Line Composer and the controller record as SOFT_RESET leaves them (R157). -/
theorem Blocks.keeps_emptied (b : Blocks) :
    b.Keeps (((b.withOrders OrderTable.empty).withComposer Composer.empty).withController Controller.hardReset) := by
  refine ⟨id, id, fun _ => OrderTable.empty_ok, fun r => r.of_same rfl rfl, id, fun _ _ => ⟨fun _ => rfl, ?_, ?_⟩,
    fun _ _ => .rested rfl rfl (fun r hr => by cases hr) fun r hr => by cases hr⟩
  · show ControllerState.idle = .paused → _
    simp
  · intro r hr
    cases hr

theorem Blocks.keeps_softReset (b : Blocks) : b.Keeps b.softReset := by
  unfold Blocks.softReset
  dsimp only
  refine .trans ?_ (Blocks.keeps_settle _)
  refine .trans ?_ (Blocks.keeps_requestHome _ _)
  refine .trans ?_ (Blocks.keeps_withAttention _ _)
  refine .trans ?_ (Blocks.keeps_emptied _)
  exact b.keeps_stopWork.trans (Blocks.keeps_voidTicket _)

end Sys2Proof.Machine
end

