-- ==== Sys2Proof/Laws/Commands.lean ====
section
/-! SUPPORT. Every command and every event of the mechanism keeps the invariants of the blocks: one lemma each. -/

set_option Elab.async false

namespace Sys2Proof.Machine

/-! ## Answers -/

/-- A command that its tests refuse leaves every record as it is. -/
theorem Blocks.keeps_checked {b : Blocks} {tests : List (Bool × Result)} {go : Answer}
    (h : firstRefusal tests = none → b.Keeps go.blocks) : b.Keeps (b.checked tests go).blocks := by
  rcases b.checked_cases tests go with ⟨_, _, e⟩ | ⟨t, e⟩ <;> rw [e]
  · exact .refl b
  · exact h t

theorem Blocks.keeps_andThen {b : Blocks} {a : Answer} {g : Blocks → Blocks} (h : b.Keeps a.blocks)
    (k : ∀ c : Blocks, c.Keeps (g c)) : b.Keeps (a.andThen g).blocks := by
  unfold Answer.andThen
  split
  · exact h.trans (k _)
  · exact h

/-- A command that writes the form and field records alone. -/
theorem Blocks.Keeps.of_records {b c : Blocks} (ok : b.recordsOk → c.recordsOk) (tickets : b.ticketsOk → c.ticketsOk)
    (head : c.head = b.head)
    (paper : c.paper = b.paper) (orders : c.orders = b.orders) (glyphs : c.glyphs = b.glyphs)
    (controller : c.controller = b.controller) : b.Keeps c where
  heat := Head.heatOk_of_eq (by rw [head])
  path h := paper ▸ h
  orders h := orders ▸ h
  records := ok
  glyphs h := h.of_same glyphs
  runs _ r := r.of_same controller orders
  tickets _ := tickets

/-! ## Forms and fields -/

/-- Every block but the Form Table and the Field Pool stands as it did. -/
def Blocks.SameButRecords (b c : Blocks) : Prop :=
  c.glyphs = b.glyphs ∧ c.composer = b.composer ∧ c.head = b.head ∧ c.paper = b.paper ∧ c.orders = b.orders ∧
    c.controller = b.controller ∧ c.attention = b.attention

theorem Blocks.SameButRecords.refl (b : Blocks) : b.SameButRecords b := ⟨rfl, rfl, rfl, rfl, rfl, rfl, rfl⟩

theorem Blocks.sameButRecords_checked {b : Blocks} {tests : List (Bool × Result)} {go : Answer}
    (h : b.SameButRecords go.blocks) : b.SameButRecords (b.checked tests go).blocks := by
  rcases b.checked_cases tests go with ⟨_, _, e⟩ | ⟨_, e⟩ <;> rw [e]
  · exact .refl b
  · exact h

theorem Blocks.SameButRecords.keeps {b c : Blocks} (h : b.SameButRecords c) (tickets : b.ticketsOk → c.ticketsOk)
    (ok : b.recordsOk → c.recordsOk) : b.Keeps c := .of_records ok tickets h.2.2.1 h.2.2.2.1 h.2.2.2.2.1 h.1 h.2.2.2.2.2.1

theorem Blocks.formDefine_frame (b : Blocks) (a : FormBytes) : b.SameButRecords (b.formDefine a).blocks := by
  unfold Blocks.formDefine
  split
  · exact .refl b
  · exact Blocks.sameButRecords_checked ⟨rfl, rfl, rfl, rfl, rfl, rfl, rfl⟩

theorem Blocks.formAmend_frame (b : Blocks) (a : FormBytes) : b.SameButRecords (b.formAmend a).blocks := by
  unfold Blocks.formAmend
  dsimp only
  split
  · exact .refl b
  · exact Blocks.sameButRecords_checked ⟨rfl, rfl, rfl, rfl, rfl, rfl, rfl⟩

theorem Blocks.formLock_frame (b : Blocks) (f l : Byte) : b.SameButRecords (b.formLock f l).blocks := by
  unfold Blocks.formLock
  dsimp only
  split
  · exact .refl b
  · exact Blocks.sameButRecords_checked ⟨rfl, rfl, rfl, rfl, rfl, rfl, rfl⟩

theorem Blocks.formRetire_frame (b : Blocks) (f : Byte) : b.SameButRecords (b.formRetire f).blocks :=
  Blocks.sameButRecords_checked ⟨rfl, rfl, rfl, rfl, rfl, rfl, rfl⟩

theorem Blocks.fieldDefine_frame (b : Blocks) (a : FieldBytes) : b.SameButRecords (b.fieldDefine a).blocks := by
  unfold Blocks.fieldDefine
  split
  · exact .refl b
  · exact Blocks.sameButRecords_checked ⟨rfl, rfl, rfl, rfl, rfl, rfl, rfl⟩

theorem Blocks.writeField_frame (b : Blocks) (f i : Nat) (r : FieldRecord) (x : FieldBody) :
    b.SameButRecords (b.writeField f i r x).blocks := ⟨rfl, rfl, rfl, rfl, rfl, rfl, rfl⟩

theorem Blocks.fieldSet_frame (b : Blocks) (f i m : Byte) (e : Half) (text : List Byte) :
    b.SameButRecords (b.fieldSet f i m e text).blocks := by
  unfold Blocks.fieldSet
  refine Blocks.sameButRecords_checked ?_
  split
  · exact .refl b
  · split
    · exact Blocks.sameButRecords_checked (Blocks.writeField_frame _ _ _ _ _)
    all_goals exact .refl b

theorem Blocks.counterSet_frame (b : Blocks) (f i m : Byte) (e : Half) (v : Bcd) :
    b.SameButRecords (b.counterSet f i m e v).blocks := by
  unfold Blocks.counterSet
  refine Blocks.sameButRecords_checked ?_
  split
  · exact .refl b
  · split
    · exact Blocks.sameButRecords_checked (Blocks.writeField_frame _ _ _ _ _)
    all_goals exact .refl b

theorem Blocks.fieldRetire_frame (b : Blocks) (f i : Byte) : b.SameButRecords (b.fieldRetire f i).blocks :=
  Blocks.sameButRecords_checked ⟨rfl, rfl, rfl, rfl, rfl, rfl, rfl⟩

/-! ## Form and field commands keep the forms that orders name -/

/-- A command that its tests refuse keeps the agreement of tickets, orders and forms. -/
theorem Blocks.ticketsOk.checked {b : Blocks} {tests : List (Bool × Result)} {go : Answer} (t : b.ticketsOk)
    (h : firstRefusal tests = none → go.blocks.ticketsOk) : (b.checked tests go).blocks.ticketsOk := by
  rcases b.checked_cases tests go with ⟨_, _, e⟩ | ⟨k, e⟩ <;> rw [e]
  · exact t
  · exact h k

theorem Blocks.formDefine_ticketsOk {b : Blocks} (t : b.ticketsOk) (a : FormBytes) : (b.formDefine a).blocks.ticketsOk := by
  unfold Blocks.formDefine
  split
  · exact t
  · refine t.checked fun k => t.setForm _ _ rfl rfl rfl fun o _ _ d => ?_
    have := firstRefusal_none.1 k _ (List.mem_cons_self ..)
    dsimp only at this
    rw [d] at this
    cases this

/-- The carried geometry and settings leave a form's marks (R15). -/
theorem FormRecord.written_marks {r q : FormRecord} {a : FormBytes} (h : r.written a = some q) :
    q.defined = r.defined ∧ q.inFlight = r.inFlight := by
  unfold FormRecord.written at h
  split at h
  · split at h
    · cases h
      exact ⟨rfl, rfl⟩
    · cases h
  · cases h

theorem Blocks.formAmend_ticketsOk {b : Blocks} (t : b.ticketsOk) (a : FormBytes) : (b.formAmend a).blocks.ticketsOk := by
  unfold Blocks.formAmend
  dsimp only
  split
  · exact t
  · rename_i r e
    obtain ⟨e1, e2⟩ := FormRecord.written_marks e
    exact t.checked fun _ => t.setForm _ _ rfl rfl rfl fun o _ _ d => ⟨e1.trans d, e2⟩

theorem Blocks.formLock_ticketsOk {b : Blocks} (t : b.ticketsOk) (f l : Byte) : (b.formLock f l).blocks.ticketsOk := by
  unfold Blocks.formLock
  dsimp only
  split
  · exact t
  · exact t.checked fun _ => t.setForm _ _ rfl rfl rfl fun o _ _ d => ⟨d, rfl⟩

theorem Blocks.formRetire_ticketsOk {b : Blocks} (t : b.ticketsOk) (f : Byte) : (b.formRetire f).blocks.ticketsOk := by
  refine t.checked fun k => t.setForm _ _ rfl rfl rfl fun o ho e _ => ?_
  have free := firstRefusal_none.1 k (b.retireInUse f.toNat, .inUse) (by simp)
  unfold Blocks.retireInUse at free
  simp only [Bool.or_eq_false_iff, List.any_eq_false, beq_iff_eq] at free
  exact absurd e (free.2 o ho)

theorem Blocks.fieldDefine_ticketsOk {b : Blocks} (t : b.ticketsOk) (a : FieldBytes) :
    (b.fieldDefine a).blocks.ticketsOk := by
  unfold Blocks.fieldDefine
  split
  · exact t
  · exact t.checked fun _ => t.setForm _ _ rfl rfl rfl fun o _ _ d => ⟨d, rfl⟩

theorem Blocks.writeField_ticketsOk {b : Blocks} (t : b.ticketsOk) (f i : Nat) (r : FieldRecord) (x : FieldBody) :
    (b.writeField f i r x).blocks.ticketsOk := t.of_same rfl rfl rfl

theorem Blocks.fieldSet_ticketsOk {b : Blocks} (t : b.ticketsOk) (f i m : Byte) (e : Half) (text : List Byte) :
    (b.fieldSet f i m e text).blocks.ticketsOk := by
  unfold Blocks.fieldSet
  refine t.checked fun _ => ?_
  split
  · exact t
  · split
    · exact t.checked fun _ => Blocks.writeField_ticketsOk t _ _ _ _
    all_goals exact t

theorem Blocks.counterSet_ticketsOk {b : Blocks} (t : b.ticketsOk) (f i m : Byte) (e : Half) (v : Bcd) :
    (b.counterSet f i m e v).blocks.ticketsOk := by
  unfold Blocks.counterSet
  refine t.checked fun _ => ?_
  split
  · exact t
  · split
    · exact t.checked fun _ => Blocks.writeField_ticketsOk t _ _ _ _
    all_goals exact t

theorem Blocks.fieldRetire_ticketsOk {b : Blocks} (t : b.ticketsOk) (f i : Byte) :
    (b.fieldRetire f i).blocks.ticketsOk :=
  t.checked fun _ => t.setForm _ _ rfl rfl rfl fun o _ _ d => ⟨d, rfl⟩

/-! ## Queries change nothing -/

theorem Blocks.checked_same {b : Blocks} {tests : List (Bool × Result)} {go : Answer} (h : go.blocks = b) :
    (b.checked tests go).blocks = b := by
  rcases b.checked_cases tests go with ⟨_, _, e⟩ | ⟨_, e⟩ <;> rw [e]
  · rfl
  · exact h

theorem Blocks.formQuery_same (b : Blocks) (f : Byte) : (b.formQuery f).blocks = b := Blocks.checked_same rfl

theorem Blocks.fieldQuery_same (b : Blocks) (f i : Byte) : (b.fieldQuery f i).blocks = b := by
  refine Blocks.checked_same ?_
  split <;> rfl

theorem Blocks.fieldList_same (b : Blocks) (f n : Byte) : (b.fieldList f n).blocks = b := Blocks.checked_same rfl

theorem Blocks.glyphQuery_same (b : Blocks) (g c : Byte) : (b.glyphQuery g c).blocks = b := Blocks.checked_same rfl

theorem Blocks.stockQuery_same (b : Blocks) (t : Byte) : (b.stockQuery t).blocks = b := by
  unfold Blocks.stockQuery
  split <;> rfl

theorem Blocks.orderQuery_same (b : Blocks) (t : Byte) : (b.orderQuery t).blocks = b := by
  unfold Blocks.orderQuery
  split
  · rfl
  · split <;> rfl

theorem Blocks.headQuery_same (b : Blocks) : b.headQuery.blocks = b := rfl

theorem Blocks.readIdentity_same (b : Blocks) : b.readIdentity.blocks = b := rfl

theorem Blocks.nullProbe_same (b : Blocks) : b.nullProbe.blocks = b := rfl

theorem Blocks.Keeps.of_eq {b c : Blocks} (h : c = b) : b.Keeps c := h ▸ .refl b

/-! ## Glyphs -/

theorem Blocks.keeps_glyphLoad (b : Blocks) (code : Byte) {columns : List Column} (h : columns.length = 10) :
    b.Keeps (b.glyphLoad code columns).blocks := by
  refine Blocks.keeps_checked fun t =>
    ⟨id, id, id, fun ok => ok.of_same rfl rfl, fun ok => ?_, fun _ r => r.of_same rfl rfl,
      fun _ t => t.of_same rfl rfl rfl⟩
  have low := firstRefusal_none.1 t _ (List.mem_cons_self ..)
  simp only [Bool.or_eq_false_iff, decide_eq_false_iff_not, Nat.not_lt] at low
  obtain ⟨len, cols, blank⟩ := ok
  refine ⟨?_, ?_, ?_⟩
  · show (b.glyphs.set _ _).length = _
    rw [List.length_set]
    exact len
  · intro g hg
    rcases List.mem_or_eq_of_mem_set hg with hg | rfl
    · exact cols g hg
    · exact h
  · show (b.glyphs.set _ _)[0]? = _
    rw [List.getElem?_set_ne (by omega)]
    exact blank

/-! ## Stocks -/

theorem Blocks.keeps_setStock_out {b : Blocks} (t : Tractor) (x : Stock) (old : ¬ (b.paper.stock t).state = .moving)
    (out : x.state.inPath = false) (apart : ∀ f, x.form = some f → ¬ (b.paper.stock t.other).form = some f) :
    b.Keeps (b.withPaper (b.paper.setStock t x)) :=
  Blocks.keeps_withPaper fun ok => Paper.pathOk_setStock_out ok t x old out apart

theorem Blocks.keeps_stockAssign (b : Blocks) (t f : Byte) : b.Keeps (b.stockAssign t f).blocks := by
  unfold Blocks.stockAssign
  split
  · exact .refl b
  · rename_i k _
    refine Blocks.keeps_checked fun h => ?_
    rw [firstRefusal_none] at h
    have sensed := h (!((b.paper.stock k).state == .sensed), .wrongState) (by simp)
    have free := h ((b.paper.stock k.other).form == some f.toNat, .inUse) (by simp)
    simp only [Bool.not_eq_false', beq_iff_eq] at sensed
    refine Blocks.keeps_setStock_out k _ (by rw [sensed]; simp) rfl fun g hg => ?_
    cases hg
    simpa using free

theorem Blocks.keeps_stockRelease (b : Blocks) (t : Byte) : b.Keeps (b.stockRelease t).blocks := by
  unfold Blocks.stockRelease
  split
  · exact .refl b
  · rename_i k _
    refine Blocks.keeps_checked fun h => ?_
    rw [firstRefusal_none] at h
    have still := h (!((b.paper.stock k).state == .parked || (b.paper.stock k).state == .lost), .wrongState) (by simp)
    simp only [Bool.not_eq_false', Bool.or_eq_true, beq_iff_eq] at still
    refine Blocks.keeps_setStock_out k _ ?_ ?_ fun g hg => by cases hg
    · rcases still with e | e <;> rw [e] <;> simp
    · dsimp only
      split <;> rfl

theorem Blocks.keeps_startHost {b : Blocks} {t : Tractor} {k : MotionKind} {n ph : Nat}
    (out : b.paper.pathOk → (b.paper.stock t.other).state.inPath = false) (clears : ph = 1 → k = .park) :
    b.Keeps (b.startHost t k n ph).blocks := (Blocks.keeps_beginMotion out clears).trans (Blocks.keeps_stopIdle _)

/-- Where one stock is in the path, the other is not. -/
theorem Paper.pathOk.other_out {p : Paper} (ok : p.pathOk) {t : Tractor} (h : (p.stock t).state.inPath = true) :
    (p.stock t.other).state.inPath = false := by
  rw [← Bool.not_eq_true]
  intro h2
  cases t
  · exact ok.1 ⟨h, h2⟩
  · exact ok.1 ⟨h2, h⟩

theorem Blocks.keeps_stockPark (b : Blocks) (t : Byte) : b.Keeps (b.stockPark t).blocks := by
  unfold Blocks.stockPark
  split
  · exact .refl b
  · rename_i k _
    refine Blocks.keeps_checked fun h => ?_
    rw [firstRefusal_none] at h
    have ready := h (!((b.paper.stock k).state == .parked || (b.paper.stock k).state == .atPrint ||
      (b.paper.stock k).state == .presented), .wrongState) (by simp)
    simp only [Bool.not_eq_false', Bool.or_eq_true, beq_iff_eq] at ready
    split
    · exact .refl b
    · rename_i np
      refine Blocks.keeps_startHost (fun ok => ok.other_out ?_) fun h => by cases h
      rcases ready with (e | e) | e
      · exact absurd e np
      · rw [e]; rfl
      · rw [e]; rfl

theorem Blocks.keeps_stockSelect (b : Blocks) (t : Byte) : b.Keeps (b.stockSelect t).blocks := by
  unfold Blocks.stockSelect
  split
  · exact .refl b
  · rename_i k _
    refine Blocks.keeps_checked fun h => ?_
    rw [firstRefusal_none] at h
    have still := h (!(b.controller.state == .idle) || b.paper.motion.isSome || b.head.carriage.activity == .homing, .busy)
      (by simp [Blocks.hostTests])
    have lost := h (!((b.paper.stock k).state == .parked || (b.paper.stock k).state == .atPrint) ||
      (b.paper.stock k.other).state == .lost, .wrongState) (by simp)
    simp only [Bool.or_eq_false_iff, Option.isSome_eq_false_iff, Option.isNone_iff_eq_none] at still
    simp only [Bool.or_eq_false_iff, beq_eq_false_iff_ne, ne_eq] at lost
    split
    · exact .refl b
    · split
      · rename_i e
        refine Blocks.keeps_startHost (fun ok => ok.other_out ?_) fun _ => rfl
        rcases e with e | e <;> rw [e] <;> rfl
      · rename_i ne
        refine Blocks.keeps_startHost (fun ok => ?_) fun h => by cases h
        cases e : (b.paper.stock k.other).state with
        | absent => rfl
        | sensed => rfl
        | parked => rfl
        | moving =>
          obtain ⟨m, hm, _⟩ := (ok.2.1 k.other).1 e
          rw [still.1.2] at hm
          cases hm
        | atPrint => exact absurd (Or.inl e) ne
        | presented => exact absurd (Or.inr e) ne
        | lost => exact absurd e lost.2

theorem Blocks.keeps_pathMotion (b : Blocks) (k : MotionKind) (n : Nat) : b.Keeps (b.pathMotion k n).blocks := by
  refine Blocks.keeps_checked fun _ => ?_
  split
  · exact .refl b
  · rename_i t _
    refine Blocks.keeps_checked fun h => ?_
    rw [firstRefusal_none] at h
    have ready := h (!b.paper.meetsNeed t k, .wrongState) (by simp)
    rw [Bool.not_eq_false'] at ready
    exact Blocks.keeps_startHost (fun ok => (Paper.meetsNeed_ready ok ready).2) fun h => by cases h

theorem Blocks.keeps_feed (b : Blocks) (n : Half) : b.Keeps (b.feed n).blocks := by
  refine Blocks.keeps_checked fun _ => ?_
  split <;> exact b.keeps_pathMotion _ _

/-! ## Orders -/

theorem Blocks.keeps_takeOrderIssue (b : Blocks) (t f n p : Byte) : b.Keeps (b.takeOrderIssue t f n p).blocks := by
  refine Blocks.keeps_andThen ?_ Blocks.keeps_settle
  unfold Blocks.orderIssue
  split
  · exact .refl b
  · refine Blocks.keeps_checked fun h => Blocks.keeps_withOrders (fun ok => ?_) OrderTable.admit_running fun ok tk =>
      tk.enter ok _ _ _ _ ?_
    swap
    · have named := firstRefusal_none.1 h (!(b.form f.toNat).defined, .noForm) (by simp)
      simpa using named
    rw [firstRefusal_none] at h
    have tag := h (t == 0 || badForm f || decide (n.toNat < 1) || decide (250 < n.toNat), .badValue) (by simp)
    have free := h ((b.orders.find t.toNat).isSome, .exists) (by simp)
    have room := h (decide (Config.orderSlots ≤ b.orders.records.length), .full) (by simp)
    simp only [badForm, Bool.or_eq_false_iff, beq_eq_false_iff_ne, ne_eq, decide_eq_false_iff_not] at tag
    simp only [Option.isSome_eq_false_iff, Option.isNone_iff_eq_none] at free
    simp only [decide_eq_false_iff_not, Nat.not_le] at room
    have : ¬ t.toNat = 0 := fun e => tag.1.1.1 (BitVec.eq_of_toNat_eq e)
    exact OrderTable.admit_ok ok _ free room (by omega) (by have := t.isLt; omega) (by omega) (by omega) (by omega)

/-- A command that finds a record by its tag and writes it, without moving it into RUNNING. -/
theorem Blocks.keeps_updateOrder {b : Blocks} {tag : Nat} {o : Order} (found : b.orders.find tag = some o)
    {g : Order → Order} (tags : ∀ x : Order, (g x).tag = x.tag)
    (numbers : ∀ x : Order, (g x).admission = x.admission) (legal : o.legal → (g o).legal)
    (run : (g o).state = .running → o.state = .running) (forms : ∀ x : Order, (g x).form = x.form)
    (counts : o.done ≤ o.requested → (g o).done ≤ (g o).requested)
    (current : b.currentOrder = some o → o.state = .running → (g o).state = .running ∧
      ((b.form o.form).inFlight = true → o.done < o.requested → (g o).done < (g o).requested)) :
    b.Keeps (b.withOrders (b.orders.update tag g)) := by
  obtain ⟨ho, e⟩ := OrderTable.find_mem found
  refine ⟨id, id, fun ok => ?_, fun r => r.of_same rfl rfl, id, fun ok r => r.of_orders rfl ?_, fun ok t =>
    t.update tags forms (fun x hx ex => ?_) fun x hx ex => ?_⟩
  rotate_left 2
  · rw [ok.unique ho hx (ex.trans e.symm)]
    exact counts
  · have := ok.unique ho (Blocks.currentOrder_mem hx) (ex.trans e.symm)
    subst this
    exact current hx
  · refine OrderTable.update_ok ok _ _ fun x hx ex l => ⟨tags x, numbers x, ?_⟩
    have := ok.unique ho hx (ex.trans e.symm)
    subst this
    exact legal l
  · refine OrderTable.update_running tags fun x hx ex => ?_
    have := ok.unique ho hx (ex.trans e.symm)
    subst this
    exact run

theorem Blocks.keeps_takeOrderAmend (b : Blocks) (t n : Byte) : b.Keeps (b.takeOrderAmend t n).blocks := by
  refine Blocks.keeps_andThen (Blocks.keeps_checked fun h => ?_) Blocks.keeps_settle
  split
  · exact .refl b
  · rename_i o found
    rw [firstRefusal_none] at h
    have range := h (t == 0 || decide (n.toNat < 1) || decide (250 < n.toNat), .badValue) (by simp)
    simp only [Bool.or_eq_false_iff, decide_eq_false_iff_not] at range
    refine Blocks.keeps_checked fun h2 => Blocks.keeps_updateOrder found (fun x => x.amended_tag _)
      (fun x => x.amended_admission _) (fun l => ?_) (o.amended_state _) (fun x => (x.amended_counts _).2.2) (fun _ => ?_)
      fun _ run => ?_
    · exact Order.amended_legal l (by omega) (by omega)
    all_goals
      have floor := firstRefusal_none.1 h2 (decide (n.toNat < b.amendFloor o), .badValue) (by simp)
      simp only [decide_eq_false_iff_not, Nat.not_lt] at floor
      unfold Blocks.amendFloor at floor
    · rw [(o.amended_counts _).1, (o.amended_counts _).2.1]
      split at floor <;> omega
    · refine ⟨?_, fun flight lt => ?_⟩
      · unfold Order.amended
        rw [run]
      · rw [(o.amended_counts _).1, (o.amended_counts _).2.1]
        have : b.ticketOf o = true := by
          unfold Blocks.ticketOf
          rw [run, flight]
          rfl
        rw [if_pos this] at floor
        omega

theorem Blocks.keeps_orderHold (b : Blocks) (t : Byte) : b.Keeps (b.orderHold t).blocks := by
  refine Blocks.keeps_checked fun _ => ?_
  split
  · exact .refl b
  · rename_i o found
    refine Blocks.keeps_checked fun h => ?_
    rw [firstRefusal_none] at h
    have queued := h (!(o.state == .queued), .wrongState) (by simp)
    simp only [Bool.not_eq_false', beq_iff_eq] at queued
    refine Blocks.keeps_updateOrder found (fun _ => rfl) (fun _ => rfl) (fun l => ?_) (fun e => by cases e) (fun _ => rfl) id
      fun _ run => by rw [queued] at run; cases run
    refine ⟨l.tag, l.form, l.requested, l.voided, ?_, fun c => ?_⟩
    · have := l.halt
      rw [queued] at this
      simpa using this
    · have := l.cancel c
      rw [queued] at this
      cases this

theorem Blocks.keeps_takeOrderResume (b : Blocks) (t : Byte) : b.Keeps (b.takeOrderResume t).blocks := by
  refine Blocks.keeps_andThen (Blocks.keeps_checked fun _ => ?_) Blocks.keeps_settle
  split
  · exact .refl b
  · rename_i o found
    refine Blocks.keeps_checked fun h => ?_
    rw [firstRefusal_none] at h
    have waits := h (!(o.state == .held || o.state == .halted), .wrongState) (by simp)
    simp only [Bool.not_eq_false', Bool.or_eq_true, beq_iff_eq] at waits
    refine Blocks.keeps_updateOrder found (fun _ => rfl) (fun _ => rfl) (fun l => ?_) (fun e => by cases e) (fun _ => rfl) id
      fun _ run => by rcases waits with w | w <;> rw [w] at run <;> cases run
    refine ⟨l.tag, l.form, l.requested, l.voided, by simp, fun c => ?_⟩
    have := l.cancel c
    rcases waits with w | w <;> rw [w] at this <;> cases this

theorem Blocks.keeps_takeOrderCancel (b : Blocks) (t : Byte) : b.Keeps (b.takeOrderCancel t).blocks := by
  refine Blocks.keeps_andThen (Blocks.keeps_checked fun _ => ?_) fun c => ?_
  · split
    · exact .refl b
    · rename_i o found
      exact Blocks.keeps_checked fun _ => Blocks.keeps_updateOrder found Order.cancelled_tag
        Order.cancelled_admission (fun l => Order.cancelled_legal l) o.cancelled_state
        (fun x => x.cancelled_counts.2.2) (fun h => by rw [o.cancelled_counts.1, o.cancelled_counts.2.1]; exact h)
        fun _ run => ⟨by unfold Order.cancelled; rw [run],
          fun _ h => by rw [o.cancelled_counts.1, o.cancelled_counts.2.1]; exact h⟩
  · exact .trans (.ite (fun _ => c.keeps_cancelNotice) fun _ => .refl c) (Blocks.keeps_settle _)

theorem Blocks.keeps_orderRelease (b : Blocks) (t : Byte) : b.Keeps (b.orderRelease t).blocks := by
  refine Blocks.keeps_checked fun _ => ?_
  split
  · exact .refl b
  · rename_i o found
    refine Blocks.keeps_checked fun h => Blocks.keeps_withOrders (fun ok => OrderTable.filter_ok ok _)
      (fun r hr hs => ⟨r, (List.mem_filter.1 hr).1, hs, rfl⟩) fun ok tk => ?_
    refine tk.of_records rfl (fun r hr => tk.counts r (List.mem_filter.1 hr).1)
      (fun r hr => tk.named r (List.mem_filter.1 hr).1) fun x hx run => ⟨x, ?_, run, fun w => w⟩
    refine (OrderTable.filter_ok ok _).find_of_mem (List.mem_filter.2 ⟨Blocks.currentOrder_mem hx, ?_⟩)
    have closed := firstRefusal_none.1 h (!o.state.closed, .wrongState) (by simp)
    obtain ⟨ho, e⟩ := OrderTable.find_mem found
    have ne : ¬ x.tag = t.toNat := by
      intro c
      rw [ok.unique ho (Blocks.currentOrder_mem hx) (c.trans e.symm)] at run
      rw [run] at closed
      cases closed
    simpa using ne

/-! ## Attention and control -/

/-- Setting a reported mark (R121). -/
theorem Blocks.keeps_report (b : Blocks) (tag : Nat) :
    b.Keeps (b.withOrders (b.orders.update tag fun x => { x with reported := true })) :=
  Blocks.keeps_withOrders
    (fun ok => OrderTable.update_ok ok _ _ fun _ _ _ l =>
      ⟨rfl, rfl, ⟨l.tag, l.form, l.requested, l.voided, l.halt, l.cancel⟩⟩)
    (OrderTable.update_running (fun _ => rfl) fun _ _ _ h => h)
    fun _ t => t.update (fun _ => rfl) (fun _ => rfl) (fun _ _ _ h => h) fun _ _ _ run => ⟨run, fun _ h => h⟩

theorem Blocks.keeps_clearCause (b : Blocks) (c : Cause) : b.Keeps (b.clearCause c) := by
  unfold Blocks.clearCause
  split
  · exact .refl b
  · split
    · exact b.keeps_report _
    · exact .refl b
  · exact b.keeps_withAttention _
  · split
    · exact b.keeps_report _
    · exact .refl b
  · exact b.keeps_withAttention _

theorem Blocks.keeps_readAttention (b : Blocks) : b.Keeps b.readAttention.blocks := by
  unfold Blocks.readAttention
  split
  · exact .refl b
  · exact b.keeps_clearCause _

theorem Blocks.keeps_configure (b : Blocks) (t d i s a : Byte) : b.Keeps (b.configure t d i s a).blocks := by
  refine Blocks.keeps_checked fun _ => ?_
  refine .trans ?_ (Blocks.keeps_withAttention _ _)
  refine .trans (b := b.withHead _) ?_ (Blocks.keeps_withPaper fun ok => Paper.pathOk_of_same ok rfl rfl rfl)
  refine Blocks.keeps_withHead fun ok => ?_
  split
  · exact ok
  · exact ok

theorem Blocks.keeps_clearFault (b : Blocks) : b.Keeps b.clearFault.blocks :=
  Blocks.keeps_checked fun _ => (b.keeps_requestHome _).trans (Blocks.keeps_settle _)

/-! ## Every command, as the dispatcher takes it -/

theorem columnsOf_length (p : List Byte) : (columnsOf p).length = 10 := by
  unfold columnsOf
  rw [List.length_map, List.length_range]

theorem Blocks.keeps_take (b : Blocks) (c : Command) (p : List Byte) : b.Keeps (b.take c p).blocks := by
  cases c
  · exact .refl b
  · exact .refl b
  · exact b.keeps_readAttention
  · exact b.keeps_configure _ _ _ _ _
  · exact .refl b
  · exact b.keeps_clearFault
  · exact (b.formDefine_frame _).keeps (fun t => Blocks.formDefine_ticketsOk t _) fun ok => Blocks.formDefine_recordsOk ok _
  · exact (b.formAmend_frame _).keeps (fun t => Blocks.formAmend_ticketsOk t _) fun ok => Blocks.formAmend_recordsOk ok _
  · exact .of_eq (b.formQuery_same _)
  · exact (b.formLock_frame _ _).keeps (fun t => Blocks.formLock_ticketsOk t _ _) fun ok => Blocks.formLock_recordsOk ok _ _
  · exact (b.formRetire_frame _).keeps (fun t => Blocks.formRetire_ticketsOk t _) fun ok => Blocks.formRetire_recordsOk ok _
  · exact (b.fieldDefine_frame _).keeps (fun t => Blocks.fieldDefine_ticketsOk t _) fun ok => Blocks.fieldDefine_recordsOk ok _
  · exact (b.fieldSet_frame _ _ _ _ _).keeps (fun t => Blocks.fieldSet_ticketsOk t _ _ _ _ _) fun ok => Blocks.fieldSet_recordsOk ok _ _ _ _ _
  · exact (b.counterSet_frame _ _ _ _ _).keeps (fun t => Blocks.counterSet_ticketsOk t _ _ _ _ _) fun ok => Blocks.counterSet_recordsOk ok _ _ _ _ _
  · exact .of_eq (b.fieldQuery_same _ _)
  · exact .of_eq (b.fieldList_same _ _)
  · exact (b.fieldRetire_frame _ _).keeps (fun t => Blocks.fieldRetire_ticketsOk t _ _) fun ok => Blocks.fieldRetire_recordsOk ok _ _
  · exact b.keeps_glyphLoad _ (columnsOf_length p)
  · exact .of_eq (b.glyphQuery_same _ _)
  · exact b.keeps_stockAssign _ _
  · exact b.keeps_stockRelease _
  · exact b.keeps_stockPark _
  · exact b.keeps_stockSelect _
  · exact .of_eq (b.stockQuery_same _)
  · exact b.keeps_feed _
  · exact b.keeps_pathMotion _ _
  · exact b.keeps_pathMotion _ _
  · exact .refl b
  · exact b.keeps_takeOrderIssue _ _ _ _
  · exact b.keeps_takeOrderAmend _ _
  · exact b.keeps_orderHold _
  · exact b.keeps_takeOrderResume _
  · exact b.keeps_takeOrderCancel _
  · exact .of_eq (b.orderQuery_same _)
  · exact b.keeps_orderRelease _

/-! ## Events -/

theorem Blocks.keeps_putInput (b : Blocks) (i : Inputs) : b.Keeps (b.withPaper { b.paper with inputs := i }) :=
  Blocks.keeps_withPaper fun ok => Paper.pathOk_of_same ok rfl rfl rfl

theorem Blocks.keeps_debounceStart (b : Blocks) (k : Input) (l : Bool) : b.Keeps (b.debounceStart k l) :=
  b.keeps_putInput _

theorem Blocks.keeps_paperChange (b : Blocks) (t : Tractor) (p : Bool) : b.Keeps (b.paperChange t p) := by
  unfold Blocks.paperChange
  refine .ite (fun _ => b.keeps_paperAppears t) fun _ => .ite (fun _ => ?_) fun _ => b.keeps_paperGoes t
  exact (b.keeps_paperGoes t).trans (Blocks.keeps_paperEndNotice _ _)

theorem Blocks.keeps_deliverChange (b : Blocks) (k : Input) (l : Bool) : b.Keeps (b.deliverChange k l) := by
  unfold Blocks.deliverChange
  split
  · exact b.keeps_paperChange _ _
  · exact b.keeps_paperChange _ _
  · exact .ite (fun _ => b.keeps_coverOpens) fun _ => b.keeps_coverCloses
  · exact .refl b
  · exact .ite (fun _ => b.keeps_tearPressed) fun _ => .refl b

theorem Blocks.keeps_debounceExpiry (b : Blocks) (k : Input) : b.Keeps (b.debounceExpiry k) := by
  unfold Blocks.debounceExpiry
  dsimp only
  split
  · exact .refl b
  · exact ((b.keeps_putInput _).trans (Blocks.keeps_deliverChange _ _ _)).trans (Blocks.keeps_settle _)

theorem Blocks.keeps_cfbPulse (b : Blocks) : b.Keeps (b.withHead b.head.pulse) :=
  Blocks.keeps_withHead (Head.heatOk_of_eq (Head.pulse_heat _))

theorem Paper.pulse_pathOk {p : Paper} (ok : p.pathOk) : p.pulse.pathOk := by
  unfold Paper.pulse
  split
  · rename_i m hm
    split
    · exact Paper.pulse_pathOk_aux hm ok _ rfl (ok.2.2.1 m hm)
    · exact ok
  · exact ok

theorem Blocks.keeps_pmsPulse (b : Blocks) : b.Keeps (b.withPaper b.paper.pulse) :=
  Blocks.keeps_withPaper Paper.pulse_pathOk

theorem Blocks.keeps_refillTick (b : Blocks) : b.Keeps b.refillTick := by
  refine .trans (.trans ?_ (Blocks.keeps_headAnswered _)) (Blocks.keeps_settle _)
  exact Blocks.keeps_withHead fun ok => Head.heatOk_of_eq (h := b.head.tick b.composer.image) rfl (Head.tick_heatOk ok)

theorem Blocks.keeps_idleExpiry (b : Blocks) : b.Keeps b.idleExpiry := by
  unfold Blocks.idleExpiry
  split
  · refine .trans (.trans (b := b.withHead b.head.release) ?_ ?_) (Blocks.keeps_withAttention _ _)
    · exact Blocks.keeps_withHead (Head.heatOk_of_eq rfl)
    · exact Blocks.keeps_withPaper fun ok => Paper.pathOk_of_same ok rfl rfl rfl
  all_goals exact .refl b

theorem Blocks.keeps_carriageStep (b : Blocks) : b.Keeps b.carriageStep := Blocks.keeps_withHead Head.step_heatOk

theorem Blocks.keeps_stall (b : Blocks) : b.Keeps b.stall := by
  unfold Blocks.stall
  split
  · rename_i h e
    refine .trans (.trans (b := b.withHead h.lose) ?_ (Blocks.keeps_fault _ _ _ _)) (Blocks.keeps_settle _)
    exact Blocks.keeps_withHead fun ok => Head.heatOk_of_eq (Head.lose_heat h) (Head.stalling_heatOk e ok)
  · exact .refl b

theorem Blocks.keeps_homeLost (b : Blocks) : b.Keeps b.homeLost := by
  unfold Blocks.homeLost
  split
  · rename_i h e
    refine .trans (.trans (b := b.withHead h) ?_ (Blocks.keeps_fault _ _ _ _)) (Blocks.keeps_settle _)
    exact Blocks.keeps_withHead (Head.heatOk_of_eq (Head.homingLost_heat e))
  · exact .refl b

theorem Blocks.keeps_homingComplete (b : Blocks) : b.Keeps b.homingComplete := by
  unfold Blocks.homingComplete
  split
  · rename_i h e
    refine .trans (.trans (.trans (b := b.withHead h) ?_ (Blocks.keeps_homed _ _)) (Blocks.keeps_headAnswered _))
      (Blocks.keeps_settle _)
    exact Blocks.keeps_withHead (Head.heatOk_of_eq (Head.homingDone_heat e))
  · exact .refl b

theorem Blocks.keeps_approachComplete (b : Blocks) : b.Keeps b.approachComplete := by
  unfold Blocks.approachComplete
  split
  · rename_i h e
    refine .trans (.trans (b := b.withHead h) ?_ (Blocks.keeps_headAnswered _)) (Blocks.keeps_settle _)
    exact Blocks.keeps_withHead (Head.heatOk_of_eq (Head.approachDone_heat e))
  · exact .refl b

theorem Blocks.keeps_segmentComplete (b : Blocks) : b.Keeps b.segmentComplete := by
  unfold Blocks.segmentComplete
  split
  · rename_i h x y e
    refine .trans (.trans (.trans (b := b.withHead h) ?_ (Blocks.keeps_takeSegment _ _ _)) (Blocks.keeps_headAnswered _))
      (Blocks.keeps_settle _)
    exact Blocks.keeps_withHead (Head.segmentDone_heatOk e)
  · exact .refl b

theorem Blocks.keeps_feedStep (b : Blocks) : b.Keeps b.feedStep := Blocks.keeps_withPaper Paper.step_pathOk

theorem Blocks.keeps_jam (b : Blocks) : b.Keeps b.jam := by
  unfold Blocks.jam
  split
  · rename_i p _ e
    refine .trans (.trans (b := b.withPaper p.lose) ?_ (Blocks.keeps_fault _ _ _ _)) (Blocks.keeps_settle _)
    exact Blocks.keeps_withPaper fun ok => Paper.lose_pathOk (Paper.jamming_pathOk e ok)
  · exact .refl b

theorem Blocks.keeps_answerMotion {b : Blocks} {m : Motion} (h : b.paper.motion = some m) (own ejected : Bool) :
    b.Keeps ((b.landMotion m).answerMotion m own ejected) := by
  unfold Blocks.answerMotion
  split
  · refine (Blocks.keeps_landMotion h).trans (.ite (fun _ => Blocks.keeps_ownEjected _) fun _ => Blocks.keeps_motionDone _)
  all_goals exact (Blocks.keeps_afterHostMotion h).trans (Blocks.keeps_hostMotionOver _)

theorem Blocks.keeps_motionComplete (b : Blocks) : b.Keeps b.motionComplete := by
  unfold Blocks.motionComplete
  split
  · exact .refl b
  · rename_i m h
    exact .ite (fun _ => (Blocks.keeps_answerMotion h _ _).trans (Blocks.keeps_settle _)) fun _ => .refl b

end Sys2Proof.Machine
end

