-- ==== Sys2Proof/Laws/Link.lean ====
section
/-! SUPPORT. The station link: each operation keeps the bounds of the link and, through the dispatcher, the invariants of
the blocks. -/

set_option Elab.async false

namespace Sys2Proof.Machine

/-! ## A command that is answered -/

theorem code_softReset (c : Command) : ((c == .softReset) = true) ↔ c.code = Command.softReset.code := by
  cases c <;> decide

/-- An addressed command, taken while the part is ready, is answered with what the owning block answers. -/
theorem State.Ready.answered {s : State} (h : s.Ready) (c : Command) (act : Blocks → Answer) :
    s.Answered (s.deliver .addressed c act) c (act s.blocks).result (act s.blocks).payload (act s.blocks).blocks := by
  have f : s.finishReply = s := by
    unfold State.finishReply
    rw [h.2]
  unfold State.deliver
  rw [h.1, f]
  exact ⟨⟨rfl, rfl, rfl, rfl, rfl, rfl, rfl, code_softReset c, rfl, rfl⟩, rfl⟩

/-- An answer that is known. -/
theorem State.Ready.answers {s : State} (h : s.Ready) {c : Command} {act : Blocks → Answer} {a : Answer}
    (e : act s.blocks = a) : s.Answered (s.deliver .addressed c act) c a.result a.payload a.blocks := e ▸ h.answered c act

/-- The tests of a command, with their results, are those a statement names. -/
theorem State.Ready.tested {s : State} (h : s.Ready) {c : Command} {act : Blocks → Answer}
    {tests : List (Bool × Result)} {go : Answer} (e : act s.blocks = s.blocks.checked tests go)
    {named : List (Prop × Result)} (same : List.Forall₂ (fun x p => (x.1 = true ↔ p.1) ∧ x.2 = p.2) tests named)
    {accepted : Prop} (ok : (∀ x ∈ tests, x.1 = false) → act s.blocks = go → accepted) :
    s.Tested (s.deliver .addressed c act) c named accepted := by
  induction same with
  | nil => exact ok (fun x hx => by cases hx) e
  | @cons x p rest ps hxp _ ih =>
    obtain ⟨b, r⟩ := x
    obtain ⟨q, r'⟩ := p
    obtain ⟨hb, hr⟩ := hxp
    subst hr
    refine ⟨fun hq => ?_, fun hq => ih ?_ fun hall hgo => ok (fun y hy => ?_) hgo⟩
    · have hb : b = true := hb.2 hq
      have : act s.blocks = s.blocks.refuse r := by
        rw [e]
        unfold Blocks.checked firstRefusal
        rw [hb]
        rfl
      exact h.answers this
    · have hb : b = false := by
        cases b
        · rfl
        · exact absurd (hb.1 rfl) hq
      rw [e]
      unfold Blocks.checked
      rw [firstRefusal, hb]
      rfl
    · rcases List.mem_cons.1 hy with rfl | hy
      · show b = false
        cases b
        · rfl
        · exact absurd (hb.1 rfl) hq
      · exact hall y hy

/-- A row of the mechanism, taken while RESET is not held, acts on the blocks alone. -/
theorem State.onBlocks_became {s : State} (h : s.held = false) (f : Blocks → Blocks) :
    s.Became (s.onBlocks f) (f s.blocks) := by
  unfold State.onBlocks State.unlessHeld
  rw [h]
  exact ⟨rfl, rfl, h.symm ▸ rfl, rfl⟩

/-- Where the controller is neither IDLE nor PAUSED, nothing follows but the stop of the idle timer. -/
theorem Blocks.atWork.settle {b : Blocks} (h : b.atWork) : b.settle = b.stopIdle := by
  obtain ⟨hi, hp⟩ := h
  have c : b.takeClosedCover = b := by
    unfold Blocks.takeClosedCover
    simp [hp]
  have m : b.mayStart = false := by
    unfold Blocks.mayStart
    simp [hi]
  have o : Blocks.startOrders (b.orders.records.length + 1) b = b := by
    unfold Blocks.startOrders
    simp [m]
  have r : b.atRest = false := by
    unfold Blocks.atRest
    simp [hi]
  unfold Blocks.settle
  simp only [c]
  rw [o]
  unfold Blocks.settleIdle
  simp [r]

/-- Where no closed cover waits in PAUSED and no order can start, settling brings the idle timer in line alone. -/
theorem Blocks.settle_calm {b : Blocks} (cover : b.controller.state = .paused → b.coverOpen = true)
    (start : b.mayStart = true → b.orders.nextQueued = none) : b.settle = b.settleIdle := by
  have c : b.takeClosedCover = b := by
    unfold Blocks.takeClosedCover
    by_cases h : b.controller.state = .paused
    · simp [cover h]
    · simp [h]
  unfold Blocks.settle
  simp only [c]
  unfold Blocks.startOrders
  split
  · rename_i m
    rw [start m]
  · rfl

/-! ## The blocks behind the link -/

theorem State.keeps_finishReply (s : State) : s.blocks.Keeps s.finishReply.blocks := by
  unfold State.finishReply
  split
  · exact .refl _
  · exact .ite (fun _ => s.blocks.keeps_softReset) fun _ => .refl _

theorem State.keeps_carry {s : State} {a : Answer} (r : Route) (c : Command) (h : s.blocks.Keeps a.blocks) :
    s.blocks.Keeps (s.carry r c a).blocks := by
  unfold State.carry
  split
  · exact h
  · split
    · exact .refl _
    · exact .ite (fun _ => h.trans (Blocks.keeps_softReset _)) fun _ => h

theorem State.keeps_deliver (s : State) (r : Route) (c : Command) {act : Blocks → Answer}
    (h : ∀ b : Blocks, b.Keeps (act b).blocks) : s.blocks.Keeps (s.deliver r c act).blocks := by
  unfold State.deliver
  split
  · exact .refl _
  · exact s.keeps_finishReply.trans (State.keeps_carry _ _ (h _))

theorem State.keeps_turnAway (s : State) (r : Route) (x : Byte) (w : Result) :
    s.blocks.Keeps (s.turnAway r x w).blocks := by
  unfold State.turnAway
  split <;> exact .refl _

theorem State.keeps_dispatch (s : State) (r : Route) (x : Byte) (p : List Byte) :
    s.blocks.Keeps (s.dispatch r x p).blocks := by
  unfold State.dispatch
  split
  · exact s.keeps_turnAway _ _ _
  · split
    · exact State.keeps_carry _ _ (s.blocks.keeps_take _ _)
    · exact s.keeps_turnAway _ _ _

theorem State.keeps_latchLink (s : State) (e : LinkTrouble) : s.blocks.Keeps (s.latchLink e).blocks :=
  s.blocks.keeps_withAttention _

theorem State.keeps_frameDone (s : State) (p : Parser) (x y : Byte) : s.blocks.Keeps (s.frameDone p x y).blocks := by
  unfold State.frameDone
  dsimp only
  split
  · split
    · exact State.keeps_dispatch (s.withParser Parser.hunting) _ _ _
    · exact .refl _
  · exact State.keeps_latchLink (s.withParser Parser.hunting) _

theorem State.keeps_takeByte (s : State) (x : Byte) : s.blocks.Keeps (s.takeByte x).blocks := by
  unfold State.takeByte
  dsimp only
  split
  · split <;> exact .refl _
  · split
    · exact .refl _
    · exact .refl _
    · split
      · exact State.keeps_latchLink (s.withParser Parser.hunting) _
      · exact .refl _
  · exact .refl _
  · split
    · exact .refl _
    · exact s.keeps_frameDone _ _ _
  · exact .refl _

theorem State.keeps_truncateFrame (s : State) : s.blocks.Keeps s.truncateFrame.blocks :=
  State.keeps_latchLink (s.withParser Parser.hunting) _

theorem State.keeps_parserDraw (s : State) : s.blocks.Keeps s.parserDraw.blocks := by
  unfold State.parserDraw
  split
  · exact .refl _
  · rename_i e rest _
    split
    · exact .refl _
    · dsimp only
      split
      · exact (State.keeps_truncateFrame (s.withLink (s.link.drawn rest))).trans (State.keeps_takeByte _ _)
      · exact State.keeps_takeByte (s.withLink (s.link.drawn rest)) _

theorem State.keeps_receive (s : State) (x : Byte) : s.blocks.Keeps (s.receive x).blocks := by
  unfold State.receive
  dsimp only
  split
  · exact .refl _
  · split
    · exact State.keeps_latchLink (s.withLink _) _
    · exact .refl _

theorem State.keeps_takeLongIdle (s : State) : s.blocks.Keeps s.takeLongIdle.blocks := by
  unfold State.takeLongIdle
  split
  · exact .refl _
  · dsimp only
    split
    · exact State.keeps_truncateFrame (s.withLink _)
    · exact .refl _

theorem State.keeps_holdReset (s : State) : s.blocks.Keeps s.holdReset.blocks := by
  refine .trans (b := s.blocks.withHead s.blocks.head.stop.release) ?_ ?_
  · exact Blocks.keeps_withHead (Head.heatOk_of_eq (by simp))
  · exact Blocks.keeps_withPaper fun ok => Paper.pathOk_of_same (Paper.lose_pathOk ok) rfl rfl rfl

theorem State.keeps_unlessHeld (s : State) {f : State → State} (h : s.blocks.Keeps (f s).blocks) :
    s.blocks.Keeps (s.unlessHeld f).blocks := by
  unfold State.unlessHeld
  split
  · exact .refl _
  · exact h

theorem State.keeps_onBlocks (s : State) {f : Blocks → Blocks} (h : s.blocks.Keeps (f s.blocks)) :
    s.blocks.Keeps (s.onBlocks f).blocks := s.keeps_unlessHeld h

/-! ## Hard reset makes every invariant hold -/

theorem Head.hardReset_heatOk : Head.hardReset.heatOk := by
  refine ⟨rfl, fun x hx => ?_⟩
  have : x = Config.heatFull := List.eq_of_mem_replicate hx
  omega

theorem Stock.sampled_state (p : Bool) : ¬ (Stock.sampled p).state = .moving ∧ (Stock.sampled p).state.inPath = false := by
  cases p <;> simp [Stock.sampled, StockState.inPath]

theorem Paper.hardReset_pathOk (l : Levels) : (Paper.hardReset l).pathOk := by
  refine ⟨?_, fun t => ?_, ?_, ?_⟩
  · rintro ⟨h, _⟩
    exact Bool.noConfusion ((Stock.sampled_state l.psa).2.symm.trans h)
  · constructor
    · intro h
      cases t
      · exact absurd h (Stock.sampled_state l.psa).1
      · exact absurd h (Stock.sampled_state l.psb).1
    · rintro ⟨_, h, _⟩
      cases h
  · intro m h
    cases h
  · rintro f ⟨h, _⟩
    cases h

theorem Blocks.hardReset_recordsOk (p : Straps) (l : Levels) : (Blocks.hardReset p l).recordsOk where
  forms := List.length_replicate
  pool := Nat.zero_le _
  perForm f := Nat.zero_le _
  keys := List.Pairwise.nil
  apart := List.Pairwise.nil
  order := List.Pairwise.nil
  placed r hr := by cases hr
  lines r hr := by cases hr
  defined r hr := by cases hr
  staged r hr := by cases hr
  counts f h := by
    show ((List.replicate 8 FormRecord.empty).getD f FormRecord.empty).fieldCount = 0
    rw [List.getD_eq_getElem?_getD, List.getElem?_replicate]
    split <;> rfl

theorem Blocks.hardReset_glyphsOk (p : Straps) (l : Levels) : (Blocks.hardReset p l).glyphsOk := by
  refine ⟨List.length_replicate, fun g hg => ?_, rfl⟩
  rw [List.eq_of_mem_replicate hg]
  rfl

theorem Blocks.hardReset_runsOne (p : Straps) (l : Levels) : (Blocks.hardReset p l).runsOne where
  atRest _ := rfl
  paused h := by cases h
  only r hr := by cases hr

theorem Blocks.hardReset_ticketsOk (p : Straps) (l : Levels) : (Blocks.hardReset p l).ticketsOk :=
  Blocks.ticketsOk.rested (b := Blocks.hardReset p l) (d := Controller.hardReset) rfl rfl (fun r hr => by cases hr)
    fun r hr => by cases hr

theorem State.keeps_startUp (s : State) (p : Straps) (l : Levels) : s.blocks.Keeps (s.startUp p l).blocks := by
  have k : (Blocks.hardReset p l).Keeps (s.startUp p l).blocks :=
    (Blocks.keeps_requestHome _ _).trans (Blocks.keeps_settle _)
  exact ⟨fun _ => k.heat Head.hardReset_heatOk, fun _ => k.path (Paper.hardReset_pathOk l),
    fun _ => k.orders OrderTable.empty_ok, fun _ => k.records (Blocks.hardReset_recordsOk p l),
    fun _ => k.glyphs (Blocks.hardReset_glyphsOk p l),
    fun _ _ => k.runs OrderTable.empty_ok (Blocks.hardReset_runsOne p l),
    fun _ _ => k.tickets OrderTable.empty_ok (Blocks.hardReset_ticketsOk p l)⟩

/-! ## The bounds of the link -/

theorem Parser.waiting_state (p : Parser) : p.waiting.state = .hunt ∨ p.waiting.state = .discard := by
  unfold Parser.waiting
  split
  · exact Or.inr ‹_›
  · exact Or.inl rfl

theorem Link.hardReset_ok : Link.hardReset.ok where
  size := by decide
  asserted := by decide
  released := by decide
  parser := by decide
  sending := by decide
  due := by decide

/-- Where the FIFO and HOLD are as they were and the rest agrees, the link is as sound as it was. -/
theorem Link.ok.parsing {l k : Link} (ok : l.ok) (fifo : k.fifo = l.fifo) (hold : k.hold = l.hold)
    (parser : k.paused = true → k.parser.state = .hunt ∨ k.parser.state = .discard)
    (sending : k.reply.isSome = true → k.paused = true) (due : k.resetDue = true → k.reply.isSome = true) : k.ok where
  size := fifo ▸ ok.size
  asserted := by rw [fifo, hold]; exact ok.asserted
  released := by rw [fifo, hold]; exact ok.released
  parser := parser
  sending := sending
  due := due

theorem State.reply_linkOk {s : State} (ok : s.link.ok) (x : Byte) (a : Answer) (d : Bool) : (s.reply x a d).link.ok :=
  ok.parsing rfl rfl (fun _ => s.link.parser.waiting_state) (fun _ => rfl) fun _ => rfl

theorem State.finishReply_linkOk {s : State} (ok : s.link.ok) : s.finishReply.link.ok := by
  unfold State.finishReply
  split
  · exact ok
  · exact ok.parsing rfl rfl (fun h => Bool.noConfusion h) (fun h => Bool.noConfusion h) fun h => Bool.noConfusion h

theorem State.carry_linkOk {s : State} (ok : s.link.ok) (r : Route) (c : Command) (a : Answer) :
    (s.carry r c a).link.ok := by
  unfold State.carry
  split
  · exact State.reply_linkOk ok _ _ _
  · split <;> exact ok

theorem State.deliver_linkOk {s : State} (ok : s.link.ok) (r : Route) (c : Command) (act : Blocks → Answer) :
    (s.deliver r c act).link.ok := by
  unfold State.deliver
  split
  · exact ok
  · exact State.carry_linkOk (State.finishReply_linkOk ok) _ _ _

theorem State.turnAway_linkOk {s : State} (ok : s.link.ok) (r : Route) (x : Byte) (w : Result) :
    (s.turnAway r x w).link.ok := by
  unfold State.turnAway
  split
  · exact State.reply_linkOk ok _ _ _
  · exact ok

theorem State.dispatch_linkOk {s : State} (ok : s.link.ok) (r : Route) (x : Byte) (p : List Byte) :
    (s.dispatch r x p).link.ok := by
  unfold State.dispatch
  split
  · exact State.turnAway_linkOk ok _ _ _
  · split
    · exact State.carry_linkOk ok _ _ _
    · exact State.turnAway_linkOk ok _ _ _

/-- The parser is written while it is not paused, or put in HUNT. -/
theorem State.withParser_linkOk {s : State} (ok : s.link.ok) (p : Parser)
    (h : s.link.paused = false ∨ p.state = .hunt) : (s.withParser p).link.ok :=
  ok.parsing rfl rfl
    (fun e => by
      rcases h with h | h
      · rw [show (s.withParser p).link.paused = s.link.paused from rfl, h] at e
        cases e
      · exact Or.inl h)
    ok.sending ok.due

theorem State.hunting_linkOk {s : State} (ok : s.link.ok) : (s.withParser Parser.hunting).link.ok :=
  State.withParser_linkOk ok _ (Or.inr rfl)

theorem State.frameDone_linkOk {s : State} (ok : s.link.ok) (p : Parser) (x y : Byte) :
    (s.frameDone p x y).link.ok := by
  unfold State.frameDone
  dsimp only
  split
  · split
    · exact State.dispatch_linkOk (State.hunting_linkOk ok) _ _ _
    · exact State.hunting_linkOk ok
  · exact State.hunting_linkOk ok

theorem State.takeByte_linkOk {s : State} (ok : s.link.ok) (h : s.link.paused = false) (x : Byte) :
    (s.takeByte x).link.ok := by
  unfold State.takeByte
  dsimp only
  split
  · split
    · exact State.withParser_linkOk ok _ (Or.inl h)
    · exact ok
  · split
    · exact State.withParser_linkOk ok _ (Or.inl h)
    · exact State.withParser_linkOk ok _ (Or.inl h)
    · split
      · exact State.hunting_linkOk ok
      · exact State.withParser_linkOk ok _ (Or.inl h)
  · exact State.withParser_linkOk ok _ (Or.inl h)
  · split
    · exact State.withParser_linkOk ok _ (Or.inl h)
    · exact State.frameDone_linkOk ok _ _ _
  · exact ok

theorem State.truncateFrame_linkOk {s : State} (ok : s.link.ok) : s.truncateFrame.link.ok := State.hunting_linkOk ok

theorem Link.drawn_ok {l : Link} (ok : l.ok) {e : FifoEntry} {rest : List FifoEntry} (h : l.fifo = e :: rest) :
    (l.drawn rest).ok where
  size := by
    have := ok.size
    rw [h, List.length_cons] at this
    show rest.length ≤ _
    omega
  asserted := by
    show Config.holdOn ≤ rest.length → (if rest.length ≤ Config.holdOff then false else l.hold) = true
    intro a
    rw [if_neg (by simp only [Config.holdOn, Config.holdOff] at *; omega)]
    exact ok.asserted (by rw [h, List.length_cons]; omega)
  released := by
    show (if rest.length ≤ Config.holdOff then false else l.hold) = true → Config.holdOff < rest.length
    split
    · intro a; cases a
    · intro _; omega
  parser := ok.parser
  sending := ok.sending
  due := ok.due

theorem State.parserDraw_linkOk {s : State} (ok : s.link.ok) : s.parserDraw.link.ok := by
  unfold State.parserDraw
  split
  · exact ok
  · rename_i e rest h
    split
    · exact ok
    · rename_i np
      have base : (s.withLink (s.link.drawn rest)).link.ok := Link.drawn_ok ok h
      have free : s.link.paused = false := by
        cases hp : s.link.paused
        · rfl
        · exact absurd (Or.inl hp) np
      dsimp only
      split
      · exact State.takeByte_linkOk (State.truncateFrame_linkOk base) free _
      · exact State.takeByte_linkOk base free _

theorem State.receive_linkOk {s : State} (ok : s.link.ok) (x : Byte) : (s.receive x).link.ok := by
  unfold State.receive
  dsimp only
  split
  · exact ok.parsing rfl rfl ok.parser ok.sending ok.due
  · split
    · exact ⟨Nat.zero_le _, fun h => absurd h (Nat.not_succ_le_zero _), fun h => Bool.noConfusion h,
        fun _ => Or.inr rfl, ok.sending, ok.due⟩
    · rename_i room
      refine ⟨?_, ?_, ?_, ok.parser, ok.sending, ok.due⟩
      · show (s.link.fifo ++ [_]).length ≤ _
        rw [List.length_append, List.length_singleton]
        omega
      · show Config.holdOn ≤ (s.link.fifo ++ [_]).length →
          (if Config.holdOn ≤ s.link.fifo.length + 1 then true else s.link.hold) = true
        rw [List.length_append, List.length_singleton]
        intro h
        rw [if_pos h]
      · show (if Config.holdOn ≤ s.link.fifo.length + 1 then true else s.link.hold) = true →
          Config.holdOff < (s.link.fifo ++ [_]).length
        rw [List.length_append, List.length_singleton]
        split
        · simp only [Config.holdOn, Config.holdOff] at *
          omega
        · intro h
          have := ok.released h
          omega

theorem Link.shortIdleHolds_ok {l : Link} (ok : l.ok) : l.shortIdleHolds.ok := by
  refine ok.parsing rfl rfl (fun h => ?_) ok.sending ok.due
  show (if _ then Parser.hunting else l.parser).state = _ ∨ (if _ then Parser.hunting else l.parser).state = _
  split
  · exact Or.inl rfl
  · exact ok.parser h

theorem State.takeLongIdle_linkOk {s : State} (ok : s.link.ok) : s.takeLongIdle.link.ok := by
  unfold State.takeLongIdle
  split
  · exact ok
  · have base : ({ s.link.shortIdleHolds with longIdle := true } : Link).ok :=
      (Link.shortIdleHolds_ok ok).parsing rfl rfl (Link.shortIdleHolds_ok ok).parser ok.sending ok.due
    dsimp only
    split
    · exact State.truncateFrame_linkOk (s := s.withLink _) base
    · exact base

theorem State.holdReset_linkOk (s : State) : s.holdReset.link.ok :=
  ⟨Nat.zero_le _, fun h => absurd h (Nat.not_succ_le_zero _), fun h => Bool.noConfusion h,
    fun h => Bool.noConfusion h, fun h => Bool.noConfusion h, fun h => Bool.noConfusion h⟩

theorem State.unlessHeld_linkOk {s : State} (ok : s.link.ok) {f : State → State} (h : (f s).link.ok) :
    (s.unlessHeld f).link.ok := by
  unfold State.unlessHeld
  split
  · exact ok
  · exact h

end Sys2Proof.Machine
end

