-- ==== Sys2Proof/Laws/Results.lean ====
section
/-! SUPPORT. What the shared operations answer: the fields each leaves alone, and its result where its occasion is plain. -/

set_option Elab.async false

namespace Sys2Proof.Machine

/-! ## Stops -/

theorem Head.stop_idle (h : Head) : h.stop.carriage.activity = .idle := by
  unfold Head.stop
  split <;> rfl

theorem Head.stop_pass (h : Head) : h.stop.pass = none := by
  unfold Head.stop
  split <;> rfl

theorem Head.stop_firing (h : Head) : h.stop.firing = 0 := by
  unfold Head.stop
  split <;> rfl

theorem Head.stop_coordinate (h : Head) : h.stop.carriage.coordinate = h.carriage.coordinate := by
  unfold Head.stop
  split <;> rfl

theorem Paper.lose_motion (p : Paper) : p.lose.motion = none := by
  unfold Paper.lose
  split
  · assumption
  · rfl

theorem Paper.lose_inputs (p : Paper) : p.lose.inputs = p.inputs := by
  unfold Paper.lose
  split
  · rfl
  · rename_i m _
    cases m.tractor <;> rfl

theorem Paper.lose_feedMotor (p : Paper) : p.lose.feedMotor = p.feedMotor := by
  unfold Paper.lose
  split
  · rfl
  · rename_i m _
    cases m.tractor <;> rfl

/-- A stop leaves the moving stock LOST, with its form and its end remaining (R102). -/
theorem Paper.lose_moving {p : Paper} {m : Motion} (h : p.motion = some m) :
    p.lose.stock m.tractor = { p.stock m.tractor with state := .lost, offset := none } := by
  unfold Paper.lose
  split
  · rename_i e
    rw [h] at e
    cases e
  · rename_i k e
    rw [h] at e
    cases e
    cases m.tractor <;> rfl

/-- A stop leaves a stock that was not moving as it was. -/
theorem Paper.lose_other {p : Paper} {t : Tractor} (h : ∀ m, p.motion = some m → ¬ m.tractor = t) :
    p.lose.stock t = p.stock t := by
  unfold Paper.lose
  split
  · cases t <;> rfl
  · rename_i m e
    have n := h m e
    cases t <;> cases k : m.tractor
    · exact absurd k n
    · rfl
    · rfl
    · exact absurd k n

/-! ## Ticket ends -/

theorem Blocks.endTicket_head (b : Blocks) (o : Order) (c : Bool) : (b.endTicket o c).head = b.head := by
  unfold Blocks.endTicket
  dsimp only
  cases c <;> rfl

theorem Blocks.endTicket_paper (b : Blocks) (o : Order) (c : Bool) : (b.endTicket o c).paper = b.paper := by
  unfold Blocks.endTicket
  dsimp only
  cases c <;> rfl

theorem Blocks.endTicket_attention (b : Blocks) (o : Order) (c : Bool) : (b.endTicket o c).attention = b.attention := by
  unfold Blocks.endTicket
  dsimp only
  cases c <;> rfl

theorem Blocks.endTicket_glyphs (b : Blocks) (o : Order) (c : Bool) : (b.endTicket o c).glyphs = b.glyphs := by
  unfold Blocks.endTicket
  dsimp only
  cases c <;> rfl

theorem Blocks.endTicket_orders (b : Blocks) (o : Order) (c : Bool) :
    (b.endTicket o c).orders = b.orders.count o.tag c := by
  unfold Blocks.endTicket
  dsimp only
  cases c <;> rfl

theorem Blocks.endTicket_controller (b : Blocks) (o : Order) (c : Bool) :
    (b.endTicket o c).controller =
      { b.controller with struck := [], voidMotion := none, phase := .none, line := none, awaitsHoming := false } := by
  unfold Blocks.endTicket
  dsimp only
  cases c <;> rfl

/-- Two writes of one form are one. -/
theorem forms_set_twice (l : List FormRecord) (f : Nat) (g h : FormRecord → FormRecord) :
   (l.set f (g (l.getD f FormRecord.empty))).set f (h ((l.set f (g (l.getD f FormRecord.empty))).getD f
       FormRecord.empty)) = l.set f (h (g (l.getD f FormRecord.empty))) := by
  by_cases c : f < l.length
  · simp [List.getD_eq_getElem?_getD, c]
  · simp [List.set_eq_of_length_le, Nat.le_of_not_lt c]

/-- The pool after a ticket end: one advance of each struck counter, then the staged contents (R143). -/
theorem Blocks.endTicket_pool (b : Blocks) (o : Order) (c : Bool) : (b.endTicket o c).pool = b.ticketPool o.form := by
  have e : (b.endTicket o c).pool = (b.pool.map fun r => if (r.form == o.form && b.controller.struck.contains r.field) = true
      then r.advance else r).map fun r => if (r.form == o.form) = true then { r with body := r.body.applyStaged } else r := by
    unfold Blocks.endTicket
    cases c <;> rfl
  rw [e, List.map_map]
  refine List.map_congr_left fun r _ => ?_
  have af : r.advance.form = r.form := by
    unfold FieldRecord.advance
    split <;> rfl
  dsimp only [Function.comp]
  by_cases c : r.form = o.form
  · by_cases d : r.field ∈ b.controller.struck
    · simp [c, d, af]
    · simp [c, d]
  · simp [c]

/-- The forms after a ticket end: the issue count raised where the ticket completed, the in-flight mark clear (R143). -/
theorem Blocks.endTicket_forms (b : Blocks) (o : Order) (c : Bool) :
    (b.endTicket o c).forms = b.forms.set o.form
      { b.form o.form with
        inFlight := false
        issueCount :=
          if c = true ∧ (b.form o.form).issueCount < 65535 then (b.form o.form).issueCount + 1
          else (b.form o.form).issueCount } := by
  cases c
  · unfold Blocks.endTicket
    simp only [Bool.false_eq_true, false_and, if_false]
    rfl
  · simp only [true_and]
    exact forms_set_twice b.forms o.form
      (fun r => { r with issueCount := if r.issueCount < 65535 then r.issueCount + 1 else r.issueCount })
      fun r => { r with inFlight := false }

theorem Blocks.endTicket_composer (b : Blocks) (o : Order) (c : Bool) : (b.endTicket o c).composer = Composer.empty := by
  unfold Blocks.endTicket
  cases c <;> rfl

/-- Blocks with equal parts are equal. -/
theorem Blocks.parts {b c : Blocks} (h1 : b.forms = c.forms) (h2 : b.pool = c.pool) (h3 : b.glyphs = c.glyphs)
    (h4 : b.composer = c.composer) (h5 : b.head = c.head) (h6 : b.paper = c.paper) (h7 : b.orders = c.orders)
    (h8 : b.controller = c.controller) (h9 : b.attention = c.attention) : b = c := by
  cases b
  cases c
  simp_all

theorem Blocks.voidTicket_cases (b : Blocks) :
    b.voidTicket = b ∨ ∃ o, b.currentOrder = some o ∧ b.voidTicket = b.endTicket o false := by
  unfold Blocks.voidTicket
  split
  · rename_i o h
    split
    · exact Or.inr ⟨o, h, rfl⟩
    · exact Or.inl rfl
  · exact Or.inl rfl

theorem Blocks.voidTicket_head (b : Blocks) : b.voidTicket.head = b.head := by
  rcases b.voidTicket_cases with h | ⟨o, _, h⟩ <;> rw [h]
  exact b.endTicket_head _ _

theorem Blocks.voidTicket_paper (b : Blocks) : b.voidTicket.paper = b.paper := by
  rcases b.voidTicket_cases with h | ⟨o, _, h⟩ <;> rw [h]
  exact b.endTicket_paper _ _

theorem Blocks.voidTicket_attention (b : Blocks) : b.voidTicket.attention = b.attention := by
  rcases b.voidTicket_cases with h | ⟨o, _, h⟩ <;> rw [h]
  exact b.endTicket_attention _ _

theorem Blocks.voidTicket_glyphs (b : Blocks) : b.voidTicket.glyphs = b.glyphs := by
  rcases b.voidTicket_cases with h | ⟨o, _, h⟩ <;> rw [h]
  exact b.endTicket_glyphs _ _

theorem Blocks.voidTicket_none {b : Blocks} (h : b.ticketInFlight = false) : b.voidTicket = b := by
  unfold Blocks.voidTicket
  rw [h]
  split <;> rfl

/-! ## A homing that begins -/

/-- A homing that has found HOME (R68). -/
theorem Head.foundHome_homedAt (h : Head) : h.foundHome = h.homedAt := by
  obtain ⟨c, heat, plan, pass, seg, hold, hf, hs, sc, rt, fi⟩ := h
  unfold Head.foundHome Head.afterHoming Head.homedAt
  cases pass with
  | none => rfl
  | some p =>
    obtain ⟨ln, st, un, dir, a, b⟩ := p
    cases hold
    · cases dir with
      | none => cases un <;> rfl
      | some d =>
        by_cases r : HomeRequester.resume ∈ hf <;> simp [Head.approach, Head.suspend, r]
    · cases dir with
      | none => cases un <;> rfl
      | some d => rfl
    · rfl

/-- A homing that has found HOME is over (R68). -/
theorem Head.homedAt_over (h : Head) : ¬ h.homedAt.carriage.activity = .homing := by
  unfold Head.homedAt
  dsimp only
  cases h.pass with
  | none => simp
  | some p =>
    cases h.hold
    case endPass => simp
    case pause => simp
    case none =>
      dsimp only
      split
      · simp
      · split <;> simp

/-- A home request to a head at rest: with HOME not asserted the homing is in flight for it; with HOME asserted it succeeds
with no step taken (R68). -/
theorem Blocks.requestHome_rest {b : Blocks} {q : HomeRequester}
    (rest : b.head.carriage.activity = .idle ∨ b.head.carriage.activity = .suspended) :
    (b.homeSeen = false → b.requestHome q = b.homingFor q) ∧
      (b.homeSeen = true →
        b.requestHome q = { b.homingFor q with head := (b.homingFor q).head.homedAt }.homed [q]) := by
  have asked : b.sendHome q = { b.homingFor q with head := if b.homeSeen = true then (b.homingFor q).head.foundHome
      else (b.homingFor q).head } := by
    unfold Blocks.sendHome Head.home Head.beginHoming
    rcases rest with a | a <;> rw [a] <;> rfl
  unfold Blocks.requestHome
  rw [asked]
  refine ⟨fun seen => ?_, fun seen => ?_⟩
  · rw [seen]; rfl
  · rw [if_pos seen, Head.foundHome_homedAt]
    exact if_neg (Head.homedAt_over _)

/-- A home request to a head at rest, HOME not asserted: the homing is in flight for it (R68). -/
theorem Blocks.requestHome_begins {b : Blocks} {q : HomeRequester} (idle : b.head.carriage.activity = .idle)
    (seen : b.homeSeen = false) :
    b.requestHome q = b.homingFor q := (Blocks.requestHome_rest (.inl idle)).1 seen

/-- A home request while a homing is in flight joins it (R68). -/
theorem Blocks.requestHome_joins {b : Blocks} {q : HomeRequester} (homing : b.head.carriage.activity = .homing) :
    b.requestHome q =
      { b.notIdle with
        head := { b.head with homeFor := if q ∈ b.head.homeFor then b.head.homeFor else b.head.homeFor ++ [q] } } := by
  have asked : b.sendHome q = { b.notIdle with
      head := { b.head with homeFor := if q ∈ b.head.homeFor then b.head.homeFor else b.head.homeFor ++ [q] } } := by
    unfold Blocks.sendHome Head.home
    rw [homing]
    dsimp only
    by_cases m : q ∈ b.head.homeFor
    · rw [if_pos (by simpa using m), if_pos m]; rfl
    · rw [if_neg (by simpa using m), if_neg m]; rfl
  unfold Blocks.requestHome
  rw [asked]
  exact if_pos homing

/-- A closed cover in PAUSED is a home request, but for one in flight for it (R152, R153). -/
theorem Blocks.takeClosedCover_paused {b : Blocks} (st : b.controller.state = .paused) (closed : b.coverOpen = false) :
    b.takeClosedCover =
      if b.head.carriage.activity = .homing ∧ .cover ∈ b.head.homeFor then b else b.requestHome .cover := by
  unfold Blocks.takeClosedCover
  by_cases h : b.head.carriage.activity = .homing ∧ .cover ∈ b.head.homeFor
  · rw [if_pos h, if_neg (by simp [h.1, h.2])]
  · rw [if_neg h, if_pos]
    simp [st, closed]
    exact not_and_or.1 h

/-- Settling goes on from a pause that a closed cover has left (R135, R153). -/
theorem Blocks.settle_left {b left : Blocks} (t : b.takeClosedCover = left) (st : ¬ left.controller.state = .paused) :
    b.settle = left.settle := by
  have same : left.takeClosedCover = left := by
    unfold Blocks.takeClosedCover
    rw [if_neg (by simp [st])]
  unfold Blocks.settle
  rw [t, same]

/-! ## Motions that begin, and settling -/

/-- A motion that begins leaves the stock MOVING on its course (R97 to R99). -/
theorem Blocks.beginMotion_inMotion (b : Blocks) (t : Tractor) (kind : MotionKind) (count : Nat) (q : Requester)
    (phase : Nat) {c : Course} (h : courseOf t (b.paper.stock t) (b.stockLength t) kind count = c) :
    (b.beginMotion t kind count q phase).stopIdle = b.inMotion t c.kind c.direction c.steps q phase := by
  unfold Blocks.beginMotion
  rw [h]
  cases t <;> rfl

/-- With nothing to start and no closed cover to take, settling brings the idle timer in line alone. -/
theorem Blocks.calm.settle {b : Blocks} (h : b.calm) : b.settle = b.settleIdle := by
  refine Blocks.settle_calm h.2 fun m => ?_
  unfold Blocks.mayStart at m
  simp only [Bool.and_eq_true, beq_iff_eq, Bool.not_eq_true'] at m
  obtain ⟨⟨i, nh⟩, c⟩ := m
  rcases h.1 i with o | ⟨r, hr, hs⟩ | n
  · rw [o] at c
    cases c
  · unfold OrderTable.anyHalted at nh
    rw [List.any_eq_false] at nh
    exact absurd (by simp [hs]) (nh r hr)
  · unfold OrderTable.nextQueued
    rw [List.find?_eq_none]
    intro r hr
    have := n r hr
    simpa using this

/-- Calm speaks of the controller's state, the order records and the cover alone. -/
theorem Blocks.calm.of_same {b c : Blocks} (h : b.calm) (state : c.controller.state = b.controller.state)
    (orders : c.orders = b.orders) (cover : c.coverOpen = b.coverOpen) : c.calm := by
  unfold Blocks.calm at *
  rw [state, orders, cover]
  exact h

/-- A motion in flight stops the idle timer (R168). -/
theorem Blocks.settleIdle_moving {b : Blocks} {m : Motion} (h : b.paper.motion = some m) : b.settleIdle = b.stopIdle := by
  unfold Blocks.settleIdle Blocks.atRest
  rw [h]
  simp

/-- A row of the mechanism has made the records `b`, and settling has followed. -/
theorem State.onBlocks_settled {s : State} (h : s.held = false) {f : Blocks → Blocks} {b : Blocks}
    (e : f s.blocks = b.settle) : s.Settled (s.onBlocks f) b := by
  have became := s.onBlocks_became h f
  rw [e] at became
  refine ⟨became, fun w => ?_⟩
  rw [w.settle] at became
  exact became

/-- A row of the mechanism that changes no record changes nothing. -/
theorem State.onBlocks_same {s : State} {f : Blocks → Blocks} (e : f s.blocks = s.blocks) : s.onBlocks f = s := by
  unfold State.onBlocks State.unlessHeld State.withBlocks
  split
  · rfl
  · dsimp only
    rw [e]

/-! ## Plans followed -/

/-- With nothing pending, what is left of the pass is planned and the plan begins (R76 step 4). -/
theorem Head.planNext_plans {h : Head} {p : Pass} {d : PassDirection} (hold : h.hold = .none) (pass : h.pass = some p)
    (direction : p.direction = some d) (image : List Dots) :
    h.planNext image =
      match planPart image p.strike d p.first p.last h.heat with
      | .segment v n => h.beginSegment p d v n
      | .dwell => h.beginDwell := by
  unfold Head.planNext
  rw [hold, pass]
  dsimp only
  rw [direction]
  all_goals rfl

/-- What the success of a homing does for its requesters: CLEAR_FAULT leaves FAULTED and removes the fault record, SOFT_RESET
removes it, a closed cover leaves PAUSED (R153, R164, R174). -/
theorem Blocks.homed_effect (b : Blocks) (l : List HomeRequester) :
    b.homed l =
      let leaves := b.controller.state = .faulted ∧ .clearFault ∈ l
      let c : Blocks :=
        { b with
          controller := { b.controller with state := if leaves then .idle else b.controller.state }
          attention :=
            { b.attention with
              faultRecord := if leaves ∨ .softReset ∈ l then none else b.attention.faultRecord } }
      if b.controller.state = .paused ∧ .cover ∈ l ∧ b.coverOpen = false then c.leavePaused else c := by
  have last : ∀ c : Blocks, (c.controller.state = .paused ↔ b.controller.state = .paused) → c.coverOpen = b.coverOpen →
      (if (l.contains .cover && c.controller.state == .paused && !c.coverOpen) = true then c.leavePaused else c) =
        if b.controller.state = .paused ∧ .cover ∈ l ∧ b.coverOpen = false then c.leavePaused else c := by
    intro c st co
    refine if_congr ?_ rfl rfl
    rw [← st, ← co]
    simp [and_assoc, and_left_comm]
  have mem : ∀ q : HomeRequester, l.contains q = decide (q ∈ l) := by intro q; simp
  unfold Blocks.homed
  dsimp only
  by_cases lv : b.controller.state = .faulted ∧ .clearFault ∈ l
  · have k1 : (l.contains .clearFault && b.controller.state == .faulted) = true := by simpa using ⟨lv.2, lv.1⟩
    have twice : ∀ r : Bool, (if r = true then (b.clearRecord.control fun c => { c with state := .idle }).clearRecord else
        (b.clearRecord.control fun c => { c with state := .idle })) =
        (b.clearRecord.control fun c => { c with state := .idle }) := by
      intro r; cases r <;> rfl
    rw [if_pos k1, twice, last (b.clearRecord.control fun c => { c with state := .idle }) (by rw [lv.1]; constructor <;> (intro z; cases z)) rfl, if_pos lv,
      if_pos (Or.inl lv)]
    rfl
  · have k1 : ¬ (l.contains .clearFault && b.controller.state == .faulted) = true := by simpa using fun z y => lv ⟨y, z⟩
    rw [if_neg k1, if_neg lv]
    by_cases q : .softReset ∈ l
    · rw [if_pos ((mem .softReset).trans (decide_eq_true q)), last b.clearRecord Iff.rfl rfl, if_pos (Or.inr q)]
      rfl
    · rw [if_neg (fun z => q (of_decide_eq_true ((mem .softReset).symm.trans z))), last b Iff.rfl rfl, if_neg (not_or.2 ⟨lv, q⟩)]

/-- The success of a homing that a closed cover alone has asked for: in PAUSED, the cover still closed, the pause is left
(R153). -/
theorem Blocks.homed_cover (b : Blocks) :
    b.homed [.cover] = if b.controller.state = .paused ∧ b.coverOpen = false then b.leavePaused else b := by
  rw [Blocks.homed_effect]
  simp

/-- An end-pass request (R86). -/
theorem Head.endPass_endAsked (h : Head) : h.endPass = h.endAsked := by
  unfold Head.endPass Head.endAsked
  cases h.carriage.activity <;> rfl

/-- Where the pass or the awaited homing goes on the controller does nothing with the head (R140). -/
theorem Blocks.passGoesOn.headAnswered {b : Blocks} (h : b.passGoesOn) : b.headAnswered = b := by
  unfold Blocks.headAnswered
  split
  · rename_i e
    obtain ⟨w, p⟩ := h e
    cases a : b.controller.awaitsHoming
    · by_cases q : b.controller.phase = .pass
      · obtain ⟨u, v⟩ := p a q
        rw [if_neg (by simp), if_pos q, if_neg, if_neg v]
        intro z
        rw [Option.isNone_iff_eq_none] at z
        rw [z] at u
        cases u
      · rw [if_neg (by simp), if_neg q]
    · rw [if_pos rfl, if_pos (w a)]
  all_goals rfl

/-- The pending set shows each cause (R158). -/
theorem pending_bits (b : Blocks) : ∀ c ∈ Cause.all, b.pendingSet.getLsbD c.bit = b.isPending c := by
  unfold Blocks.pendingSet Cause.all
  cases h1 : b.isPending .fault <;> cases h2 : b.isPending .halt <;> cases h3 : b.isPending .paper <;>
    cases h4 : b.isPending .done <;> cases h5 : b.isPending .link <;>
    simp [h1, h2, h3, h4, h5, Cause.bit]

end Sys2Proof.Machine
end

