-- ==== Sys2Proof/Laws/Step.lean ====
section
/-! SUPPORT. What every row keeps, and with it every step: the summary that the invariants rest on. -/

set_option Elab.async false

namespace Sys2Proof.Machine

theorem State.keeps_deliver_if (s : State) (r : Route) (c : Command) {p : Prop} [Decidable p] {act : Blocks → Answer}
    (w : Result) (h : p → ∀ b : Blocks, b.Keeps (act b).blocks) :
    s.blocks.Keeps (s.deliver r c fun b => if p then act b else b.refuse w).blocks := by
  refine s.keeps_deliver r c fun b => ?_
  split
  · exact h ‹_› b
  · exact .refl b

/-- The row's next state, where it has one. -/
theorem exec_keeps (i : Instr) (s t : State) (h : exec i s = .next t) : s.blocks.Keeps t.blocks := by
  cases i <;> cases h
  case null r p => exact s.keeps_deliver_if r _ _ fun _ b => .refl b
  case readIdentity r => exact s.keeps_deliver r _ fun b => .refl b
  case readAttention r => exact s.keeps_deliver r _ fun b => b.keeps_readAttention
  case configure r x y z u v => exact s.keeps_deliver r _ fun b => b.keeps_configure _ _ _ _ _
  case softReset r => exact s.keeps_deliver r _ fun b => .refl b
  case clearFault r => exact s.keeps_deliver r _ fun b => b.keeps_clearFault
  case formDefine r a =>
    exact s.keeps_deliver r _ fun b => (b.formDefine_frame _).keeps (fun t => Blocks.formDefine_ticketsOk t _) fun ok => Blocks.formDefine_recordsOk ok _
  case formAmend r a =>
    exact s.keeps_deliver r _ fun b => (b.formAmend_frame _).keeps (fun t => Blocks.formAmend_ticketsOk t _) fun ok => Blocks.formAmend_recordsOk ok _
  case formQuery r f => exact s.keeps_deliver r _ fun b => .of_eq (b.formQuery_same _)
  case formLock r f l =>
    exact s.keeps_deliver r _ fun b => (b.formLock_frame _ _).keeps (fun t => Blocks.formLock_ticketsOk t _ _) fun ok => Blocks.formLock_recordsOk ok _ _
  case formRetire r f =>
    exact s.keeps_deliver r _ fun b => (b.formRetire_frame _).keeps (fun t => Blocks.formRetire_ticketsOk t _) fun ok => Blocks.formRetire_recordsOk ok _
  case fieldDefine r a =>
    exact s.keeps_deliver r _ fun b => (b.fieldDefine_frame _).keeps (fun t => Blocks.fieldDefine_ticketsOk t _) fun ok => Blocks.fieldDefine_recordsOk ok _
  case fieldSet r f i m e x =>
    exact s.keeps_deliver_if r _ _ fun _ b =>
      (b.fieldSet_frame _ _ _ _ _).keeps (fun t => Blocks.fieldSet_ticketsOk t _ _ _ _ _) fun ok => Blocks.fieldSet_recordsOk ok _ _ _ _ _
  case counterSet r f i m e v =>
    exact s.keeps_deliver r _ fun b =>
      (b.counterSet_frame _ _ _ _ _).keeps (fun t => Blocks.counterSet_ticketsOk t _ _ _ _ _) fun ok => Blocks.counterSet_recordsOk ok _ _ _ _ _
  case fieldQuery r f i => exact s.keeps_deliver r _ fun b => .of_eq (b.fieldQuery_same _ _)
  case fieldList r f n => exact s.keeps_deliver r _ fun b => .of_eq (b.fieldList_same _ _)
  case fieldRetire r f i =>
    exact s.keeps_deliver r _ fun b => (b.fieldRetire_frame _ _).keeps (fun t => Blocks.fieldRetire_ticketsOk t _ _) fun ok => Blocks.fieldRetire_recordsOk ok _ _
  case glyphLoad r c x => exact s.keeps_deliver_if r _ _ fun n b => b.keeps_glyphLoad _ n
  case glyphQuery r g c => exact s.keeps_deliver r _ fun b => .of_eq (b.glyphQuery_same _ _)
  case stockAssign r t f => exact s.keeps_deliver r _ fun b => b.keeps_stockAssign _ _
  case stockRelease r t => exact s.keeps_deliver r _ fun b => b.keeps_stockRelease _
  case stockPark r t => exact s.keeps_deliver r _ fun b => b.keeps_stockPark _
  case stockSelect r t => exact s.keeps_deliver r _ fun b => b.keeps_stockSelect _
  case stockQuery r t => exact s.keeps_deliver r _ fun b => .of_eq (b.stockQuery_same _)
  case feed r n => exact s.keeps_deliver r _ fun b => b.keeps_feed _
  case present r => exact s.keeps_deliver r _ fun b => b.keeps_pathMotion _ _
  case retract r => exact s.keeps_deliver r _ fun b => b.keeps_pathMotion _ _
  case headQuery r => exact s.keeps_deliver r _ fun b => .refl b
  case orderIssue r t f n p => exact s.keeps_deliver r _ fun b => b.keeps_takeOrderIssue _ _ _ _
  case orderAmend r t n => exact s.keeps_deliver r _ fun b => b.keeps_takeOrderAmend _ _
  case orderHold r t => exact s.keeps_deliver r _ fun b => b.keeps_orderHold _
  case orderResume r t => exact s.keeps_deliver r _ fun b => b.keeps_takeOrderResume _
  case orderCancel r t => exact s.keeps_deliver r _ fun b => b.keeps_takeOrderCancel _
  case orderQuery r t => exact s.keeps_deliver r _ fun b => .of_eq (b.orderQuery_same _)
  case orderRelease r t => exact s.keeps_deliver r _ fun b => b.keeps_orderRelease _
  case hardReset => exact s.keeps_holdReset
  case startUp p l => exact s.keeps_startUp p l
  case debounceStart k l => exact s.keeps_onBlocks (s.blocks.keeps_debounceStart k l)
  case debounceExpiry k => exact s.keeps_onBlocks (s.blocks.keeps_debounceExpiry k)
  case cfbPulse => exact s.keeps_onBlocks (f := fun b => b.withHead b.head.pulse) s.blocks.keeps_cfbPulse
  case pmsPulse => exact s.keeps_onBlocks (f := fun b => b.withPaper b.paper.pulse) s.blocks.keeps_pmsPulse
  case refillTick => exact s.keeps_onBlocks s.blocks.keeps_refillTick
  case idleTimerExpiry => exact s.keeps_onBlocks s.blocks.keeps_idleExpiry
  case carriageStep => exact s.keeps_onBlocks s.blocks.keeps_carriageStep
  case stall => exact s.keeps_onBlocks s.blocks.keeps_stall
  case homeLost => exact s.keeps_onBlocks s.blocks.keeps_homeLost
  case homingComplete => exact s.keeps_onBlocks s.blocks.keeps_homingComplete
  case approachComplete => exact s.keeps_onBlocks s.blocks.keeps_approachComplete
  case segmentComplete => exact s.keeps_onBlocks s.blocks.keeps_segmentComplete
  case feedStep => exact s.keeps_onBlocks s.blocks.keeps_feedStep
  case jam => exact s.keeps_onBlocks s.blocks.keeps_jam
  case motionComplete => exact s.keeps_onBlocks s.blocks.keeps_motionComplete
  case receiveCharacter x => exact s.keeps_unlessHeld (s.keeps_receive x)
  case parserDraw => exact s.keeps_unlessHeld s.keeps_parserDraw
  case shortIdle => exact s.keeps_unlessHeld (.refl _)
  case longIdle => exact s.keeps_unlessHeld s.keeps_takeLongIdle
  case replyComplete => exact s.keeps_unlessHeld s.keeps_finishReply

theorem exec_linkOk (i : Instr) (s t : State) (h : exec i s = .next t) (ok : s.link.ok) : t.link.ok := by
  cases i <;> cases h
  case hardReset => exact s.holdReset_linkOk
  case startUp p l => exact Link.hardReset_ok
  case receiveCharacter x => exact State.unlessHeld_linkOk ok (State.receive_linkOk ok x)
  case parserDraw => exact State.unlessHeld_linkOk ok (State.parserDraw_linkOk ok)
  case shortIdle => exact State.unlessHeld_linkOk ok (Link.shortIdleHolds_ok ok)
  case longIdle => exact State.unlessHeld_linkOk ok (State.takeLongIdle_linkOk ok)
  case replyComplete => exact State.unlessHeld_linkOk ok (State.finishReply_linkOk ok)
  all_goals
    first
    | exact State.deliver_linkOk ok _ _ _
    | exact State.unlessHeld_linkOk (f := fun s => s.withBlocks _) ok ok

/-- A step runs the command at the front of the queue on the rest, or idles. -/
theorem step_cases {s t : State} (h : step s = .next t) :
    t = s ∨ ∃ c rest, s.pending = c :: rest ∧ exec c (s.withPending rest) = .next t := by
  unfold step at h
  split at h
  · cases h
    exact Or.inl rfl
  · rename_i c rest e
    exact Or.inr ⟨c, rest, e, h⟩

theorem step_keeps {s t : State} (h : step s = .next t) : s.blocks.Keeps t.blocks := by
  rcases step_cases h with rfl | ⟨c, rest, _, e⟩
  · exact .refl _
  · exact exec_keeps c (s.withPending rest) t e

end Sys2Proof.Machine
end

