-- ==== Sys2Proof/Laws/Frames.lean ====
section
/-! SUPPORT. A frame in the FIFO, drawn character by character (R179 to R183). -/

set_option Elab.async false

namespace Sys2Proof.Machine

/-- The row of a command is its owning block's answer, carried out (R184, R185). -/
theorem exec_row (c : Command) (r : Route) (p : List Byte) (s : State) (h : s.Ready) (ok : c.accepts p.length = true) :
    exec (c.row r p) s = .next (s.carry r c (s.blocks.take c p)) := by
  have d : ∀ act, s.deliver r c act = s.carry r c (act s.blocks) := by
    intro act
    unfold State.deliver
    have f : s.finishReply = s := by
      unfold State.finishReply
      rw [h.2]
    rw [h.1, f]; rfl
  unfold Command.accepts at ok
  rw [Bool.and_eq_true, decide_eq_true_iff, decide_eq_true_iff] at ok
  cases c
  case null =>
    have l : p.length ≤ 200 := ok.2
    show Host.Outcome.next (s.deliver r .null fun b => if p.length ≤ 200 then b.nullProbe else b.refuse .badLength) = _
    rw [d]; rw [if_pos l]; rfl
  case fieldSet =>
    have l : (p.drop 5).length ≤ 195 := by
      have a : 5 ≤ p.length := ok.1
      have b : p.length ≤ 200 := ok.2
      simp; omega
    show Host.Outcome.next (s.deliver r .fieldSet fun b => if (p.drop 5).length ≤ 195 then _ else b.refuse
        .badLength) = _
    rw [d]; rw [if_pos l]; rfl
  case glyphLoad =>
    show Host.Outcome.next (s.deliver r .glyphLoad fun b => if (columnsOf p).length = 10 then _ else b.refuse
        .badLength) = _
    rw [d]; rw [if_pos (by simp [columnsOf])]; rfl
  all_goals exact congrArg Host.Outcome.next (d _)

/-- The running sum of the parser is the sum of the bytes (R179). -/
theorem sum_bits (l : List Byte) : ∀ a : BitVec 16, l.foldl (fun acc x => acc + x.zeroExtend 16) a = a + BitVec.ofNat
    16 (l.map BitVec.toNat).sum := by
  induction l with
  | nil => intro a; simp
  | cons x l ih =>
    intro a
    rw [List.foldl_cons, ih, List.map_cons, List.sum_cons]
    have : BitVec.zeroExtend 16 x = BitVec.ofNat 16 x.toNat := by
      apply BitVec.eq_of_toNat_eq
      simp
    rw [this, BitVec.add_assoc, BitVec.ofNat_add]

/-- The two check bytes are the sum modulo 65,536 (R189). -/
theorem check_bits (n : Nat) : (byteOf (n % 65536 / 256) ++ byteOf (n % 65536) : BitVec 16) = BitVec.ofNat 16 n := by
  apply BitVec.eq_of_toNat_eq
  simp only [byteOf, BitVec.toNat_append, BitVec.toNat_ofNat]
  rw [Nat.shiftLeft_eq, Nat.mul_comm, ← Nat.two_pow_add_eq_or_of_lt]
  · omega
  · omega

/-- The state with so many characters of a frame still in the FIFO and the parser as it then stands. -/
def State.atFrame (s : State) (rest : List FifoEntry) (l : List Byte) (P : Parser) : State :=
  s.withLink { s.link with fifo := unbroken l ++ rest, hold := if l.length + rest.length ≤ 16 then false else s.link.hold, parser := P }

/-- A draw hands the next character to the parser (R177, R179). -/
theorem parserDraw_atFrame (s : State) (h : s.held = false) (np : s.link.paused = false) (rest : List FifoEntry) (l :
    List Byte) (x : Byte) (P : Parser) (nd : ¬ P.state = .discard) :
    exec .parserDraw (State.atFrame s rest (x :: l) P) = .next ((State.atFrame s rest l P).takeByte x) := by
  show Host.Outcome.next (State.unlessHeld _ State.parserDraw) = _
  congr 1
  have : (State.atFrame s rest (x :: l) P).unlessHeld State.parserDraw = (State.atFrame s rest (x :: l) P).parserDraw
      := by
    unfold State.unlessHeld
    rw [show (State.atFrame s rest (x :: l) P).held = s.held from rfl, h]; rfl
  rw [this]
  unfold State.parserDraw
  show (if (s.link.paused : Prop) ∨ P.state = .discard then _ else _) = _
  rw [if_neg (by rw [np]; simp [nd])]
  dsimp only
  rw [if_neg (by simp)]
  have : (State.atFrame s rest (x :: l) P).withLink ((State.atFrame s rest (x :: l) P).link.drawn (unbroken l ++
      rest)) = State.atFrame s rest l P := by
    unfold State.atFrame State.withLink Link.drawn
    dsimp only
    have e : (unbroken l ++ rest).length = l.length + rest.length := by simp [unbroken]
    rw [e]
    have : (if l.length + rest.length ≤ Config.holdOff then false else if (x :: l).length + rest.length ≤ 16 then
        false else s.link.hold) = (if l.length + rest.length ≤ 16 then false else s.link.hold) := by
      unfold Config.holdOff
      by_cases c : l.length + rest.length ≤ 16
      · rw [if_pos c, if_pos c]
      · rw [if_neg c, if_neg c, if_neg (by simp; omega)]
    rw [this]
  exact congrArg (fun z : State => z.takeByte x) this

/-- One row, then the rest. -/
theorem execAll_cons (i : Instr) (L : List Instr) (s t : State) (h : exec i s = .next t) : execAll (i :: L) s =
    execAll L t := by
  rw [execAll, h]

/-- The payload is drawn byte by byte (R179). -/
theorem payload_drawn (s : State) (h : s.held = false) (np : s.link.paused = false) (rest : List FifoEntry) (tail :
    List Byte) (station code len : Byte) :
    ∀ (p q : List Byte) (sum : BitVec 16) (L : List Instr), len.toNat = q.length + p.length →
      execAll (List.replicate p.length .parserDraw ++ L) (State.atFrame s rest (p ++ tail)
          { state := if p.length = 0 then .check else .payload, sum := sum, headerTaken := 3, station := station, command := code, length := len, payload := q, checkHigh := none }) =
      execAll L (State.atFrame s rest tail
          { state := .check, sum := p.foldl (fun acc x => acc + x.zeroExtend 16) sum, headerTaken := 3, station := station, command := code, length := len, payload := q ++ p, checkHigh := none }) := by
  intro p
  induction p with
  | nil => intro q sum L _; simp
  | cons x p ih =>
    intro q sum L hl
    rw [List.length_cons, List.replicate_succ, List.cons_append, List.cons_append]
    rw [if_neg (by omega)]
    rw [execAll_cons _ _ _ _ (parserDraw_atFrame s h np rest (p ++ tail) x _ (by simp))]
    have : (State.atFrame s rest (p ++ tail)
        { state := .payload, sum := sum, headerTaken := 3, station := station, command := code, length := len, payload := q, checkHigh := none }).takeByte x = State.atFrame s rest (p ++ tail) { state := if p.length = 0 then .check else .payload, sum := sum + x.zeroExtend 16, headerTaken := 3, station := station, command := code, length := len, payload := q ++ [x], checkHigh := none } := by
      show State.withParser _ _ = _
      have : ((q ++ [x]).length = len.toNat) ↔ p.length = 0 := by
        rw [List.length_cons] at hl; rw [List.length_append, List.length_singleton]; omega
      show (State.atFrame s rest (p ++ tail) _).withParser
          { Parser.summed _ x with payload := q ++ [x], state := if (q ++ [x]).length = len.toNat then .check else .payload } = _
      simp only [this]
      rfl
    rw [this, ih (q ++ [x]) _ L (by simp at hl ⊢; omega)]
    simp

/-- A whole frame, drawn, is a complete frame (R182). -/
theorem frame_drawn (s : State) (station code : Byte) (p : List Byte) (rest : List FifoEntry) (h : s.held = false)
    (np : s.link.paused = false) (l : p.length ≤ 200) (P : Parser) (hu : P.state = .hunt) :
    execAll (List.replicate (p.length + 6) .parserDraw) (State.atFrame s rest (frame station code p) P) =
     .next ((State.atFrame s rest [] Parser.hunting).frameDone
         { state := .check, sum := BitVec.ofNat 16 (([station, code, byteOf p.length] ++ p).map BitVec.toNat).sum, headerTaken := 3, station := station, command := code, length := byteOf p.length, payload := p, checkHigh := some (byteOf (checkSum ([station, code, byteOf p.length] ++ p) / 256)) } (byteOf (checkSum ([station, code, byteOf p.length] ++ p) / 256)) (byteOf (checkSum ([station, code, byteOf p.length] ++ p)))) := by
  have hm : ∀ {P : Parser} {x : Byte} {l : List Byte} (L : List Instr) (Q : Parser), ¬ P.state = .discard →
      (State.atFrame s rest l P).takeByte x = State.atFrame s rest l Q → execAll (.parserDraw :: L) (State.atFrame s
          rest (x :: l) P) = execAll L (State.atFrame s rest l Q) := by
    intro P x l L Q nd e
    rw [execAll_cons _ _ _ _ (parserDraw_atFrame s h np rest l x P nd), e]
  have len : (byteOf p.length).toNat = p.length := by
    simp [byteOf]; omega
  let c := checkSum ([station, code, byteOf p.length] ++ p)
  have fr : frame station code p = 0x5A :: station :: code :: byteOf p.length :: (p ++ [byteOf (c / 256), byteOf c])
      := by
    unfold frame
    simp [halfBytes, c]
  have rp : List.replicate (p.length + 6) Instr.parserDraw = .parserDraw :: .parserDraw :: .parserDraw :: .parserDraw
      :: (List.replicate p.length .parserDraw ++ [.parserDraw, .parserDraw]) := by
    rw [show p.length + 6 = 4 + (p.length + 2) by omega, List.replicate_add, List.replicate_add]
    rfl
  rw [fr, rp]
  rw [hm _ { Parser.hunting with state := .header } (by rw [hu]; simp) (by
    unfold State.takeByte
    dsimp only
    rw [show (State.atFrame s rest _ P).link.parser.state = .hunt from hu]
    rfl)]
  rw [hm _ { Parser.hunting with state := .header, sum := station.zeroExtend 16, headerTaken := 1, station := station } (by simp) ?_]
  rw [hm _ { Parser.hunting with state := .header, sum := station.zeroExtend 16 + code.zeroExtend 16, headerTaken := 2, station := station, command := code } (by simp) rfl]
  rw [hm _ { Parser.hunting with state := if p.length = 0 then .check else .payload, sum := station.zeroExtend 16 + code.zeroExtend 16 + (byteOf p.length).zeroExtend 16, headerTaken := 3, station := station, command := code, length := byteOf p.length } (by simp) ?_]
  refine (payload_drawn s h np rest [byteOf (c / 256), byteOf c] station code (byteOf p.length) p [] _ _
      (by simpa using len)).trans ?_
  rw [hm _ _ (by simp) rfl]
  rw [execAll_cons _ _ _ _ (parserDraw_atFrame s h np rest _ _ _ (by show ¬ ParserState.check = .discard; decide))]
  · show Host.Outcome.next (State.frameDone _ _ _ _) = _
    have : p.foldl (fun acc x => acc + x.zeroExtend 16) (station.zeroExtend 16 + code.zeroExtend 16 + (byteOf
        p.length).zeroExtend 16) = BitVec.ofNat 16 (([station, code, byteOf p.length] ++ p).map BitVec.toNat).sum := by
      have := sum_bits ([station, code, byteOf p.length] ++ p) 0
      simpa using this
    rw [this]
    rfl
  · have : (byteOf p.length = 0) ↔ p.length = 0 := by
      constructor
      · intro z; rw [z] at len; simpa using len.symm
      · intro z; rw [z]; rfl
    refine (if_neg (c := 200 < (byteOf p.length).toNat) (by omega)).trans ?_
    show (State.atFrame s rest _ _).withParser
        { Parser.summed _ _ with headerTaken := 3, length := _, state := if byteOf p.length = 0 then .check else .payload } = _
    simp only [this]
    rfl
  · show (State.atFrame s rest _ _).withParser { Parser.summed _ _ with headerTaken := _, station := _ } = _
    unfold Parser.summed
    have : (0 : BitVec 16) + station.zeroExtend 16 = station.zeroExtend 16 := by simp
    show (State.atFrame s rest _ _).withParser
        { Parser.hunting with state := .header, sum := 0 + station.zeroExtend 16, headerTaken := 1, station := station } = _
    simp only [this]
    rfl

/-- The match of a STATION byte (R183). -/
theorem route_eq (a : Attention) (station : Byte) : a.route station =
   if station = 31 then some .broadcast else if (station.toNat ≤ 30 ∧
      (BitVec.ofNat 5 station.toNat ^^^ BitVec.ofNat 5 a.address) &&& ~~~a.stationMask = 0) then some .addressed else
          none := by
  unfold Attention.route
  have e : station.truncate 5 = BitVec.ofNat 5 station.toNat := by
    apply BitVec.eq_of_toNat_eq; simp
  rw [e]
  have : station.toNat < 31 ↔ station.toNat ≤ 30 := by omega
  simp only [this]

end Sys2Proof.Machine
end

