-- ==== Sys2Proof/Laws/Work.lean ====
section
/-! SUPPORT. Commands that the owning block answers, motions and orders they change, and faults. -/

set_option Elab.async false

namespace Sys2Proof.Machine

/-- An answer with an equal payload. -/
theorem answered_payload {s t : State} {c : Command} {r : Result} {p q : List Byte} {b : Blocks} (h : s.Answered t c
    r p b) (e : q = p) : s.Answered t c r q b := e ▸ h

/-- An answer with equal records. -/
theorem answered_blocks {s t : State} {c : Command} {r : Result} {p : List Byte} {b d : Blocks} (h : s.Answered t c r
    p b) (e : d = b) : s.Answered t c r p d := e ▸ h

/-- A command whose effect is settled has been answered and settled. -/
theorem answered_settled {s : State} (h : s.Ready) {c : Command} {act : Blocks → Answer} {r : Result} {b : Blocks}
    (e : act s.blocks = { result := r, payload := [], blocks := b.settle }) : s.AnsweredSettled (s.deliver .addressed
        c act) c r b := by
  have a := h.answers (c := c) (act := act) e
  refine ⟨a, fun w => ?_⟩
  rw [w.settle] at a
  exact a

/-- The BUSY test of a host motion command (R105). -/
theorem hostBusy_iff (b : Blocks) : (!(b.controller.state == .idle) || b.paper.motion.isSome ||
    b.head.carriage.activity == .homing) = true ↔ b.hostBusy := by
  unfold Blocks.hostBusy
  cases b.paper.motion <;> cases b.controller.state <;> cases b.head.carriage.activity <;> simp

/-- PARK of a stock with paper (R98). -/
theorem course_park_none {k : Tractor} {x : Stock} {n c : Nat} (h : x.endRemaining = none) : courseOf k x n .park c =
    { kind := .park, direction := .reverse, steps := (if x.state = .presented then 432 else x.offset.getD 0) + k.distance } := by
  unfold courseOf Course.converted
  simp [h]

/-- PARK of a stock whose trailing edge is known (R99). -/
theorem course_park_some {k : Tractor} {x : Stock} {n c r : Nat} (h : x.endRemaining = some r) : courseOf k x n .park
    c = { kind := .eject, direction := .forward, steps := r + 48 } := by
  unfold courseOf Course.converted
  cases r <;> simp [h, Course.ejection]

/-- A forward motion of a stock with paper left (R98). -/
theorem course_forward {k : Tractor} {x : Stock} {n c : Nat} {kind : MotionKind} {st : Nat} (hk : kind = .advance ∧
    st = k.distance ∨ kind = .feed ∧ st = c ∨ kind = .feedToTop ∧ st = n - x.offset.getD 0 ∨ kind = .present ∧ st = 432)
    (h : ¬ x.endRemaining = some 0) : courseOf k x n kind c = { kind := kind, direction := .forward, steps := st } := by
  unfold courseOf Course.converted
  rcases hk with ⟨rfl, rfl⟩ | ⟨rfl, rfl⟩ | ⟨rfl, rfl⟩ | ⟨rfl, rfl⟩ <;> cases he : x.endRemaining with
    | none => rfl
    | some r => cases r with
      | zero => exact absurd he h
      | succ => rfl

/-- A forward motion of a stock with no paper left (R99). -/
theorem course_out {k : Tractor} {x : Stock} {n c : Nat} {kind : MotionKind} {st : Nat} (hk : kind = .advance ∧ st =
    k.distance ∨ kind = .feed ∧ st = c ∨ kind = .feedToTop ∧ st = n - x.offset.getD 0 ∨ kind = .present ∧ st = 432)
    (h : x.endRemaining = some 0) (p : 0 < st) : courseOf k x n kind c =
        { kind := .eject, direction := .forward, steps := 48 } := by
  unfold courseOf Course.converted
  have : ¬ st = 0 := by omega
  rcases hk with ⟨rfl, rfl⟩ | ⟨rfl, rfl⟩ | ⟨rfl, rfl⟩ | ⟨rfl, rfl⟩ <;> simp [h, Course.ejection, this]

/-- The tests of FEED, PRESENT and RETRACT (R105, R110 to R112). -/
theorem pathMotion_tested {s : State} (h : s.Ready) {c : Command} {act : Blocks → Answer} {kind : MotionKind} {n : Nat}
    (e : act s.blocks = s.blocks.pathMotion kind n) {need : Stock → Prop} (hn : ∀ k, s.blocks.paper.meetsNeed k kind
        = true ↔ need (s.blocks.paper.stock k))
    {ok : Tractor → Prop}
    (done : ∀ k, act s.blocks = s.blocks.startHost k kind n 0 → ok k) :
    s.Tested (s.deliver .addressed c act) c [(s.blocks.hostBusy, .busy), (s.blocks.coverOpen = true, .coverOpen),
         (s.blocks.paper.pathTractor = none, .noStock)]
        (∀ k, s.blocks.paper.pathTractor = some k →
          s.Tested (s.deliver .addressed c act) c [(¬ need (s.blocks.paper.stock k), .wrongState)] (ok k)) := by
  let rest : Answer := match s.blocks.paper.pathTractor with
     | none => s.blocks.refuse .noStock
     | some t =>
       s.blocks.checked [(!s.blocks.paper.meetsNeed t kind, .wrongState)] (s.blocks.startHost t kind n 0)
  refine h.tested (act := act) (tests := s.blocks.hostTests ++ [(s.blocks.paper.pathTractor.isNone, .noStock)]) (go
      := rest) ?_ ?_ ?_
  · rw [e]
    unfold Blocks.pathMotion Blocks.hostTests Blocks.checked
    simp only [firstRefusal, List.cons_append, List.nil_append]
    cases (!(s.blocks.controller.state == .idle) || s.blocks.paper.motion.isSome || s.blocks.head.carriage.activity
        == .homing)
    · cases s.blocks.coverOpen
      · cases hp : s.blocks.paper.pathTractor with
        | none => rfl
        | some k => simp only [rest, hp, Blocks.checked]; rfl
      · rfl
    · rfl
  · exact .cons ⟨hostBusy_iff _, rfl⟩ (.cons ⟨Iff.rfl, rfl⟩ (.cons ⟨by simp, rfl⟩ .nil))
  · intro _ e2 k hk
    have : rest = s.blocks.checked [(!s.blocks.paper.meetsNeed k kind, .wrongState)] (s.blocks.startHost k kind n 0)
        := by simp [rest, hk]
    rw [this] at e2
    refine h.tested (act := act) e2 ?_ ?_
    · refine .cons ⟨?_, rfl⟩ .nil
      rw [Bool.not_eq_true', ← Bool.not_eq_true, not_iff_not]
      exact hn k
    · intro _ e3
      exact done k e3

/-- Renumbering numbers the records in admission order (R117). -/
theorem renumbered_mapIdx (l : List Order) : renumbered l = l.mapIdx fun i r => { r with admission := i + 1 } := by
  unfold renumbered
  rw [List.mapIdx_eq_zipIdx_map]

/-- The tests of a command on one record (R125). -/
theorem order_tested {s : State} (h : s.Ready) {c : Command} {act : Blocks → Answer} {tests : List (Bool × Result)}
    {rest : Order → Answer}
    (e : act s.blocks = s.blocks.checked tests
      (match s.blocks.orders.find tag with
      | none => s.blocks.refuse .noOrder
      | some o => rest o))
    {named : List (Prop × Result)} (same : List.Forall₂ (fun x p => (x.1 = true ↔ p.1) ∧ x.2 = p.2) tests named)
        {ok : Order → Prop}
    (done : ∀ o, s.blocks.orders.find tag = some o → act s.blocks = rest o → ok o) :
    s.Tested (s.deliver .addressed c act) c (named ++ [(s.blocks.orders.find tag = none, .noOrder)]) (∀ o,
        s.blocks.orders.find tag = some o → ok o) := by
  let go : Answer := (match s.blocks.orders.find tag with | none => s.blocks.refuse .noOrder | some o => rest o)
  refine h.tested (act := act) (tests := tests ++ [((s.blocks.orders.find tag).isNone, .noOrder)]) (go := go) ?_ ?_ ?_
  · rw [e]
    have key : ∀ (l : List (Bool × Result)), s.blocks.checked l go = s.blocks.checked (l ++ [((s.blocks.orders.find
        tag).isNone, .noOrder)]) go := by
      intro l
      induction l with
      | nil =>
        simp only [go]
        cases s.blocks.orders.find tag <;> rfl
      | cons x rest ih =>
        obtain ⟨b, r⟩ := x
        cases b
        · exact ih
        · rfl
    exact key tests
  · exact List.rel_append same (.cons ⟨by simp, rfl⟩ .nil)
  · intro _ e2 o ho
    have : go = rest o := by simp [go, ho]
    rw [this] at e2
    exact done o ho e2

/-- The closed states (R118). -/
theorem closed_iff (o : Order) : o.state.closed = true ↔ o.state = .done ∨ o.state = .cancelled := by
  cases o.state <;> simp [OrderState.closed]

/-- With distinct tags an update changes one record. -/
theorem update_one {t : OrderTable} (ok : t.ok) {tag : Nat} {o : Order} (h : t.find tag = some o) (g : Order → Order) :
    t.update tag g = t.update tag fun _ => g o := by
  unfold OrderTable.update
  congr 1
  refine List.map_congr_left fun r hr => ?_
  dsimp only
  by_cases e : r.tag = tag
  · have := OrderTable.find_mem h
    have : r = o := ok.unique this.1 hr (e.trans this.2.symm)
    rw [this]
  · have : (r.tag == tag) = false := by simpa using e
    rw [this]; rfl

/-- An update that writes the record back changes nothing. -/
theorem update_same {t : OrderTable} (ok : t.ok) {tag : Nat} {o : Order} (h : t.find tag = some o) :
    (t.update tag fun _ => o) = t := by
  unfold OrderTable.update
  have : (t.records.map fun r => if r.tag == tag then o else r) = t.records := by
    conv_rhs => rw [← List.map_id t.records]
    refine List.map_congr_left fun r hr => ?_
    by_cases e : r.tag = tag
    · have om := OrderTable.find_mem h
      have : r = o := ok.unique om.1 hr (e.trans om.2.symm)
      rw [this]; simp
    · have : (r.tag == tag) = false := by simpa using e
      rw [this]; rfl
  rw [this]

/-- An accepted answer, followed. -/
theorem andThen_ok (b : Blocks) (g : Blocks → Blocks) : (b.answer .ok).andThen g =
    { result := .ok, payload := [], blocks := g b } := rfl

/-- A refused answer is not followed. -/
theorem andThen_refuse (b : Blocks) (g : Blocks → Blocks) (r : Result) (h : ¬ r.code.toNat < 0x10) : (b.refuse
    r).andThen g = b.refuse r := by
  unfold Answer.andThen
  rw [if_neg]
  exact h

/-- Tests that refuse, then what follows an acceptance. -/
theorem checked_andThen (b : Blocks) (tests : List (Bool × Result)) (go : Answer) (g : Blocks → Blocks) (h : ∀ x ∈
    tests, ¬ x.2.code.toNat < 0x10) :
    (b.checked tests go).andThen g = b.checked tests (go.andThen g) := by
  induction tests with
  | nil => rfl
  | cons x rest ih =>
    obtain ⟨f, r⟩ := x
    cases f
    · exact ih fun y hy => h y (List.mem_cons_of_mem _ hy)
    · exact andThen_refuse b g r (h _ (List.mem_cons_self ..))

/-- Whether a ticket is in flight rests on the tag and the form of the record alone. -/
theorem ticketInFlight_update {b : Blocks} {tag : Nat} {o : Order} (ok : b.orders.ok) (ho :
    b.orders.find tag = some o) (g : Order) (gt : g.tag = o.tag) (gf : g.form = o.form) :
    (b.withOrders (b.orders.update tag fun _ => g)).ticketInFlight = b.ticketInFlight := by
  unfold Blocks.ticketInFlight Blocks.currentOrder
  show (match b.controller.current.bind (b.orders.update tag fun _ => g).find with
    | some o => (b.form o.form).inFlight | none => false) = _
  cases b.controller.current with
  | none => rfl
  | some n =>
    have om := OrderTable.find_mem ho
    have : ∀ l : List Order, (∀ r ∈ l, r.tag = tag → r = o) → (match (l.map fun r => if r.tag == tag then g else
        r).find? (fun r => r.tag == n) with
        | some o => (b.form o.form).inFlight | none => false) = (match l.find? (fun r => r.tag == n) with
        | some o => (b.form o.form).inFlight | none => false) := by
      intro l
      induction l with
      | nil => intro _; rfl
      | cons x rest ih =>
        intro hx
        have ih := ih fun r hr => hx r (List.mem_cons_of_mem _ hr)
        have hx := hx x (List.mem_cons_self ..)
        by_cases e : x.tag = tag
        · have xo := hx e
          have : (x.tag == tag) = true := by simpa using e
          simp only [List.map_cons, this, if_true, List.find?_cons]
          rw [xo, gt]
          cases o.tag == n
          · exact ih
          · simp [gf]
        · have : (x.tag == tag) = false := by simpa using e
          simp only [List.map_cons, this, List.find?_cons, Bool.false_eq_true, if_false]
          cases x.tag == n
          · exact ih
          · rfl
    refine this b.orders.records ?_
    intro r hr e
    have om := OrderTable.find_mem ho
    exact ok.unique om.1 hr (e.trans om.2.symm)

/-- An updated record is found under its tag. -/
theorem find_update (t : OrderTable) (tag : Nat) (g : Order → Order) (hg : ∀ o, (g o).tag = o.tag) (o : Order) (h :
    t.find tag = some o) : (t.update tag g).find tag = some (g o) := by
  have := OrderTable.find_update hg h (tag := tag)
  rwa [if_pos (OrderTable.find_mem h).2] at this

/-- The end of work leaves the head, the paper and the Attention Unit. -/
theorem closeWork_blocks (b : Blocks) (halt : Option HaltReason) (st : ControllerState) : (b.closeWork halt st).head
    = b.head ∧ (b.closeWork halt st).paper = b.paper ∧ (b.closeWork halt st).attention = b.attention := by
  unfold Blocks.closeWork
  split <;> exact ⟨rfl, rfl, rfl⟩

/-- Feed steps keep the motion in flight and its tractor. -/
theorem steps_tractor (n : Nat) : ∀ (p : Paper) (m : Motion), p.motion = some m → ∃ k, (p.steps n).motion = some k ∧
    k.tractor = m.tractor := by
  induction n with
  | zero => intro p m e; exact ⟨m, e, rfl⟩
  | succ n ih =>
    intro p m e
    have : ∃ k, p.step.motion = some k ∧ k.tractor = m.tractor := by
      unfold Paper.step
      rw [e]
      dsimp only
      split
      · refine ⟨_, rfl, ?_⟩
        split <;> rfl
      · exact ⟨m, e, rfl⟩
    obtain ⟨k, e2, e3⟩ := this
    obtain ⟨k2, e4, e5⟩ := ih p.step k e2
    exact ⟨k2, e4, e5.trans e3⟩

/-- Two updates of one record are one (R115). -/
theorem update_update (t : OrderTable) (tag : Nat) (f g : Order → Order) (same : ∀ x, x.tag = tag → (f x).tag = tag) :
    (t.update tag f).update tag g = t.update tag fun x => g (f x) := by
  unfold OrderTable.update
  congr 1
  rw [List.map_map]
  refine List.map_congr_left fun x _ => ?_
  show (if (if x.tag == tag then f x else x).tag == tag then g (if x.tag == tag then f x else x)
    else (if x.tag == tag then f x else x)) = _
  by_cases e : x.tag = tag
  · have k : (x.tag == tag) = true := by simpa using e
    rw [k, if_pos rfl, if_pos (by simpa using same x e)]
    rfl
  · have k : (x.tag == tag) = false := by simpa using e
    rw [k]
    simp [k]

/-- The end of work that carries a halt, field by field (R124). -/
theorem Order.ended_fault (o : Order) (r : HaltReason) :
    o.ended (some r) =
      { o with
        state := if o.done = o.requested then .done else if o.cancelPending = true then .cancelled else .halted
        halt := if o.done = o.requested ∨ o.cancelPending = true then none else some r
        cancelPending := false
        reported := false } := by
  unfold Order.ended
  dsimp only
  by_cases d : o.done = o.requested
  · simp [d]
  · cases c : o.cancelPending <;> simp [d]

/-- What a fault report leaves (R155, R163). -/
theorem fault_faulted (b c : Blocks) (kind : FaultKind) (t : Option Tractor) (act : FaultActivity)
    (att : c.attention = b.attention) (con : c.controller = b.controller) (ord : c.orders = b.orders) (frm : c.forms
        = b.forms)
    (pl : c.pool = b.pool) (cp : c.composer = b.composer)
    (gl : c.glyphs = b.glyphs)
    (hd : b.controller.state = .faulted → ¬ kind = .jam →
      c.head.carriage.activity = .idle ∧ c.head.pass = none ∧ c.head.segment = none ∧ c.head.firing = 0)
    (jam : kind = .jam → c.head = b.head) (other : ¬ kind = .jam → c.paper = b.paper)
    (mo : ∀ m, b.paper.motion = some m → (c.paper.motion = none ∧ (c.paper.stock m.tractor).state = .lost ∧
        (c.paper.stock m.tractor).offset = none) ∨ ∃ n, c.paper.motion = some n ∧ n.tractor = m.tractor) :
    b.Faulted ((c.fault kind t act).settle) kind t act := by
  have fst : (c.fault kind t act).controller = if b.controller.state = .faulted then b.controller else
      { Controller.hardReset with state := .faulted } := by
    unfold Blocks.fault
    dsimp only
    rw [con]
    split
    · exact con
    · rw [Blocks.closeWork_controller]
  have work : (c.fault kind t act).atWork := by
    unfold Blocks.atWork
    rw [fst]
    split
    · rename_i z; rw [z]; simp
    · simp
  rw [work.settle]
  have fa : (c.fault kind t act).attention = b.attention.recordFault kind t act := by
    unfold Blocks.fault
    dsimp only
    split
    · show c.attention.recordFault _ _ _ = _; rw [att]
    · rw [(closeWork_blocks _ _ _).2.2, Blocks.voidTicket_attention]
      show c.attention.recordFault _ _ _ = _; rw [att]
  refine ⟨?_, ?_, rfl, fst, ?_, ?_, ?_, ?_, ?_, ?_⟩
  · show (c.fault kind t act).attention.faultRecord = _
    rw [fa]; rfl
  · intro nj
    show (c.fault kind t act).head.carriage.activity = _ ∧ (c.fault kind t act).head.pass = _ ∧ (c.fault kind t
      act).head.segment = _ ∧ (c.fault kind t act).head.firing = _
    unfold Blocks.fault
    dsimp only
    rw [con]
    split
    · rename_i f
      exact hd f fun k => nj ⟨f, k⟩
    · rw [(closeWork_blocks _ _ _).1, Blocks.voidTicket_head]
      refine ⟨Head.stop_idle _, Head.stop_pass _, ?_, Head.stop_firing _⟩
      show (Head.stop _).segment = none
      unfold Head.stop
      split <;> rfl
  · intro nf
    have pe : (c.fault kind t act).paper = c.paper.lose := by
      unfold Blocks.fault
      dsimp only
      rw [con, if_neg nf, (closeWork_blocks _ _ _).2.1, Blocks.voidTicket_paper]
      rfl
    show (c.fault kind t act).paper.motion = _ ∧ _
    refine ⟨by rw [pe]; exact Paper.lose_motion _, fun m e => ?_⟩
    show ((c.fault kind t act).paper.stock m.tractor).state = _ ∧ ((c.fault kind t act).paper.stock m.tractor).offset
        = _
    rw [pe]
    rcases mo m e with ⟨n, l⟩ | ⟨n, e2, e3⟩
    · rw [Paper.lose_other (by intro z y; rw [n] at y; cases y)]
      exact l
    · rw [← e3, Paper.lose_moving e2]
      exact ⟨rfl, rfl⟩
  · show (c.fault kind t act).orders = _
    by_cases nf : b.controller.state = .faulted
    · have e : (c.fault kind t act).orders = b.orders := by
        unfold Blocks.fault
        dsimp only
        rw [con, if_pos nf]
        exact ord
      rw [e]
      cases b.controller.current with
      | none => rfl
      | some tag => exact (if_pos nf).symm
    · let r := c.withAttention (c.attention.recordFault kind t act)
      let st := (r.withHead r.head.stop).withPaper r.paper.lose
      have fe : c.fault kind t act = st.voidTicket.closeWork (some .fault) .faulted := by
        unfold Blocks.fault
        dsimp only
        rw [con, if_neg nf]
        rfl
      have co : st.currentOrder = b.currentOrder := Blocks.currentOrder_congr (by show c.controller.current = _; rw [con]) ord
      have tf : st.ticketInFlight = b.ticketInFlight := by
        unfold Blocks.ticketInFlight
        rw [co]
        cases b.currentOrder with
        | none => rfl
        | some o => exact congrArg FormRecord.inFlight (Blocks.form_congr (show st.forms = b.forms from frm) _)
      have vt : st.voidTicket.controller.current = b.controller.current ∧
          st.voidTicket.controller.heldReason = b.controller.heldReason ∧
          ∀ tag, b.controller.current = some tag → st.voidTicket.orders =
            if b.ticketInFlight = true then b.orders.update tag fun x => x.counted false else b.orders := by
        unfold Blocks.voidTicket
        rw [co, tf]
        cases q : b.currentOrder with
        | none =>
          refine ⟨by show c.controller.current = _; rw [con], by show c.controller.heldReason = _; rw [con], fun tag _ => ?_⟩
          have : b.ticketInFlight = false := by unfold Blocks.ticketInFlight; rw [q]
          rw [this]
          exact ord
        | some o =>
          dsimp only
          have tg : ∀ tag, b.controller.current = some tag → o.tag = tag := by
            intro tag e
            unfold Blocks.currentOrder at q
            rw [e] at q
            exact (OrderTable.find_mem (show b.orders.find tag = some o from q)).2
          by_cases fl : b.ticketInFlight = true
          · rw [if_pos fl, Blocks.endTicket_controller, Blocks.endTicket_orders]
            refine ⟨by show c.controller.current = _; rw [con], by show c.controller.heldReason = _; rw [con], fun tag e => ?_⟩
            rw [if_pos fl, ← tg tag e]
            show c.orders.update o.tag _ = _
            rw [ord]
          · rw [if_neg fl]
            refine ⟨by show c.controller.current = _; rw [con], by show c.controller.heldReason = _; rw [con], fun tag e => ?_⟩
            rw [if_neg fl]
            exact ord
      rw [fe]
      unfold Blocks.closeWork
      rw [vt.1]
      cases q : b.controller.current with
      | none =>
        show st.voidTicket.orders = b.orders
        have : st.voidTicket = st := by
          have n : b.currentOrder = none := by unfold Blocks.currentOrder; rw [q]; rfl
          unfold Blocks.voidTicket
          rw [co, n]
        rw [this]
        exact ord
      | some tag =>
        dsimp only
        rw [if_neg nf]
        show OrderTable.endWork _ tag _ = _
        unfold OrderTable.endWork Controller.reason
        rw [vt.2.2 tag q]
        show OrderTable.update _ tag (fun o => o.ended (some (st.voidTicket.controller.heldReason.getD .fault))) = _
        rw [vt.2.1]
        by_cases fl : b.ticketInFlight = true
        · rw [if_pos fl, update_update _ _ (fun x => x.counted false) _ (fun _ e => e)]
          refine congrArg (b.orders.update tag) (funext fun x => ?_)
          simp only [fl, true_and]
          exact Order.ended_fault (x.counted false) _
        · rw [if_neg fl]
          refine congrArg (b.orders.update tag) (funext fun x => ?_)
          simp only [fl, false_and]
          exact Order.ended_fault x _
  all_goals
    let r := c.withAttention (c.attention.recordFault kind t act)
    let st := (r.withHead r.head.stop).withPaper r.paper.lose
    have co2 : st.currentOrder = b.currentOrder := Blocks.currentOrder_congr (by show c.controller.current = _; rw [con]) ord
    have fo : ∀ f, st.form f = b.form f := fun f => Blocks.form_congr (show st.forms = b.forms from frm) f
    have tf : st.ticketInFlight = b.ticketInFlight := by
      unfold Blocks.ticketInFlight
      rw [co2]
      cases b.currentOrder
      · rfl
      · exact congrArg FormRecord.inFlight (fo _)
    have cw : ∀ d : Blocks, (d.closeWork (some .fault) .faulted).forms = d.forms ∧
        (d.closeWork (some .fault) .faulted).pool = d.pool ∧
        (d.closeWork (some .fault) .faulted).composer = d.composer := by
      intro d
      unfold Blocks.closeWork
      split <;> exact ⟨rfl, rfl, rfl⟩
    have fe : ¬ b.controller.state = .faulted → c.fault kind t act = st.voidTicket.closeWork (some .fault) .faulted := by
      intro nf
      unfold Blocks.fault
      dsimp only
      rw [con, if_neg nf]
      rfl
  · intro nf fl o co
    have vt : st.voidTicket = st.endTicket o false := by
      unfold Blocks.voidTicket
      rw [co2, co]
      dsimp only
      rw [tf, if_pos fl]
    show (c.fault kind t act).forms = _ ∧ (c.fault kind t act).pool = _ ∧ (c.fault kind t act).composer = _
    rw [fe nf, (cw _).1, (cw _).2.1, (cw _).2.2, vt, Blocks.endTicket_forms, Blocks.endTicket_pool,
      Blocks.endTicket_composer]
    refine ⟨?_, ?_, rfl⟩
    · rw [fo]
      show c.forms.set _ _ = _
      rw [frm]
      simp
    · unfold Blocks.ticketPool
      show (c.pool.map fun x => if x.form = o.form then
        { (if x.field ∈ c.controller.struck then x.advance else x) with
          body := (if x.field ∈ c.controller.struck then x.advance else x).body.applyStaged } else x) = _
      rw [pl, con]
  · intro q
    show (c.fault kind t act).forms = _ ∧ (c.fault kind t act).pool = _ ∧ (c.fault kind t act).composer = _
    by_cases nf : b.controller.state = .faulted
    · unfold Blocks.fault
      dsimp only
      rw [con, if_pos nf]
      exact ⟨frm, pl, cp⟩
    · have fl := q.resolve_left nf
      rw [fe nf, (cw _).1, (cw _).2.1, (cw _).2.2, Blocks.voidTicket_none (tf.trans fl)]
      exact ⟨frm, pl, cp⟩
  · show (c.fault kind t act).glyphs = _
    by_cases nf : b.controller.state = .faulted
    · unfold Blocks.fault
      dsimp only
      rw [con, if_pos nf]
      exact gl
    · have cg : ∀ d : Blocks, (d.closeWork (some .fault) .faulted).glyphs = d.glyphs := by
        intro d
        unfold Blocks.closeWork
        split <;> rfl
      rw [fe nf, cg, Blocks.voidTicket_glyphs]
      exact gl
  · intro f
    show (kind = .jam → (c.fault kind t act).head = _) ∧ (¬ kind = .jam → (c.fault kind t act).paper = _)
    unfold Blocks.fault
    dsimp only
    rw [con, if_pos f]
    exact ⟨jam, other⟩

/-- The tractor whose stock alone carries a form is its carrier (R12). -/
theorem carrier_some {p : Paper} {t : Tractor} {f : Nat} (h : (p.stock t).form = some f)
    (n : ¬ (p.stock t.other).form = some f) : p.carrier f = some t := by
  unfold Paper.carrier
  cases t
  · exact if_pos h
  · exact (if_neg n).trans (if_pos h)

/-- A form that no stock carries has no carrier (R12). -/
theorem carrier_none {p : Paper} {f : Nat} (h : ∀ t, ¬ (p.stock t).form = some f) : p.carrier f = none := by
  unfold Paper.carrier
  exact (if_neg (h .a)).trans (if_neg (h .b))

/-- A motion begins on its course (R97). -/
theorem Blocks.beginMotion_feeding (b : Blocks) (t : Tractor) (kind : MotionKind) (count : Nat) (q : Requester)
    (phase : Nat) {c : Course} (h : courseOf t (b.paper.stock t) (b.stockLength t) kind count = c) :
    b.beginMotion t kind count q phase = b.feeding t c.kind c.direction c.steps q phase := by
  unfold Blocks.beginMotion
  rw [h]
  cases t <;> rfl

/-- RETRACT of a stock whose trailing edge stays behind the load mark (R98). -/
theorem course_retract_stays {k : Tractor} {x : Stock} {n c : Nat}
    (h : ∀ r, x.endRemaining = some r → r + 432 ≤ k.distance) :
    courseOf k x n .retract c = { kind := .retract, direction := .reverse, steps := 432 } := by
  unfold courseOf Course.converted
  cases e : x.endRemaining with
  | none => rfl
  | some r =>
    have := h r e
    dsimp only
    rw [if_neg (show ¬ k.distance < r + Config.tearDistance by show ¬ _ < r + 432; omega)]

/-- RETRACT of a stock whose trailing edge would pass the load mark is an ejection (R98, R99). -/
theorem course_retract_passes {k : Tractor} {x : Stock} {n c r : Nat} (e : x.endRemaining = some r)
    (h : k.distance < r + 432) :
    courseOf k x n .retract c = { kind := .eject, direction := .forward, steps := r + 48 } := by
  unfold courseOf Course.converted
  simp only [e]
  rw [if_pos (show k.distance < r + Config.tearDistance from h)]
  cases r <;> simp [Course.ejection]

/-- A motion requested of a stock that meets its need begins (R98). -/
theorem askMotion_begins {b : Blocks} {t : Tractor} {k : MotionKind} {n : Nat} {c : Course}
    (need : b.paper.meetsNeed t k = true) (h : courseOf t (b.paper.stock t) (b.stockLength t) k n = c) :
    b.askMotion t k n = b.feeding t c.kind c.direction c.steps .issue 0 := by
  unfold Blocks.askMotion Blocks.requestMotion
  rw [if_pos need]
  exact Blocks.beginMotion_feeding b t k n .issue 0 h

/-- Composing a line writes the composer alone (R54). -/
theorem Blocks.compose_with (b : Blocks) (f n : Nat) : b.compose f n = b.withComposer (b.compose f n).composer := by
  unfold Blocks.compose
  simp

/-- The stock of the current order. -/
theorem orderTractor_of {b : Blocks} {o : Order} {t : Tractor} (cur : b.currentOrder = some o)
    (h : (b.paper.stock t).form = some o.form) (n : ¬ (b.paper.stock t.other).form = some o.form) : b.orderTractor = some t := by
  unfold Blocks.orderTractor
  rw [cur]
  exact carrier_some h n

/-- A motion requested of the stock of the current order begins (R98). -/
theorem askOwn_begins {b : Blocks} {o : Order} {t : Tractor} {k : MotionKind} {n : Nat} {c : Course}
    (cur : b.currentOrder = some o) (h : (b.paper.stock t).form = some o.form) (ne : ¬ (b.paper.stock t.other).form = some o.form)
    (need : b.paper.meetsNeed t k = true) (e : courseOf t (b.paper.stock t) (b.stockLength t) k n = c) :
    b.askOwn k n = b.feeding t c.kind c.direction c.steps .issue 0 := by
  unfold Blocks.askOwn
  rw [orderTractor_of cur h ne]
  exact askMotion_begins need e

/-- What a motion leaves once its steps to go are made (R96, R98 to R100). -/
theorem landMotion_ended (b : Blocks) (m : Motion) : b.landMotion m = b.motionEnded m ∧
    (m.endsEjected (b.paper.stock m.tractor).endRemaining = true ↔ b.endsOut m) := by
  have out : m.endsEjected (b.paper.stock m.tractor).endRemaining = true ↔ b.endsOut m := by
    unfold Motion.endsEjected Motion.runsOut Blocks.endsOut
    rw [Bool.or_eq_true, beq_iff_eq]
    refine or_congr Iff.rfl ?_
    cases m.direction <;> cases (b.paper.stock m.tractor).endRemaining <;> simp
  refine ⟨?_, out⟩
  unfold Blocks.landMotion Blocks.motionEnded
  dsimp only
  by_cases c : m.endsEjected (b.paper.stock m.tractor).endRemaining = true
  · rw [if_pos c, if_pos (out.1 c)]
    have e : m.landed (b.paper.stock m.tractor) (b.stockLength m.tractor) (b.paper.sensor m.tractor) =
        Stock.ejected (b.paper.sensor m.tractor) := if_pos c
    rw [e]
    cases b.paper.sensor m.tractor
    · simp [Blocks.latch, Attention.latchPaper, Stock.ejected, Blocks.withPaper, Blocks.withAttention, PaperEvent.bit]
    · cases m.tractor <;> simp [Blocks.latch, Attention.latchPaper, Stock.ejected, Blocks.withPaper,
        Blocks.withAttention, PaperEvent.bit, Attention.setPaperSet, Attention.paperSet]
  · rw [if_neg c, if_neg (fun z => c (out.2 z))]
    have e : m.landed (b.paper.stock m.tractor) (b.stockLength m.tractor) (b.paper.sensor m.tractor) =
        { b.paper.stock m.tractor with
          state := (b.endOf m).1
          offset := (b.endOf m).2
          endRemaining := m.endLeft (b.paper.stock m.tractor).endRemaining } := if_neg c
    have l : m.endLeft (b.paper.stock m.tractor).endRemaining = (b.paper.stock m.tractor).endRemaining.map fun r =>
        if m.direction = .forward then r - m.toGo else r + m.toGo := by
      unfold Motion.endLeft
      cases (b.paper.stock m.tractor).endRemaining
      · rfl
      · cases m.direction <;> rfl
    rw [e, l]
    rfl

/-- The end of a motion changes neither the path's waiting mark nor the other stock. -/
theorem motionEnded_frame (b : Blocks) (m : Motion) : (b.motionEnded m).paper.waiting = b.paper.waiting ∧
    (b.motionEnded m).paper.motion = none ∧
    (b.motionEnded m).paper.stock m.tractor.other = b.paper.stock m.tractor.other ∧
    (b.motionEnded m).controller = b.controller ∧ (b.motionEnded m).orders = b.orders := by
  unfold Blocks.motionEnded
  dsimp only
  split <;> cases m.tractor <;> exact ⟨rfl, rfl, rfl, rfl, rfl⟩

/-- A motion that can finish is carried to its end, and its requester takes it (R100). -/
theorem motionComplete_ends {b : Blocks} {m : Motion} (e : b.paper.motion = some m) (fin : m.jamCount + min m.toGo 1 < 96) :
    b.motionComplete = ((b.motionEnded m).answerMotion m (b.orderTractor == some m.tractor)
      (m.endsEjected (b.paper.stock m.tractor).endRemaining)).settle := by
  unfold Blocks.motionComplete
  rw [e]
  dsimp only
  rw [if_pos (by unfold Motion.finishes; exact decide_eq_true fin), (landMotion_ended b m).1]

/-- A reverse motion of a stock that runs out is an ejection (R99). -/
theorem turnedBack_motion (p : Paper) (u : Tractor) (r : Nat) : p.turnedBack u r =
    { p with
      motion := p.motion.map fun m =>
        if m.tractor = u ∧ m.direction = .reverse then { m with kind := .eject, direction := .forward, toGo := r + 48 }
        else m } := by
  obtain ⟨a, c, i, m, f, w⟩ := p
  cases m with
  | none => rfl
  | some m =>
    unfold Paper.turnedBack
    dsimp only [Option.map_some]
    split <;> rfl

/-- Paper that goes from a stock in the path runs out (R96). -/
theorem ranOut_goes {b : Blocks} {u : Tractor} (h : (b.paper.stock u).state = .moving ∨
    (b.paper.stock u).state = .atPrint ∨ (b.paper.stock u).state = .presented)
    (n : (b.paper.stock u).endRemaining = none) : b.paperGoes u = b.ranOut u ∧ b.paper.endComes u = true := by
  have e : b.paperGoes u = (b.withPaper ((b.paper.setStock u
      { b.paper.stock u with endRemaining := some u.distance }).turnedBack u u.distance)).latch u .ended := by
    unfold Blocks.paperGoes
    dsimp only
    rcases h with h | h | h <;> rw [h, n]
  refine ⟨e.trans ?_, ?_⟩
  · rw [turnedBack_motion]
    cases u <;> rfl
  · unfold Paper.endComes
    dsimp only
    rcases h with h | h | h <;> rw [h, n] <;> rfl

/-- A stock that runs out keeps its form and its position (R96, R147). -/
theorem ranOut_frame (b : Blocks) (u : Tractor) : (∀ f, (b.ranOut u).paper.carrier f = b.paper.carrier f) ∧
    ((b.ranOut u).paper.stock u).endRemaining = some u.distance ∧
    ((∀ m, b.paper.motion = some m → m.tractor = u → m.direction = .forward) → (b.ranOut u).paper.position u =
      match b.paper.motion with
      | some m => if m.tractor = u then m.startOffset.getD 0 + m.done else (b.paper.stock u).offset.getD 0
      | none => (b.paper.stock u).offset.getD 0) := by
  refine ⟨fun f => by cases u <;> rfl, by cases u <;> rfl, fun fw => ?_⟩
  have o : ((b.ranOut u).paper.stock u).offset = (b.paper.stock u).offset := by cases u <;> rfl
  unfold Paper.position
  rw [o]
  show (match (b.paper.motion.map fun m => if m.tractor = u ∧ m.direction = .reverse then
    { m with kind := .eject, direction := .forward, toGo := u.distance + 48 } else m) with | some m => _ | none => _) = _
  cases e : b.paper.motion with
  | none => rfl
  | some m =>
    have d := fw m e
    have same : (if m.tractor = u ∧ m.direction = .reverse then
        { m with kind := .eject, direction := .forward, toGo := u.distance + 48 } else m) = m :=
      if_neg fun z => by
        have := z.2
        rw [d z.1] at this
        cases this
    rw [Option.map_some, same]
    by_cases t : m.tractor = u
    · exact (if_pos ⟨t, d t⟩).trans (if_pos t).symm
    · exact (if_neg fun z => t z.1).trans (if_neg t).symm

/-- In PAUSED settling takes a closed cover and stops the idle timer, and starts no order (R135, R153, R168). -/
theorem paused_settled {b c : Blocks} (t : b.takeClosedCover = c) (st : c.controller.state = .paused) : b.settle = c.stopIdle := by
  unfold Blocks.settle
  rw [t]
  dsimp only
  have n : Blocks.startOrders (c.orders.records.length + 1) c = c := by
    unfold Blocks.startOrders Blocks.mayStart
    rw [st]
    rfl
  rw [n]
  unfold Blocks.settleIdle Blocks.atRest
  rw [st]
  rfl

/-- A pass that has ended while a void motion is held enters VOIDING (R140, R148). -/
theorem headAnswered_voids {b : Blocks} (st : b.controller.state = .printing) (aw : b.controller.awaitsHoming = false)
    (ph : b.controller.phase = .pass) (np : b.head.pass = none) (v : b.controller.voidMotion.isSome = true) :
    b.headAnswered = b.enterVoiding := by
  unfold Blocks.headAnswered
  rw [st]
  dsimp only
  rw [if_neg (by rw [aw]; simp), if_pos ph, if_pos (by rw [np]; rfl)]
  unfold Blocks.passOver
  rw [if_pos v]

end Sys2Proof.Machine
end

