-- ==== Sys2Proof/Laws/Moves.lean ====
section
/-! SUPPORT. The steps left of a carriage move and of a feed motion, and when a stall and a jam come of them. -/

set_option Elab.async false

namespace Sys2Proof.Machine

/-- A carriage step of a move with steps left (R67, R70). -/
theorem Head.step_left {image : List Dots} {seen : Bool} {h : Head}
    (reach : h.carriage.activity = .approach → h.target ≤ 1599) (few : h.stallCount < 16) (left : 0 < h.stepsLeft seen) :
    (h.step image seen).carriage.activity = h.carriage.activity ∧
      (h.carriage.activity = .approach → (h.step image seen).target = h.target) ∧
      (h.step image seen).stallCount = h.stallCount + 1 ∧
      (h.step image seen).stepsLeft seen = h.stepsLeft seen - 1 := by
  have go : h.canStep seen = true → h.step image seen = { h.move image with stallCount := h.stallCount + 1 } := by
    intro can
    unfold Head.step
    rw [if_pos]
    rw [can]
    exact decide_eq_true few
  have idle : h.stepsLeft seen = 0 → False := fun z => by omega
  cases a : h.carriage.activity
  case idle => exact absurd (by unfold Head.stepsLeft; rw [a]) idle
  case dwell => exact absurd (by unfold Head.stepsLeft; rw [a]) idle
  case suspended => exact absurd (by unfold Head.stepsLeft; rw [a]) idle
  case homing =>
    have l : h.stepsLeft seen = if seen = true then 0 else 1700 - h.homingSteps := by unfold Head.stepsLeft; rw [a]
    rw [l] at left ⊢
    cases seen
    · rw [if_neg (by simp)] at left ⊢
      have m : h.move image = { h with carriage := h.carriage.left, homingSteps := h.homingSteps + 1, firing := 0 } := by
        unfold Head.move; rw [a]
      rw [go (by unfold Head.canStep; rw [a]; simp [Config.homingLimit]; omega), m]
      refine ⟨a, (fun z => by cases z), rfl, ?_⟩
      unfold Head.stepsLeft Carriage.left
      dsimp only
      rw [a]
      dsimp only
      rw [if_neg (by simp)]
      omega
    · simp at left
  case approach =>
    have l : h.stepsLeft seen = (h.target - h.carriage.coordinate) + (h.carriage.coordinate - h.target) := by
      unfold Head.stepsLeft; rw [a]
    rw [l] at left ⊢
    have r := reach a
    have fixed : ∀ (c : Carriage) (n : Nat), Head.target { h with carriage := c, firing := 0, stallCount := n } = h.target := by
      intro c n
      unfold Head.target at left ⊢
      dsimp only
      cases hp : h.pass with
      | none => rw [hp] at left; simp at left
      | some p =>
        rw [hp] at left
        dsimp only at left ⊢
        cases hd : p.direction with
        | none => rw [hd] at left; simp at left
        | some d => rfl
    have can : h.canStep seen = true := by
      unfold Head.canStep
      rw [a]
      simp
      omega
    by_cases lt : h.carriage.coordinate < h.target
    · have m : h.move image = { h with carriage := h.carriage.right, firing := 0 } := by
        unfold Head.move; rw [a]; dsimp only; rw [if_pos lt]
      rw [go can, m]
      refine ⟨a, fun _ => fixed _ _, rfl, ?_⟩
      have : Head.stepsLeft seen { h with carriage := h.carriage.right, firing := 0, stallCount := h.stallCount + 1 } =
          (h.target - h.carriage.right.coordinate) + (h.carriage.right.coordinate - h.target) := by
        unfold Head.stepsLeft
        dsimp only
        rw [show h.carriage.right.activity = .approach from a, fixed]
      rw [this]
      show (_ - min (h.carriage.coordinate + 1) 1599) + (min (h.carriage.coordinate + 1) 1599 - _) = _
      omega
    · have m : h.move image = { h with carriage := h.carriage.left, firing := 0 } := by
        unfold Head.move; rw [a]; dsimp only; rw [if_neg lt]
      rw [go can, m]
      refine ⟨a, fun _ => fixed _ _, rfl, ?_⟩
      have : Head.stepsLeft seen { h with carriage := h.carriage.left, firing := 0, stallCount := h.stallCount + 1 } =
          (h.target - h.carriage.left.coordinate) + (h.carriage.left.coordinate - h.target) := by
        unfold Head.stepsLeft
        dsimp only
        rw [show h.carriage.left.activity = .approach from a, fixed]
      rw [this]
      show (_ - (h.carriage.coordinate - 1)) + ((h.carriage.coordinate - 1) - _) = _
      omega
  case segment =>
    cases e : h.segment with
    | none => exact absurd (by unfold Head.stepsLeft; rw [a]; dsimp only; rw [e]) idle
    | some g =>
      have l : h.stepsLeft seen = g.last + 1 - g.first - g.traversed := by
        unfold Head.stepsLeft; rw [a]; dsimp only; rw [e]
      rw [l] at left ⊢
      have m : h.move image = h.segmentStep image g := by
        unfold Head.move; rw [a]; dsimp only; rw [e]
      have can : h.canStep seen = true := by
        unfold Head.canStep
        rw [a]
        dsimp only
        rw [e]
        exact decide_eq_true (by unfold Segment.columns; omega)
      have ac : (h.segmentStep image g).carriage.activity = .segment := by
        unfold Head.segmentStep
        dsimp only
        cases h.direction <;> exact a
      rw [go can, m]
      refine ⟨ac, fun z => (by cases z), rfl, ?_⟩
      unfold Head.stepsLeft
      dsimp only
      rw [ac]
      show g.last + 1 - g.first - (g.traversed + 1) = _
      omega

/-- No carriage step is made where none is left (R67). -/
theorem Head.step_none {image : List Dots} {seen : Bool} {h : Head} (left : h.stepsLeft seen = 0) :
    h.step image seen = h := by
  have can : h.canStep seen = false := by
    unfold Head.stepsLeft at left
    unfold Head.canStep
    revert left
    cases h.carriage.activity <;> intro left <;> dsimp only at left ⊢
    case homing =>
      cases seen
      · simp at left; simp [Config.homingLimit]; omega
      · rfl
    case approach =>
      simp
      omega
    case segment =>
      cases e : h.segment with
      | none => rfl
      | some g =>
        rw [e] at left
        exact decide_eq_false (by unfold Segment.columns; dsimp only at left; omega)
  unfold Head.step
  rw [can]
  rfl

/-- The stall count after up to `n` carriage steps with no CFB pulse (R70). -/
theorem Head.steps_stallCount (image : List Dots) (seen : Bool) : ∀ (n : Nat) (h : Head),
    (h.carriage.activity = .approach → h.target ≤ 1599) → h.stallCount ≤ 16 →
      (h.steps image seen n).stallCount = min 16 (h.stallCount + min n (h.stepsLeft seen)) := by
  intro n
  induction n with
  | zero => intro h _ few; show h.stallCount = _; omega
  | succ n ih =>
    intro h reach few
    show ((h.step image seen).steps image seen n).stallCount = _
    by_cases z : h.stepsLeft seen = 0
    · rw [Head.step_none z, ih h reach few]; omega
    · by_cases full : h.stallCount = 16
      · have : h.step image seen = h := by
          unfold Head.step
          rw [if_neg]
          rw [Bool.and_eq_true, decide_eq_true_iff]
          rintro ⟨_, y⟩
          unfold Config.stallLimit at y
          omega
        rw [this, ih h reach few]; omega
      · obtain ⟨ac, tg, sc, sl⟩ := Head.step_left (image := image) reach (by omega) (Nat.pos_of_ne_zero z)
        rw [ih _ (fun x => by rw [ac] at x; rw [tg x]; exact reach x) (by omega), sc, sl]
        omega

/-- A stall comes exactly where the steps left bring the count to sixteen (R70). -/
theorem Head.stalling_iff {image : List Dots} {seen : Bool} {h : Head}
    (reach : h.carriage.activity = .approach → h.target ≤ 1599) :
    (h.carriage.activity.moves = true → 16 ≤ h.stallCount + h.stepsLeft seen → ∃ g, h.stalling image seen = some g) ∧
      (h.carriage.activity.moves = false ∨ h.stallCount + h.stepsLeft seen < 16 → h.stalling image seen = none) := by
  have count : h.stallCount ≤ 16 → (h.steps image seen (16 - h.stallCount)).stallCount =
      min 16 (h.stallCount + min (16 - h.stallCount) (h.stepsLeft seen)) := Head.steps_stallCount image seen _ h reach
  refine ⟨fun mv ge => ?_, fun lt => ?_⟩
  · refine ⟨h.steps image seen (16 - h.stallCount), ?_⟩
    unfold Head.stalling
    rw [if_pos mv]
    dsimp only [Config.stallLimit]
    rw [if_pos]
    by_cases c : h.stallCount ≤ 16
    · rw [count c]; omega
    · rw [show 16 - h.stallCount = 0 by omega]
      show 16 ≤ h.stallCount
      omega
  · unfold Head.stalling
    by_cases mv : h.carriage.activity.moves = true
    · rw [if_pos mv]
      have lt := lt.resolve_left (by rw [mv]; simp)
      dsimp only [Config.stallLimit]
      rw [if_neg]
      rw [count (by omega)]
      omega
    · rw [if_neg mv]

/-- A feed step of a motion with steps left (R92, R96, R99). -/
theorem Paper.step_left {p : Paper} {m : Motion} (e : p.motion = some m) (few : m.jamCount < 96)
    (left : 0 < m.stepsLeft (p.stock m.tractor).endRemaining) :
    ∃ k, p.step.motion = some k ∧ k.jamCount = m.jamCount + 1 ∧
      k.stepsLeft (p.step.stock k.tractor).endRemaining = m.stepsLeft (p.stock m.tractor).endRemaining - 1 := by
  have go : 0 < m.toGo := by
    unfold Motion.stepsLeft at left
    split at left
    · split at left <;> omega
    · exact left
  have st : p.step = { p.setStock m.tractor { p.stock m.tractor with
        endRemaining := endAfterStep m.direction (p.stock m.tractor).endRemaining } with
      motion := some (if m.direction = .forward ∧ ¬ m.kind = .eject ∧
          endAfterStep m.direction (p.stock m.tractor).endRemaining = some 0 ∧ 0 < m.toGo - 1 then
        { m with done := m.done + 1, jamCount := m.jamCount + 1, kind := .eject, direction := .forward, toGo := 48 }
        else { m with done := m.done + 1, toGo := m.toGo - 1, jamCount := m.jamCount + 1 }) } := by
    unfold Paper.step
    rw [e]
    dsimp only
    rw [if_pos (by rw [decide_eq_true go]; exact decide_eq_true few)]
    rfl
  rw [st]
  refine ⟨_, rfl, ?_, ?_⟩
  · split <;> rfl
  · have er : ∀ (q : Option Motion) (x : Stock) (k : Motion), k.tractor = m.tractor →
        k.stepsLeft ({ p.setStock m.tractor x with motion := q }.stock k.tractor).endRemaining = k.stepsLeft x.endRemaining := by
      intro q x k t
      rw [t]
      cases m.tractor <;> rfl
    rw [er _ _ _ (by split <;> rfl)]
    dsimp only
    cases q : (p.stock m.tractor).endRemaining with
    | none =>
      rw [show endAfterStep m.direction none = none from rfl, if_neg (by simp)]
      rfl
    | some r =>
      cases d : m.direction
      · have ea : endAfterStep .forward (some r) = some (r - 1) := rfl
        rw [ea]
        by_cases k : m.kind = .eject
        · rw [if_neg (by simp [k])]
          unfold Motion.stepsLeft
          dsimp only
          rw [if_neg (by simp [k]), if_neg (by simp [k])]
        · by_cases one : r ≤ 1
          · by_cases more : 0 < m.toGo - 1
            · rw [if_pos ⟨rfl, k, by rw [show r - 1 = 0 by omega], more⟩]
              unfold Motion.stepsLeft
              dsimp only
              rw [if_neg (by simp), if_pos ⟨d, k, by omega⟩]
              omega
            · rw [if_neg (fun z => more z.2.2.2)]
              unfold Motion.stepsLeft
              dsimp only
              rw [if_neg (by omega), if_neg (by omega)]
          · rw [if_neg (by simp; omega)]
            unfold Motion.stepsLeft
            dsimp only
            by_cases run : max r 1 < m.toGo
            · rw [if_pos ⟨rfl, k, by omega⟩, if_pos ⟨d, k, run⟩]
              omega
            · rw [if_neg (by omega), if_neg (by omega)]
      · rw [if_neg (by simp)]
        unfold Motion.stepsLeft
        dsimp only [endAfterStep]
        rw [if_neg (by simp), if_neg (by simp [d])]

/-- The jam count after up to `n` feed steps with no PMS pulse (R101). -/
theorem Paper.steps_jamCount : ∀ (n : Nat) (p : Paper) (m : Motion), p.motion = some m → m.jamCount ≤ 96 →
    ∃ k, (p.steps n).motion = some k ∧
      k.jamCount = min 96 (m.jamCount + min n (m.stepsLeft (p.stock m.tractor).endRemaining)) := by
  intro n
  induction n with
  | zero => intro p m e few; exact ⟨m, e, by omega⟩
  | succ n ih =>
    intro p m e few
    show ∃ k, (p.step.steps n).motion = some k ∧ _
    by_cases z : m.stepsLeft (p.stock m.tractor).endRemaining = 0 ∨ m.jamCount = 96
    · have : p.step = p := by
        unfold Paper.step
        rw [e]
        dsimp only
        rw [if_neg]
        rw [Bool.and_eq_true, decide_eq_true_iff, decide_eq_true_iff]
        rintro ⟨x, y⟩
        rcases z with z | z
        · unfold Motion.stepsLeft at z
          split at z
          · split at z <;> omega
          · omega
        · unfold Config.jamLimit at y
          omega
      rw [this]
      obtain ⟨k, e1, e2⟩ := ih p m e few
      exact ⟨k, e1, by omega⟩
    · obtain ⟨k, e1, e2, e3⟩ := Paper.step_left e (by omega) (by omega)
      obtain ⟨k2, e4, e5⟩ := ih _ k e1 (by omega)
      exact ⟨k2, e4, by omega⟩

/-- Feed steps that are all made change nothing of the stocks but the end remaining of the one that moves, which they count
(R92, R96). -/
theorem Paper.steps_counted : ∀ (n : Nat) (p : Paper) (m : Motion), p.motion = some m →
    n ≤ m.stepsLeft (p.stock m.tractor).endRemaining → m.jamCount + n ≤ 96 →
      ∃ k, p.steps n = { p.setStock m.tractor { p.stock m.tractor with
          endRemaining := (p.stock m.tractor).endRemaining.map fun r =>
            if m.direction = .forward then r - n else r + n } with motion := some k } ∧
        k.tractor = m.tractor ∧ k.jamCount = m.jamCount + n := by
  intro n
  induction n with
  | zero =>
    intro p m e _ _
    refine ⟨m, ?_, rfl, rfl⟩
    have same : (p.stock m.tractor).endRemaining.map (fun r => if m.direction = .forward then r - 0 else r + 0) =
        (p.stock m.tractor).endRemaining := by
      cases (p.stock m.tractor).endRemaining with
      | none => rfl
      | some r => simp
    rw [same]
    show p = _
    cases p
    dsimp only at e
    subst e
    cases m.tractor <;> rfl
  | succ n ih =>
    intro p m e left jam
    obtain ⟨k, e1, e2, e3⟩ := Paper.step_left e (by omega) (by omega)
    obtain ⟨k', st, dir⟩ : ∃ k', p.step = { p.setStock m.tractor { p.stock m.tractor with
        endRemaining := endAfterStep m.direction (p.stock m.tractor).endRemaining } with motion := some k' } ∧
        k'.tractor = m.tractor ∧ k'.direction = m.direction := by
      have go : 0 < m.toGo := by
        unfold Motion.stepsLeft at left
        split at left
        · split at left <;> omega
        · omega
      unfold Paper.step
      rw [e]
      dsimp only
      rw [if_pos (by rw [decide_eq_true go]; exact decide_eq_true (show m.jamCount < 96 by omega))]
      refine ⟨_, rfl, ?_⟩
      split
      · rename_i c
        exact ⟨rfl, c.1.symm⟩
      · exact ⟨rfl, rfl⟩
    have kk : k = k' := by
      rw [st] at e1
      exact (Option.some.inj e1).symm
    subst kk
    obtain ⟨j, f1, f2, f3⟩ := ih p.step k e1 (by omega) (by omega)
    refine ⟨j, ?_, f2.trans dir.1, by omega⟩
    show p.step.steps n = _
    rw [f1, st, dir.1, dir.2]
    have ends : ((endAfterStep m.direction (p.stock m.tractor).endRemaining).map fun r =>
        if m.direction = .forward then r - n else r + n) =
        (p.stock m.tractor).endRemaining.map fun r => if m.direction = .forward then r - (n + 1) else r + (n + 1) := by
      cases (p.stock m.tractor).endRemaining with
      | none => rfl
      | some r =>
        cases m.direction
        · exact congrArg some (show r - 1 - n = r - (n + 1) by omega)
        · exact congrArg some (show r + 1 + n = r + (n + 1) by omega)
    rw [← ends]
    cases m.tractor <;> rfl

/-- A jam loses the stock with its end remaining counted up to the jam (R96, R101). -/
theorem Paper.jamming_lose {p q : Paper} {m : Motion} (e : p.motion = some m) (j : p.jamming = some q)
    (ge : 96 ≤ m.jamCount + m.stepsLeft (p.stock m.tractor).endRemaining) :
    q.lose = { p.setStock m.tractor { p.stock m.tractor with
        state := .lost
        offset := none
        endRemaining := (p.stock m.tractor).endRemaining.map fun r =>
          if m.direction = .forward then r - (96 - m.jamCount) else r + (96 - m.jamCount) } with
      motion := none, waiting := false } := by
  have fin : ∃ k, q = { p.setStock m.tractor { p.stock m.tractor with
      endRemaining := (p.stock m.tractor).endRemaining.map fun r =>
        if m.direction = .forward then r - (96 - m.jamCount) else r + (96 - m.jamCount) } with motion := some k } ∧
      k.tractor = m.tractor := by
    have qe : q = p.steps (96 - m.jamCount) := by
      unfold Paper.jamming at j
      rw [e] at j
      dsimp only [Config.jamLimit] at j
      split at j
      · split at j
        · exact (Option.some.inj j).symm
        · cases j
      · cases j
    rw [qe]
    by_cases c : m.jamCount ≤ 96
    · obtain ⟨k, f1, f2, _⟩ := Paper.steps_counted (96 - m.jamCount) p m e (by omega) (by omega)
      exact ⟨k, f1, f2⟩
    · rw [show 96 - m.jamCount = 0 by omega]
      refine ⟨m, ?_, rfl⟩
      have same : (p.stock m.tractor).endRemaining.map (fun r => if m.direction = .forward then r - 0 else r + 0) =
          (p.stock m.tractor).endRemaining := by
        cases (p.stock m.tractor).endRemaining with
        | none => rfl
        | some r => simp
      rw [same]
      show p = _
      cases p
      dsimp only at e
      subst e
      cases m.tractor <;> rfl
  obtain ⟨k, f1, f2⟩ := fin
  rw [f1]
  unfold Paper.lose
  dsimp only
  rw [f2]
  cases m.tractor <;> rfl

/-- A jam comes exactly where the steps left bring the count to 96 (R101). -/
theorem Paper.jamming_iff {p : Paper} {m : Motion} (e : p.motion = some m) :
    (96 ≤ m.jamCount + m.stepsLeft (p.stock m.tractor).endRemaining → ∃ q, p.jamming = some q) ∧
      (m.jamCount + m.stepsLeft (p.stock m.tractor).endRemaining < 96 → p.jamming = none) := by
  refine ⟨fun ge => ?_, fun lt => ?_⟩
  · refine ⟨p.steps (96 - m.jamCount), ?_⟩
    unfold Paper.jamming
    rw [e]
    dsimp only [Config.jamLimit]
    by_cases c : m.jamCount ≤ 96
    · obtain ⟨k, e1, e2⟩ := Paper.steps_jamCount (96 - m.jamCount) p m e c
      rw [e1]
      dsimp only
      rw [if_pos (by omega)]
    · rw [show 96 - m.jamCount = 0 by omega]
      show (match p.motion with | some n => _ | none => _) = _
      rw [e]
      dsimp only
      rw [if_pos (by omega)]
  · unfold Paper.jamming
    rw [e]
    dsimp only [Config.jamLimit]
    obtain ⟨k, e1, e2⟩ := Paper.steps_jamCount (96 - m.jamCount) p m e (by omega)
    rw [e1]
    dsimp only
    rw [if_neg (by omega)]

end Sys2Proof.Machine
end

