-- ==== Sys2Proof/Laws/Prints.lean ====
section
/-! SUPPORT. The line image, the walk of a plan and of a segment, and the struck set. -/

set_option Elab.async false

namespace Sys2Proof.Machine

/-- A pin fires in a column of a line where some field puts it there (R55 to R62). -/
theorem linePins_bit (b : Blocks) (fields : List FieldRecord) (d i : Nat) :
    (b.linePins fields d).getLsbD i = true ↔ ∃ r ∈ fields, (b.fieldPins r d).getLsbD i = true := by
  unfold Blocks.linePins
  have : ∀ (l : List FieldRecord) (acc : Pins), ((l.foldl (fun acc r => acc ||| b.fieldPins r d) acc).getLsbD i =
      true ↔ acc.getLsbD i = true ∨ ∃ r ∈ l, (b.fieldPins r d).getLsbD i = true) := by
    intro l
    induction l with
    | nil => intro acc; simp
    | cons x rest ih =>
      intro acc
      rw [List.foldl_cons, ih]
      simp [or_assoc]
  rw [this]; simp

/-- The image lists the columns in which some pin fires (R63). -/
theorem mem_lineImage (b : Blocks) (fields : List FieldRecord) (x : Dots) : x ∈ b.lineImage fields ↔ x.column < 1536
    ∧ ¬ x.pins = 0 ∧ x.pins = b.linePins fields x.column := by
  unfold Blocks.lineImage
  rw [List.mem_filterMap]
  constructor
  · rintro ⟨d, hd, he⟩
    dsimp only at he
    split at he
    · cases he
    · cases he
      rename_i nz
      exact ⟨List.mem_range.1 hd, nz, rfl⟩
  · rintro ⟨h1, h2, h3⟩
    refine ⟨x.column, List.mem_range.2 h1, ?_⟩
    dsimp only
    rw [← h3, if_neg h2]

/-- The image lists its columns lowest first. -/
theorem lineImage_sorted (b : Blocks) (fields : List FieldRecord) : ((b.lineImage fields).map (·.column)).Pairwise (·
    < ·) := by
  unfold Blocks.lineImage
  rw [List.pairwise_map]
  refine List.Pairwise.filterMap _ ?_ (List.pairwise_lt_range (n := Config.dotColumns))
  intro a a' h x hx y hy
  dsimp only at hx hy
  split at hx
  · cases hx
  · cases hx
    split at hy
    · cases hy
    · cases hy
      exact h

/-- The pins the image gives a column are those of the line (R63). -/
theorem imagePins_lineImage (b : Blocks) (fields : List FieldRecord) (d : Nat) (hd : d < 1536) : imagePins
    (b.lineImage fields) d = b.linePins fields d := by
  unfold imagePins
  cases hf : (b.lineImage fields).find? fun x => x.column == d with
  | some x =>
    have h1 := List.find?_some hf
    have h2 := (mem_lineImage b fields x).1 (List.mem_of_find?_eq_some hf)
    have : x.column = d := by simpa using h1
    rw [← this]
    exact h2.2.2
  | none =>
    rw [List.find?_eq_none] at hf
    by_contra n
    have := hf { column := d, pins := b.linePins fields d } ((mem_lineImage b fields _).2 ⟨hd, fun z => n z.symm, rfl⟩)
    simp at this

/-- A dot row of a glyph column fires the pin of that row (R60). -/
theorem columnPins_row (c : Column) (row : Nat) (h : row < 16) : (columnPins c).getLsbD (17 - row) = c.getLsbD (15 -
    row) := by
  unfold columnPins
  rw [BitVec.getLsbD_shiftLeft]
  have e : 17 - row - 2 = 15 - row := by omega
  have a : 17 - row < 18 := by omega
  have b : ¬ 17 - row < 2 := by omega
  simp [e, a, b]
  omega

/-- A glyph column fires none of the two lowest pins (R60). -/
theorem columnPins_low (c : Column) (i : Nat) (h : i < 2) : (columnPins c).getLsbD i = false := by
  unfold columnPins
  rw [BitVec.getLsbD_shiftLeft]
  simp [h]

/-- Pin 17 is none of the sixteen pins of a glyph column. -/
theorem pin17_row (row : Nat) (h : row < 16) : (pin 17).getLsbD (17 - row) = false := by
  interval_cases row <;> decide

/-- A walk goes through the columns that no pin is short for, and stops at the first that some pin is (R77, R80). -/
theorem walk_fits (image : List Dots) (st : Nat) (v : Speed) (all heat0 : List Nat) : ∀ (l pre : List Nat), all = pre
    ++ l →
    ∃ n, walk image st v (pre.length + 1) l (heatAt image st v all heat0 pre.length) = n ∧ n ≤ l.length ∧
      (∀ k, pre.length ≤ k → k < pre.length + n → short st (imagePins image (all.getD k 0)) (heatAt image st v all
          heat0 k) = false) ∧
      (n < l.length → short st (imagePins image (all.getD (pre.length + n) 0)) (heatAt image st v all heat0
          (pre.length + n)) = true) := by
  intro l
  induction l with
  | nil =>
    intro pre h
    exact ⟨0, rfl, le_refl _, fun k a b => by omega, fun h => by cases h⟩
  | cons d rest ih =>
    intro pre h
    have hd : all.getD pre.length 0 = d := by rw [h]; simp
    unfold walk
    by_cases sh : short st (imagePins image d) (heatAt image st v all heat0 pre.length) = true
    · refine ⟨0, by rw [if_pos sh], by simp, fun k a b => by omega, fun _ => ?_⟩
      rw [Nat.add_zero, hd]; exact sh
    · rw [if_neg sh]
      obtain ⟨n, h1, h2, h3, h4⟩ := ih (pre ++ [d]) (by rw [h]; simp)
      have el : (pre ++ [d]).length = pre.length + 1 := by simp
      rw [el] at h1 h3 h4
      have eh : heatAt image st v all heat0 (pre.length + 1) = columnHeat st v (pre.length + 1) (imagePins image d)
          (heatAt image st v all heat0 pre.length) := by
        rw [heatAt, hd]
      rw [eh] at h1
      refine ⟨n + 1, by rw [h1], by simp; omega, ?_, ?_⟩
      · intro k a b
        by_cases e : k = pre.length
        · subst e; rw [hd]; simpa using sh
        · exact h3 k (by omega) (by omega)
      · intro hn
        have := h4 (by simp at hn; omega)
        have e : pre.length + (n + 1) = pre.length + 1 + n := by omega
        rw [e]; exact this

/-- Firing debits the accounts of the firing pins (R73). -/
theorem debit_mapIdx (strike : Nat) (pins : Pins) (heat : List Nat) :
    debit strike pins heat = heat.mapIdx fun i y => if pins.getLsbD (17 - i) = true then y - strike else y := by
  unfold debit fires
  rw [List.mapIdx_eq_zipIdx_map]

/-- The columns of a segment in the direction of travel. -/
theorem travel_getD (d : PassDirection) (g : Segment) (k : Nat) (h : k < g.columns) : (travel d g.first g.last).getD
    k 0 = g.column d k := by
  unfold Segment.columns at h
  cases d <;> simp [travel, Segment.column, List.getD_eq_getElem?_getD, h]

/-- Traversing a segment leaves the balances of its walk, the pass and the pending request (R75). -/
theorem traverse_heat (image : List Dots) (p : Pass) (d : PassDirection) (heat0 : List Nat) (g : Segment) (pd :
    p.direction = some d) :
    ∀ (n k : Nat) (h : Head), h.carriage.activity = .segment → h.pass = some p → h.segment = some
        { g with traversed := k } → h.heat = heatAt image p.strike g.speed (travel d g.first g.last) heat0 k → k + n
            ≤ g.columns →
    (h.traverse image n).heat = heatAt image p.strike g.speed (travel d g.first g.last) heat0 (k + n) ∧ (h.traverse
        image n).pass = some p ∧ (h.traverse image n).hold = h.hold := by
  intro n
  induction n with
  | zero => intro k h _ b _ e _; exact ⟨e, b, rfl⟩
  | succ n ih =>
    intro k h a b c e l
    have dir : h.direction = d := by
      unfold Head.direction
      rw [b]; dsimp only
      rw [pd]; rfl
    have st : h.strike = p.strike := by
      unfold Head.strike
      rw [b]
    have mv : h.move image = h.segmentStep image { g with traversed := k } := by
      unfold Head.move
      rw [a, c]
    have := ih (k + 1) (h.move image) ?_ ?_ ?_ ?_ (by omega)
    · show (Head.traverse image n (h.move image)).heat = _ ∧ (Head.traverse image n (h.move image)).pass = _ ∧
        (Head.traverse image n (h.move image)).hold = _
      rw [show k + (n + 1) = k + 1 + n by omega]
      refine ⟨this.1, this.2.1, this.2.2.trans ?_⟩
      rw [mv]; rfl
    · rw [mv]
      unfold Head.segmentStep
      rw [dir]
      cases d <;> exact a
    · rw [mv]; exact b
    · rw [mv]; rfl
    · rw [mv]
      unfold Head.segmentStep
      dsimp only
      rw [dir, st, e]
      show columnHeat _ _ _ (imagePins image (g.column d k)) _ = _
      rw [← travel_getD d g k (by omega)]
      rfl

/-- Traversing a segment moves the carriage one step for each column and changes the balances, the segment and the pins
fired alone (R67, R75). -/
theorem traverse_frame (image : List Dots) (p : Pass) (d : PassDirection) (pd : p.direction = some d) :
    ∀ (n : Nat) (h : Head) (g : Segment), h.carriage.activity = .segment → h.pass = some p → h.segment = some g →
      ∃ q pins, h.traverse image n =
        { h with
          carriage :=
            { h.carriage with
              coordinate :=
                if n = 0 then h.carriage.coordinate
                else if d = .leftToRight then min (h.carriage.coordinate + n) 1599 else h.carriage.coordinate - n }
          heat := (h.traverse image n).heat
          segment := q
          firing := pins } := by
  intro n
  induction n with
  | zero => intro h g _ _ _; exact ⟨h.segment, h.firing, rfl⟩
  | succ n ih =>
    intro h g a b c
    have dir : h.direction = d := by
      unfold Head.direction
      rw [b]; dsimp only
      rw [pd]; rfl
    have mv : h.move image = h.segmentStep image g := by
      unfold Head.move
      rw [a, c]
    have at_ : (h.move image).carriage =
        { h.carriage with
          coordinate := if d = .leftToRight then min (h.carriage.coordinate + 1) 1599 else h.carriage.coordinate - 1 } := by
      rw [mv]
      unfold Head.segmentStep
      dsimp only
      rw [dir]
      cases d <;> rfl
    obtain ⟨q, pins, e⟩ := ih (h.move image) { g with traversed := g.traversed + 1 } (by rw [at_]; exact a)
      (by rw [mv]; exact b) (by rw [mv]; rfl)
    refine ⟨q, pins, ?_⟩
    show Head.traverse image n (h.move image) = _
    rw [e, at_]
    have x : ∀ y : Nat, (if n = 0 then (if d = .leftToRight then min (y + 1) 1599 else y - 1)
        else if d = .leftToRight then min ((if d = .leftToRight then min (y + 1) 1599 else y - 1) + n) 1599
          else (if d = .leftToRight then min (y + 1) 1599 else y - 1) - n) =
        if n + 1 = 0 then y else if d = .leftToRight then min (y + (n + 1)) 1599 else y - (n + 1) := by
      intro y
      cases d <;> simp <;> split <;> omega
    dsimp only
    rw [x, show Head.traverse image (n + 1) h = Head.traverse image n (h.move image) from rfl, mv]
    rfl

/-- The struck set gains the ids given (R141). -/
theorem mem_struckWith (l : List Nat) : ∀ (s : List Nat) (i : Nat), i ∈ struckWith s l ↔ i ∈ s ∨ i ∈ l := by
  induction l with
  | nil => simp [struckWith]
  | cons x l ih =>
    intro s i
    unfold struckWith
    rw [ih]
    by_cases c : x ∈ s
    · rw [if_pos (by simpa using c)]
      simp only [List.mem_cons]
      constructor
      · tauto
      · rintro (h | rfl | h)
        · exact Or.inl h
        · exact Or.inl c
        · exact Or.inr h
    · rw [if_neg (by simpa using c)]
      simp only [List.mem_append, List.mem_cons, List.not_mem_nil, or_false]
      tauto

/-- Digits are zeros before a first digit that is none, or all zeros (R25, R59). -/
theorem digits_split (l : List Byte) : (∃ n first rest, l = List.replicate n 0x30 ++ (first :: rest) ∧
    (l.dropWhile fun c => c == 0x30) = first :: rest ∧ ¬ first = 0x30) ∨
    l = List.replicate l.length 0x30 ∧ (l.dropWhile fun c => c == 0x30) = [] := by
  induction l with
  | nil => right; exact ⟨rfl, rfl⟩
  | cons x l ih =>
    by_cases h : x = 0x30
    · subst h
      rcases ih with ⟨n, f, r, e, d, ne⟩ | ⟨e, d⟩
      · left
        refine ⟨n + 1, f, r, ?_, d, ne⟩
        rw [List.replicate_succ, List.cons_append, ← e]
      · right
        refine ⟨?_, d⟩
        rw [List.length_cons, List.replicate_succ, ← e]
    · left
      refine ⟨0, x, l, rfl, ?_, h⟩
      rw [List.dropWhile_cons_of_neg (by simpa using h)]

/-- The cell at each position of a field (R56 to R58). -/
theorem cells_at (c : CharPart) (width : Nat) (content : List Byte) :
    let kept := min content.length width
    let before := if c.align = .left then 0 else if c.align = .right then width - kept else (width - kept) / 2
    let dropped := if c.align = .right then content.length - kept else 0
    (cells c width content).length = width ∧
      ∀ i < width, (cells c width content)[i]? = some (substituted c.glyphSet
        (if before ≤ i ∧ i < before + kept then content.getD (dropped + (i - before)) 0x20 else 0x20)) := by
  dsimp only
  have fl : ∀ a, (fitted a width content).length = min content.length width := by
    intro a
    cases a <;> simp [fitted] <;> omega
  have fg : ∀ a j, j < min content.length width → (fitted a width content)[j]? =
      content[(if a = .right then content.length - min content.length width else 0) + j]? := by
    intro a j hj
    cases a
    · simp only [fitted, reduceCtorEq, if_false, Nat.zero_add]
      rw [List.getElem?_take_of_lt (by omega)]
    · simp only [fitted, if_true]
      rw [List.getElem?_drop]
      congr 1
      omega
    · simp only [fitted, reduceCtorEq, if_false, Nat.zero_add]
      rw [List.getElem?_take_of_lt (by omega)]
  have lp : leftPadding c.align width (min content.length width) =
      (if c.align = .left then 0 else if c.align = .right then width - min content.length width
       else (width - min content.length width) / 2) := by
    cases c.align <;> rfl
  rw [← lp]
  generalize hL : leftPadding c.align width (min content.length width) = L
  have Lle : L + min content.length width ≤ width := by
    rw [← hL]
    cases c.align <;> simp [leftPadding] <;> omega
  have al : aligned c.align width (fitted c.align width content) = List.replicate L 0x20 ++ fitted c.align width content ++
      List.replicate (width - min content.length width - L) 0x20 := by
    unfold aligned
    rw [fl, hL]
  refine ⟨?_, fun i hi => ?_⟩
  · unfold cells
    rw [al]
    simp [fl]
    omega
  · unfold cells
    rw [al, List.getElem?_map]
    by_cases a : i < L
    · rw [if_neg (by omega), List.append_assoc, List.getElem?_append_left (by simpa using a),
        List.getElem?_replicate_of_lt a]
      rfl
    · by_cases b : i < L + min content.length width
      · rw [if_pos ⟨by omega, b⟩, List.append_assoc, List.getElem?_append_right (by simp; omega), List.length_replicate,
          List.getElem?_append_left (by rw [fl]; omega), fg _ _ (by omega), List.getD_eq_getElem?_getD]
        have : (if c.align = .right then content.length - min content.length width else 0) + (i - L) <
            content.length := by
          split <;> omega
        rw [List.getElem?_eq_getElem this]
        rfl
      · rw [if_neg (by omega), List.getElem?_append_right (by simp [fl]; omega)]
        rw [List.getElem?_replicate_of_lt (by simp [fl]; omega)]
        rfl

end Sys2Proof.Machine
end

