-- ==== Sys2Proof/Laws/Values.lean ====
section
/-! SUPPORT. What the carried bytes name (R190), and the tests of the form, field, counter and glyph commands, as propositions. -/

set_option Elab.async false

namespace Sys2Proof.Machine

/-- The direction a byte names (R190). -/
theorem direction_ofByte (b : Byte) : FormDirection.ofByte b =
    if b.toNat ≤ 1 then some (if b = 0 then .bidirectional else .unidirectional) else none := by
  revert b; decide

/-- The present policy a byte names (R190). -/
theorem policy_ofByte (b : Byte) : Policy.ofByte b =
    if b.toNat ≤ 2 then some (if b = 0 then .none else if b = 1 then .last else .each) else none := by
  revert b; decide

/-- The lock a byte names (R190). -/
theorem lock_ofByte (b : Byte) : Lock.ofByte b =
    if b.toNat ≤ 2 then some (if b = 0 then .unlocked else if b = 1 then .locked else .frozen) else none := by
  revert b; decide

/-- The alignment a byte names (R190). -/
theorem align_ofByte (b : Byte) : Align.ofByte b =
    if b.toNat ≤ 2 then some (if b = 0 then .left else if b = 1 then .right else .center) else none := by
  revert b; decide

/-- The emphasis a byte names (R190). -/
theorem emphasis_ofByte (b : Byte) : Emphasis.ofByte b =
    if b.toNat ≤ 2 then some (if b = 0 then .normal else if b = 1 then .bold else .underline) else none := by
  revert b; decide

/-- The counter policy a byte names (R190). -/
theorem counterPolicy_ofByte (b : Byte) : CounterPolicy.ofByte b =
    if b.toNat ≤ 1 then some (if b = 0 then .wrap else .stop) else none := by
  revert b; decide

/-- The rule style a byte names (R190). -/
theorem ruleStyle_ofByte (b : Byte) : RuleStyle.ofByte b =
    if b.toNat ≤ 2 then some (if b = 0 then .thin else if b = 1 then .thick else .base) else none := by
  revert b; decide

/-- The mark a byte names (R190). -/
theorem markOfByte_eq (b : Byte) : markOfByte b = if b.toNat ≤ 1 then some (decide (b = 1)) else none := by
  revert b; decide

/-- The byte of a tractor names it (R190). -/
theorem tractor_ofByte_byte (k : Tractor) : Tractor.ofByte k.byte = some k := by cases k <;> rfl

/-- A byte above 1 names no tractor (R190). -/
theorem tractor_ofByte_none (b : Byte) (h : 1 < b.toNat) : Tractor.ofByte b = none := by revert h; revert b; decide

/-- A byte is the byte of its number. -/
theorem byteOf_toNat (b : Byte) : byteOf b.toNat = b := by simp [byteOf]

/-- A form id is refused outside 0..7 (R1). -/
theorem badForm_iff (f : Byte) : badForm f = true ↔ ¬ f.toNat ≤ 7 := by simp [badForm, Config.forms]; omega

/-- A key is refused outside 0..7 and 0..63 (R19). -/
theorem badKey_iff (f i : Byte) : badKey f i = true ↔ ¬ (f.toNat ≤ 7 ∧ i.toNat ≤ 63) := by
  unfold badKey
  rw [Bool.or_eq_true, badForm_iff, decide_eq_true_iff]; omega

/-- A mark is refused above 1 (R190). -/
theorem badMark_iff (b : Byte) : badMark b = true ↔ ¬ b.toNat ≤ 1 := by revert b; decide

/-- The codes of a glyph set (R47). -/
theorem inSet_iff (n : Nat) (c : Byte) : inSet n c = true ↔ 0x20 ≤ c.toNat ∧ c.toNat ≤ (if n = 2 then 0x5F else 0x7E)
    := by
  unfold inSet topCode
  simp

/-- A revision is stale where it is expected and another (R35). -/
theorem stale_iff (m : Byte) (e : Half) (r : FieldRecord) : stale m e r = true ↔ m = 1 ∧ ¬ r.revision = e := by
  simp [stale]

/-- A form record is written where the carried values are legal (R3, R14). -/
theorem written_eq (r : FormRecord) (a : FormBytes) [Decidable a.legal] :
    r.written a = if a.legal then some (a.into r) else none := by
  unfold FormRecord.written
  rw [direction_ofByte, policy_ofByte]
  by_cases d : a.direction.toNat ≤ 1 <;> by_cases p : a.policy.toNat ≤ 2
  · rw [if_pos d, if_pos p]
    dsimp only
    by_cases l : a.legal
    · have := l
      obtain ⟨h1, h2, h3, h4, h5, h6, h7, h8, h9, h10, h11, h12⟩ := l
      rw [if_pos this, if_pos]
      · rfl
      · simp [legalGeometry, Config.forms]
        omega
    · rw [if_neg l, if_neg]
      intro h
      apply l
      simp [legalGeometry, Config.forms] at h
      unfold FormBytes.legal
      omega
  · have l : ¬ a.legal := fun l => p l.2.2.2.2.2.2.2.2.2.2.2
    rw [if_pos d, if_neg p, if_neg l]
  · have l : ¬ a.legal := fun l => d l.2.2.2.2.2.2.2.2.2.2.1
    rw [if_neg d, if_neg l]
  · have l : ¬ a.legal := fun l => p l.2.2.2.2.2.2.2.2.2.2.2
    rw [if_neg d, if_neg l]

/-- A form is assigned where a stock carries it (R12). -/
theorem assigned_iff (b : Blocks) (f : Nat) : b.assigned f = true ↔ b.carried f := by
  unfold Blocks.assigned Paper.carrier Blocks.carried
  by_cases x : b.paper.stockA.form = some f
  · rw [if_pos x]
    exact ⟨fun _ => ⟨.a, x⟩, fun _ => rfl⟩
  · rw [if_neg x]
    by_cases y : b.paper.stockB.form = some f
    · rw [if_pos y]
      exact ⟨fun _ => ⟨.b, y⟩, fun _ => rfl⟩
    · rw [if_neg y]
      constructor
      · intro h; cases h
      · rintro ⟨t, ht⟩
        cases t
        · exact absurd ht x
        · exact absurd ht y

/-- The character part that values carry (R40). -/
theorem carriedChars_eq (a : FieldBytes) : carriedChars a =
    if a.align.toNat ≤ 2 ∧ a.glyphSet.toNat ≤ 2 ∧ a.emphasis.toNat ≤ 2 then some a.chars else none := by
  unfold carriedChars
  rw [align_ofByte, emphasis_ofByte]
  by_cases x : a.align.toNat ≤ 2 <;> by_cases y : a.emphasis.toNat ≤ 2 <;> by_cases z : a.glyphSet.toNat ≤ 2 <;>
    simp [x, y, z, FieldBytes.chars] <;> omega

/-- The four field kinds (R190), and the rest. -/
theorem fieldKind_cases (k : Byte) : (k = 0 ∧ k.toNat = 0) ∨ (k = 1 ∧ k.toNat = 1) ∨ (k = 2 ∧ k.toNat = 2) ∨ (k = 3 ∧
    k.toNat = 3) ∨ (4 ≤ k.toNat ∧ ¬ k = 0 ∧ ¬ k = 1 ∧ ¬ k = 2 ∧ ¬ k = 3) := by
  revert k; decide

/-- A field record is carried where the values are legal (R40). -/
theorem carriedRecord_eq (a : FieldBytes) [Decidable a.legal] :
    carriedRecord a = if a.legal then some a.record else none := by
  unfold carriedRecord
  by_cases pl : carriedPlaced a = true
  · rw [if_pos pl]
    have pl' : a.form.toNat ≤ 7 ∧ a.field.toNat ≤ 63 ∧ a.column.toNat ≤ 127 ∧ 1 ≤ a.width.toNat ∧
      a.width.toNat ≤ 48 ∧ a.column.toNat + a.width.toNat ≤ 128 := by
      simp [carriedPlaced, Config.forms] at pl
      omega
    unfold carriedBody
    rw [carriedChars_eq]
    rcases fieldKind_cases a.kind with ⟨k, kn⟩ | ⟨k, kn⟩ | ⟨k, kn⟩ | ⟨k, kn⟩ | ⟨kn, k0, k1, k2, k3⟩
    · by_cases c : a.align.toNat ≤ 2 ∧ a.glyphSet.toNat ≤ 2 ∧ a.emphasis.toNat ≤ 2
      · have l : a.legal := by simp only [FieldBytes.legal, k]; simp; omega
        simp [c, l, FieldBytes.record, FieldBytes.body, k]
        try rfl
      · have l : ¬ a.legal := fun l => c (l.2.2.2.2.2.2.2.1 (by rw [k]; decide))
        simp [kn, c, l]
    · by_cases c : a.align.toNat ≤ 2 ∧ a.glyphSet.toNat ≤ 2 ∧ a.emphasis.toNat ≤ 2
      · unfold carriedCounter
        rw [counterPolicy_ofByte, markOfByte_eq]
        by_cases p : a.policy.toNat ≤ 1 <;> by_cases m : a.zeroFill.toNat ≤ 1
        · by_cases rest : (1 ≤ a.digits.toNat ∧ a.digits.toNat ≤ 10 ∧ a.digits.toNat ≤ a.width.toNat ∧ 1 ≤
            a.stride.toNat ∧
              a.stride.toNat ≤ 9) ∧ (∀ d ∈ decadesOf a.value, d ≤ 9) ∧ ∀ d ∈ (decadesOf a.value).drop a.digits.toNat,
                  d = 0
          · have l : a.legal := by
              refine ⟨by omega, by omega, by omega, by omega, by omega, by omega, by omega, fun _ => c, fun _ => ⟨rest.1.1, rest.1.2.1, rest.1.2.2.1, rest.1.2.2.2.1, rest.1.2.2.2.2, p, m, rest.2.1, rest.2.2⟩, ?_, ?_⟩
              · intro z; rw [k] at z; exact absurd z (by decide)
              · intro z; rw [k] at z; exact absurd z (by decide)
            have e1 : decimal (decadesOf a.value) = true := by
              simp only [decimal, List.all_eq_true]; intro x hx; exact decide_eq_true (rest.2.1 x hx)
            have e2 : fitsDigits (decadesOf a.value) a.digits.toNat = true := by
              simp only [fitsDigits, List.all_eq_true]; intro x hx; simp [rest.2.2 x hx]
            simp only [kn, c, l, p, m, rest.1, e1, e2]
            simp [FieldBytes.record, FieldBytes.body, k]
          · have l : ¬ a.legal := fun l => rest (by
              have := l.2.2.2.2.2.2.2.2.1 k
              exact ⟨⟨this.1, this.2.1, this.2.2.1, this.2.2.2.1, this.2.2.2.2.1⟩, this.2.2.2.2.2.2.2.1,
                  this.2.2.2.2.2.2.2.2⟩)
            rw [kn, if_pos c, if_pos p, if_pos m, if_neg l]
            dsimp only
            rw [if_neg]
            · rfl
            · intro h
              apply rest
              simp only [Bool.and_eq_true, decide_eq_true_eq] at h
              obtain ⟨⟨⟨⟨⟨⟨h1, h2⟩, h3⟩, h4⟩, h5⟩, h6⟩, h7⟩ := h
              refine ⟨⟨h1, h2, h3, h4, h5⟩, ?_, ?_⟩
              · intro x hx
                simp only [decimal, List.all_eq_true] at h6
                exact of_decide_eq_true (h6 x hx)
              · intro x hx
                simp only [fitsDigits, List.all_eq_true] at h7
                simpa using h7 x hx
        all_goals
          have l : ¬ a.legal := fun l => by
            have := l.2.2.2.2.2.2.2.2.1 k
            omega
          simp [kn, c, l, p, m]
      · have l : ¬ a.legal := fun l => c (l.2.2.2.2.2.2.2.1 (by rw [k]; decide))
        simp [kn, c, l]
    · rw [ruleStyle_ofByte]
      by_cases c : a.style.toNat ≤ 2
      · have l : a.legal := by simp only [FieldBytes.legal, k]; simp; omega
        simp [c, l, FieldBytes.record, FieldBytes.body, k]
      · have l : ¬ a.legal := fun l => c (l.2.2.2.2.2.2.2.2.2.1 k)
        simp [kn, c, l]
    · by_cases c : a.align.toNat ≤ 2 ∧ a.glyphSet.toNat ≤ 2 ∧ a.emphasis.toNat ≤ 2
      · by_cases t : a.target.toNat ≤ 63
        · have l : a.legal := by simp only [FieldBytes.legal, k]; simp; omega
          have : a.target.toNat < 64 := by omega
          simp [c, l, this, FieldBytes.record, FieldBytes.body, k]
        · have l : ¬ a.legal := fun l => t (l.2.2.2.2.2.2.2.2.2.2 k)
          have : ¬ a.target.toNat < 64 := by omega
          simp [kn, l, this]
      · have l : ¬ a.legal := fun l => c (l.2.2.2.2.2.2.2.1 (by rw [k]; decide))
        simp [kn, c, l]
    · have l : ¬ a.legal := fun l => by
        have := l.2.2.1
        omega
      rw [if_neg l]
      split <;> first | omega | rfl
  · have l : ¬ a.legal := by
      intro l
      apply pl
      obtain ⟨h1, h2, h3, h4, h5, h6, h7, _⟩ := l
      simp [carriedPlaced, Config.forms]
      omega
    rw [if_neg pl, if_neg l]

/-- The target of a LINK (R30, R40). -/
theorem badTarget_iff (b : Blocks) (a : FieldBytes) (l : a.legal) : b.badTarget a.record = true ↔
    (a.kind = 3 ∧ ∀ q, b.field a.form.toNat a.target.toNat = some q → ∃ c n, q.body = .link c n) := by
  unfold Blocks.badTarget
  rcases fieldKind_cases a.kind with ⟨k, kn⟩ | ⟨k, kn⟩ | ⟨k, kn⟩ | ⟨k, kn⟩ | ⟨kn, k0, k1, k2, k3⟩
  · simp [FieldBytes.record, FieldBytes.body, k]
  · simp [FieldBytes.record, FieldBytes.body, k]
  · simp [FieldBytes.record, FieldBytes.body, k]
  · have : a.record.body = .link a.chars a.target.toNat := by
      simp [FieldBytes.record, FieldBytes.body, k]
    rw [this]
    dsimp only
    show (match b.field a.form.toNat a.target.toNat with | some q => q.body.isLink | none => true) = true ↔ _
    cases b.field a.form.toNat a.target.toNat with
    | none => simp [k]
    | some q => cases hq : q.body <;> simp [FieldBody.isLink, hq, k]
  · have := l.2.2.1
    omega

/-- Decimal digits make a value below the power of ten of their count. -/
theorem decimalValue_lt (l : List Nat) (h : ∀ d ∈ l, d ≤ 9) : decimalValue l < 10 ^ l.length := by
  induction l with
  | nil => simp [decimalValue]
  | cons d rest ih =>
    have := ih fun x hx => h x (List.mem_cons_of_mem _ hx)
    have := h d (List.mem_cons_self ..)
    simp only [decimalValue, List.length_cons, pow_succ]
    omega

/-- Adding to the decades adds to the value, and carries out what does not fit (R27). -/
theorem addDecades_value (l : List Nat) : ∀ n, (addDecades n l).1.length = l.length ∧
    decimalValue (addDecades n l).1 + 10 ^ l.length * (addDecades n l).2 = decimalValue l + n := by
  induction l with
  | nil => intro n; simp [addDecades, decimalValue]
  | cons d rest ih =>
    intro n
    obtain ⟨h1, h2⟩ := ih ((d + n) / 10)
    simp only [addDecades, decimalValue, List.length_cons]
    refine ⟨by rw [h1], ?_⟩
    have := Nat.div_add_mod (d + n) 10
    rw [pow_succ]
    nlinarith

/-- Adding to the decades leaves decimal digits (R26). -/
theorem addDecades_decimal (l : List Nat) : ∀ n, ∀ d ∈ (addDecades n l).1, d ≤ 9 := by
  induction l with
  | nil => intro n; simp [addDecades]
  | cons d rest ih =>
    intro n x hx
    simp only [addDecades, List.mem_cons] at hx
    rcases hx with rfl | hx
    · omega
    · exact ih _ _ hx

/-- Thinning keeps the count of the columns (R52). -/
theorem thinned_length (l : List Column) : ∀ c, (thinned c l).length = l.length := by
  induction l with
  | nil => intro c; rfl
  | cons x r ih => intro c; simp [thinned, ih]

/-- Thinned columns have no dot next to a dot of the column before (R52). -/
theorem thinned_apart (l : List Column) : ∀ (left : Column) i c d, (left :: thinned left l)[i]? = some c →
    (left :: thinned left l)[i + 1]? = some d → c &&& d = 0 := by
  induction l with
  | nil => intro left i c d h1 h2; simp [thinned] at h2
  | cons x r ih =>
    intro left i c d h1 h2
    cases i with
    | zero =>
      simp [thinned] at h1 h2
      subst h1; subst h2
      ext j hj
      simp
      tauto
    | succ j =>
      simp only [thinned, List.getElem?_cons_succ] at h1 h2
      exact ih _ j c d h1 h2

end Sys2Proof.Machine
end

