-- ==== Sys2Proof/WellFormed.lean ====
section
/-! DEFINITION. What a command must meet to be one that a frame can carry: the payload lengths of 10.3 and 10.5. Every
other value is a byte or bytes of fixed width and needs no check. -/

namespace Sys2Proof

/-- A frame carries at most 200 payload bytes (R180, R191), so NULL reads 0..200 bytes and FIELD_SET a text of 0..195
(R193); GLYPH_LOAD carries ten column patterns (R51). -/
def Instr.wellFormed : Instr → Bool
  | .null _ payload => decide (payload.length ≤ 200)
  | .fieldSet _ _ _ _ _ text => decide (text.length ≤ 195)
  | .glyphLoad _ _ columns => decide (columns.length = 10)
  | .readIdentity _ | .readAttention _ | .configure .. | .softReset _ | .clearFault _ => true
  | .formDefine .. | .formAmend .. | .formQuery .. | .formLock .. | .formRetire .. => true
  | .fieldDefine .. | .counterSet .. | .fieldQuery .. | .fieldList .. | .fieldRetire .. => true
  | .glyphQuery .. | .stockAssign .. | .stockRelease .. | .stockPark .. | .stockSelect .. => true
  | .stockQuery .. | .feed .. | .present _ | .retract _ | .headQuery _ => true
  | .orderIssue .. | .orderAmend .. | .orderHold .. | .orderResume .. | .orderCancel .. => true
  | .orderQuery .. | .orderRelease .. => true
  | .hardReset | .startUp .. | .debounceStart .. | .debounceExpiry _ | .cfbPulse | .pmsPulse => true
  | .refillTick | .idleTimerExpiry | .carriageStep | .stall | .homeLost | .homingComplete => true
  | .approachComplete | .segmentComplete | .feedStep | .jam | .motionComplete => true
  | .receiveCharacter _ | .parserDraw | .shortIdle | .longIdle | .replyComplete => true

end Sys2Proof
end

