-- ==== Sys2Proof/Tests/Slice0.lean ====
section
/-! SUPPORT. The model's own tests: ill-formed terms that the check refuses, one step of each command at its boundary
values, and for every statement that has hypotheses a concrete state that meets them. -/

set_option Elab.async false

namespace Sys2Proof.Tests

open Sys2Proof Sys2Proof.Machine

/-! ## Well-formedness -/

theorem test_wf_null :
    (Instr.null .addressed (List.replicate 200 0)).wellFormed = true ∧
      (Instr.null .addressed (List.replicate 201 0)).wellFormed = false := by decide +kernel

theorem test_wf_fieldSet :
    (Instr.fieldSet .addressed 0 0 0 0 (List.replicate 195 0x41)).wellFormed = true ∧
      (Instr.fieldSet .addressed 0 0 0 0 (List.replicate 196 0x41)).wellFormed = false := by decide +kernel

theorem test_wf_glyphLoad :
    (Instr.glyphLoad .addressed 0x21 (List.replicate 10 0)).wellFormed = true ∧
      (Instr.glyphLoad .addressed 0x21 (List.replicate 9 0)).wellFormed = false ∧
      (Instr.glyphLoad .addressed 0x21 (List.replicate 11 0)).wellFormed = false := by decide

theorem test_codes : (Command.all.map Command.code).Nodup ∧ Command.all.length = 35 ∧
    (Command.all.all fun c => Command.ofCode c.code == some c) = true ∧ Command.ofCode 0x00 = none ∧
    Command.ofCode 0x47 = none := by decide

/-! ## Small states -/

/-- A state with these records, nothing on the link, and an empty queue. -/
def on (b : Blocks) : State := State.reset.withBlocks b

/-- What one row leaves. -/
def after (i : Instr) (s : State) : State :=
  match exec i s with
  | .next t => t
  | .fault _ | .refused _ => s

/-- The RESULT byte of the reply to each command is the one named. -/
def answers (b : Blocks) (l : List (Instr × Result)) : Bool :=
  l.all fun x => ((after x.1 (on b)).link.reply.bind fun f => f[3]?) == some x.2.code

/-- The payload of the reply to a command. -/
def payload (i : Instr) (b : Blocks) : List Byte :=
  match (after i (on b)).link.reply with
  | some f => (f.drop 5).take (f.length - 7)
  | none => []

/-- Form 3 of R3: 24 lines of pitch 24, margins 1 and 1, four copies. -/
def card : FormRecord :=
  { FormRecord.empty with
    defined := true, lines := 24, pitch := 24, top := 1, bottom := 1, copies := 4, fieldCount := 4 }

def chars : CharPart where
  align := .left
  glyphSet := 2
  emphasis := .normal

/-- A field of form 3 on a line of its own. -/
def field (id : Nat) (body : FieldBody) : FieldRecord where
  form := 3
  field := id
  line := id
  column := 10
  width := 8
  revision := 0xFFFF
  body := body

/-- A four-digit counter at 9,998 that steps by 1. -/
def tally (policy : CounterPolicy) : CounterPart where
  decades := [8, 9, 9, 9]
  stride := 1
  policy := policy
  zeroFill := true
  exhausted := false

def pool : List FieldRecord :=
  [field 1 (.text chars true (some [0x41]) none), field 2 (.counter chars (tally .wrap) none), field 3 (.rule .thick),
   field 4 (.link chars 1)]

/-- The carriage homed at rest. -/
def rest : Carriage where
  coordinate := 100
  homed := true
  motor := .held
  activity := .idle
  next := .leftToRight

/-- The part at rest with form 3 and its fields, no paper. -/
def bench : Blocks :=
  { Blocks.hardReset Straps.low Levels.low with
    forms := (List.replicate 8 FormRecord.empty).set 3 card
    pool := pool
    head := { Head.hardReset with carriage := rest } }

def stock (state : StockState) (offset : Option Nat) (left : Option Nat) : Stock where
  state := state
  form := some 3
  offset := offset
  endRemaining := left

/-- The bench with a stock of form 3 on tractor A. -/
def loaded (x : Stock) : Blocks := { bench with paper := { bench.paper with stockA := x } }

def order (tag : Nat) (state : OrderState) : Order where
  tag := tag
  form := 3
  requested := 5
  done := 1
  voided := 0
  policy := .none
  state := state
  halt := if state = .halted then some .noStock else none
  cancelPending := false
  admission := tag
  reported := true

/-- These orders in the table. -/
def tabled (b : Blocks) (l : List Order) : Blocks := { b with orders := { records := l, next := 9 } }

/-- Order 7 running in a controller state. -/
def running (b : Blocks) (state : ControllerState) (phase : Phase) : Blocks :=
  { tabled b [order 7 .running] with
    controller := { Controller.hardReset with state := state, current := some 7, phase := phase } }

/-- A carriage activity. -/
def moving (b : Blocks) (a : Activity) : Blocks :=
  { b with head := { b.head with carriage := { b.head.carriage with activity := a } } }

/-- An input at a level that its debounced state does not show yet. -/
def changing (b : Blocks) (k : Input) (level : Bool) : Blocks :=
  { b with
    paper := { b.paper with inputs := b.paper.inputs.put k { level := level, debounced := !level, timer := some 8 } } }

/-- A debounced level. -/
def showing (b : Blocks) (k : Input) (level : Bool) : Blocks :=
  { b with
    paper :=
      { b.paper with inputs := b.paper.inputs.put k { level := level, debounced := level, timer := none } } }

/-- The hypothesis of most statements. -/
theorem test_ready : (on bench).Ready ∧ (on (loaded (stock .atPrint (some 0) none))).Ready := ⟨⟨rfl, rfl⟩, rfl, rfl⟩

/-! ## The queue, reset and RESET -/

theorem test_queue :
    step ((on bench).withPending [.hardReset]) = exec .hardReset ((on bench).withPending []) ∧
      (on bench).pending = [] := ⟨rfl, rfl⟩

theorem test_held :
    (after .hardReset (on bench)).held = true ∧ after .cfbPulse (after .hardReset (on bench)) = after .hardReset (on bench) ∧
      (after (.startUp Straps.low Levels.low) (after .hardReset (on bench))) = State.reset := by decide +kernel

theorem test_startUp_at_home :
    (after (.startUp ⟨3, 31⟩ { Levels.low with home := true, psa := true }) State.reset).blocks.attention.address = 30 ∧
      (after (.startUp ⟨3, 31⟩ { Levels.low with home := true }) State.reset).blocks.head.carriage.homed = true := by
  decide +kernel

/-! ## Control commands -/

theorem test_control :
    answers bench
      [(.null .addressed (List.replicate 200 7), .null), (.readIdentity .addressed, .ok),
       (.readAttention .addressed, .none),
       (.configure .addressed 8 16 0 31 31, .ok), (.configure .addressed 3 8 0 0 0, .badValue),
       (.configure .addressed 1 32 0 0 0, .badValue), (.softReset .addressed, .ok),
       (.clearFault .addressed, .wrongState)] = true := by decide +kernel

/-- The causes of READ_ATTENTION from the most urgent down, each where the ones above are absent. -/
theorem test_attention :
    let halted := tabled bench [{ order 7 .halted with reported := false }]
    let closed := tabled bench [{ order 7 .done with reported := false }]
    let papered := { bench with attention := { bench.attention with paperB := 9 } }
    let troubled := { bench with attention := { bench.attention with linkTrouble := 4 } }
    let faulted :=
      { halted with
        attention :=
          { bench.attention with
            faultRecord := some { kind := .jam, tractor := some .b, activity := .feed, count := 2 } } }
    payload (.readAttention .addressed) faulted = [1, 3, 0, 2, 1, 1, 2, 0, 0] ∧
      payload (.readAttention .addressed) halted = [2, 0, 0, 7, 1, 0, 0, 0, 0] ∧
      payload (.readAttention .addressed) papered = [3, 0, 0, 1, 9, 0, 0, 0, 0] ∧
      payload (.readAttention .addressed) closed = [4, 0, 0, 7, 4, 1, 0, 0, 0] ∧
      payload (.readAttention .addressed) troubled = [5, 0, 0, 4, 0, 0, 0, 0, 0] := by decide +kernel

/-- The causes, and ATTN with the mask over one of two pending causes, over both, and while RESET is held. -/
theorem test_attn :
    let b := fun (mask : BitVec 5) => { tabled bench [order 1 .done, { order 2 .halted with reported := false }] with
      attention := { bench.attention with linkTrouble := 1, mask := mask } }
    (b 0).pendingSet = 18 ∧ (on (b 0)).attn = true ∧ (on (b 2)).attn = true ∧ (on (b 16)).attn = true ∧
      (on (b 18)).attn = false ∧ (on (b 13)).attn = true ∧ (after .hardReset (on (b 0))).attn = false ∧
      ((b 0).orders.unreportedHalt.map (·.tag)) = some 2 ∧ (b 0).orders.unreportedClosed = none := by decide +kernel

/-- The oldest record is reported first. -/
theorem test_oldest :
    let o := fun tag state => { order tag state with reported := false }
    ((tabled bench [o 1 .done, o 2 .halted, o 3 .cancelled, o 4 .halted]).orders.unreportedHalt.map (·.tag)) = some 2 ∧
      ((tabled bench [o 1 .queued, o 2 .halted, o 3 .cancelled, o 4 .done]).orders.unreportedClosed.map (·.tag)) =
        some 3 := by decide +kernel

theorem test_clearFault :
    let faulted := { bench with controller := { Controller.hardReset with state := .faulted } }
    (on faulted).Ready ∧ (on faulted).blocks.homeSeen = false ∧ faulted.head.carriage.activity = .idle ∧
      answers faulted [(.clearFault .addressed, .accepted)] = true ∧
      answers (moving faulted .homing) [(.clearFault .addressed, .busy)] = true ∧
      answers (showing faulted .cover true) [(.clearFault .addressed, .coverOpen)] = true := by
  refine ⟨⟨rfl, rfl⟩, ?_⟩
  decide +kernel

/-- CLEAR_FAULT with HOME asserted: the controller is IDLE at once, and the record is gone. -/
theorem test_clearFaultHome :
    let b := showing { bench with
      controller := { Controller.hardReset with state := .faulted }
      attention := bench.attention.recordFault .stall none .pass } .home true
    let t := (after (.clearFault .addressed) (on b)).blocks
    b.homeSeen = true ∧ b.head.carriage.activity = .idle ∧ b.attention.faultRecord.isSome = true ∧
      t.controller.state = .idle ∧ t.attention.faultRecord = none ∧ t.head.carriage.homed = true ∧
      t.head.carriage.coordinate = 0 := by decide +kernel

theorem test_softReset :
    let s := after (.softReset .addressed) (on (running bench .staging .none))
    s.link.resetDue = true ∧ s.blocks.controller.state = .staging ∧ s.blocks.homeSeen = false ∧ s.held = false ∧
      (after .replyComplete s).blocks.controller = Controller.hardReset := by decide +kernel

/-! ## Forms and fields -/

theorem test_formDefine :
    answers bench
      [(.formDefine .addressed ⟨0, 6, 48, 0, 5, 1, 0, 0⟩, .ok),
       (.formDefine .addressed ⟨7, 132, 24, 0, 131, 6, 1, 2⟩, .ok),
       (.formDefine .addressed ⟨0, 6, 47, 0, 5, 1, 0, 0⟩, .badValue),
       (.formDefine .addressed ⟨0, 132, 25, 0, 0, 1, 0, 0⟩, .badValue),
       (.formDefine .addressed ⟨0, 6, 48, 1, 5, 1, 0, 0⟩, .badValue),
       (.formDefine .addressed ⟨0, 6, 48, 0, 0, 7, 0, 0⟩, .badValue),
       (.formDefine .addressed ⟨8, 6, 48, 0, 0, 1, 0, 0⟩, .badValue),
       (.formDefine .addressed ⟨3, 6, 48, 0, 0, 1, 0, 0⟩, .exists)] = true := by decide +kernel

/-- The bench with another lock on form 3. -/
def locked (k : Lock) : Blocks := { bench with forms := bench.forms.set 3 { card with lock := k } }

theorem test_formCommands :
    answers bench
      [(.formAmend .addressed ⟨3, 24, 24, 1, 20, 1, 0, 0⟩, .outOfForm),
       (.formAmend .addressed ⟨3, 24, 24, 1, 19, 1, 0, 0⟩, .ok),
       (.formAmend .addressed ⟨3, 24, 20, 1, 1, 1, 0, 0⟩, .ok),
       (.formAmend .addressed ⟨0, 24, 20, 1, 1, 1, 0, 0⟩, .noForm),
       (.formLock .addressed 3 2, .ok), (.formLock .addressed 3 3, .badValue), (.formLock .addressed 0 0, .noForm),
       (.formRetire .addressed 3, .ok), (.formRetire .addressed 8, .badValue), (.formQuery .addressed 7, .ok),
       (.formQuery .addressed 8, .badValue)] = true ∧
      answers (locked .frozen)
        [(.formAmend .addressed ⟨3, 24, 20, 1, 1, 1, 0, 0⟩, .frozen), (.formLock .addressed 3 1, .frozen),
         (.formLock .addressed 3 2, .ok), (.formRetire .addressed 3, .frozen)] = true ∧
      answers (locked .locked)
        [(.formAmend .addressed ⟨3, 24, 20, 1, 1, 1, 0, 0⟩, .locked), (.formRetire .addressed 3, .locked)] = true ∧
      answers (tabled bench [order 7 .done])
        [(.formAmend .addressed ⟨3, 24, 20, 1, 1, 1, 0, 0⟩, .ok), (.formRetire .addressed 3, .inUse)] = true := by
  decide +kernel

/-- FIELD_DEFINE of a rule on form 3. -/
def ruleAt (field line column width : Byte) : Instr :=
  .fieldDefine .addressed ⟨3, field, 2, line, column, width, 9, 9, 9, 0, 0, 0, 0, 0, 0, 2, 0, 0⟩

/-- FIELD_DEFINE of a link on form 3. -/
def linkTo (target : Byte) : Instr :=
  .fieldDefine .addressed ⟨3, 60, 3, 9, 0, 1, 0, 0, 0, 0, 0, 0, 0, 0, 0, 0, target, 0⟩

/-- FIELD_DEFINE of a counter on form 3. -/
def counterOf (digits stride : Byte) (value : Bcd) : Instr :=
  .fieldDefine .addressed ⟨3, 61, 1, 9, 0, 10, 0, 0, 0, 0, digits, stride, 0, 0, value, 0, 0, 0⟩

/-- The bench with a ticket of form 3 in flight. -/
def flying (b : Blocks) : Blocks := { b with forms := b.forms.set 3 { card with inFlight := true } }

theorem test_fieldDefine :
    answers bench
      [(ruleAt 63 22 80 48, .ok), (ruleAt 63 22 81 48, .badValue), (ruleAt 64 22 0 48, .badValue),
       (ruleAt 63 0 0 1, .outOfForm),
       (ruleAt 63 23 0 1, .outOfForm), (ruleAt 1 9 0 1, .exists), (ruleAt 63 1 17 1, .overlap), (ruleAt 63 1 18 1, .ok),
       (ruleAt 63 1 9 1, .ok), (ruleAt 63 1 9 2, .overlap), (linkTo 1, .ok), (linkTo 4, .noField), (linkTo 9, .noField),
       (counterOf 10 9 0x9999999999, .ok), (counterOf 4 1 0x10000, .badValue), (counterOf 11 1 0, .badValue),
       (counterOf 4 1 0xA, .badValue)] = true ∧
      answers (flying bench) [(ruleAt 63 22 80 48, .inFlight)] = true ∧
      answers { bench with pool := (List.range 40).map fun i => { field i (.rule .thin) with line := i } }
        [(ruleAt 63 22 80 48, .full)] = true := by decide +kernel

theorem test_fieldSet :
    answers bench
      [(.fieldSet .addressed 3 1 0 0 [0x20, 0x5F], .ok), (.fieldSet .addressed 3 1 0 0 [0x60], .badChar),
       (.fieldSet .addressed 3 1 1 0xFFFF [], .ok), (.fieldSet .addressed 3 1 1 0 [], .stale),
       (.fieldSet .addressed 3 1 2 0 [], .badValue), (.fieldSet .addressed 3 2 0 0 [], .badValue),
       (.fieldSet .addressed 3 9 0 0 [], .noField), (.fieldSet .addressed 0 1 0 0 [], .noForm),
       (.fieldSet .addressed 3 1 0 0 (List.replicate 8 0x41), .ok),
       (.fieldSet .addressed 3 1 0 0 (List.replicate 9 0x41), .badValue),
       (.fieldSet .addressed 3 1 0 0 (List.replicate 196 0x41), .badLength)] = true ∧
      answers (flying bench) [(.fieldSet .addressed 3 1 0 0 [0x41], .staged)] = true ∧
      answers (locked .locked) [(.fieldSet .addressed 3 1 0 0 [0x41], .locked)] = true ∧
      payload (.fieldSet .addressed 3 1 0 0 [0x41]) bench = [0, 0] := by decide +kernel

theorem test_counterSet :
    answers bench
      [(.counterSet .addressed 3 2 0 0 0x9999, .ok), (.counterSet .addressed 3 2 0 0 0x10000, .badValue),
       (.counterSet .addressed 3 2 0 0 0xA, .badValue), (.counterSet .addressed 3 1 0 0 0, .badValue),
       (.counterSet .addressed 3 2 1 5 0, .stale)] = true ∧
      answers (flying bench) [(.counterSet .addressed 3 2 0 0 0, .staged)] = true ∧
      answers (locked .frozen) [(.counterSet .addressed 3 2 0 0 0, .frozen)] = true := by decide +kernel

theorem test_fieldCommands :
    answers bench
      [(.fieldQuery .addressed 3 4, .ok), (.fieldQuery .addressed 3 63, .noField),
       (.fieldQuery .addressed 3 64, .badValue),
       (.fieldList .addressed 3 39, .ok), (.fieldList .addressed 3 40, .badValue),
       (.fieldRetire .addressed 3 1, .linked),
       (.fieldRetire .addressed 3 2, .ok), (.fieldRetire .addressed 3 9, .noField)] = true ∧
      answers (flying bench) [(.fieldRetire .addressed 3 2, .inFlight)] = true ∧
      payload (.fieldList .addressed 3 1) bench = [4, 4, 1, 3, 2, 3, 4] ∧
      (payload (.fieldQuery .addressed 3 2) bench).drop 10 =
        [0xFF, 0xFF, 4, 1, 0, 1, 0, 0, 0, 0, 0x99, 0x98, 0, 0, 0, 0, 0, 0] := by decide +kernel

theorem test_counterAdvance :
    (field 2 (.counter chars (tally .wrap) none)).advance.body =
        .counter chars { tally .wrap with decades := [9, 9, 9, 9] } none ∧
      (field 2 (.counter chars { tally .wrap with stride := 3 } none)).advance.body =
        .counter chars { tally .wrap with stride := 3, decades := [1, 0, 0, 0] } none ∧
      (field 2 (.counter chars { tally .stop with stride := 2 } none)).advance.body =
        .counter chars { tally .stop with stride := 2, exhausted := true } none ∧
      (field 2 (.counter chars (tally .wrap) none)).advance.revision = 0 := by decide +kernel

/-! ## Glyphs, composition and plans -/

theorem test_glyphs :
    answers bench
      [(.glyphLoad .addressed 0x21 (List.replicate 10 1), .ok), (.glyphLoad .addressed 0x5F (List.replicate 10 1), .ok),
       (.glyphLoad .addressed 0x20 (List.replicate 10 1), .badValue),
       (.glyphLoad .addressed 0x60 (List.replicate 10 1), .badValue),
       (.glyphLoad .addressed 0x21 [], .badLength), (.glyphQuery .addressed 2 0x5F, .ok),
       (.glyphQuery .addressed 2 0x60, .badValue),
       (.glyphQuery .addressed 3 0x20, .badValue)] = true ∧
      answers (flying bench) [(.glyphLoad .addressed 0x21 (List.replicate 10 1), .busy)] = true ∧
      payload (.glyphQuery .addressed 2 0x20) bench = [2, 0x20, 0] ++ List.replicate 20 0 ∧ bench.glyphs.length = 64 := by
  decide +kernel

/-- A thick rule on line 3 fires pins 8 and 9 in its 96 columns, from 120 to 215. -/
theorem test_composition :
    ((bench.compose 3 3).composer.passSpan = some (120, 215)) ∧
      ((bench.compose 3 3).composer.image.all fun x => x.pins == (pin 8 ||| pin 9)) = true ∧
      bench.fieldPins (field 3 (.rule .thick)) 119 = 0 ∧ bench.fieldPins (field 3 (.rule .thick)) 216 = 0 := by
  decide +kernel

/-- The contents of a counter and of a link to it, with and without zero-fill, and the value 0. -/
theorem test_contents :
    let at_ := fun decades zeroFill =>
      { bench with pool := [field 2 (.counter chars { tally .wrap with decades := decades, zeroFill := zeroFill } none),
                            field 4 (.link chars 2)] }
    let content := fun decades zeroFill => (at_ decades zeroFill).content (field 4 (.link chars 2))
    content [8, 0, 9, 0] true = [0x30, 0x39, 0x30, 0x38] ∧ content [8, 0, 9, 0] false = [0x39, 0x30, 0x38] ∧
      content [0, 0, 0, 0] true = [0x30, 0x30, 0x30, 0x30] ∧ content [0, 0, 0, 0] false = [0x30] ∧
      bench.content (field 1 (.text chars true (some [0x41]) none)) = [0x41] ∧ bench.content (field 3 (.rule .thick)) = [] := by
  decide +kernel

/-- The cells under each alignment, cut and padded, and a code outside the set. -/
theorem test_cells :
    let c := fun a => { chars with align := a }
    cells (c .left) 4 [0x41, 0x42] = [0x41, 0x42, 0x20, 0x20] ∧ cells (c .right) 4 [0x41, 0x42] = [0x20, 0x20, 0x41, 0x42] ∧
      cells (c .center) 5 [0x41, 0x42] = [0x20, 0x41, 0x42, 0x20, 0x20] ∧
      cells (c .right) 2 [0x41, 0x42, 0x43] = [0x42, 0x43] ∧ cells (c .left) 2 [0x41, 0x42, 0x43] = [0x41, 0x42] ∧
      cells (c .left) 3 [0x5F, 0x60, 0x1F] = [0x5F, 0x3F, 0x3F] := by decide

/-- A BCD value is read and written highest decade first. -/
theorem test_bcd :
    decadesOf (payloadBcd [0xFF, 0x12, 0x34, 0x56, 0x78, 0x90] 1) = [0, 9, 8, 7, 6, 5, 4, 3, 2, 1] ∧
      bcdBytes [0, 9, 8, 7, 6, 5, 4, 3, 2, 1] = [0x12, 0x34, 0x56, 0x78, 0x90] ∧ bcdBytes [8, 9] = [0, 0, 0, 0, 0x98] := by
  decide

/-- Three columns of pin 1, apart or side by side. -/
def dots (a b c : Nat) : List Dots := [⟨a, pin 1⟩, ⟨b, pin 1⟩, ⟨c, pin 1⟩]

/-- Every account of the same balance. -/
def heats (n : Nat) : List Nat := List.replicate 18 n

theorem test_plans :
    planPart (dots 1 3 5) 2 .leftToRight 1 5 (heats 96) = .segment .full 5 ∧
      planPart (dots 1 2 3) 2 .leftToRight 1 3 (heats 96) = .segment .half 3 ∧
      planPart (dots 1 2 3) 3 .rightToLeft 1 3 (heats 5) = .segment .half 2 ∧
      planPart (dots 1 2 3) 3 .leftToRight 1 3 (heats 2) = .dwell := by decide +kernel

/-! ## Queries, stocks and paper -/

theorem test_stateQueries :
    answers (tabled bench [order 7 .queued])
      [(.stockQuery .addressed 1, .ok), (.stockQuery .addressed 2, .badValue), (.headQuery .addressed, .ok),
       (.orderQuery .addressed 0, .ok), (.orderQuery .addressed 7, .ok), (.orderQuery .addressed 8, .noOrder)] = true ∧
      payload (.stockQuery .addressed 0) (loaded (stock .atPrint (some 500) none)) =
        [0, 4, 3, 1, 0xF4, 0xFF, 0xFF, 0, 0, 1, 0, 0, 0, 0, 0, 0, 0, 0, 0] := by decide +kernel

theorem test_stockCommands :
    answers (loaded (stock .parked none none))
      [(.stockAssign .addressed 2 3, .badValue), (.stockAssign .addressed 1 8, .badValue),
       (.stockAssign .addressed 1 0, .noForm),
       (.stockAssign .addressed 1 3, .wrongState), (.stockRelease .addressed 0, .ok),
       (.stockRelease .addressed 1, .wrongState),
       (.stockRelease .addressed 2, .badValue), (.stockPark .addressed 0, .ok), (.stockPark .addressed 1, .wrongState),
       (.stockPark .addressed 2, .badValue), (.stockSelect .addressed 0, .accepted),
       (.stockSelect .addressed 1, .wrongState),
       (.stockSelect .addressed 2, .badValue), (.feed .addressed 1, .noStock), (.present .addressed, .noStock),
       (.retract .addressed, .noStock)] = true ∧
      answers { loaded (stock .parked none none) with
                paper := { bench.paper with stockA := stock .parked none none, stockB := Stock.sampled true } }
        [(.stockAssign .addressed 1 3, .inUse)] = true ∧
      answers { bench with paper := { bench.paper with stockB := Stock.sampled true } }
        [(.stockAssign .addressed 1 3, .ok)] = true := by decide +kernel

theorem test_pathMotions :
    answers (loaded (stock .atPrint (some 0) none))
      [(.feed .addressed 3168, .accepted), (.feed .addressed 3169, .badValue), (.feed .addressed 0, .accepted),
       (.present .addressed, .accepted), (.retract .addressed, .wrongState), (.stockPark .addressed 0, .accepted),
       (.stockSelect .addressed 0, .ok)] = true ∧
      answers (loaded (stock .presented (some 0) none))
        [(.retract .addressed, .accepted), (.feed .addressed 1, .wrongState), (.present .addressed, .wrongState),
         (.stockPark .addressed 0, .accepted)] = true ∧
      answers (showing (loaded (stock .atPrint (some 0) none)) .cover true) [(.feed .addressed 1, .coverOpen)] = true ∧
      answers (moving (loaded (stock .atPrint (some 0) none)) .homing) [(.feed .addressed 1, .busy)] = true := by
  decide +kernel

/-- The motion in flight after a command. -/
def motionOf (i : Instr) (b : Blocks) : Option (MotionKind × FeedDirection × Nat × Nat) :=
  (after i (on b)).blocks.paper.motion.map fun m => (m.kind, m.direction, m.toGo, m.phase)

/-- The lengths of the motions, and the ejections they turn into, at the boundaries of end remaining. -/
theorem test_motionLengths :
    (([(.stockPark .addressed 0, stock .atPrint (some 10) none, .park, .reverse, 730),
       (.stockPark .addressed 0, stock .presented (some 0) none, .park, .reverse, 1152),
       (.stockPark .addressed 0, stock .atPrint (some 10) (some 5), .eject, .forward, 53),
       (.feed .addressed 0, stock .atPrint (some 10) none, .feedToTop, .forward, 566),
       (.feed .addressed 0, stock .atPrint (some 10) (some 0), .eject, .forward, 48),
       (.present .addressed, stock .atPrint (some 0) (some 0), .eject, .forward, 48),
       (.retract .addressed, stock .presented (some 0) (some 288), .retract, .reverse, 432),
       (.retract .addressed, stock .presented (some 0) (some 289), .eject, .forward, 337)] :
        List (Instr × Stock × MotionKind × FeedDirection × Nat)).all fun x =>
      motionOf x.1 (loaded x.2.1) == some (x.2.2.1, x.2.2.2.1, x.2.2.2.2, 0)) = true := by decide +kernel

theorem test_select :
    motionOf (.stockSelect .addressed 0) (loaded (stock .parked none none)) = some (.advance, .forward, 720, 2) ∧
      motionOf (.stockSelect .addressed 0) (loaded (stock .parked none (some 0))) = some (.eject, .forward, 48, 2) ∧
      motionOf (.stockSelect .addressed 1)
          { bench with
            paper :=
              { bench.paper with
                stockA := stock .atPrint (some 10) none
                stockB := { stock .parked none none with form := some 4 } } } =
        some (.park, .reverse, 730, 1) := by decide +kernel

/-! ## Orders -/

theorem test_orderIssue :
    answers bench
      [(.orderIssue .addressed 1 3 1 2, .accepted), (.orderIssue .addressed 255 3 250 0xFF, .accepted),
       (.orderIssue .addressed 0 3 1 0, .badValue), (.orderIssue .addressed 1 3 0 0, .badValue),
       (.orderIssue .addressed 1 3 251 0, .badValue), (.orderIssue .addressed 1 3 1 3, .badValue),
       (.orderIssue .addressed 1 0 1 0, .noForm), (.orderIssue .addressed 1 8 1 0, .badValue)] = true ∧
      answers (tabled bench [order 1 .held, order 2 .held, order 3 .held, order 4 .held])
        [(.orderIssue .addressed 1 3 1 0, .exists), (.orderIssue .addressed 5 3 1 0, .full)] = true := by decide +kernel

/-- What the statement on a staged order asks of the state, and the staging that follows. -/
theorem test_staged :
    let b := loaded (stock .parked none none)
    let s := on b
    s.Ready ∧ s.blocks.controller.state = .idle ∧ s.blocks.controller.coverMark = false ∧ s.blocks.coverOpen = false ∧
      s.blocks.paper.motion = none ∧ (s.blocks.paper.stock .a).state = .parked ∧ (s.blocks.paper.stock .a).form = some 3 ∧
      ¬ (s.blocks.paper.stock .a).endRemaining = some 0 ∧ (s.blocks.paper.stock .b).state.inPath = false ∧
      ¬ (s.blocks.paper.stock .b).form = some 3 ∧ (s.blocks.form 3).defined = true ∧ s.blocks.orders.records = [] ∧
      s.blocks.orders.next < 65535 ∧
      (after (.orderIssue .addressed 1 3 1 0xFF) s).blocks.controller.state = .staging ∧
      motionOf (.orderIssue .addressed 1 3 1 0xFF) b = some (.advance, .forward, 720, 0) := by
  refine ⟨⟨rfl, rfl⟩, ?_⟩
  decide +kernel

theorem test_orderCommands :
    answers (tabled bench [order 1 .held, order 2 .halted, order 3 .done, order 4 .queued])
      [(.orderAmend .addressed 1 1, .ok), (.orderAmend .addressed 1 0, .badValue),
       (.orderAmend .addressed 0 1, .badValue),
       (.orderAmend .addressed 3 9, .wrongState), (.orderAmend .addressed 9 9, .noOrder),
       (.orderHold .addressed 4, .ok),
       (.orderHold .addressed 1, .wrongState), (.orderHold .addressed 0, .badValue),
       (.orderHold .addressed 9, .noOrder),
       (.orderResume .addressed 1, .ok), (.orderResume .addressed 2, .ok), (.orderResume .addressed 4, .wrongState),
       (.orderCancel .addressed 2, .ok), (.orderCancel .addressed 3, .wrongState),
       (.orderCancel .addressed 9, .noOrder),
       (.orderRelease .addressed 3, .ok), (.orderRelease .addressed 4, .wrongState),
       (.orderRelease .addressed 0, .badValue)] =
      true := by decide +kernel

/-- The orders statement asks that the table be legal: this one is, and its amended count 1 is the count done. -/
theorem test_ordersLegal : (tabled bench [order 1 .held, order 2 .halted]).orders.ok ∧
    ((after (.orderAmend .addressed 1 1) (on (tabled bench [order 1 .held, order 2 .halted]))).blocks.orders.find 1).map
      (·.state) = some .done := by
  refine ⟨⟨by decide, by decide, ?_, by decide, by decide, by decide⟩, by decide +kernel⟩
  intro r m
  rcases List.mem_cons.mp m with rfl | m
  · exact ⟨by decide, by decide, by decide, by decide, by decide, by decide⟩
  · cases List.mem_singleton.mp m
    exact ⟨by decide, by decide, by decide, by decide, by decide, by decide⟩

/-- A cancel of the running order: in STAGING the mark alone, in PRINTING with a ticket in flight a void motion. -/
theorem test_cancelRunning :
    let staging := (after (.orderCancel .addressed 7) (on (running bench .staging .none))).blocks
    let printing := running (flying (loaded (stock .atPrint (some 0) none))) .printing .feed
    let cancelled := (after (.orderCancel .addressed 7) (on printing)).blocks
    (staging.orders.find 7).map (·.cancelPending) = some true ∧ staging.controller.state = .staging ∧
      printing.ticketInFlight = true ∧ cancelled.controller.voidMotion = some .feedToTop := by decide +kernel

/-! ## Inputs and timers -/

theorem test_debounce :
    (after (.debounceStart .tear true) (on bench)).blocks.paper.inputs.tear = ⟨true, false, some 8⟩ ∧
      (after (.debounceStart .tear false) (on (changing bench .tear true))).blocks.paper.inputs.tear = ⟨false, false, none⟩ ∧
      after (.debounceStart .tear false) (on bench) = on bench ∧ after (.debounceExpiry .tear) (on bench) = on bench ∧
      (after (.debounceExpiry .home) (on (changing bench .home true))).blocks.homeSeen = true := by decide +kernel

/-- What the part holds of an input's change, one clause of the statement after another. -/
theorem test_changes :
    let gone := fun x => (after (.debounceExpiry .psa) (on (changing (loaded x) .psa false))).blocks.paper.stockA
    (after (.debounceExpiry .psa) (on (changing bench .psa true))).blocks.paper.stockA.state = .sensed ∧
      (after (.debounceExpiry .psb) (on (changing bench .psb true))).blocks.attention.paperB = 1 ∧
      (gone (stock .parked none none)).state = .absent ∧ (gone (stock .sensed none none)).state = .absent ∧
      (gone (stock .atPrint (some 3) none)).endRemaining = some 720 ∧
      (gone (stock .presented (some 0) none)).endRemaining = some 720 ∧
      (after (.debounceExpiry .cover) (on (changing (running bench .staging .none) .cover true))).blocks.controller.coverMark =
        true ∧
      (after (.debounceExpiry .cover) (on (changing (running bench .awaitTear .none) .cover true))).blocks.controller.state =
        .paused ∧
      (after (.debounceExpiry .cover) (on (changing bench .cover true))).blocks.controller.state = .idle ∧
      (after (.debounceExpiry .cover) (on (changing bench .cover false))).blocks.head.homeFor = [.cover] ∧
      (after (.debounceExpiry .tear) (on (changing bench .tear false))).blocks.paper.motion = none := by decide +kernel

/-- TEAR pressed in IDLE at a presented stock, with the hypotheses of the statement: the retract, and the ejection. -/
theorem test_tear :
    let at_ := fun n => changing (loaded (stock .presented (some 0) n)) .tear true
    (∀ n, (at_ n).calm ∧ (at_ n).controller.state = .idle ∧ (at_ n).paper.pathTractor = some .a ∧
        (at_ n).paper.motion = none ∧ (at_ n).coverOpen = false) ∧
      motionOf (.debounceExpiry .tear) (at_ (some 288)) = some (.retract, .reverse, 432, 0) ∧
      motionOf (.debounceExpiry .tear) (at_ (some 289)) = some (.eject, .forward, 337, 0) := by
  refine ⟨fun n => ⟨⟨fun _ => .inr (.inr fun r m => ?_), fun h => ?_⟩, rfl, rfl, rfl, rfl⟩, ?_⟩
  · cases m
  · cases h
  · decide +kernel

/-- TEAR pressed where one condition after another of R114 does not hold. -/
theorem test_tearTurnedAway :
    let b := loaded (stock .presented (some 0) none)
    let turned := fun x => decide ((after (.debounceExpiry .tear) (on (changing x .tear true))).blocks.paper.motion =
      x.paper.motion)
    turned (loaded (stock .atPrint (some 0) none)) = true ∧ turned bench = true ∧ turned (moving b .homing) = true ∧
      turned (showing b .cover true) = true ∧
      turned { b with controller := { Controller.hardReset with state := .faulted } } = true ∧ turned b = false := by
  decide +kernel

/-- The cover closed with no current order: in FAULTED, in IDLE, and in a pause that returns to IDLE, each with the carriage at
rest, HOME asserted, or a homing in flight. -/
theorem test_coverCloses :
    let closed := fun x => (after (.debounceExpiry .cover) (on (changing x .cover false))).blocks
    let at_ := fun (q : ControllerState) (r : Option ControllerState) =>
      { bench with controller := { Controller.hardReset with state := q, remembered := r } }
    let asked := fun x : Blocks => { moving x .homing with head := { (moving x .homing).head with homeFor := [.startUp] } }
    (closed (at_ .faulted none)).head.homeFor = [] ∧ (closed (at_ .idle none)).head.homeFor = [.cover] ∧
      (closed (showing (at_ .idle none) .home true)).head.carriage.coordinate = 0 ∧
      (closed (asked (at_ .idle none))).head.homeFor = [.startUp, .cover] ∧
      (closed (at_ .paused (some .idle))).head.homeFor = [.cover] ∧
      (closed (at_ .paused (some .idle))).controller.state = .paused ∧
      (closed (showing (at_ .paused (some .idle)) .home true)).controller.state = .idle ∧
      (closed (asked (at_ .paused (some .idle)))).head.homeFor = [.startUp, .cover] ∧
      (after (.debounceExpiry .cover) (on (changing (at_ .paused (some .idle)) .cover true))).blocks.controller.state =
        .paused := by decide +kernel

/-- A pass of line 3 with its direction. -/
def passTo (d : Option PassDirection) (first last : Nat) : Pass where
  line := 3
  strike := 2
  unidirectional := false
  direction := d
  first := first
  last := last

/-- Order 7 printing with a pass in flight on the image of line 3 and every account at one balance. -/
def printing (a : Activity) (p : Pass) (g : Option Segment) (coordinate balance : Nat) : Blocks :=
  let b := running (flying (loaded (stock .atPrint (some 72) none))) .printing .pass
  { b.compose 3 3 with
    head :=
      { bench.head with
        carriage := { rest with activity := a, coordinate := coordinate }
        pass := some p
        segment := g
        heat := heats balance } }

theorem test_refill :
    let fill := fun b => (after .refillTick (on b)).blocks.head
    (printing .dwell (passTo (some .leftToRight) 120 215) none 152 95).passGoesOn ∧
      (fill (printing .dwell (passTo (some .leftToRight) 120 215) none 152 95)).carriage.activity = .segment ∧
      (fill (printing .dwell (passTo (some .rightToLeft) 120 215) none 247 95)).segment = some ⟨.half, 121, 215, 0⟩ ∧
      (fill (printing .dwell (passTo (some .leftToRight) 120 215) none 152 94)).carriage.activity = .dwell ∧
      (fill (printing .segment (passTo (some .leftToRight) 120 215) (some ⟨.half, 120, 215, 0⟩) 152 5)).heat = heats 5 ∧
      (fill (moving bench .idle)).heat = heats 96 := by
  refine ⟨fun _ => ⟨fun h => ?_, fun _ _ => ⟨rfl, by decide⟩⟩, ?_⟩
  · cases h
  · decide +kernel

theorem test_timers :
    let timed := { bench with attention := { bench.attention with idleTimer := .running 50 } }
    let stalled := fun n => { moving bench .approach with head := { (moving bench .approach).head with stallCount := n } }
    (after .idleTimerExpiry (on timed)).blocks.head.carriage.motor = .released ∧
      (after .idleTimerExpiry (on bench)) = on bench ∧
      (after .cfbPulse (on (stalled 15))).blocks.head.stallCount = 0 ∧
      (after .cfbPulse (on { bench with head := { bench.head with stallCount := 3 } })).blocks.head.stallCount = 3 := by
  decide +kernel

/-! ## The work on an order -/

/-- Order 7 current in a controller state, with a stock on each tractor. -/
def working (state : ControllerState) (phase : Phase) (x y : Stock) : Blocks :=
  running { bench with paper := { bench.paper with stockA := x, stockB := y } } state phase

def noStock : Stock := Stock.sampled false

/-- A stock of another form. -/
def otherStock (state : StockState) (offset left : Option Nat) : Stock := { stock state offset left with form := some 4 }

/-- Change the controller record. -/
def told (b : Blocks) (g : Controller → Controller) : Blocks := { b with controller := g b.controller }

/-- Change the current order's record. -/
def amended (b : Blocks) (g : Order → Order) : Blocks :=
  { b with orders := { b.orders with records := b.orders.records.map g } }

/-- The motion in flight. -/
def motionIn (b : Blocks) : Option (Tractor × MotionKind × FeedDirection × Nat) :=
  b.paper.motion.map fun m => (m.tractor, m.kind, m.direction, m.toGo)

/-- The state, and the halt reason, of order 7. -/
def fate (b : Blocks) : Option (OrderState × Option HaltReason) := (b.orders.find 7).map fun o => (o.state, o.halt)

/-- The order that the statements on the work name is current, and its stock carries its form alone. -/
theorem test_working :
    let b := working .staging .none (stock .parked none none) noStock
    b.currentOrder = some (order 7 .running) ∧ (b.paper.stock .a).form = some 3 ∧ ¬ (b.paper.stock .b).form = some 3 ∧
      b.orders.ok := by
  refine ⟨by decide, by decide, by decide, ⟨by decide, by decide, ?_, by decide, by decide, by decide⟩⟩
  intro r m
  cases List.mem_singleton.mp m
  exact ⟨by decide, by decide, by decide, by decide, by decide, by decide⟩

/-- Every staging motion at the boundaries of end remaining and offset. -/
theorem test_staging :
    (([(stock .parked none none, noStock, .a, .advance, .forward, 720),
       (stock .parked none (some 1), noStock, .a, .advance, .forward, 720),
       (stock .parked none (some 0), noStock, .a, .eject, .forward, 48),
       (stock .atPrint (some 1) none, noStock, .a, .feedToTop, .forward, 575),
       (stock .atPrint (some 575) (some 0), noStock, .a, .eject, .forward, 48),
       (stock .presented (some 0) (some 288), noStock, .a, .retract, .reverse, 432),
       (stock .presented (some 0) (some 289), noStock, .a, .eject, .forward, 337),
       (stock .parked none none, otherStock .atPrint (some 10) none, .b, .park, .reverse, 1018),
       (stock .parked none none, otherStock .presented (some 0) none, .b, .park, .reverse, 1440),
       (stock .parked none none, otherStock .presented (some 0) (some 0), .b, .eject, .forward, 48)] :
        List (Stock × Stock × Tractor × MotionKind × FeedDirection × Nat)).all fun x =>
      motionIn (working .staging .none x.1 x.2.1).stagingChecks == some x.2.2) = true := by decide +kernel

/-- A TEAR motion on tractor B. -/
def torn : Motion where
  tractor := .b
  kind := .park
  direction := .reverse
  done := 0
  toGo := 1
  requester := .tear
  startOffset := none
  phase := 0
  jamCount := 0

/-- The staging checks in their order, the wait, and the pause of a set cover mark. -/
theorem test_stagingChecks :
    let b := working .staging .none (stock .parked none none) noStock
    let waits := { b with paper := { b.paper with motion := some torn } }
    fate (working .staging .none noStock noStock).stagingChecks = some (.halted, some .noStock) ∧
      fate (working .staging .none (stock .lost none none) (otherStock .lost none none)).stagingChecks =
        some (.halted, some .stockLost) ∧
      fate (working .staging .none (stock .parked none none) (otherStock .lost none none)).stagingChecks =
        some (.halted, some .pathBlocked) ∧
      fate (amended b fun o => { o with cancelPending := true }).stagingChecks = some (.cancelled, none) ∧
      fate (amended b fun o => { o with done := 5 }).stagingChecks = some (.done, none) ∧
      waits.stagingChecks = { waits with paper := { waits.paper with waiting := true } } ∧
      (told b fun c => { c with coverMark := true }).stagingChecks.controller.remembered = some .staging := by
  decide +kernel

/-- Ticket start on a stock at a form top: the tests in their order at the boundary of the paper left, and the ticket. -/
theorem test_ticketStart :
    let b := fun left => working .staging .none (stock .atPrint (some 0) left) noStock
    let spent := { b none with pool := [field 2 (.counter chars { tally .stop with exhausted := true } none)] }
    let started := (b none).stagingChecks
    fate spent.stagingChecks = some (.halted, some .counterLimit) ∧
      motionIn (b (some 575)).stagingChecks = some (.a, .eject, .forward, 623) ∧
      (b (some 575)).stagingChecks.controller.heldReason = some .paperEnd ∧
      ((b (some 576)).stagingChecks.form 3).inFlight = true ∧
      (started.form 3).inFlight = true ∧ started.controller.state = .printing ∧ started.controller.phase = .feed ∧
      started.controller.line = some 1 ∧ motionIn started = some (.a, .feed, .forward, 24) ∧
      (told (b none) fun c => { c with coverMark := true }).stagingChecks.controller.state = .paused := by decide +kernel

/-- The walk from a line on, with the stock at an offset. -/
def walked (offset : Nat) (left : Option Nat) (line : Nat) : Blocks :=
  (working .printing .feed (stock .atPrint (some offset) left) noStock).walkFrom (order 7 .running) fun n => decide (line ≤ n)

/-- The walk visits lines 1 to 4 and no margin; a line reached is composed and its pass sent, one ahead is fed to, and after
the last comes the closing feed. -/
theorem test_walk :
    bench.visited 3 = [1, 2, 3, 4] ∧ (walked 72 none 3).head.carriage.activity = .approach ∧
      (walked 72 none 3).controller.phase = .pass ∧ (walked 72 none 3).controller.line = some 3 ∧
      (walked 72 none 3).head.pass = some (passTo (some .leftToRight) 120 215) := by decide +kernel

theorem test_walkFeeds :
    motionIn (walked 71 none 3) = some (.a, .feed, .forward, 1) ∧
      motionIn (walked 71 (some 0) 3) = some (.a, .eject, .forward, 48) ∧
      motionIn (walked 96 none 5) = some (.a, .feedToTop, .forward, 480) ∧
      motionIn (walked 96 (some 0) 5) = some (.a, .eject, .forward, 48) ∧
      (walked 96 none 5).controller.phase = .close := by decide +kernel

/-- The pass request with the head homing, unhomed, and homed. -/
theorem test_sendPass :
    let b := working .printing .feed (stock .atPrint (some 72) none) noStock
    let unhomed := { b with head := { b.head with carriage := { rest with homed := false } } }
    ((moving b .homing).sendPass 3 3 (120, 215)).controller.awaitsHoming = true ∧
      ((moving b .homing).sendPass 3 3 (120, 215)).controller.phase = .feed ∧
      (unhomed.sendPass 3 3 (120, 215)).head.homeFor = [.pass] ∧ unhomed.homeSeen = false ∧
      (b.sendPass 3 3 (120, 215)).head.plan.line = some 3 := by decide +kernel

/-- A ticket end on both outcomes, and the end of work with its home request. -/
theorem test_ends :
    let b := told (flying (working .printing .close (stock .atPrint (some 0) none) noStock)) fun c =>
      { c with struck := [2], heldReason := some .paperEnd }
    let ended := b.endTicket (order 7 .running)
    let marked := told b fun c => { c with coverMark := true }
    ((ended true).orders.find 7).map (fun o => (o.done, o.voided)) = some (2, 0) ∧
      ((ended false).orders.find 7).map (fun o => (o.done, o.voided)) = some (1, 1) ∧
      ((ended true).form 3).issueCount = 1 ∧ ((ended false).form 3).issueCount = 0 ∧
      ((ended false).form 3).inFlight = false ∧ (ended false).controller.struck = [] ∧
      ((ended false).pool.map fun r => r.revision) = [0xFFFF, 0, 0xFFFF, 0xFFFF] ∧
      b.voidTicket = ended false ∧ bench.voidTicket = bench ∧ fate (b.endWork (some .fault)) = some (.halted, some .paperEnd) ∧
      marked.coverOpen = false ∧ marked.homeSeen = false ∧ (marked.endWork none).head.homeFor = [.cover] := by
  decide +kernel

/-- After a ticket and after a PRESENT, by counts, policy and cancel. -/
theorem test_afterTicket :
    let b := fun (policy : Policy) (done : Nat) (cancel : Bool) =>
      amended (working .printing .present (stock .atPrint (some 0) none) noStock) fun o =>
        { o with policy := policy, done := done, cancelPending := cancel }
    let final := fun (x : Blocks) => told x fun c => { c with presentFinal := true }
    fate (b .none 5 false).afterTicket = some (.done, none) ∧ fate (b .last 5 true).afterTicket = some (.done, none) ∧
      motionIn (b .last 5 false).afterTicket = some (.a, .present, .forward, 432) ∧
      (b .last 5 false).afterTicket.controller.presentFinal = true ∧
      fate (b .each 4 true).afterTicket = some (.cancelled, none) ∧
      (b .each 4 false).afterTicket.controller.presentFinal = false ∧
      (b .last 4 false).afterTicket.controller.phase = .feed ∧
      (b .each 4 false).presentDone.controller.state = .awaitTear ∧ fate (b .each 4 true).presentDone = some (.cancelled, none) ∧
      fate (final (b .last 5 false)).presentDone = some (.done, none) ∧
      (final (b .last 4 false)).presentDone.controller.phase = .feed ∧
      (told (b .each 4 false) fun c => { c with coverMark := true }).presentDone.controller.state = .paused := by
  decide +kernel

/-- Order 7 printing in phase PASS, its ticket in flight, with paper left and a void motion held. -/
def voided (left : Option Nat) (v : Option VoidMotion) : Blocks :=
  told (flying (working .printing .pass (stock .atPrint (some 72) left) noStock)) fun c =>
    { c with voidMotion := v, line := some 3 }

/-- A void held is entered and requests its motion; a pass over goes on; a homing over sends the pass that waited. -/
theorem test_voiding :
    motionIn (voided none (some .feedToTop)).passOver = some (.a, .feedToTop, .forward, 504) ∧
      motionIn (voided (some 0) (some .feedToTop)).homingOver = some (.a, .eject, .forward, 48) ∧
      motionIn (voided (some 7) (some .eject)).passOver = some (.a, .eject, .forward, 55) ∧
      (voided (some 7) (some .eject)).passOver.controller.state = .voiding := by decide +kernel

theorem test_passOver :
    motionIn (voided none none).passOver = some (.a, .feed, .forward, 24) ∧
      ((voided none none).compose 3 3).homingOver.head.carriage.activity = .approach ∧
      fate (voided none (some .eject)).endVoided = some (.cancelled, none) := by decide +kernel

/-- Leaving PAUSED with each remembered state, and a pass SUSPENDED in PRINTING. -/
theorem test_paused :
    let b := flying (working .paused .none (stock .atPrint (some 72) none) noStock)
    let back := fun q (phase : Phase) => (told b fun c => { c with remembered := some q, phase := phase, line := some 3 })
    let suspended := { moving (back .printing .pass) .suspended with
      head := { (moving bench .suspended).head with pass := some (passTo (some .leftToRight) 120 215) } }
    motionIn (back .staging .none).leavePaused = some (.a, .feedToTop, .forward, 504) ∧
      (back .awaitTear .none).leavePaused.controller.state = .awaitTear ∧
      (back .idle .none).leavePaused.controller.state = .idle ∧
      motionIn (told (back .voiding .none) fun c => { c with voidMotion := some .feedToTop }).leavePaused =
        some (.a, .feedToTop, .forward, 504) ∧
      (back .printing .feed).leavePaused.head.carriage.activity = .approach ∧
      (back .printing .present).leavePaused.controller.state = .awaitTear ∧
      motionIn (back .printing .pass).leavePaused = some (.a, .feed, .forward, 24) ∧
      suspended.leavePaused.head.carriage.activity = .approach ∧
      (told suspended fun c => { c with state := .printing }).headAnswered.controller.state = .paused := by
  decide +kernel

/-- A cancel of the current order in each controller state. -/
theorem test_cancelStates :
    let cancelled := fun b => (after (.orderCancel .addressed 7) (on b)).blocks
    let b := fun state phase => flying (working state phase (stock .atPrint (some 0) none) noStock)
    let passing := fun a => { moving (b .printing .pass) a with
      head := { (moving bench a).head with pass := some (passTo (some .leftToRight) 120 215) } }
    let paused := fun q => told (b .paused .pass) fun c => { c with remembered := some q }
    (cancelled (passing .segment)).head.hold = .endPass ∧ (cancelled (passing .dwell)).controller.state = .voiding ∧
      motionIn (cancelled (passing .dwell)) = some (.a, .feedToTop, .forward, 576) ∧
      (cancelled (working .printing .present (stock .atPrint (some 0) none) noStock)).controller.voidMotion = none ∧
      fate (cancelled (working .awaitTear .none (stock .presented (some 0) none) noStock)) = some (.cancelled, none) ∧
      fate (cancelled (showing (paused .staging) .cover true)) = some (.cancelled, none) ∧
      (cancelled (showing (paused .awaitTear) .cover true)).controller.remembered = some .idle ∧
      (cancelled (showing (paused .printing) .cover true)).controller.remembered = some .voiding ∧
      (cancelled (showing (paused .voiding) .cover true)).controller.remembered = some .voiding ∧
      (cancelled (showing (told (working .paused .present (stock .presented (some 0) none) noStock) fun c =>
        { c with remembered := some .printing, presentFinal := true }) .cover true)).controller.remembered =
          some .printing := by decide +kernel

/-- Paper gone from the current order's stock, in each controller state, at the boundary of what the ticket still needs. -/
theorem test_paperEnd :
    let gone := fun b => (after (.debounceExpiry .psa) (on (changing b .psa false))).blocks
    let b := fun state phase offset => flying (working state phase (stock .atPrint (some offset) none) noStock)
    let long := fun (x : Blocks) => { x with forms := x.forms.set 3 { card with lines := 40, inFlight := true } }
    let passing := fun a => { moving (long (b .printing .pass 72)) a with
      head := { (moving bench a).head with pass := some (passTo (some .leftToRight) 120 215) } }
    (gone (b .printing .close 0)).controller.voidMotion = none ∧
      (gone (long (b .printing .feed 240))).controller.voidMotion = none ∧
      (gone (long (b .printing .feed 239))).controller.voidMotion = some .eject ∧
      (gone (passing .approach)).head.hold = .endPass ∧ (gone (passing .dwell)).controller.state = .voiding ∧
      (gone (told (long (b .paused .feed 239)) fun c => { c with remembered := some .printing })).controller.remembered =
        some .voiding ∧
      (gone (b .voiding .none 0)).controller.heldReason = some .paperEnd ∧
      (gone (b .staging .none 5)).attention.paperA = 4 := by decide +kernel

/-- The cover and TEAR under a current order. -/
theorem test_interruptions :
    let b := fun state phase => flying (working state phase (stock .atPrint (some 0) none) noStock)
    let opened := fun x => (after (.debounceExpiry .cover) (on (changing x .cover true))).blocks
    let closed := fun x => (after (.debounceExpiry .cover) (on (changing x .cover false))).blocks
    let tear := fun left => (after (.debounceExpiry .tear) (on (changing
      (working .awaitTear .none (stock .presented (some 0) left) noStock) .tear true))).blocks
    (opened (moving (b .printing .pass) .approach)).head.hold = .pause ∧
      (opened (b .printing .feed)).head.hold = .none ∧ (opened (b .printing .feed)).controller.coverMark = true ∧
      (opened (told (b .paused .feed) fun c => { c with remembered := some .printing })).controller.state = .paused ∧
      (closed (told (b .paused .feed) fun c => { c with remembered := some .printing })).head.homeFor = [.cover] ∧
      (closed (moving (told (b .paused .feed) fun c => { c with remembered := some .printing }) .homing)).head.homeFor =
        [.cover] ∧
      (closed (showing (told (b .paused .feed) fun c => { c with remembered := some .staging }) .home true)).controller.state =
        .printing ∧
      (closed (b .printing .feed)).controller.state = .printing ∧ motionIn (tear none) = some (.a, .retract, .reverse, 432) ∧
      motionIn (tear (some 289)) = some (.a, .eject, .forward, 337) ∧ (tear none).controller.state = .staging := by
  decide +kernel

/-- A dwell that ends with a pause pending, and one in a state that waits for a homing. -/
theorem test_refillPause :
    let b := fun hold => { showing (printing .dwell (passTo (some .leftToRight) 120 215) none 152 95) .cover true with
      head := { (printing .dwell (passTo (some .leftToRight) 120 215) none 152 95).head with hold := hold } }
    (after .refillTick (on (b .pause))).blocks.controller.state = .paused ∧
      (after .refillTick (on (b .pause))).blocks.head.carriage.activity = .suspended ∧
      (after .refillTick (on (b .none))).blocks.head.refillTimer = 2 ∧
      (after .refillTick (on (told (moving (b .none) .homing) fun c => { c with awaitsHoming := true }))).blocks.head.heat =
        heats 96 := by decide +kernel

/-! ## The carriage -/

theorem test_carriageStep :
    let stepped := fun b => (after .carriageStep (on b)).blocks.head
    (stepped (moving bench .homing)).carriage.coordinate = 99 ∧
      (stepped (printing .approach (passTo (some .leftToRight) 120 215) none 151 96)).carriage.coordinate = 152 ∧
      (stepped (printing .approach (passTo (some .leftToRight) 120 215) none 152 96)).carriage.coordinate = 152 ∧
      (stepped (printing .approach (passTo (some .rightToLeft) 120 215) none 248 96)).carriage.coordinate = 247 ∧
      (stepped (printing .segment (passTo (some .leftToRight) 120 215) (some ⟨.half, 120, 215, 0⟩) 152 90)).firing =
        (pin 8 ||| pin 9) ∧
      (stepped (printing .segment (passTo (some .leftToRight) 120 215) (some ⟨.half, 120, 215, 95⟩) 247 90)).heat =
        List.replicate 7 91 ++ [89, 89] ++ List.replicate 9 91 ∧
      (stepped (printing .segment (passTo (some .rightToLeft) 120 215) (some ⟨.half, 120, 215, 95⟩) 152 90)).carriage.coordinate =
        151 ∧
      stepped (moving bench .idle) = bench.head := by decide +kernel

theorem test_headFaults :
    let lost := { moving bench .homing with head := { (moving bench .homing).head with homingSteps := 1700 } }
    (after .stall (on (moving bench .homing))).blocks.attention.faultRecord = some ⟨.stall, none, .homing, 1⟩ ∧
      (after .stall (on (printing .approach (passTo (some .leftToRight) 120 215) none 100 96))).blocks.controller.state =
        .faulted ∧
      after .stall (on bench) = on bench ∧ lost.head.stallCount + min (1700 - lost.head.homingSteps) 1 < 16 ∧
      (after .homeLost (on lost)).blocks.attention.faultRecord = some ⟨.homeLost, none, .homing, 1⟩ := by decide +kernel

theorem test_homing :
    let home := fun q b => { showing (moving b .homing) .home true with head := { (moving b .homing).head with homeFor := [q] } }
    let faulted := { bench with controller := { Controller.hardReset with state := .faulted } }
    let pass := printing .homing (passTo none 120 215) none 5 96
    (home .clearFault faulted).homeSeen = true ∧ (home .clearFault faulted).head.pass = none ∧
      (after .homingComplete (on (home .clearFault faulted))).blocks.controller.state = .idle ∧
      (after .homingComplete (on (home .startUp bench))).blocks.head.carriage.homed = true ∧
      (home .pass pass).head.pass = some (passTo none 120 215) ∧ (home .pass pass).head.hold = .none ∧
      (after .homingComplete (on (home .pass pass))).blocks.head.carriage.activity = .approach := by decide +kernel

theorem test_approach :
    let b := printing .approach (passTo (some .leftToRight) 120 215) none 152 96
    let cold := printing .approach (passTo (some .rightToLeft) 120 215) none 100 1
    b.atWork ∧ b.controller.awaitsHoming = false ∧ b.head.carriage.activity = .approach ∧ b.head.hold = .none ∧
      b.head.pass = some (passTo (some .leftToRight) 120 215) ∧ b.head.stallCount < 15 ∧
      (after .approachComplete (on b)).blocks.head.segment.isSome = true ∧
      (after .approachComplete (on cold)).blocks.head.carriage.activity = .dwell ∧
      (after .approachComplete (on cold)).blocks.head.carriage.coordinate = 247 := by
  refine ⟨⟨by decide, by decide⟩, ?_⟩
  decide +kernel

/-- The end of an approach with a pause and with an end-pass request pending. -/
theorem test_approachHeld :
    let b := fun hold => told (showing { printing .approach (passTo (some .leftToRight) 120 215) none 151 96 with
      head := { (printing .approach (passTo (some .leftToRight) 120 215) none 151 96).head with hold := hold } }
      .cover true) fun c => { c with line := some 3 }
    let done := fun x => (after .approachComplete (on x)).blocks
    (done (b .pause)).controller.state = .paused ∧ (done (b .pause)).head.carriage.activity = .suspended ∧
      (done (b .pause)).head.pass = some (passTo (some .leftToRight) 120 215) ∧
      (done (b .endPass)).head.pass = none ∧ (done (b .endPass)).head.heat = heats 96 ∧
      (done (b .endPass)).controller.phase = .feed ∧
      (done (told (b .endPass) fun c => { c with voidMotion := some .feedToTop })).controller.state = .voiding ∧
      (done (told (b .pause) fun c => { c with state := .voiding })).controller.state = .voiding := by decide +kernel

theorem test_segment :
    let right := printing .segment (passTo (some .leftToRight) 120 215) (some ⟨.half, 120, 150, 0⟩) 152 96
    let left := printing .segment (passTo (some .rightToLeft) 120 215) (some ⟨.half, 180, 215, 0⟩) 247 96
    right.controller.state = .printing ∧ right.controller.phase = .pass ∧ right.controller.awaitsHoming = false ∧
      right.head.carriage.activity = .segment ∧ right.head.pass = some (passTo (some .leftToRight) 120 215) ∧
      right.head.segment = some ⟨.half, 120, 150, 0⟩ ∧ right.head.stallCount < 15 ∧ right.head.hold = .none ∧
      (after .segmentComplete (on right)).blocks.head.pass = some (passTo (some .leftToRight) 151 215) ∧
      (after .segmentComplete (on left)).blocks.head.pass = some (passTo (some .rightToLeft) 120 179) := by decide +kernel

/-- The outcomes of a homing: with a pass and each pending request, for a resume, waited for, and for a closed cover. -/
theorem test_homings :
    let home := fun hold q d b => { showing b .home true with
      head := { (moving b .homing).head with homeFor := [q], hold := hold, pass := some (passTo d 120 215) } }
    let done := fun b => (after .homingComplete (on b)).blocks
    let b := told (printing .homing (passTo none 120 215) none 5 96) fun c => { c with line := some 3 }
    let covered := showing b .cover true
    let paused := told b fun c => { c with state := .paused, remembered := some .printing }
    (done (home .endPass .pass none b)).head.pass = none ∧ (done (home .pause .pass none covered)).controller.state = .paused ∧
      (done (home .none .cover (some .leftToRight) covered)).head.carriage.activity = .suspended ∧
      (done (home .none .resume (some .leftToRight) b)).head.carriage.activity = .approach ∧
      (done (home .none .cover (some .leftToRight) paused)).controller.state = .printing ∧
      (done (home .none .cover (some .leftToRight) paused)).head.carriage.activity = .approach ∧
      (home .none .cover (some .leftToRight) paused).coverOpen = false := by decide +kernel

theorem test_homingWaited :
    let b := told (flying ((working .printing .feed (stock .atPrint (some 72) none) noStock).compose 3 3)) fun c =>
      { c with awaitsHoming := true, line := some 3 }
    let done := (after .homingComplete (on (moving (showing b .home true) .homing))).blocks
    done.controller.phase = .pass ∧ done.controller.awaitsHoming = false ∧ done.head.carriage.activity = .approach := by
  decide +kernel

/-- The last segment of a pass, and a segment with a pause pending, with its columns all traversed. -/
theorem test_segmentEnds :
    let b := fun last k hold => told (showing { printing .segment (passTo (some .leftToRight) 120 215) (some ⟨.half, 120, last, k⟩) 152 90 with
      head := { (printing .segment (passTo (some .leftToRight) 120 215) (some ⟨.half, 120, last, k⟩) 152 90).head with
                hold := hold } } .cover true) fun c => { c with line := some 3 }
    let done := fun x => (after .segmentComplete (on x)).blocks
    (done (b 215 0 .none)).head.pass = none ∧ (done (b 215 0 .none)).controller.phase = .feed ∧
      (done (b 215 0 .none)).head.carriage.coordinate = 248 ∧ (done (b 150 0 .endPass)).head.pass = none ∧
      (done (b 150 0 .pause)).controller.state = .paused ∧
      (done (b 150 31 .pause)).head.pass = some (passTo (some .leftToRight) 151 215) ∧
      (b 150 0 .none).head.heat = heatAt (b 150 0 .none).composer.image 2 .half (travel .leftToRight 120 150) (heats 90) 0 := by
  decide +kernel

/-! ## The paper -/

def feeding (kind : MotionKind) (toGo jam : Nat) (q : Requester) (phase : Nat) : Motion where
  tractor := .a
  kind := kind
  direction := .forward
  done := 10
  toGo := toGo
  requester := q
  startOffset := some 10
  phase := phase
  jamCount := jam

/-- Stock A moved by a motion. -/
def moved (b : Blocks) (left : Option Nat) (m : Motion) : Blocks :=
  { b with paper := { b.paper with stockA := stock .moving none left, motion := some m, feedMotor := .held } }

theorem test_feedStep :
    let stepped := fun left m => (after .feedStep (on (moved bench left m))).blocks.paper.motion
    stepped none (feeding .feed 5 95 .terminal 0) = some { feeding .feed 4 96 .terminal 0 with done := 11 } ∧
      stepped none (feeding .feed 5 96 .terminal 0) = some (feeding .feed 5 96 .terminal 0) ∧
      stepped none (feeding .feed 0 0 .terminal 0) = some (feeding .feed 0 0 .terminal 0) ∧
      stepped (some 1) (feeding .feed 2 0 .terminal 0) = some { feeding .eject 48 1 .terminal 0 with done := 11 } ∧
      stepped (some 1) (feeding .feed 1 0 .terminal 0) = some { feeding .feed 0 1 .terminal 0 with done := 11 } ∧
      after .feedStep (on bench) = on bench ∧
      (after .pmsPulse (on (moved bench none (feeding .feed 5 95 .terminal 0)))).blocks.paper.motion =
        some (feeding .feed 5 0 .terminal 0) ∧ after .pmsPulse (on bench) = on bench := by decide +kernel

/-- Paper at the load mark of a stock that no current order prints on: a forward motion goes on, a reverse one becomes an
ejection, a stock with end remaining and a LOST one stay as they are. -/
theorem test_sensorRows :
    let change := fun b level => (after (.debounceExpiry .psa) (on (changing b .psa level))).blocks.paper
    let back := { feeding .park 400 0 .terminal 0 with direction := .reverse }
    (change (moved bench none (feeding .feed 5 0 .terminal 0)) false).stockA.endRemaining = some 720 ∧
      (change (moved bench none (feeding .feed 5 0 .terminal 0)) false).motion = some (feeding .feed 5 0 .terminal 0) ∧
      (change (moved bench none back) false).motion = some { back with kind := .eject, direction := .forward, toGo := 768 } ∧
      (change (moved bench (some 9) back) false).motion = some back ∧
      (change (loaded (stock .atPrint (some 3) (some 9))) true).stockA = stock .atPrint (some 3) (some 9) ∧
      (change (loaded (stock .lost none none)) false).stockA = stock .lost none none ∧
      (change (working .staging .none (otherStock .atPrint (some 3) none) (stock .parked none none)) false).stockA.endRemaining =
        some 720 := by decide +kernel

theorem test_jam :
    let b := moved bench none (feeding .feed 200 0 .terminal 0)
    b.paper.jamming.isSome = true ∧ (after .jam (on b)).blocks.attention.faultRecord = some ⟨.jam, some .a, .feed, 1⟩ ∧
      (after .jam (on b)).blocks.paper.stockA.state = .lost ∧
      after .jam (on bench) = on bench := by decide +kernel

/-- The ends of terminal motions: landed, ejected at the boundary of end remaining, and the two phases of STOCK_SELECT. -/
theorem test_motionComplete :
    let ended := fun b => (after .motionComplete (on b)).blocks
    let other := fun b : Blocks => { b with paper := { b.paper with stockB := { stock .parked none none with form := some 4 } } }
    (ended (moved bench none (feeding .feed 560 0 .terminal 0))).paper.stockA = stock .atPrint (some 4) none ∧
      (ended (moved bench none (feeding .feed 560 0 .terminal 0))).attention.paperA = 8 ∧
      (ended (moved bench (some 5) (feeding .feed 5 0 .terminal 0))).paper.stockA = stock .atPrint (some 25) (some 0) ∧
      (ended (moved bench (some 4) (feeding .feed 5 0 .terminal 0))).paper.stockA.state = .absent ∧
      (ended (other (moved bench none (feeding .eject 5 94 .terminal 1)))).paper.motion.map (·.kind) = some .advance ∧
      (ended (moved bench none (feeding .eject 5 94 .terminal 1))).attention.paperB = 8 ∧
      (other (moved bench none (feeding .eject 5 94 .terminal 1))).calm := by
  refine ⟨by decide +kernel, by decide +kernel, by decide +kernel, by decide +kernel, by decide +kernel,
    by decide +kernel, fun _ => .inr (.inr fun r m => ?_), fun h => ?_⟩
  · cases m
  · cases h

/-- The print path of a state in which a motion of the Issue Controller moves stock A. -/
def issuing (state : ControllerState) (phase : Phase) (left : Option Nat) (kind : MotionKind) (toGo : Nat) : Blocks :=
  moved (flying (working state phase noStock noStock)) left (feeding kind toGo 0 .issue 0)

/-- The hypotheses of the statement on ISSUE motions, and the ends of such motions: landed, and ejected at the boundary of
end remaining. -/
theorem test_issueMotions :
    (issuing .printing .feed none .feed 4).paper.pathOk ∧
      (issuing .printing .feed none .feed 4).currentOrder = some (order 7 .running) ∧
      motionIn (after .motionComplete (on (issuing .printing .feed none .feed 4))).blocks =
        some (.a, .feed, .forward, 24) ∧
      fate (after .motionComplete (on (issuing .printing .feed (some 3) .feed 4))).blocks = some (.halted, some .paperEnd) ∧
      motionIn (after .motionComplete (on (issuing .printing .feed (some 4) .feed 4))).blocks =
        some (.a, .eject, .forward, 48) := by
  refine ⟨⟨by decide, ?_, ?_, ?_⟩, by decide +kernel⟩
  · intro t
    cases t
    · exact ⟨fun _ => ⟨_, rfl, rfl⟩, fun _ => rfl⟩
    · refine ⟨fun h => ?_, fun ⟨m, h, k⟩ => ?_⟩
      · cases h
      · cases h
        cases k
  · intro m h k
    cases h
    cases k
  · rintro f ⟨_, h⟩
    cases h

theorem test_issueEnds :
    let ended := fun b => (after .motionComplete (on b)).blocks
    fate (ended (issuing .staging .none none .eject 4)) = some (.halted, some .paperEnd) ∧
      (ended (issuing .staging .none none .advance 4)).controller.state = .printing ∧
      (ended (issuing .printing .present none .present 4)).controller.state = .awaitTear ∧
      fate (ended (issuing .printing .present none .eject 4)) = some (.halted, some .paperEnd) ∧
      ((ended (issuing .printing .close none .feedToTop 4)).orders.find 7).map (·.done) = some 2 ∧
      fate (ended (issuing .voiding .none none .feedToTop 4)) = some (.cancelled, none) ∧
      ((ended (issuing .voiding .none none .eject 4)).orders.find 7).map (·.voided) = some 1 := by decide +kernel

/-- A staging that waits is taken up at the end of the motion it waits for. -/
theorem test_waiting :
    let b := moved (working .staging .none noStock noStock) none (feeding .park 4 0 .terminal 0)
    let waits := { b with paper := { b.paper with waiting := true } }
    motionIn (after .motionComplete (on waits)).blocks = some (.a, .advance, .forward, 720) ∧
      (after .motionComplete (on waits)).blocks.paper.waiting = false := by decide +kernel

/-- A fault comes where the count and the steps left reach the limit, and one step short of it does not. -/
theorem test_faultLimits :
    let stalled := fun n => { printing .approach (passTo (some .leftToRight) 120 215) none 150 96 with
      head := { (printing .approach (passTo (some .leftToRight) 120 215) none 150 96).head with stallCount := n } }
    (stalled 14).head.stepsLeft false = 2 ∧ (stalled 14).head.target ≤ 1599 ∧
      (after .stall (on (stalled 14))).blocks.controller.state = .faulted ∧ after .stall (on (stalled 13)) = on (stalled 13) ∧
      (feeding .feed 60 36 .terminal 0).stepsLeft none = 60 ∧ (feeding .feed 60 36 .terminal 0).stepsLeft (some 5) = 53 ∧
      (after .jam (on (moved bench none (feeding .feed 60 36 .terminal 0)))).blocks.controller.state = .faulted ∧
      after .jam (on (moved bench none (feeding .feed 60 35 .terminal 0))) =
        on (moved bench none (feeding .feed 60 35 .terminal 0)) := by decide +kernel

/-- A fault in a ticket: it ends voided, its order is halted, and the struck counter has advanced. -/
theorem test_faultVoids :
    let b := told (printing .approach (passTo (some .leftToRight) 120 215) none 100 96) fun c => { c with struck := [2] }
    let t := (after .stall (on b)).blocks
    b.ticketInFlight = true ∧ fate t = some (.halted, some .fault) ∧ (t.form 3).inFlight = false ∧
      (t.orders.find 7).map (·.voided) = some 1 ∧ (t.pool.map fun r => r.revision) = [0xFFFF, 0, 0xFFFF, 0xFFFF] := by
  decide +kernel

/-- A fault closes a finished order DONE and one with its cancel pending CANCELLED; in FAULTED a jam loses its stock, with end
remaining counted up to the jam, and raises the count of the record alone. -/
theorem test_faultCloses :
    let b := fun g => amended (printing .approach (passTo (some .leftToRight) 120 215) none 100 96) g
    let stalled := fun g => fate (after .stall (on (b g))).blocks
    let faulted := { moved bench (some 500) (feeding .feed 200 36 .terminal 0) with
      controller := { Controller.hardReset with state := .faulted }
      attention := bench.attention.recordFault .stall none .pass }
    let t := (after .jam (on faulted)).blocks
    stalled (fun o => { o with done := 5 }) = some (.done, none) ∧
      stalled (fun o => { o with cancelPending := true }) = some (.cancelled, none) ∧
      t.attention.faultRecord = some ⟨.jam, some .a, .feed, 2⟩ ∧ t.paper.stockA = stock .lost none (some 440) ∧
      t.paper.motion = none ∧ t.head = faulted.head ∧ t.controller = faulted.controller := by decide +kernel

/-- SOFT_RESET with a ticket and a motion in flight, and with HOME asserted. -/
theorem test_softResetEffects :
    let b := (issuing .printing .feed none .feed 4).softReset
    let home := (showing (told bench fun c => { c with coverMark := true }) .home true).softReset
    (b.form 3).inFlight = false ∧ b.paper.stockA = stock .lost none none ∧ b.paper.motion = none ∧
      b.head.homeFor = [.softReset] ∧ b.orders = { records := [], next := 1 } ∧
      home.head.carriage.homed = true ∧ home.attention.idleTimer = .running 50 ∧
      (after .hardReset (on (issuing .printing .feed none .feed 4))).blocks.paper.stockA = stock .lost none none := by
  decide +kernel

/-- A ticket in flight with its order running satisfies the laws of orders and tickets, and a step is made from it. -/
theorem test_ticketsOk :
    let b := issuing .printing .feed none .feed 4
    b.orders.ok ∧ b.runsOne ∧ b.ticketsOk ∧ (step ((on b).withPending [.motionComplete])) =
      exec .motionComplete ((on b).withPending []) := by
  intro b
  have one : ∀ r ∈ b.orders.records, r = order 7 .running := fun r m => List.mem_singleton.mp m
  refine ⟨⟨by decide, by decide, fun r m => ?_, by decide, by decide, by decide⟩,
    ⟨fun h => ?_, fun h => ?_, fun r m _ => ?_⟩,
    ⟨fun r m => ?_, fun n h => ?_, fun r m => ?_, fun _ _ o h => ?_, fun h => ?_⟩, rfl⟩
  · rw [one r m]
    exact ⟨by decide, by decide, by decide, by decide, by decide, by decide⟩
  · rcases h with h | h <;> cases h
  · cases h
  · rw [one r m]; rfl
  · rw [one r m]; decide
  · cases h
    exact ⟨order 7 .running, rfl, rfl⟩
  · rw [one r m]; decide
  · cases h
    exact ⟨by decide, by decide⟩
  · cases h

/-- The state that the statement on the last closing feed asks for. -/
def closing : Blocks :=
  let b := moved (flying bench) (some 5) (feeding .feedToTop 5 94 .issue 0)
  { b with
    orders := { records := [{ order 7 .running with requested := 2 }], next := 9 }
    controller := { Controller.hardReset with state := .printing, current := some 7, phase := .close, struck := [2] } }

theorem test_closing :
    closing.orders.ok ∧ closing.currentOrder = some { order 7 .running with requested := 2 } ∧
      closing.controller.state = .printing ∧ closing.controller.phase = .close ∧ closing.controller.coverMark = false ∧
      closing.paper.motion = some (feeding .feedToTop 5 94 .issue 0) ∧ closing.paper.stockA.endRemaining = some 5 ∧
      (after .motionComplete (on closing)).blocks.controller = Controller.hardReset ∧
      (after .motionComplete (on closing)).blocks.form 3 = { card with issueCount := 1 } ∧
      ((after .motionComplete (on closing)).blocks.orders.find 7).map (fun o => (o.state, o.done)) = some (.done, 2) := by
  refine ⟨⟨by decide, by decide, ?_, by decide, by decide, by decide⟩, by decide +kernel⟩
  intro r m
  cases List.mem_singleton.mp m
  exact ⟨by decide, by decide, by decide, by decide, by decide, by decide⟩

/-! ## The link -/

/-- A link with these entries waiting and a parser. -/
def linked (fifo : List FifoEntry) (p : Parser) : State :=
  (on bench).withLink { Link.hardReset with fifo := fifo, hold := decide (48 ≤ fifo.length), parser := p, longIdle := false }

/-- A parser in a state of R179. -/
def parserIn (x : ParserState) (taken : Nat) : Parser := { Parser.hunting with state := x, headerTaken := taken }

theorem test_receiver :
    let full := fun n => linked (unbroken (List.replicate n 0)) Parser.hunting
    (after (.receiveCharacter 1) (full 46)).link.hold = false ∧ (after (.receiveCharacter 1) (full 47)).link.hold = true ∧
      (after (.receiveCharacter 1) (full 63)).link.fifo.length = 64 ∧
      (after (.receiveCharacter 1) (full 64)).link.parser.state = .discard ∧
      (after (.receiveCharacter 1) (full 64)).blocks.attention.linkTrouble = 8 ∧
      (after (.receiveCharacter 1) (linked [] (parserIn .discard 0))).link.fifo = [] ∧
      (after .longIdle (linked [] (parserIn .header 1))).blocks.attention.linkTrouble = 4 ∧
      (after .longIdle (linked [] Parser.hunting)).link.longIdle = true ∧
      (after .shortIdle ((linked [] (parserIn .discard 0)).withLink
        { (linked [] (parserIn .discard 0)).link with shortIdle := false })).link.parser = Parser.hunting := by
  decide +kernel

/-- One byte in each state of the parser. -/
theorem test_parser :
    let taken := fun (x : Byte) (gap : Bool) p => after .parserDraw (linked [⟨x, gap⟩] p)
    (taken 0x5A false Parser.hunting).link.parser.state = .header ∧ (taken 0x5B false Parser.hunting).link.parser = Parser.hunting ∧
      (taken 0x5A true (parserIn .header 2)).link.parser = parserIn .header 0 ∧
      (taken 3 true (parserIn .header 2)).blocks.attention.linkTrouble = 4 ∧
      (taken 3 false (parserIn .header 0)).link.parser.station = 3 ∧ (taken 3 false (parserIn .header 1)).link.parser.command = 3 ∧
      (taken 0 false (parserIn .header 2)).link.parser.state = .check ∧
      (taken 200 false (parserIn .header 2)).link.parser.state = .payload ∧
      (taken 201 false (parserIn .header 2)).blocks.attention.linkTrouble = 2 ∧
      (taken 9 false { parserIn .payload 3 with length := 1 }).link.parser.state = .check ∧
      (taken 9 false (parserIn .check 3)).link.parser.checkHigh = some 9 ∧
      (taken 9 false { parserIn .check 3 with checkHigh := some 0 }).blocks.attention.linkTrouble = 1 ∧
      (taken 9 false (parserIn .discard 0)).link.fifo = [⟨9, false⟩] := by decide +kernel

/-- The part with a frame in its FIFO. -/
def sent (station code : Byte) (p : List Byte) : State := linked (unbroken (frame station code p)) Parser.hunting

/-- The RESULT byte after the frame has been drawn. -/
def drawn (station code : Byte) (p : List Byte) : Option Byte :=
  match execAll (List.replicate (p.length + 6) .parserDraw) (sent station code p) with
  | .next t => t.link.reply.bind fun f => f[3]?
  | .fault _ | .refused _ => none

theorem test_frames :
    (sent 0 0x01 [1, 2]).Ready ∧ (sent 0 0x01 [1, 2]).link.ok ∧ drawn 0 0x01 [1, 2] = some 0x04 ∧ drawn 31 0x01 [1, 2] = none ∧
      drawn 5 0x01 [1, 2] = none ∧ drawn 0 0x47 [] = some 0x1C ∧ drawn 0 0x42 [] = some 0x1B ∧ drawn 31 0x42 [] = none := by
  refine ⟨⟨rfl, rfl⟩, ⟨by decide, by decide, by decide, by decide, by decide, by decide⟩, ?_⟩
  decide +kernel

/-- The frame of a NULL to station 0, written out from R180 and R189: lead byte, station, command, length, check. -/
theorem test_frame_bytes : frame 0 0x01 [] = [0x5A, 0, 1, 0, 0, 1] ∧ frame 2 0x42 [7] = [0x5A, 2, 0x42, 1, 7, 0, 0x4C] := by
  decide +kernel

theorem test_broadcast :
    let issued := (after (.formLock .broadcast 3 1) (on bench))
    issued.link = (on bench).link ∧ (issued.blocks.form 3).lock = .locked ∧
      after (.formQuery .broadcast 3) (on bench) = on bench ∧
      (after (.softReset .broadcast) (on (running bench .staging .none))).blocks.controller = Controller.hardReset := by
  decide +kernel

/-! ## Invariants -/

/-- A state that satisfies every invariant, with fields, and a step from it. -/
theorem test_invariants : bench.head.heatOk ∧ bench.paper.pathOk ∧ bench.orders.ok ∧ bench.runsOne ∧ bench.recordsOk ∧
    bench.glyphsOk ∧ step (on bench) = .next (on bench) := by
  refine ⟨⟨by decide, by decide⟩, ⟨by decide, ?_, ?_, ?_⟩, ⟨by decide, by decide, ?_, by decide, by decide, by decide⟩, ⟨fun _ => rfl, ?_, ?_⟩,
    ⟨by decide, by decide, ?_, by decide, by decide +kernel, by decide +kernel, by decide, by decide +kernel,
      by decide +kernel, by decide +kernel, by decide +kernel⟩, ⟨by decide, by decide +kernel, rfl⟩, rfl⟩
  · intro t
    cases t <;> refine ⟨fun h => ?_, fun ⟨m, h, _⟩ => ?_⟩ <;> cases h
  · intro m h
    cases h
  · rintro f ⟨h, _⟩
    cases h
  · intro r m
    cases m
  · intro h
    cases h
  · intro r m
    cases m
  · intro f
    exact Nat.le_trans (List.length_filter_le _ _) (by decide)

end Sys2Proof.Tests
end

section
/-! SUPPORT. The form commands FORM_DEFINE and FORM_RETIRE (01, R14, R18): their tests as the statements name them, what they
write, and the proofs of O11 and O13. -/

namespace Sys2Proof.Machine

/-! ## Tests of the form commands, as propositions -/

/-- The NO_FORM test of a form command (R13). -/
theorem undefined_iff (r : FormRecord) : (!r.defined) = true ↔ r.defined = false := by simp

/-- The lock tests in their order, FROZEN then LOCKED (R8). -/
theorem lockTests_named (r : FormRecord) :
    List.Forall₂ (fun x p => (x.1 = true ↔ p.1) ∧ x.2 = p.2) r.lockTests
      [(r.lock = .frozen, .frozen), (r.lock = .locked, .locked)] :=
  .cons ⟨beq_iff_eq, rfl⟩ (.cons ⟨beq_iff_eq, rfl⟩ .nil)

/-- In use for FORM_RETIRE: on a stock, or named by any record (R12). -/
theorem retireInUse_iff (b : Blocks) (f : Nat) :
    b.retireInUse f = true ↔ b.carried f ∨ ∃ o ∈ b.orders.records, o.form = f := by
  simp only [Blocks.retireInUse, Bool.or_eq_true, assigned_iff, List.any_eq_true, beq_iff_eq]

/-! ## What the form commands write -/

/-- FORM_DEFINE as a list of tests: `written` answers none where BAD_VALUE refuses, ahead of EXISTS (R14). -/
theorem formDefine_checked (b : Blocks) (a : FormBytes) [Decidable a.legal] :
    b.formDefine a =
      b.checked [(!decide a.legal, .badValue), ((b.form a.form.toNat).defined, .exists)]
        ((b.setForm a.form.toNat { a.into FormRecord.empty with defined := true }).answer .ok) := by
  unfold Blocks.formDefine
  rw [written_eq]
  by_cases legal : a.legal <;> simp [legal, Blocks.checked, firstRefusal]

/-- An emptied form: its record at EMPTY, its fields out of the pool, nothing else changed (R18). -/
theorem emptyForm_eq (b : Blocks) (f : Nat) :
    b.emptyForm f =
      { b with
        forms := b.forms.set f FormRecord.empty
        pool := b.pool.filter fun q => decide (¬ q.form = f) } := by
  have leaves : (fun q : FieldRecord => !(q.form == f)) = fun q => decide (¬ q.form = f) := by
    funext q
    rw [decide_not, beq_eq_decide]
  unfold Blocks.emptyForm
  rw [leaves]
  rfl

/-! ## The statements -/

/-- Settles O11: the tests are those of `formDefine_checked`, and the accepted command writes one form record. -/
theorem formDefineWritesANewRecord : Obligations.FormDefineWritesANewRecord := by
  classical
  intro s a ready
  refine ⟨_, rfl, ready.tested (formDefine_checked s.blocks a) ?tests ?accepted⟩
  case tests => exact .cons ⟨by simp, rfl⟩ (.cons ⟨Iff.rfl, rfl⟩ .nil)
  case accepted =>
    intro _ done
    exact ready.answers (act := fun b => b.formDefine a) done

/-- Settles O13: each test of R18 names its condition, and `emptyForm_eq` gives what the accepted command writes. -/
theorem formRetireEmptiesTheForm : Obligations.FormRetireEmptiesTheForm := by
  intro s form ready
  refine ⟨_, rfl, ready.tested rfl ?tests ?accepted⟩
  case tests =>
    have inUse := retireInUse_iff s.blocks form.toNat
    exact .cons ⟨badForm_iff form, rfl⟩
      (.cons ⟨undefined_iff _, rfl⟩ (List.rel_append (lockTests_named _) (.cons ⟨inUse, rfl⟩ .nil)))
  case accepted =>
    intro _ done
    have answered := ready.answers (c := .formRetire) (act := fun b => b.formRetire form) done
    exact answered_blocks answered (emptyForm_eq s.blocks form.toNat).symm

end Sys2Proof.Machine
end

section
/-! SUPPORT. The glyph query GLYPH_QUERY (03, R53): its test as the statement names it, what the Glyph Store holds for a code
of each kind of set, and the proof of O20. -/

namespace Sys2Proof.Machine

/-! ## The test of GLYPH_QUERY, as a proposition -/

/-- A byte is 2 exactly where its number is. -/
theorem toNat_eq_two_iff (n : Byte) : n.toNat = 2 ↔ n = 2 := BitVec.toNat_inj (y := (2 : Byte))

/-- The codes of the set a byte names (R47). -/
theorem inSet_byte_iff (n c : Byte) :
    inSet n.toNat c = true ↔ 0x20 ≤ c.toNat ∧ c.toNat ≤ (if n = 2 then 0x5F else 0x7E) := by
  simp only [inSet_iff, toNat_eq_two_iff]

/-- A glyph is refused for a set outside 0..2 or a code outside the set's range (R53). -/
theorem badGlyph_iff (n c : Byte) :
    (decide (2 < n.toNat) || !inSet n.toNat c) = true ↔
      ¬ (n.toNat ≤ 2 ∧ 0x20 ≤ c.toNat ∧ c.toNat ≤ (if n = 2 then 0x5F else 0x7E)) := by
  rw [← inSet_byte_iff, Bool.or_eq_true, decide_eq_true_iff, Bool.not_eq_true', not_and_or, Nat.not_le,
    Bool.not_eq_true]

/-! ## What the Glyph Store holds -/

/-- The loaded mark of a resident glyph is reported set (R53). -/
theorem Blocks.glyphLoaded_resident (b : Blocks) {n : Nat} (resident : ¬ n = 2) (c : Byte) :
    b.glyphLoaded n c = true := if_neg resident

/-- The patterns of a glyph of set 2 are those of its record (R53). -/
theorem Blocks.glyphColumns_stored {b : Blocks} {c : Byte} {g : Glyph} (held : b.glyphs[c.toNat - 0x20]? = some g) :
    b.glyphColumns 2 c = g.columns := by
  rw [Blocks.glyphColumns, if_pos rfl, List.getD_eq_getElem?_getD, held, Option.getD_some]

/-- The loaded mark of a glyph of set 2 is that of its record (R53). -/
theorem Blocks.glyphLoaded_stored {b : Blocks} {c : Byte} {g : Glyph} (held : b.glyphs[c.toNat - 0x20]? = some g) :
    b.glyphLoaded 2 c = g.loaded := by
  rw [Blocks.glyphLoaded, if_pos rfl, List.getD_eq_getElem?_getD, held, Option.getD_some]

/-- Set 2 holds a record of ten columns for each of its codes (R47, R49). -/
theorem Blocks.glyphsOk.stored {b : Blocks} (ok : b.glyphsOk) {c : Byte} (inRange : inSet 2 c = true) :
    ∃ g, b.glyphs[c.toNat - 0x20]? = some g ∧ g.columns.length = 10 := by
  obtain ⟨count, ten, _⟩ := ok
  obtain ⟨_, high⟩ := (inSet_iff 2 c).1 inRange
  rw [if_pos rfl] at high
  have inside : c.toNat - 0x20 < b.glyphs.length := by omega
  exact ⟨_, List.getElem?_eq_getElem inside, ten _ (List.getElem_mem inside)⟩

/-- Every resident glyph has ten columns, whatever dots the part fixes (R47, R48). -/
theorem residentColumns_length (n c : Nat) : (residentColumns n c).length = 10 := by
  unfold residentColumns
  split
  next => exact List.length_replicate
  next =>
    dsimp only
    split
    next => rfl
    next => rw [thinned_length, List.length_map, List.length_range]

/-- The store holds ten columns for every code of every set (R47). -/
theorem Blocks.glyphsOk.glyphColumns_length {b : Blocks} (ok : b.glyphsOk) {n : Nat} {c : Byte}
    (inRange : inSet n c = true) : (b.glyphColumns n c).length = 10 := by
  by_cases loadable : n = 2
  · subst loadable
    obtain ⟨g, held, ten⟩ := ok.stored inRange
    rw [Blocks.glyphColumns_stored held, ten]
  · rw [Blocks.glyphColumns, if_neg loadable, residentColumns_length]

/-! ## The statement -/

/-- Settles O20: the one test of R53 names its condition; an accepted query reports what the store holds, the resident
sets with their mark always set and set 2 from its record. -/
theorem glyphQueryReturnsTheGlyph : Obligations.GlyphQueryReturnsTheGlyph := by
  intro s n code ready ok
  refine ⟨_, rfl, ready.tested rfl ?tests ?accepted⟩
  case tests => exact .cons ⟨badGlyph_iff n code, rfl⟩ .nil
  case accepted =>
    intro passed done
    have inRange : inSet n.toNat code = true := by
      obtain ⟨_, inRange⟩ := Bool.or_eq_false_iff.1 (passed _ List.mem_cons_self)
      rwa [Bool.not_eq_false'] at inRange
    have answered := ready.answers (c := .glyphQuery) (act := fun b => b.glyphQuery n code) done
    refine ⟨_, _, ok.glyphColumns_length inRange, answered, fun resident => ⟨?_, rfl⟩, ?_⟩
    · rw [Blocks.glyphLoaded_resident _ fun two => resident ((toNat_eq_two_iff n).1 two)]
      rfl
    · rintro rfl
      obtain ⟨g, held, _⟩ := ok.stored inRange
      refine ⟨g, held, Blocks.glyphColumns_stored held, ?_⟩
      exact congrArg Bool.byte (Blocks.glyphLoaded_stored held)

end Sys2Proof.Machine
end

section
/-! SUPPORT. The stock commands STOCK_ASSIGN and STOCK_RELEASE (05, R106, R107): the tractor byte read once, their tests as the
statements name them, what a release leaves of a stock, and the proofs of O27 and O28. -/

namespace Sys2Proof.Machine

/-- A command that the owning block refuses changes no record (R187, R192). -/
theorem State.Ready.refused {s : State} (ready : s.Ready) {c : Command} {act : Blocks → Answer} {r : Result}
    (refuses : act s.blocks = s.blocks.refuse r) : s.Refused (s.deliver .addressed c act) c r :=
  ready.answers refuses

/-! ## The tractor byte -/

/-- STOCK_ASSIGN of a byte that names no tractor (R106, R190). -/
theorem Blocks.stockAssign_unnamed (b : Blocks) {tractor : Byte} (form : Byte) (high : 1 < tractor.toNat) :
    b.stockAssign tractor form = b.refuse .badValue := by
  rw [Blocks.stockAssign, tractor_ofByte_none tractor high]

/-- STOCK_ASSIGN of a tractor: its tests in order, and the one stock record it writes (R106). -/
theorem Blocks.stockAssign_named (b : Blocks) (k : Tractor) (form : Byte) :
    b.stockAssign k.byte form =
      b.checked
        [(badForm form, .badValue), (!(b.form form.toNat).defined, .noForm),
         (!((b.paper.stock k).state == .sensed), .wrongState),
         ((b.paper.stock k.other).form == some form.toNat, .inUse)]
        ((b.withPaper
            (b.paper.setStock k
              { state := .parked, form := some form.toNat, offset := none, endRemaining := none })).answer .ok) := by
  rw [Blocks.stockAssign, tractor_ofByte_byte]

/-- STOCK_RELEASE of a byte that names no tractor (R107, R190). -/
theorem Blocks.stockRelease_unnamed (b : Blocks) {tractor : Byte} (high : 1 < tractor.toNat) :
    b.stockRelease tractor = b.refuse .badValue := by
  rw [Blocks.stockRelease, tractor_ofByte_none tractor high]

/-- STOCK_RELEASE of a tractor: its tests in order, and the one stock record it writes (R107). -/
theorem Blocks.stockRelease_named (b : Blocks) (k : Tractor) :
    b.stockRelease k.byte =
      b.checked
        [(!((b.paper.stock k).state == .parked || (b.paper.stock k).state == .lost), .wrongState),
         (b.runningNames (b.paper.stock k), .busy)]
        ((b.withPaper
            (b.paper.setStock k
              { state := if (b.paper.stock k).state = .parked ∨ b.paper.sensor k then .sensed else .absent
                form := none
                offset := none
                endRemaining := none })).answer .ok) := by
  rw [Blocks.stockRelease, tractor_ofByte_byte]

/-! ## Tests of the stock commands, as propositions -/

/-- The WRONG_STATE test of STOCK_ASSIGN (R106). -/
theorem notSensed_iff (x : Stock) : (!(x.state == .sensed)) = true ↔ ¬ x.state = .sensed := bne_iff_ne

/-- A stock can be released where it is PARKED or LOST (R107). -/
theorem releasable_iff (x : Stock) :
    (x.state == .parked || x.state == .lost) = true ↔ x.state = .parked ∨ x.state = .lost := by
  rw [Bool.or_eq_true, beq_iff_eq, beq_iff_eq]

/-- The WRONG_STATE test of STOCK_RELEASE (R107). -/
theorem notReleasable_iff (x : Stock) :
    (!(x.state == .parked || x.state == .lost)) = true ↔ ¬ (x.state = .parked ∨ x.state = .lost) := by
  rw [← releasable_iff, Bool.not_eq_true', Bool.not_eq_true]

/-- The BUSY test of STOCK_RELEASE: a RUNNING record names the form of the stock (R107). -/
theorem runningNames_iff (b : Blocks) (x : Stock) :
    b.runningNames x = true ↔ ∃ o ∈ b.orders.records, o.state = .running ∧ x.form = some o.form := by
  simp only [Blocks.runningNames, List.any_eq_true, Bool.and_eq_true, beq_iff_eq]

/-! ## What a release leaves -/

/-- A released stock is SENSED, but ABSENT where it was LOST and its sensor shows no paper: of the two states that can be
released, only a LOST one is asked for paper (R107). -/
theorem releasedState_eq {x : StockState} (releasable : x = .parked ∨ x = .lost) (paper : Bool) :
    (if x = .parked ∨ paper then StockState.sensed else .absent) =
      if x = .lost ∧ paper = false then .absent else .sensed := by
  obtain rfl | rfl := releasable
  case inl => rfl
  case inr => cases paper <;> rfl

/-! ## The statements -/

/-- Settles O27: a byte that names no tractor is refused at once; of a tractor, each test of R106 names its condition, and
the accepted command writes one stock record. -/
theorem stockAssignParksTheStock : Obligations.StockAssignParksTheStock := by
  refine ⟨fun s tractor form ready high => ?unnamed, fun s k form ready => ?named⟩
  case unnamed => exact ⟨_, rfl, ready.refused (s.blocks.stockAssign_unnamed form high)⟩
  case named =>
    refine ⟨_, rfl, ready.tested (s.blocks.stockAssign_named k form) ?tests ?accepted⟩
    case tests =>
      exact .cons ⟨badForm_iff form, rfl⟩ (.cons ⟨undefined_iff _, rfl⟩
        (.cons ⟨notSensed_iff _, rfl⟩ (.cons ⟨beq_iff_eq, rfl⟩ .nil)))
    case accepted =>
      intro _ done
      exact ready.answers (act := fun b => b.stockAssign k.byte form) done

/-- Settles O28: as O27 for the tests of R107; a stock that passes them was PARKED or LOST, and `releasedState_eq` gives the
state it is left in. -/
theorem stockReleaseDropsTheForm : Obligations.StockReleaseDropsTheForm := by
  refine ⟨fun s tractor ready high => ?unnamed, fun s k ready => ?named⟩
  case unnamed => exact ⟨_, rfl, ready.refused (s.blocks.stockRelease_unnamed high)⟩
  case named =>
    refine ⟨_, rfl, ready.tested (s.blocks.stockRelease_named k) ?tests ?accepted⟩
    case tests => exact .cons ⟨notReleasable_iff _, rfl⟩ (.cons ⟨runningNames_iff _ _, rfl⟩ .nil)
    case accepted =>
      intro passed done
      have releasable := (releasable_iff _).1 ((Bool.not_eq_false' _).mp (passed _ List.mem_cons_self))
      have answered := ready.answers (c := .stockRelease) (act := fun b => b.stockRelease k.byte) done
      rw [releasedState_eq releasable] at answered
      exact answered

end Sys2Proof.Machine
end

section
/-! SUPPORT. The table command ORDER_RELEASE (06, R132): its WRONG_STATE test as the statement names it, the records it leaves,
and the proof of O35. -/

namespace Sys2Proof.Machine

/-- The WRONG_STATE test of ORDER_RELEASE: the four states that are not closed (R118, R132). -/
theorem notClosed_iff (o : Order) :
    (!o.state.closed) = true ↔
      o.state = .queued ∨ o.state = .held ∨ o.state = .running ∨ o.state = .halted := by
  rw [Bool.not_eq_true', ← Bool.not_eq_true, closed_iff]
  cases o.state <;> decide

/-- The records a release leaves are those that do not carry the tag, in their order (R132). -/
theorem filter_otherTag_eq (records : List Order) (tag : Nat) :
    (records.filter fun x => !(x.tag == tag)) = records.filter fun x => decide (¬ x.tag = tag) :=
  List.filter_congr fun x _ => by rw [decide_not, beq_eq_decide]

/-- Settles O35: BAD_VALUE and NO_ORDER are the tests of every command on one record (`order_tested`); the record found is
then tested by its state, and the accepted command writes the filtered records alone. -/
theorem orderReleaseFreesTheSlot : Obligations.OrderReleaseFreesTheSlot := by
  intro s tag ready
  refine ⟨_, rfl, order_tested ready rfl (.cons ⟨beq_iff_eq, rfl⟩ .nil) ?found⟩
  case found =>
    intro o _ act
    refine ready.tested act (.cons ⟨notClosed_iff o, rfl⟩ .nil) ?accepted
    intro _ done
    have answered := ready.answers (c := .orderRelease) (act := fun b => b.orderRelease tag) done
    rw [filter_otherTag_eq] at answered
    exact answered

end Sys2Proof.Machine
end

section
/-! SUPPORT. The control command NULL (08, R172): a payload of a legal length, what becomes of a broadcast reading command, and
the proof of O5. -/

namespace Sys2Proof.Machine

/-- A payload of 0 to 200 bytes is of a legal length for NULL (R172). -/
theorem null_accepts {n : Nat} (short : n ≤ 200) : Command.null.accepts n = true :=
  Bool.and_eq_true_iff.2 ⟨decide_eq_true n.zero_le, decide_eq_true short⟩

/-- A broadcast reading command is discarded: neither its answer nor a change of a record is made (R184). -/
theorem exec_row_broadcast_of_reading {s : State} (ready : s.Ready) {c : Command} (reading : c.reading = true)
    {p : List Byte} (legal : c.accepts p.length = true) : exec (c.row .broadcast p) s = .next s := by
  have discarded : s.carry .broadcast c (s.blocks.take c p) = s := if_pos reading
  rw [exec_row c .broadcast p s ready legal, discarded]

/-- Settles O5: a payload of a legal length leaves the row's answer at `nullProbe`, which keeps the records; the broadcast is
that of a reading command. -/
theorem nullIsAnsweredNull : Obligations.NullIsAnsweredNull := by
  intro s p ready short
  refine ⟨⟨_, rfl, ?addressed⟩, ?broadcast⟩
  case addressed => exact ready.answers (a := s.blocks.nullProbe) (if_pos short)
  case broadcast => exact exec_row_broadcast_of_reading ready (c := .null) rfl (null_accepts short)

end Sys2Proof.Machine
end

section
/-! SUPPORT. The queue, the state after reset, and what every step keeps: the proofs of O1, O2, O57 to O60. -/

namespace Sys2Proof.Machine

/-- The state after reset is that of a START_UP with the straps low and no input asserted, but for the head, whose homing is
in flight. -/
theorem reset_blocks :
    State.reset.blocks =
      (Blocks.hardReset Straps.low Levels.low).withHead
        { Head.hardReset with
          carriage := { Head.hardReset.carriage with motor := .held, activity := .homing }
          homeFor := [.startUp] } := rfl

/-- A homing that is in flight leaves the invariants of the blocks after hard reset (R68, R194). -/
theorem hardReset_keeps_reset : (Blocks.hardReset Straps.low Levels.low).Keeps State.reset.blocks := by
  rw [reset_blocks]
  exact Blocks.keeps_withHead fun ok => Head.heatOk_of_eq rfl ok

/-- Settles O57: `step_keeps` for the blocks; for the link, a step idles or runs one row on the rest of the queue. -/
theorem everyStepKeepsHeatPathAndLink : Obligations.EveryStepKeepsHeatPathAndLink := by
  intro s t h
  have kept := step_keeps h
  refine ⟨kept.heat, kept.path, fun ok => ?link⟩
  obtain rfl | ⟨c, rest, _, ran⟩ := step_cases h
  case link.inl => exact ok
  case link.inr => exact exec_linkOk c (s.withPending rest) t ran ok

/-- Settles O58, from `step_keeps`. -/
theorem everyStepKeepsTheOrders : Obligations.EveryStepKeepsTheOrders := by
  intro s t h ok
  have kept := step_keeps h
  exact ⟨kept.orders ok, kept.runs ok, kept.tickets ok⟩

/-- Settles O59, from `step_keeps`. -/
theorem everyStepKeepsRecordsAndGlyphs : Obligations.EveryStepKeepsRecordsAndGlyphs := by
  intro s t h
  have kept := step_keeps h
  exact ⟨kept.records, kept.glyphs⟩

/-- Settles O1: both parts are the branches of `step`. -/
theorem stepTakesTheFront : Obligations.StepTakesTheFront := by
  refine ⟨fun c rest s => rfl, fun s empty => ?idle⟩
  unfold step
  rw [empty]

/-- Settles O2: the reset values written out field by field are those of the definitions. -/
theorem resetValues : Obligations.ResetValues := rfl

/-- Settles O60: hard reset meets every invariant of the blocks, and a homing in flight keeps them. -/
theorem resetHoldsTheInvariants : Obligations.ResetHoldsTheInvariants := by
  have kept := hardReset_keeps_reset
  have orders : (Blocks.hardReset Straps.low Levels.low).orders.ok := OrderTable.empty_ok
  exact ⟨kept.heat Head.hardReset_heatOk, kept.path (Paper.hardReset_pathOk _), Link.hardReset_ok, kept.orders orders,
    kept.runs orders (Blocks.hardReset_runsOne _ _), kept.tickets orders (Blocks.hardReset_ticketsOk _ _),
    kept.records (Blocks.hardReset_recordsOk _ _), kept.glyphs (Blocks.hardReset_glyphsOk _ _)⟩

end Sys2Proof.Machine
end

section
/-! SUPPORT. START_UP and HARD_RESET (11, R194, R196), the end of a reply (09, R187), and the control commands CONFIGURE and
READ_ATTENTION (08, R159 to R169): the proofs of O3, O4, O6, O7 and O10. -/

namespace Sys2Proof.Machine

/-! ## START_UP -/

/-- With no order in the table and the controller out of PAUSED, nothing starts of itself. -/
theorem Blocks.calm_of_noOrders {b : Blocks} (orders : b.orders.records = []) (state : ¬ b.controller.state = .paused) :
    b.calm :=
  ⟨fun _ => .inr (.inr fun r mem => by rw [orders] at mem; cases mem), fun paused => absurd paused state⟩

/-- With HOME not asserted the start-up homing is left in flight, and the idle timer stays stopped (R68, R168). -/
theorem startUp_homing (p : Straps) (l : Levels) (away : l.home = false) :
    ((Blocks.hardReset p l).requestHome .startUp).settle = (Blocks.hardReset p l).homingFor .startUp := by
  have begins := Blocks.requestHome_begins (b := Blocks.hardReset p l) (q := .startUp) rfl away
  have settled := (Blocks.calm_of_noOrders (b := (Blocks.hardReset p l).homingFor .startUp) rfl nofun).settle
  rw [begins, settled]
  rfl

/-- With HOME asserted the start-up homing ends at once, and the idle timer starts (R68, R168). -/
theorem startUp_homed (p : Straps) (l : Levels) (seen : l.home = true) :
    ((Blocks.hardReset p l).requestHome .startUp).settle =
      { Blocks.hardReset p l with
        head := ((Blocks.hardReset p l).homingFor .startUp).head.homedAt
        attention := { Attention.hardReset p with idleTimer := .running 50 } } := by
  have found := (Blocks.requestHome_rest (b := Blocks.hardReset p l) (q := .startUp) (.inl rfl)).2 seen
  have taken : ∀ b : Blocks, b.homed [.startUp] = b := fun b => rfl
  rw [found, taken, (Blocks.calm_of_noOrders _ _).settle]
  · rfl
  · rfl
  · exact nofun

/-- The blocks after START_UP: hard reset, the start-up homing, and what follows of itself (R194). -/
theorem State.startUp_blocks (s : State) (p : Straps) (l : Levels) :
    (s.startUp p l).blocks = ((Blocks.hardReset p l).requestHome .startUp).settle := by
  rw [State.startUp]

/-- Settles O3: the start-up homing begins after the hard reset and is in flight, or over at once where HOME is asserted. -/
theorem startUpMakesEveryRecordNew : Obligations.StartUpMakesEveryRecordNew := by
  intro s p l
  refine ⟨s.startUp p l, by rw [exec, execStartUp], by rw [State.startUp], by rw [State.startUp], by rw [State.startUp],
    fun away => ?away, fun seen => ?seen, ?low⟩
  case away =>
    rw [State.startUp_blocks, startUp_homing p l away]
    rfl
  case seen =>
    rw [State.startUp_blocks, startUp_homed p l seen]
    rfl
  case low =>
    rintro rfl rfl
    rw [State.startUp, startUp_homing Straps.low Levels.low rfl]
    rfl

/-! ## HARD_RESET -/

/-- The head while RESET is held: stopped, its motor released, unhomed where it stands (R194, R196). -/
theorem Head.stop_release (h : Head) :
    h.stop.release =
      { h with
        carriage := { h.carriage with homed := false, motor := .released, activity := .idle }
        pass := none
        segment := none
        hold := .none
        homeFor := []
        firing := 0 } := by
  unfold Head.stop
  split <;> rfl

/-- With no motion in flight a stop leaves the stocks as they are (R102). -/
theorem Paper.lose_still {p : Paper} (still : p.motion = none) : p.lose = { p with waiting := false } := by
  unfold Paper.lose
  rw [still]

/-- A stop leaves the stock of the motion in flight LOST (R102). -/
theorem Paper.lose_stock {p : Paper} {m : Motion} (moving : p.motion = some m) :
    p.lose =
      { p.setStock m.tractor { p.stock m.tractor with state := .lost, offset := none } with
        motion := none
        waiting := false } := by
  unfold Paper.lose
  rw [moving]

/-- While RESET is held no row but HARD_RESET and START_UP acts (R194). -/
theorem exec_held {i : Instr} {s : State} (held : s.held = true) (reset : i ≠ .hardReset)
    (start : ∀ p l, i ≠ .startUp p l) : exec i s = .next s := by
  cases i
  case hardReset => exact absurd rfl reset
  case startUp p l => exact absurd rfl (start p l)
  all_goals exact congrArg Host.Outcome.next (if_pos held)

/-- RESET held low releases ATTN (R194). -/
theorem State.attn_held {s : State} (held : s.held = true) : s.attn = false := by
  rw [State.attn, held, Bool.not_true, Bool.false_and]

/-- Settles O4: the stops of both blocks written out, by the motion in flight. -/
theorem hardResetAbandonsWork : Obligations.HardResetAbandonsWork := by
  refine ⟨fun s => ⟨_, rfl, State.attn_held rfl, ?still, ?moving⟩, fun i s held reset start => exec_held held reset start⟩
  case still =>
    intro still
    unfold State.holdReset
    rw [Head.stop_release, Paper.lose_still still]
    cases s with
    | mk blocks link held pending =>
      cases blocks with
      | mk forms pool glyphs composer head paper =>
        cases paper
        cases still
        rfl
  case moving =>
    intro m moving
    unfold State.holdReset
    rw [Head.stop_release, Paper.lose_stock moving]
    rfl

/-! ## REPLY_COMPLETE -/

/-- Settles O10: with no reply `finishReply` keeps the state, else it writes the link and, for SOFT_RESET, the blocks. -/
theorem replyCompleteEndsThePause : Obligations.ReplyCompleteEndsThePause := by
  intro s free
  refine ⟨s.finishReply, ?taken, ?quiet, ?sending⟩
  case taken => exact congrArg Host.Outcome.next (if_neg (by rw [free]; exact Bool.false_ne_true))
  case quiet =>
    intro none
    unfold State.finishReply
    rw [none]
  case sending =>
    intro some
    obtain ⟨bytes, reply⟩ := Option.ne_none_iff_exists'.1 some
    unfold State.finishReply
    rw [reply]
    exact ⟨rfl, rfl, rfl, rfl⟩

end Sys2Proof.Machine
end

section
/-! SUPPORT. The Attention Unit (08, R159 to R162): the pending causes, ATTN, and READ_ATTENTION with the proof of O6; CONFIGURE
(R166 to R169) with the proof of O7. -/

namespace Sys2Proof.Machine

/-! ## Pending causes and ATTN -/

/-- A cause is pending where its record says so (R159). -/
theorem isPending_iff (b : Blocks) :
    (b.isPending .fault = true ↔ ¬ b.attention.faultRecord = none) ∧
      (b.isPending .halt = true ↔ ∃ r ∈ b.orders.records, r.state = .halted ∧ r.reported = false) ∧
      (b.isPending .paper = true ↔ ¬ b.attention.paperA = 0 ∨ ¬ b.attention.paperB = 0) ∧
      (b.isPending .done = true ↔
        ∃ r ∈ b.orders.records, (r.state = .done ∨ r.state = .cancelled) ∧ r.reported = false) ∧
      (b.isPending .link = true ↔ ¬ b.attention.linkTrouble = 0) := by
  refine ⟨?fault, ?halt, ?paper, ?done, bne_iff_ne⟩
  case fault => exact Option.isSome_iff_ne_none
  case halt => simp [Blocks.isPending, OrderTable.unreportedHalt]
  case paper => simp [Blocks.isPending]
  case done => simp [Blocks.isPending, OrderTable.unreportedClosed, closed_iff]

/-- A set is not empty where some member is in it. -/
theorem bitVec_ne_zero_iff {w : Nat} (x : BitVec w) : x ≠ 0 ↔ ∃ i, x.getLsbD i = true := by
  refine ⟨fun nonzero => ?member, fun ⟨i, member⟩ zero => ?empty⟩
  case member =>
    by_contra none
    refine nonzero (BitVec.eq_of_getLsbD_eq fun i _ => ?_)
    have clear : x.getLsbD i = false := by
      rw [← Bool.not_eq_true]
      exact fun set => none ⟨i, set⟩
    rw [clear]
    exact (BitVec.getLsbD_zero (w := w)).symm
  case empty =>
    subst zero
    simp at member

/-- ATTN is asserted while RESET is not held and a pending cause is not masked (R160, R194). -/
theorem attn_iff (s : State) :
    s.attn = true ↔
      s.held = false ∧ ∃ i, s.blocks.pendingSet.getLsbD i = true ∧ s.blocks.attention.mask.getLsbD i = false := by
  unfold State.attn
  rw [Bool.and_eq_true, Bool.not_eq_true', bne_iff_ne, bitVec_ne_zero_iff]
  refine and_congr_right fun _ => exists_congr fun i => ?_
  rw [BitVec.getLsbD_and, Bool.and_eq_true, BitVec.getLsbD_not, Bool.and_eq_true, decide_eq_true_iff,
    Bool.not_eq_true']
  exact ⟨fun ⟨set, _, clear⟩ => ⟨set, clear⟩, fun ⟨set, clear⟩ => ⟨set, BitVec.lt_of_getLsbD set, clear⟩⟩

/-- The records HALT and DONE speak of are the oldest: the table stands in admission order (R117, R159). -/
theorem unreported_oldest {t : OrderTable} (ok : t.ok) (o : Order) :
    (t.unreportedHalt = some o ↔ o ∈ t.records ∧ o.state = .halted ∧ o.reported = false ∧
        ∀ r ∈ t.records, r.state = .halted → r.reported = false → o.admission ≤ r.admission) ∧
      (t.unreportedClosed = some o ↔ o ∈ t.records ∧ (o.state = .done ∨ o.state = .cancelled) ∧ o.reported = false ∧
        ∀ r ∈ t.records, r.state = .done ∨ r.state = .cancelled → r.reported = false → o.admission ≤ r.admission) := by
  constructor
  · rw [OrderTable.unreportedHalt, find_oldest ok.order]
    simp [and_assoc]
  · rw [OrderTable.unreportedClosed, find_oldest ok.order]
    simp [closed_iff, and_assoc]

/-! ## READ_ATTENTION -/

/-- The most urgent cause is the first of the five that is pending (R159, R161). -/
theorem mostUrgent_eq (b : Blocks) :
    b.mostUrgent =
      if b.isPending .fault = true then some .fault
      else if b.isPending .halt = true then some .halt
      else if b.isPending .paper = true then some .paper
      else if b.isPending .done = true then some .done
      else if b.isPending .link = true then some .link
      else none := by
  simp only [Blocks.mostUrgent, Cause.all, List.find?_cons, List.find?_nil]
  cases b.isPending .fault <;> cases b.isPending .halt <;> cases b.isPending .paper <;> cases b.isPending .done <;>
    cases b.isPending .link <;> rfl

/-- READ_ATTENTION with a cause pending: the cause, what is pending after its clearing, the controller state, the detail
(R161). -/
theorem readAttention_reports {b : Blocks} {c : Cause} (urgent : b.mostUrgent = some c) :
    b.readAttention =
      (b.clearCause c).report .ok
        ([c.byte, (b.clearCause c).pendingSet.zeroExtend 8, b.controller.state.byte] ++ b.causeDetail c) := by
  unfold Blocks.readAttention
  rw [urgent]

/-- READ_ATTENTION with no cause pending (R162). -/
theorem readAttention_none {b : Blocks} (urgent : b.mostUrgent = none) : b.readAttention = b.answer .none := by
  unfold Blocks.readAttention
  rw [urgent]

/-- Settles O6: the pending set by its bits, the oldest records by the admission order, and READ_ATTENTION by the first
cause that is pending. -/
theorem readAttentionReportsTheMostUrgent : Obligations.ReadAttentionReportsTheMostUrgent := by
  refine ⟨fun b => ?pending, fun t o ok => unreported_oldest ok o, attn_iff, fun s ready => ⟨_, rfl, ?reads⟩⟩
  case pending =>
    obtain ⟨fault, halt, paper, done, link⟩ := isPending_iff b
    have bit := pending_bits b
    simp only [Cause.all, List.forall_mem_cons] at bit
    obtain ⟨b0, b1, b2, b3, b4, -⟩ := bit
    exact ⟨b0 ▸ fault, b1 ▸ halt, b2 ▸ paper, b3 ▸ done, b4 ▸ link⟩
  case reads =>
    have urgent := mostUrgent_eq s.blocks
    have reported := fun c (u : s.blocks.mostUrgent = some c) =>
      ready.answers (c := .readAttention) (act := fun b => b.readAttention) (readAttention_reports u)
    simp only [Blocks.isPending] at urgent
    refine ⟨?fault, ?halt, ?paperA, ?paperB, ?done, ?link, ?none⟩
    case fault =>
      intro r fault
      have answer := reported .fault (by simp [urgent, fault])
      simpa [Blocks.clearCause, Blocks.causeDetail, Blocks.report, fault, Cause.byte] using answer
    case halt =>
      intro fault o halt
      have answer := reported .halt (by simp [urgent, fault, halt])
      simpa [Blocks.clearCause, Blocks.causeDetail, Blocks.report, halt, Cause.byte] using answer
    case paperA =>
      intro fault halt (paper : ¬ s.blocks.attention.paperA = 0#4)
      have answer := reported .paper (by simp [urgent, fault, halt, paper])
      simpa [Blocks.clearCause, Blocks.causeDetail, Blocks.report, paper, Cause.byte, Tractor.byte, setByte,
        Attention.paperSet, Attention.setPaperSet] using answer
    case paperB =>
      intro fault halt paperA (paperB : ¬ s.blocks.attention.paperB = 0#4)
      have answer := reported .paper (by simp [urgent, fault, halt, paperB])
      simpa [Blocks.clearCause, Blocks.causeDetail, Blocks.report, paperA, Cause.byte, Tractor.byte, setByte,
        Attention.paperSet, Attention.setPaperSet] using answer
    case done =>
      intro fault halt paperA paperB o done
      have answer := reported .done (by simp [urgent, fault, halt, paperA, paperB, done])
      simpa [Blocks.clearCause, Blocks.causeDetail, Blocks.report, done, Cause.byte] using answer
    case link =>
      intro fault halt paperA paperB done (link : ¬ s.blocks.attention.linkTrouble = 0#4)
      have answer := reported .link (by simp [urgent, fault, halt, paperA, paperB, done, link])
      simpa [Blocks.clearCause, Blocks.causeDetail, Blocks.report, Cause.byte, setByte] using answer
    case none =>
      intro fault halt paperA paperB done link
      exact ready.answers (act := fun b => b.readAttention)
        (readAttention_none (by simp [urgent, fault, halt, paperA, paperB, done, link]))

/-! ## CONFIGURE -/

/-- The values of the tick period, and of the debounce time, as bytes and as numbers (R166). -/
theorem badTiming_iff (tick debounce : Byte) :
    (!([1, 2, 4, 8] : List Nat).contains tick.toNat || !([2, 4, 8, 16] : List Nat).contains debounce.toNat) = true ↔
      ¬ (tick ∈ [1, 2, 4, 8] ∧ debounce ∈ [2, 4, 8, 16]) := by
  rw [Bool.or_eq_true, Bool.not_eq_true', Bool.not_eq_true', not_and_or, ← Bool.not_eq_true, ← Bool.not_eq_true,
    List.contains_iff_mem, List.contains_iff_mem]
  simp [← BitVec.toNat_inj]

/-- Every debounce timer in flight starts again with a changed debounce time, and none with an equal one (R93, R167). -/
theorem restarted_get (i : Inputs) (same : Prop) [Decidable same] (time : Nat) (k : Input) :
    (if same then i else i.restarted time).get k =
      if same then i.get k else { i.get k with timer := (i.get k).timer.map fun _ => time } := by
  split
  next => rfl
  next => cases k <;> rfl

/-- An idle release time written equal to the old one leaves the idle timer as it is (R169). -/
theorem IdleTimer.changed_same (t : IdleTimer) (n : Nat) (rest : Bool) : t.changed n n rest = t := if_pos rfl

/-- A running idle timer after a change of the idle release time (R169). -/
theorem IdleTimer.changed_running {old new : Nat} (differ : ¬ old = new) (left : Nat) (rest : Bool) :
    (IdleTimer.running left).changed old new rest = if new = 0 then .stopped else .running new := if_neg differ

/-- An expired idle timer after a change of the idle release time (R169). -/
theorem IdleTimer.changed_expired {old new : Nat} (differ : ¬ old = new) (rest : Bool) :
    IdleTimer.expired.changed old new rest = .expired := if_neg differ

/-- A stopped idle timer after a change of the idle release time: it starts where only a time of 0 held it (R169). -/
theorem IdleTimer.changed_stopped {old new : Nat} (differ : ¬ old = new) (rest : Bool) :
    IdleTimer.stopped.changed old new rest = if old = 0 ∧ rest = true then .running new else .stopped := by
  have timed : old = 0 → ¬ new = 0 := fun zero zero' => differ (zero.trans zero'.symm)
  refine (if_neg differ).trans (if_congr ⟨fun h => ⟨h.1, h.2.1⟩, fun h => ⟨h.1, h.2, timed h.1⟩⟩ rfl rfl)

/-- Settles O7: one test, five values, and the restart rule of each timer. -/
theorem configureWritesItsValues : Obligations.ConfigureWritesItsValues := by
  intro s tick debounce idle station mask ready
  refine ⟨_, rfl, ready.tested rfl ?tests ?accepted⟩
  case tests => exact .cons ⟨badTiming_iff tick debounce, rfl⟩ .nil
  case accepted =>
    intro _ done
    have answered := ready.answers (c := .configure)
      (act := fun b => b.configure tick debounce idle station mask) done
    refine ⟨_, answered, rfl, rfl, rfl, rfl, rfl, rfl, fun k => restarted_get _ _ _ k, ?same, ?changed, rfl, rfl, rfl, rfl, rfl,
      rfl, rfl, rfl, rfl, rfl, rfl, rfl, rfl, rfl⟩
    case same =>
      intro same
      show s.blocks.attention.idleTimer.changed _ _ _ = _
      rw [same, IdleTimer.changed_same]
    case changed =>
      intro differ
      have zero : idle = 0 ↔ idle.toNat = 0 := (BitVec.toNat_inj (y := (0 : Byte))).symm
      refine ⟨fun n running => ?_, fun expired => ?_, fun stopped => ?_⟩
      · show s.blocks.attention.idleTimer.changed _ _ _ = _
        rw [running, IdleTimer.changed_running differ]
        exact if_congr zero.symm rfl rfl
      · show s.blocks.attention.idleTimer.changed _ _ _ = _
        rw [expired, IdleTimer.changed_expired differ]
      · show s.blocks.attention.idleTimer.changed _ _ _ = _
        rw [stopped, IdleTimer.changed_stopped differ]

end Sys2Proof.Machine
end

section
/-! SUPPORT. CLEAR_FAULT and SOFT_RESET (08, R164, R173, R174): the proofs of O8 and O9. -/

namespace Sys2Proof.Machine

/-! ## CLEAR_FAULT -/

/-- In FAULTED, with HOME not asserted, the homing of CLEAR_FAULT begins and the controller stays at work (R164). -/
theorem clearFault_begins {b : Blocks} (faulted : b.controller.state = .faulted)
    (idle : b.head.carriage.activity = .idle) (away : b.homeSeen = false) :
    (b.requestHome .clearFault).settle = b.homingFor .clearFault := by
  have begins := Blocks.requestHome_begins (q := .clearFault) idle away
  have work : (b.homingFor .clearFault).atWork := by
    constructor <;> (show ¬ b.controller.state = _; rw [faulted]; exact nofun)
  rw [begins, work.settle]
  rfl

/-- In FAULTED, with HOME asserted, the homing of CLEAR_FAULT succeeds at once: FAULTED is left and the record removed
(R68, R164). -/
theorem clearFault_homed {b : Blocks} (faulted : b.controller.state = .faulted)
    (idle : b.head.carriage.activity = .idle) (seen : b.homeSeen = true) :
    b.requestHome .clearFault =
      { b with
        head := (b.homingFor .clearFault).head.homedAt
        controller := { b.controller with state := .idle }
        attention := { b.attention with faultRecord := none, idleTimer := .stopped } } := by
  have found := (Blocks.requestHome_rest (q := .clearFault) (.inl idle)).2 seen
  have leaves : b.controller.state = .faulted ∧ HomeRequester.clearFault ∈ [HomeRequester.clearFault] :=
    ⟨faulted, List.mem_cons_self⟩
  have stays : ¬ (b.controller.state = .paused ∧
      HomeRequester.cover ∈ [HomeRequester.clearFault] ∧ b.coverOpen = false) := by
    rintro ⟨-, cover, -⟩
    exact absurd cover (by decide)
  rw [found, Blocks.homed_effect]
  refine (if_neg stays).trans ?_
  show ({ b with
    head := (b.homingFor .clearFault).head.homedAt
    controller := { b.controller with
      state := if b.controller.state = .faulted ∧ HomeRequester.clearFault ∈ [HomeRequester.clearFault] then .idle
        else b.controller.state }
    attention := { b.attention with
      faultRecord :=
        if (b.controller.state = .faulted ∧ HomeRequester.clearFault ∈ [HomeRequester.clearFault]) ∨
            HomeRequester.softReset ∈ [HomeRequester.clearFault] then none
        else b.attention.faultRecord
      idleTimer := .stopped } } : Blocks) = _
  rw [if_pos leaves, if_pos (.inl leaves)]

/-- Settles O8: three tests, then the homing by HOME. -/
theorem clearFaultBeginsAHoming : Obligations.ClearFaultBeginsAHoming := by
  intro s ready
  refine ⟨_, rfl, ready.tested rfl ?tests ?accepted⟩
  case tests => exact .cons ⟨bne_iff_ne, rfl⟩ (.cons ⟨beq_iff_eq, rfl⟩ (.cons ⟨Iff.rfl, rfl⟩ .nil))
  case accepted =>
    intro passed done
    have faulted : s.blocks.controller.state = .faulted := by
      have first := passed _ List.mem_cons_self
      rwa [Bool.not_eq_false', beq_iff_eq] at first
    refine ⟨fun away idle => ?_, fun seen idle => ?_⟩
    · have answered := ready.answers (c := .clearFault) (act := fun b => b.clearFault) done
      exact answered_blocks answered (clearFault_begins faulted idle away).symm
    · refine answered_settled ready (done.trans ?_)
      rw [clearFault_homed faulted idle seen]
      rfl

/-! ## SOFT_RESET -/

/-- The records that SOFT_RESET leaves before its homing: both blocks stopped, the ticket voided, orders, composer, controller
and event sets emptied (R157, R173). -/
def Blocks.swept (b : Blocks) : Blocks :=
  let voided := ((b.withHead b.head.stop).withPaper b.paper.lose).voidTicket
  { voided with
    composer := Composer.empty
    orders := OrderTable.empty
    controller := Controller.hardReset
    attention := { voided.attention with paperA := 0, paperB := 0, linkTrouble := 0 } }

/-- SOFT_RESET sweeps the records, then homes, then what follows of itself follows (R173). -/
theorem softReset_eq (b : Blocks) : b.softReset = (b.swept.requestHome .softReset).settle := rfl

theorem swept_head (b : Blocks) : b.swept.head = b.head.stop := Blocks.voidTicket_head _

theorem swept_paper (b : Blocks) : b.swept.paper = b.paper.lose := Blocks.voidTicket_paper _

theorem swept_glyphs (b : Blocks) : b.swept.glyphs = b.glyphs := Blocks.voidTicket_glyphs _

theorem swept_attention (b : Blocks) :
    b.swept.attention = { b.attention with paperA := 0, paperB := 0, linkTrouble := 0 } :=
  congrArg (fun a : Attention => { a with paperA := 0, paperB := 0, linkTrouble := 0 }) (Blocks.voidTicket_attention _)

/-- With no ticket in flight the sweep leaves the forms and the fields (R157). -/
theorem swept_untouched {b : Blocks} (none : ∀ o, b.currentOrder = some o → (b.form o.form).inFlight = false) :
    b.swept.forms = b.forms ∧ b.swept.pool = b.pool := by
  have still : ((b.withHead b.head.stop).withPaper b.paper.lose).ticketInFlight = false := by
    unfold Blocks.ticketInFlight
    split
    next o cur => exact none o cur
    next => rfl
  have voided := Blocks.voidTicket_none still
  exact ⟨(congrArg Blocks.forms voided).trans rfl, (congrArg Blocks.pool voided).trans rfl⟩

/-- The ticket in flight of the current order ends voided (R143, R155, R157). -/
theorem voidTicket_ends {b : Blocks} {o : Order} (cur : b.currentOrder = some o)
    (flight : (b.form o.form).inFlight = true) : b.voidTicket = b.endTicket o false := by
  unfold Blocks.voidTicket Blocks.ticketInFlight
  rw [cur]
  exact if_pos flight

/-- With a ticket in flight the sweep leaves the forms and the fields of its end voided (R143, R157). -/
theorem swept_voided {b : Blocks} {o : Order} (cur : b.currentOrder = some o)
    (flight : (b.form o.form).inFlight = true) :
    b.swept.forms = b.forms.set o.form { b.form o.form with inFlight := false } ∧
      b.swept.pool = b.ticketPool o.form := by
  have voided := voidTicket_ends (b := (b.withHead b.head.stop).withPaper b.paper.lose) cur flight
  refine ⟨(congrArg Blocks.forms voided).trans ?_, (congrArg Blocks.pool voided).trans (Blocks.endTicket_pool _ _ _)⟩
  exact Blocks.endTicket_forms _ _ _

/-- With HOME not asserted the homing of SOFT_RESET is left in flight (R68, R174). -/
theorem softReset_homing {b : Blocks} (away : b.homeSeen = false) : b.softReset = b.swept.homingFor .softReset := by
  have idle : b.swept.head.carriage.activity = .idle := by rw [swept_head, Head.stop_idle]
  have away' : b.swept.homeSeen = false := by
    unfold Blocks.homeSeen
    rw [swept_paper, Paper.lose_inputs]
    exact away
  have settled := (Blocks.calm_of_noOrders (b := b.swept.homingFor .softReset) rfl nofun).settle
  rw [softReset_eq, Blocks.requestHome_begins idle away', settled]
  unfold Blocks.settleIdle
  rw [if_neg]
  · rfl
  · simp [Blocks.atRest, Blocks.homingFor, Activity.moves]

/-- With HOME asserted the homing of SOFT_RESET has succeeded and removed the fault record, and the idle timer starts where
the idle release time is not 0 (R68, R168, R174). -/
theorem softReset_homed {b : Blocks} (seen : b.homeSeen = true) :
    b.softReset =
      { b.swept with
        head := (b.swept.homingFor .softReset).head.homedAt
        attention :=
          { b.swept.attention with
            faultRecord := none
            idleTimer := if b.attention.idleTime = 0 then .stopped else .running b.attention.idleTime } } := by
  have idle : b.swept.head.carriage.activity = .idle := by rw [swept_head, Head.stop_idle]
  have seen' : b.swept.homeSeen = true := by
    unfold Blocks.homeSeen
    rw [swept_paper, Paper.lose_inputs]
    exact seen
  have found := (Blocks.requestHome_rest (q := .softReset) (.inl idle)).2 seen'
  have taken : ∀ c : Blocks, c.homed [.softReset] = c.clearRecord := fun c => rfl
  have pass : (b.swept.homingFor .softReset).head.pass = none := by
    show b.swept.head.pass = none
    rw [swept_head, Head.stop_pass]
  have rests : (b.swept.homingFor .softReset).head.homedAt.carriage.activity.moves = false := by
    unfold Head.homedAt
    rw [pass]
    rfl
  have motion : b.swept.paper.motion = none := by rw [swept_paper, Paper.lose_motion]
  have time : b.swept.attention.idleTime = b.attention.idleTime := by rw [swept_attention]
  rw [softReset_eq, found, taken, (Blocks.calm_of_noOrders _ _).settle]
  · unfold Blocks.settleIdle
    rw [if_pos]
    · show (if b.swept.attention.idleTime = 0 then _ else _) = _
      rw [← time]
      split <;> rfl
    · show (ControllerState.idle == ControllerState.idle && b.swept.paper.motion.isNone &&
        !(b.swept.homingFor .softReset).head.homedAt.carriage.activity.moves) = true
      rw [motion, rests]
      rfl
  · rfl
  · exact nofun

/-- A stop at once: a moving carriage loses home, and the work ends (R71). -/
theorem Head.stop_eq (h : Head) :
    h.stop =
      { h with
        carriage :=
          { h.carriage with
            homed :=
              if h.carriage.activity = .homing ∨ h.carriage.activity = .approach ∨ h.carriage.activity = .segment then false
              else h.carriage.homed
            activity := .idle }
        pass := none
        segment := none
        hold := .none
        homeFor := []
        firing := 0 } := by
  unfold Head.stop
  cases h.carriage.activity <;> rfl

/-- Settles O9: the reply with no effect yet, its end with `softReset`, and the effects of that record by record. -/
theorem softResetFollowsItsReply : Obligations.SoftResetFollowsItsReply := by
  refine ⟨fun s ready => ⟨_, rfl, ?replied⟩, fun b => ?effects⟩
  case replied =>
    have answered := ready.answers (c := .softReset) (act := fun b => b.softResetReply) rfl
    refine ⟨answered, _, rfl, ?_⟩
    obtain ⟨⟨reply, -, -, -, -, -, -, due, held, pending⟩, blocks⟩ := answered
    have free := held.trans ready.1
    rw [State.unlessHeld, if_neg (by rw [free]; exact Bool.false_ne_true)]
    unfold State.finishReply
    rw [reply]
    dsimp only
    rw [if_pos (due.2 rfl), blocks]
    exact ⟨rfl, free, pending, rfl⟩
  case effects =>
    have glyphs := swept_glyphs b
    have paper := swept_paper b
    have attention := swept_attention b
    have head : b.swept.head = _ := (swept_head b).trans (Head.stop_eq _)
    cases seen : b.homeSeen with
    | false =>
      rw [softReset_homing seen]
      refine ⟨fun none => swept_untouched none, fun o cur flight => swept_voided cur flight, glyphs, rfl, rfl, rfl,
        fun still => paper.trans (Paper.lose_still still), fun m moving => paper.trans (Paper.lose_stock moving),
        fun _ => ⟨?_, ?_⟩, nofun⟩
      · show b.swept.head.beginHoming false .softReset = _
        rw [head]
        rfl
      · show ({ b.swept.attention with idleTimer := _ } : Attention) = _
        rw [attention]
    | true =>
      rw [softReset_homed seen]
      refine ⟨fun none => swept_untouched none, fun o cur flight => swept_voided cur flight, glyphs, rfl, rfl, rfl,
        fun still => paper.trans (Paper.lose_still still), fun m moving => paper.trans (Paper.lose_stock moving),
        nofun, fun _ => ⟨?_, ?_⟩⟩
      · show (b.swept.head.beginHoming false .softReset).homedAt = _
        rw [head]
        rfl
      · show ({ b.swept.attention with faultRecord := _, idleTimer := _ } : Attention) = _
        rw [attention]

end Sys2Proof.Machine
end

section
/-! SUPPORT. FORM_AMEND and FORM_LOCK (01, R15, R17), FIELD_DEFINE and FIELD_RETIRE (02, R40, R46): their tests as the statements
name them, what they write, and the proofs of O12, O14 and O17. -/

namespace Sys2Proof.Machine

/-! ## Tests as propositions -/

/-- A test of a mark that a statement names by the value no. -/
theorem not_mark_iff (x : Bool) : (!x) = true ↔ x = false := (Bool.not_eq_true' x).to_iff

/-- The test of a legal value (R13, R39). -/
theorem illegal_iff (p : Prop) [Decidable p] : (!decide p) = true ↔ ¬ p := by
  rw [not_mark_iff, decide_eq_false_iff_not]

/-- In use for FORM_AMEND: on a stock, or named by a record that is not closed (R12). -/
theorem amendInUse_iff (b : Blocks) (f : Nat) :
    b.amendInUse f = true ↔
      b.carried f ∨ ∃ o ∈ b.orders.records, o.form = f ∧ ¬ o.state = .done ∧ ¬ o.state = .cancelled := by
  simp only [Blocks.amendInUse, Bool.or_eq_true, assigned_iff, List.any_eq_true, Bool.and_eq_true, beq_iff_eq,
    Bool.not_eq_true', ← Bool.not_eq_true, closed_iff, not_or]

/-- A line is printable between the margins (R4). -/
theorem printable_iff (r : FormRecord) (n : Nat) : r.printable n = true ↔ r.top ≤ n ∧ n + r.bottom < r.lines := by
  rw [FormRecord.printable, Bool.and_eq_true, decide_eq_true_iff, decide_eq_true_iff]

/-- The OUT_OF_FORM test of FORM_AMEND: a field of the form would leave the printable lines (R15). -/
theorem leavesForm_iff (b : Blocks) (f : Nat) (r : FormRecord) :
    ((b.fieldsOf f).any fun q => !r.printable q.line) = true ↔
      ∃ q ∈ b.pool, q.form = f ∧ ¬ (r.top ≤ q.line ∧ q.line + r.bottom < r.lines) := by
  simp only [List.any_eq_true, Blocks.mem_fieldsOf, Bool.not_eq_true', ← Bool.not_eq_true, printable_iff, and_assoc]

/-! ## FORM_AMEND and FORM_LOCK -/

/-- FORM_AMEND as a list of tests (R15). -/
theorem formAmend_checked (b : Blocks) (a : FormBytes) [Decidable a.legal] :
    b.formAmend a =
      b.checked
        ([(!decide a.legal, .badValue), (!(b.form a.form.toNat).defined, .noForm)] ++ (b.form a.form.toNat).lockTests ++
          [(b.amendInUse a.form.toNat, .inUse),
           ((b.fieldsOf a.form.toNat).any fun q => !(a.into (b.form a.form.toNat)).printable q.line, .outOfForm)])
        ((b.setForm a.form.toNat (a.into (b.form a.form.toNat))).answer .ok) := by
  unfold Blocks.formAmend
  dsimp only
  rw [written_eq]
  by_cases legal : a.legal <;> simp [legal, Blocks.checked, firstRefusal]

/-- The lock that a legal byte names (R7, R190). -/
def lockNamed (target : Byte) : Lock := if target = 0 then .unlocked else if target = 1 then .locked else .frozen

/-- A legal byte names FROZEN where it is 2 (R190). -/
theorem lockNamed_frozen {target : Byte} (legal : target.toNat ≤ 2) : lockNamed target = .frozen ↔ target = 2 := by
  have two : target = 2 ↔ ¬ target = 0 ∧ ¬ target = 1 := by
    bv_omega
  rw [two]
  unfold lockNamed
  split <;> simp_all

/-- FORM_LOCK as a list of tests (R17). -/
theorem formLock_checked (b : Blocks) (form target : Byte) :
    b.formLock form target =
      b.checked
        [(!decide (form.toNat ≤ 7 ∧ target.toNat ≤ 2), .badValue), (!(b.form form.toNat).defined, .noForm),
         ((b.form form.toNat).lock == .frozen && !(target == 2), .frozen)]
        ((b.setForm form.toNat { b.form form.toNat with lock := lockNamed target }).answer .ok) := by
  unfold Blocks.formLock
  rw [lock_ofByte]
  by_cases legal : target.toNat ≤ 2
  case neg => simp [legal, Blocks.checked, firstRefusal]
  case pos =>
    have form7 : badForm form = !decide (form.toNat ≤ 7 ∧ target.toNat ≤ 2) := by
      rw [Bool.eq_iff_iff, badForm_iff, illegal_iff, and_iff_left legal]
    have frozen : (lockNamed target == .frozen) = (target == 2) := by
      rw [Bool.eq_iff_iff, beq_iff_eq, beq_iff_eq, lockNamed_frozen legal]
    rw [if_pos legal, ← form7, ← frozen]
    rfl

/-- The FROZEN test of FORM_LOCK (R17). -/
theorem thaws_iff (r : FormRecord) (target : Byte) :
    (r.lock == .frozen && !(target == 2)) = true ↔ r.lock = .frozen ∧ ¬ target = 2 := by
  rw [Bool.and_eq_true, beq_iff_eq, ← bne, bne_iff_ne]

/-- Settles O12: the tests of R15 and of R17 name their conditions, and each accepted command writes one form record. -/
theorem formsAreAmendedAndLocked : Obligations.FormsAreAmendedAndLocked := by
  classical
  refine ⟨fun s a ready => ?amend, fun s form target ready => ?lock⟩
  case amend =>
    refine ⟨_, rfl, ready.tested (formAmend_checked s.blocks a) ?amendTests fun _ done => ?_⟩
    case amendTests =>
      exact .cons ⟨illegal_iff _, rfl⟩ (.cons ⟨undefined_iff _, rfl⟩ (List.rel_append (lockTests_named _)
        (.cons ⟨amendInUse_iff _ _, rfl⟩ (.cons ⟨leavesForm_iff _ _ _, rfl⟩ .nil))))
    exact ready.answers (act := fun b => b.formAmend a) done
  case lock =>
    refine ⟨_, rfl, ready.tested (formLock_checked s.blocks form target) ?lockTests fun _ done => ?_⟩
    case lockTests =>
      exact .cons ⟨illegal_iff _, rfl⟩ (.cons ⟨undefined_iff _, rfl⟩ (.cons ⟨thaws_iff _ _, rfl⟩ .nil))
    exact ready.answers (act := fun b => b.formLock form target) done

/-! ## FIELD_DEFINE and FIELD_RETIRE -/

/-- The carried values make a LINK whose target is no live field of the form, or a link itself (R30, R40). -/
def Blocks.linksNowhere (b : Blocks) (a : FieldBytes) : Prop :=
  a.kind = 3 ∧ ∀ q, b.field a.form.toNat a.target.toNat = some q → ∃ c n, q.body = .link c n

/-- FIELD_DEFINE as a list of tests (R40). -/
theorem fieldDefine_checked (b : Blocks) (a : FieldBytes) [Decidable a.legal] [Decidable (b.linksNowhere a)] :
    b.fieldDefine a =
      b.checked
        ([(!decide a.legal, .badValue), (!(b.form a.form.toNat).defined, .noForm)] ++ (b.form a.form.toNat).lockTests ++
          [((b.form a.form.toNat).inFlight, .inFlight), ((b.field a.form.toNat a.field.toNat).isSome, .exists),
           (!(b.form a.form.toNat).printable a.line.toNat, .outOfForm), (b.pool.any a.record.overlaps, .overlap),
           (decide (b.linksNowhere a), .noField),
           (decide (Config.poolCapacity ≤ b.pool.length) ||
              decide (Config.fieldsPerForm ≤ (b.fieldsOf a.form.toNat).length), .full)])
        (((b.withPool (insertField a.record b.pool)).setForm a.form.toNat
            { b.form a.form.toNat with fieldCount := (b.form a.form.toNat).fieldCount + 1 }).answer .ok) := by
  unfold Blocks.fieldDefine
  rw [carriedRecord_eq]
  by_cases legal : a.legal
  case neg => simp [legal, Blocks.checked, firstRefusal]
  case pos =>
    have target : b.badTarget a.record = decide (b.linksNowhere a) := by
      rw [Bool.eq_iff_iff, badTarget_iff b a legal, decide_eq_true_iff]
      rfl
    rw [if_pos legal, decide_eq_true legal, ← target]
    rfl

/-- The OUT_OF_FORM test of FIELD_DEFINE (R4, R40). -/
theorem unprintable_iff (r : FormRecord) (n : Nat) :
    (!r.printable n) = true ↔ ¬ (r.top ≤ n ∧ n + r.bottom < r.lines) := by
  rw [not_mark_iff, ← Bool.not_eq_true, printable_iff]

/-- The OVERLAP test: a field of the form and line shares a character position (R21, R40). -/
theorem overlap_iff (pool : List FieldRecord) (a : FieldBytes) :
    pool.any a.record.overlaps = true ↔
      ∃ q ∈ pool, q.form = a.form.toNat ∧ q.line = a.line.toNat ∧ a.column.toNat < q.column + q.width ∧
        q.column < a.column.toNat + a.width.toNat := by
  simp only [List.any_eq_true, FieldRecord.overlaps, FieldBytes.record, Bool.and_eq_true, beq_iff_eq,
    decide_eq_true_iff, and_assoc, eq_comm (a := BitVec.toNat _)]

/-- The FULL test: of the pool, or of the form's share of it (R19, R40). -/
theorem full_iff (n m : Nat) :
    (decide (Config.poolCapacity ≤ n) || decide (Config.fieldsPerForm ≤ m)) = true ↔ 160 ≤ n ∨ 40 ≤ m := by
  rw [Bool.or_eq_true, decide_eq_true_iff, decide_eq_true_iff]

/-- Settles O14: the ten tests of R40 name their conditions, and the accepted command enters the one new record. -/
theorem fieldDefineEntersThePool : Obligations.FieldDefineEntersThePool := by
  classical
  intro s a ready
  refine ⟨_, rfl, ready.tested (fieldDefine_checked s.blocks a) ?tests fun _ done => ?accepted⟩
  case tests =>
    exact .cons ⟨illegal_iff _, rfl⟩ (.cons ⟨undefined_iff _, rfl⟩ (List.rel_append (lockTests_named _)
      (.cons ⟨Iff.rfl, rfl⟩ (.cons ⟨Option.isSome_iff_ne_none, rfl⟩ (.cons ⟨unprintable_iff _ _, rfl⟩
        (.cons ⟨overlap_iff _ _, rfl⟩ (.cons ⟨decide_eq_true_iff, rfl⟩ (.cons ⟨full_iff _ _, rfl⟩ .nil))))))))
  case accepted => exact ready.answers (act := fun b => b.fieldDefine a) done

/-- The NO_FIELD test of a command that names a field (R39). -/
theorem isNone_iff {α : Type} (x : Option α) : x.isNone = true ↔ x = none := Option.isNone_iff_eq_none

/-- The LINKED test: a live LINK of the form names the field (R31). -/
theorem linked_iff (b : Blocks) (f i : Nat) :
    b.linked f i = true ↔ ∃ q ∈ b.pool, q.form = f ∧ ∃ c, q.body = .link c i := by
  unfold Blocks.linked
  rw [List.any_eq_true]
  refine exists_congr fun q => ?_
  rw [Blocks.mem_fieldsOf, and_assoc]
  refine and_congr_right fun _ => and_congr_right fun _ => ?_
  cases q.body <;> simp

/-- The fields a FIELD_RETIRE leaves are those of another key, in their order (R46). -/
theorem removeField_eq (pool : List FieldRecord) (f i : Nat) :
    removeField pool f i = pool.filter fun q => decide (¬ (q.form = f ∧ q.field = i)) := by
  refine List.filter_congr fun q _ => ?_
  rw [decide_not, Bool.decide_and, beq_eq_decide, beq_eq_decide]

/-- Settles O17: the seven tests of R46 name their conditions, and the accepted command filters the pool. -/
theorem fieldRetireLeavesThePool : Obligations.FieldRetireLeavesThePool := by
  intro s form field ready
  refine ⟨_, rfl, ready.tested rfl ?tests fun _ done => ?accepted⟩
  case tests =>
    exact .cons ⟨badKey_iff _ _, rfl⟩ (.cons ⟨undefined_iff _, rfl⟩ (List.rel_append (lockTests_named _)
      (.cons ⟨Iff.rfl, rfl⟩ (.cons ⟨isNone_iff _, rfl⟩ (.cons ⟨linked_iff _ _ _, rfl⟩ .nil)))))
  case accepted =>
    have answered := ready.answers (c := .fieldRetire) (act := fun b => b.fieldRetire form field) done
    rw [removeField_eq] at answered
    exact answered

end Sys2Proof.Machine
end

section
/-! SUPPORT. FIELD_SET and COUNTER_SET (02, R32 to R35, R42, R43) and the advance of a counter (R26, R27): the tests as the
statements name them, the one field each writes, and the proofs of O15, O16 and O18. -/

namespace Sys2Proof.Machine

/-! ## A record that is looked up between two lists of tests -/

/-- A refusal of an absent record is one more test behind the others. -/
theorem checked_lookup {α : Type} (b : Blocks) (tests : List (Bool × Result)) (x : Option α) (r : Result)
    (found : α → Answer) :
    b.checked tests (x.elim (b.refuse r) found) =
      b.checked (tests ++ [(x.isNone, r)]) (x.elim (b.refuse r) found) := by
  induction tests with
  | nil => cases x <;> rfl
  | cons test rest ih =>
    obtain ⟨fails, why⟩ := test
    cases fails
    case false => exact ih
    case true => rfl

/-- A command that is tested, looks a record up and goes on with the one found. -/
theorem State.Ready.tested_lookup {s : State} (ready : s.Ready) {α : Type} {c : Command} {act : Blocks → Answer}
    {tests : List (Bool × Result)} {x : Option α} {r : Result} {found : α → Answer}
    (e : act s.blocks = s.blocks.checked tests (x.elim (s.blocks.refuse r) found)) {named : List (Prop × Result)}
    (same : List.Forall₂ (fun x p => (x.1 = true ↔ p.1) ∧ x.2 = p.2) (tests ++ [(x.isNone, r)]) named)
    {ok : α → Prop} (goesOn : ∀ a, x = some a → act s.blocks = found a → ok a) :
    s.Tested (s.deliver .addressed c act) c named (∀ a, x = some a → ok a) := by
  refine ready.tested (e.trans (checked_lookup _ _ _ _ _)) same ?_
  rintro _ done a rfl
  exact goesOn a rfl done

/-! ## The tests of both commands -/

/-- BAD_VALUE for ids or a mark out of range (R39). -/
theorem badWrite_iff (form field mark : Byte) :
    (badKey form field || badMark mark) = true ↔ ¬ (form.toNat ≤ 7 ∧ field.toNat ≤ 63 ∧ mark.toNat ≤ 1) := by
  rw [Bool.or_eq_true, badKey_iff, badMark_iff, ← and_assoc, not_and_or (b := mark.toNat ≤ 1)]

/-! ## FIELD_SET -/

/-- What FIELD_SET does with the field found (R42): the lock tests hold for a protected field alone. -/
def Blocks.setText (b : Blocks) (f i : Nat) (mark : Byte) (expected : Half) (text : List Byte) (r : FieldRecord) : Answer :=
  match r.body with
  | .text c guarded live staged =>
    b.checked
      [(guarded && (b.form f).lock == .frozen, .frozen), (guarded && (b.form f).lock == .locked, .locked),
       (decide (r.width < text.length), .badValue), (!text.all (inSet c.glyphSet), .badChar),
       (stale mark expected r, .stale)]
      (b.writeField f i r
        (if (b.form f).inFlight then .text c guarded live (some text) else .text c guarded (liveText text) staged))
  | .counter .. | .rule _ | .link .. => b.refuse .badValue

/-- FIELD_SET as a list of tests and what it does with the field found (R42). -/
theorem fieldSet_checked (b : Blocks) (form field mark : Byte) (expected : Half) (text : List Byte) :
    (if text.length ≤ 195 then b.fieldSet form field mark expected text else b.refuse .badLength) =
      b.checked
        [(decide (195 < text.length), .badLength), (badKey form field || badMark mark || decide (48 < text.length), .badValue),
         (!(b.form form.toNat).defined, .noForm)]
        ((b.field form.toNat field.toNat).elim (b.refuse .noField)
          (b.setText form.toNat field.toNat mark expected text)) := by
  have found : ∀ r, b.setText form.toNat field.toNat mark expected text r =
      match r.body with
      | .text c guarded live staged =>
        b.checked
          ((if guarded then (b.form form.toNat).lockTests else []) ++
            [(decide (r.width < text.length), .badValue), (!text.all (inSet c.glyphSet), .badChar),
             (stale mark expected r, .stale)])
          (b.writeField form.toNat field.toNat r
            (if (b.form form.toNat).inFlight then .text c guarded live (some text)
             else .text c guarded (liveText text) staged))
      | .counter .. | .rule _ | .link .. => b.refuse .badValue := by
    intro r
    unfold Blocks.setText
    cases r.body with
    | text c guarded live staged => cases guarded <;> rfl
    | counter | rule | link => rfl
  by_cases carried : text.length ≤ 195
  case neg =>
    rw [if_neg carried, decide_eq_true (Nat.lt_of_not_le carried)]
    rfl
  case pos =>
    rw [if_pos carried, decide_eq_false (Nat.not_lt.2 carried)]
    unfold Blocks.fieldSet
    dsimp only
    cases b.field form.toNat field.toNat with
    | none => rfl
    | some r =>
      rw [Option.elim_some, found r]
      rfl

/-- The text content that FIELD_SET leaves live: absent without characters (R24, R35). -/
theorem liveText_eq (text : List Byte) : liveText text = if text = [] then none else some text := by
  cases text <;> rfl

/-- A text has a character outside the set of its field (R24). -/
theorem badChar_iff (set : Nat) (text : List Byte) :
    (!text.all (inSet set)) = true ↔ ¬ ∀ x ∈ text, 0x20 ≤ x.toNat ∧ x.toNat ≤ (if set = 2 then 0x5F else 0x7E) := by
  simp only [not_mark_iff, ← Bool.not_eq_true, List.all_eq_true, inSet_iff]

/-- Settles O15: the tests before and behind the look-up of the field name the conditions of R39 and R42, and the accepted
command writes the one field. -/
theorem fieldSetWritesLiveOrStaged : Obligations.FieldSetWritesLiveOrStaged := by
  intro s form field mark expected text ready
  refine ⟨_, rfl, ready.tested_lookup (fieldSet_checked s.blocks form field mark expected text) ?tests
    fun r _ found => ⟨fun other => ?other, fun c g l p body => ?text⟩⟩
  case tests =>
    have badValue : (badKey form field || badMark mark || decide (48 < text.length)) = true ↔
        ¬ (form.toNat ≤ 7 ∧ field.toNat ≤ 63 ∧ mark.toNat ≤ 1 ∧ text.length ≤ 48) := by
      rw [Bool.or_eq_true, badWrite_iff, decide_eq_true_iff]
      omega
    exact .cons ⟨decide_eq_true_iff, rfl⟩ (.cons ⟨badValue, rfl⟩ (.cons ⟨undefined_iff _, rfl⟩
      (.cons ⟨isNone_iff _, rfl⟩ .nil)))
  case other =>
    refine ready.refused (found.trans ?_)
    unfold Blocks.setText
    split
    next c g l p body => exact absurd body (other c g l p)
    all_goals rfl
  case text =>
    unfold Blocks.setText at found
    rw [body] at found
    refine ready.tested found ?tests fun _ done => ?accepted
    case tests =>
      have locks (lock : Lock) : (g && (s.blocks.form form.toNat).lock == lock) = true ↔
          g = true ∧ (s.blocks.form form.toNat).lock = lock := by
        rw [Bool.and_eq_true, beq_iff_eq]
      exact .cons ⟨locks _, rfl⟩ (.cons ⟨locks _, rfl⟩ (.cons ⟨decide_eq_true_iff, rfl⟩ (.cons ⟨badChar_iff _ _, rfl⟩
        (.cons ⟨stale_iff _ _ _, rfl⟩ .nil))))
    case accepted =>
      rw [liveText_eq] at done
      exact ready.answers (c := .fieldSet)
        (act := fun b => if text.length ≤ 195 then b.fieldSet form field mark expected text else b.refuse .badLength) done

/-! ## COUNTER_SET -/

/-- What COUNTER_SET does with the field found (R43). -/
def Blocks.setCounter (b : Blocks) (f i : Nat) (mark : Byte) (expected : Half) (value : Bcd) (r : FieldRecord) : Answer :=
  match r.body with
  | .counter c p staged =>
    b.checked
      ((b.form f).lockTests ++
        [(!fitsDigits (decadesOf value) p.decades.length, .badValue), (stale mark expected r, .stale)])
      (b.writeField f i r
        (if (b.form f).inFlight then .counter c p (some ((decadesOf value).take p.decades.length))
         else .counter c { p with decades := (decadesOf value).take p.decades.length, exhausted := false } staged))
  | .text .. | .rule _ | .link .. => b.refuse .badValue

/-- COUNTER_SET as a list of tests and what it does with the field found (R43). -/
theorem counterSet_checked (b : Blocks) (form field mark : Byte) (expected : Half) (value : Bcd) :
    b.counterSet form field mark expected value =
      b.checked
        [(badKey form field || badMark mark || !decimal (decadesOf value), .badValue),
         (!(b.form form.toNat).defined, .noForm)]
        ((b.field form.toNat field.toNat).elim (b.refuse .noField)
          (b.setCounter form.toNat field.toNat mark expected value)) := by
  unfold Blocks.counterSet
  dsimp only
  cases b.field form.toNat field.toNat <;> rfl

/-- A half of a carried value that is no decimal digit (R26, R43). -/
theorem undecimal_iff (decades : List Nat) : (!decimal decades) = true ↔ ¬ ∀ d ∈ decades, d ≤ 9 := by
  simp only [decimal, not_mark_iff, ← Bool.not_eq_true, List.all_eq_true, decide_eq_true_iff]

/-- A carried value has more digits than the counter (R43, R190). -/
theorem tooLong_iff (decades : List Nat) (digits : Nat) :
    (!fitsDigits decades digits) = true ↔ ¬ ∀ d ∈ decades.drop digits, d = 0 := by
  simp only [fitsDigits, not_mark_iff, ← Bool.not_eq_true, List.all_eq_true, beq_iff_eq]

/-- Settles O16: the tests before and behind the look-up of the field name the conditions of R39 and R43, and the accepted
command writes the one field. -/
theorem counterSetWritesLiveOrStaged : Obligations.CounterSetWritesLiveOrStaged := by
  intro s form field mark expected value ready
  refine ⟨_, rfl, ready.tested_lookup (counterSet_checked s.blocks form field mark expected value) ?tests
    fun r _ found => ⟨fun other => ?other, fun c p v body => ?counter⟩⟩
  case tests =>
    have badValue : (badKey form field || badMark mark || !decimal (decadesOf value)) = true ↔
        ¬ (form.toNat ≤ 7 ∧ field.toNat ≤ 63 ∧ mark.toNat ≤ 1 ∧ ∀ d ∈ decadesOf value, d ≤ 9) := by
      rw [Bool.or_eq_true, badWrite_iff, undecimal_iff]
      tauto
    exact .cons ⟨badValue, rfl⟩ (.cons ⟨undefined_iff _, rfl⟩ (.cons ⟨isNone_iff _, rfl⟩ .nil))
  case other =>
    refine ready.refused (found.trans ?_)
    unfold Blocks.setCounter
    split
    next c p v body => exact absurd body (other c p v)
    all_goals rfl
  case counter =>
    unfold Blocks.setCounter at found
    rw [body] at found
    refine ready.tested found ?tests fun _ done => ?accepted
    case tests =>
      exact List.rel_append (lockTests_named _) (.cons ⟨tooLong_iff _ _, rfl⟩ (.cons ⟨stale_iff _ _ _, rfl⟩ .nil))
    case accepted =>
      exact ready.answers (c := .counterSet) (act := fun b => b.counterSet form field mark expected value) done

/-! ## Counter values in bytes (R190) -/

/-- A byte behind other bytes counts as the lowest of the number. -/
theorem toNat_append_byte {w : Nat} (x : BitVec w) (y : Byte) : (x ++ y).toNat = x.toNat * 256 + y.toNat := by
  rw [BitVec.toNat_append, ← Nat.shiftLeft_add_eq_or_of_lt y.isLt, Nat.shiftLeft_eq]

/-- The number that five bytes of a payload make. -/
theorem payloadBcd_toNat (p : List Byte) (i : Nat) :
    (payloadBcd p i).toNat =
      ((((p.getD (i + 0) 0).toNat * 256 + (p.getD (i + 1) 0).toNat) * 256 + (p.getD (i + 2) 0).toNat) * 256 +
        (p.getD (i + 3) 0).toNat) * 256 + (p.getD (i + 4) 0).toNat := by
  unfold payloadBcd
  simp only [toNat_append_byte]
  rfl

/-- The decades of a carried value are its hexadecimal digits, units first (R190). -/
theorem decadesOf_eq (v : Bcd) :
    decadesOf v =
      [v.toNat % 16, v.toNat / 16 % 16, v.toNat / 256 % 16, v.toNat / 4096 % 16, v.toNat / 65536 % 16,
        v.toNat / 1048576 % 16, v.toNat / 16777216 % 16, v.toNat / 268435456 % 16, v.toNat / 4294967296 % 16,
        v.toNat / 68719476736 % 16] := by
  simp [decadesOf, List.range_succ, BitVec.toNat_ushiftRight, Nat.shiftRight_eq_div_pow]

/-- The ten decades that five bytes carry, two in a byte (R190). -/
theorem decadesOf_payloadBcd (p : List Byte) (i : Nat) :
    let byte := fun k => (p.getD (i + k) 0).toNat
    decadesOf (payloadBcd p i) =
      [byte 4 % 16, byte 4 / 16, byte 3 % 16, byte 3 / 16, byte 2 % 16, byte 2 / 16, byte 1 % 16, byte 1 / 16,
        byte 0 % 16, byte 0 / 16] := by
  intro byte
  have small (k : Nat) : byte k < 256 := (p.getD (i + k) 0).isLt
  have h0 := small 0
  have h1 := small 1
  have h2 := small 2
  have h3 := small 3
  have h4 := small 4
  have number : (payloadBcd p i).toNat = (((byte 0 * 256 + byte 1) * 256 + byte 2) * 256 + byte 3) * 256 + byte 4 :=
    payloadBcd_toNat p i
  rw [decadesOf_eq, number]
  generalize byte 0 = b0 at *
  generalize byte 1 = b1 at *
  generalize byte 2 = b2 at *
  generalize byte 3 = b3 at *
  generalize byte 4 = b4 at *
  simp only [List.cons.injEq, and_true]
  omega

/-- A reply carries ten decades in five bytes (R190). -/
theorem bcdBytes_eq (decades : List Nat) :
    let half := fun k => decades.getD k 0
    bcdBytes decades =
      [BitVec.ofNat 8 (16 * half 9 + half 8), BitVec.ofNat 8 (16 * half 7 + half 6),
        BitVec.ofNat 8 (16 * half 5 + half 4), BitVec.ofNat 8 (16 * half 3 + half 2),
        BitVec.ofNat 8 (16 * half 1 + half 0)] := by
  simp [bcdBytes, List.range_succ, byteOf, Nat.mul_comm 16]

/-! ## The advance of a counter (R27) -/

/-- The advance of a counter field raises its revision (R33). -/
theorem FieldRecord.advance_counter {r : FieldRecord} {c : CharPart} {p : CounterPart} {v : Option (List Nat)}
    (body : r.body = .counter c p v) :
    r.advance = { r with body := .counter c p.advance v, revision := r.revision + 1 } := by
  rw [FieldRecord.advance, body]

/-- A step of 1 to 9 carries at most 1 out of the decades, and does so where the sum does not fit (R27). -/
theorem addDecades_carry {l : List Nat} (digits : ∀ d ∈ l, d ≤ 9) {n : Nat} (small : n ≤ 9) (nonempty : 1 ≤ l.length) :
    ((addDecades n l).2 = 0 ∧ decimalValue l + n < 10 ^ l.length ∧
        decimalValue (addDecades n l).1 = decimalValue l + n) ∨
      ((addDecades n l).2 = 1 ∧ 10 ^ l.length ≤ decimalValue l + n ∧
        decimalValue (addDecades n l).1 + 10 ^ l.length = decimalValue l + n) := by
  obtain ⟨sameLength, sum⟩ := addDecades_value l n
  have below := decimalValue_lt l digits
  have kept := decimalValue_lt (addDecades n l).1 (addDecades_decimal l n)
  have ten : 10 ^ 1 ≤ 10 ^ l.length := Nat.pow_le_pow_right (by decide) nonempty
  rw [sameLength] at kept
  have carry : (addDecades n l).2 < 2 := by
    by_contra big
    have := Nat.mul_le_mul_left (10 ^ l.length) (Nat.le_of_not_lt big)
    omega
  interval_cases (addDecades n l).2 <;> omega

/-- What an advance leaves as it is: the digit count, decimal digits and the values of the definition (R26, R27). -/
theorem CounterPart.advance_keeps {p : CounterPart} (digits : ∀ d ∈ p.decades, d ≤ 9) :
    p.advance.decades.length = p.decades.length ∧ (∀ d ∈ p.advance.decades, d ≤ 9) ∧ p.advance.stride = p.stride ∧
      p.advance.policy = p.policy ∧ p.advance.zeroFill = p.zeroFill := by
  have sameLength := (addDecades_value p.decades p.stride).1
  have decimal := addDecades_decimal p.decades p.stride
  unfold CounterPart.advance
  dsimp only
  split
  case isTrue => exact ⟨sameLength, decimal, rfl, rfl, rfl⟩
  case isFalse =>
    cases p.policy
    case wrap => exact ⟨sameLength, decimal, rfl, rfl, rfl⟩
    case stop => exact ⟨rfl, digits, rfl, rfl, rfl⟩

/-- With no carry out an advance adds the step. -/
theorem CounterPart.advance_fits {p : CounterPart} (fits : (addDecades p.stride p.decades).2 = 0) :
    p.advance = { p with decades := (addDecades p.stride p.decades).1 } := if_pos fits

/-- On a carry out WRAP drops it, and STOP keeps the value and is exhausted. -/
theorem CounterPart.advance_carries {p : CounterPart} (carry : (addDecades p.stride p.decades).2 = 1) :
    p.advance =
      match p.policy with
      | .wrap => { p with decades := (addDecades p.stride p.decades).1 }
      | .stop => { p with exhausted := true } := by
  unfold CounterPart.advance
  dsimp only
  rw [carry]
  rfl

/-- Settles O18: the two byte forms, and the advance by whether the decades carry out. -/
theorem counterAdvanceIsDecimal : Obligations.CounterAdvanceIsDecimal := by
  refine ⟨decadesOf_payloadBcd, bcdBytes_eq, fun r c p v body digits _ small nonempty => ?_⟩
  obtain ⟨sameLength, decimal, stride, policy, zeroFill⟩ := CounterPart.advance_keeps digits
  refine ⟨p.advance, FieldRecord.advance_counter body, sameLength, decimal, stride, policy, zeroFill, ?_⟩
  rcases addDecades_carry digits small nonempty with ⟨noCarry, fits, value⟩ | ⟨carry, past, value⟩
  case inl =>
    rw [CounterPart.advance_fits noCarry]
    exact ⟨fun _ => ⟨value, rfl⟩, fun past => absurd fits (Nat.not_lt.2 past)⟩
  case inr =>
    rw [CounterPart.advance_carries carry]
    refine ⟨fun fits => absurd fits (Nat.not_lt.2 past), fun _ => ⟨fun wrap => ?_, fun stop => ?_⟩⟩
    · rw [wrap]
      exact ⟨value, rfl⟩
    · rw [stop]
      exact ⟨rfl, rfl⟩

end Sys2Proof.Machine
end

section
/-! SUPPORT. GLYPH_LOAD and the resident glyphs (03, R47, R48, R51), the composition of a line (R54 to R64) and the plans of the
Head Drive (04, R77 to R81): the proofs of O19, O21, O22, O23 and O24. -/

namespace Sys2Proof.Machine

/-! ## GLYPH_LOAD -/

/-- GLYPH_LOAD as a list of tests (R51). -/
theorem glyphLoad_checked (b : Blocks) (code : Byte) (columns : List Column) :
    (if columns.length = 10 then b.glyphLoad code columns else b.refuse .badLength) =
      b.checked
        [(!decide (columns.length = 10), .badLength),
         (decide (code.toNat < 0x21) || decide (0x5F < code.toNat), .badValue), (b.anyInFlight, .busy)]
        ((b.withGlyphs (b.glyphs.set (code.toNat - 0x20) { columns := columns, loaded := true })).answer .ok) := by
  by_cases ten : columns.length = 10
  case pos =>
    rw [if_pos ten, decide_eq_true ten]
    rfl
  case neg =>
    rw [if_neg ten, decide_eq_false ten]
    rfl

/-- The codes GLYPH_LOAD refuses (R51). -/
theorem unloadable_iff (n : Nat) :
    (decide (n < 0x21) || decide (0x5F < n)) = true ↔ ¬ (0x21 ≤ n ∧ n ≤ 0x5F) := by
  rw [Bool.or_eq_true, decide_eq_true_iff, decide_eq_true_iff]
  omega

/-- Some form's in-flight mark is set (R8, R51). -/
theorem anyInFlight_iff (b : Blocks) : b.anyInFlight = true ↔ ∃ r ∈ b.forms, r.inFlight = true := List.any_eq_true

/-- Settles O19: the three tests name their conditions, and the accepted command writes the one glyph. -/
theorem glyphLoadReplacesTheGlyph : Obligations.GlyphLoadReplacesTheGlyph := by
  intro s code columns ready
  refine ⟨_, rfl, ready.tested (glyphLoad_checked s.blocks code columns) ?tests fun _ done => ?accepted⟩
  case tests =>
    exact .cons ⟨illegal_iff _, rfl⟩ (.cons ⟨unloadable_iff _, rfl⟩ (.cons ⟨anyInFlight_iff _, rfl⟩ .nil))
  case accepted =>
    exact ready.answers (c := .glyphLoad)
      (act := fun b => if columns.length = 10 then b.glyphLoad code columns else b.refuse .badLength) done

/-! ## Resident glyphs -/

/-- No pin has dots in two adjacent columns of a list of columns (R48). -/
def apart (l : List Column) : Prop := ∀ i c d, l[i]? = some c → l[i + 1]? = some d → c &&& d = 0

/-- A column without dots stands apart from every column. -/
theorem apart_cons_blank (x : Column) (n : Nat) : apart (x :: List.replicate n 0) := by
  intro i c d _ next
  rw [List.getElem?_cons_succ] at next
  rw [List.eq_of_mem_replicate (List.mem_of_getElem? next)]
  exact BitVec.and_zero

/-- The columns after the first of a list that stands apart stand apart. -/
theorem apart.tail {x : Column} {l : List Column} (h : apart (x :: l)) : apart l :=
  fun i c d this next => h (i + 1) c d this next

/-- The glyph of a code other than 0x20 holds a dot, and none for one pin in two adjacent columns (R48). -/
theorem residentColumns_dotted (set : Nat) {code : Nat} (h : ¬ code = 0x20) :
    (∃ c ∈ residentColumns set code, ¬ c = 0) ∧ apart (residentColumns set code) := by
  unfold residentColumns
  rw [if_neg h]
  dsimp only
  split
  case isTrue => exact ⟨⟨1, List.mem_cons_self, by decide⟩, apart_cons_blank 1 9⟩
  case isFalse dotted =>
    rw [List.all_eq_true] at dotted
    refine ⟨?_, apart.tail (thinned_apart _ 0)⟩
    by_contra blank
    exact dotted fun c mem => beq_iff_eq.2 (by_contra fun dot => blank ⟨c, mem, dot⟩)

/-- The glyph of 0x20 is blank (R48). -/
theorem residentColumns_space (set : Nat) : residentColumns set 0x20 = List.replicate 10 0 := if_pos rfl

/-- Settles O21: by the code, 0x20 or another. -/
theorem residentGlyphsAreLegal : Obligations.ResidentGlyphsAreLegal := by
  intro b set code resident _ _
  rw [Blocks.glyphColumns, if_neg (Nat.ne_of_lt resident)]
  refine ⟨residentColumns_length _ _, ?_⟩
  by_cases space : code = 0x20
  case pos =>
    subst space
    have blank : residentColumns set (32 : Byte).toNat = List.replicate 10 0 := residentColumns_space set
    rw [blank]
    exact ⟨fun _ c mem => List.eq_of_mem_replicate mem, fun other => absurd rfl other, apart_cons_blank 0 9⟩
  case neg =>
    have other : ¬ code.toNat = 0x20 := fun e => space (BitVec.eq_of_toNat_eq e)
    obtain ⟨dotted, alone⟩ := residentColumns_dotted set other
    exact ⟨fun e => absurd e space, fun _ => dotted, alone⟩

/-! ## Composition -/

/-- The live fields of a line are those of the pool on its form and line (R54). -/
theorem Blocks.lineFields_eq (b : Blocks) (f line : Nat) :
    b.lineFields f line = b.pool.filter fun r => decide (r.form = f ∧ r.line = line) := by
  unfold Blocks.lineFields Blocks.fieldsOf
  rw [List.filter_filter]
  refine List.filter_congr fun r _ => ?_
  rw [Bool.and_comm, Bool.decide_and, beq_eq_decide, beq_eq_decide]

/-- A counter's span serves the counter itself (R63). -/
theorem Blocks.counterServed_counter (b : Blocks) {r : FieldRecord} {c : CharPart} {p : CounterPart}
    {v : Option (List Nat)} (body : r.body = .counter c p v) : b.counterServed r = some r.field := by
  rw [Blocks.counterServed, body]

/-- A link's span serves the counter it names (R63). -/
theorem Blocks.counterServed_link (b : Blocks) {r q : FieldRecord} {c e : CharPart} {p : CounterPart} {n : Nat}
    {v : Option (List Nat)} (body : r.body = .link c n) (target : b.field r.form n = some q)
    (counter : q.body = .counter e p v) : b.counterServed r = some n := by
  rw [Blocks.counterServed, body]
  dsimp only
  rw [target]
  dsimp only
  rw [counter]

/-- A link to no counter serves none (R63). -/
theorem Blocks.counterServed_other (b : Blocks) {r : FieldRecord} {c : CharPart} {n : Nat} (body : r.body = .link c n)
    (other : ∀ q e p v, b.field r.form n = some q → ¬ q.body = .counter e p v) : b.counterServed r = none := by
  rw [Blocks.counterServed, body]
  dsimp only
  cases target : b.field r.form n with
  | none => rfl
  | some q =>
    dsimp only
    split
    next e p v counter => exact absurd counter (other q e p v target)
    all_goals rfl

/-- A text or rule serves none (R63). -/
theorem Blocks.counterServed_none (b : Blocks) {r : FieldRecord} (counter : ∀ c p v, ¬ r.body = .counter c p v)
    (link : ∀ c n, ¬ r.body = .link c n) : b.counterServed r = none := by
  unfold Blocks.counterServed
  split
  next c p v body => exact absurd body (counter c p v)
  next c n body => exact absurd body (link c n)
  all_goals rfl

/-- The pass span is empty where nothing fires (R64). -/
theorem passSpanOf_none (image : List Dots) : passSpanOf image = none ↔ image = [] := by
  cases image <;> simp [passSpanOf]

/-- A column sorted before its end is no later than the end. -/
theorem le_getLastD (l : List Nat) : ∀ x, (x :: l).Pairwise (· < ·) → ∀ y ∈ x :: l, y ≤ l.getLastD x := by
  induction l with
  | nil => intro x _ y mem; exact (List.mem_singleton.1 mem).le
  | cons z l ih =>
    intro x sorted y mem
    obtain ⟨least, rest⟩ := List.pairwise_cons.1 sorted
    rw [List.getLastD_cons]
    rcases List.mem_cons.1 mem with rfl | mem
    · exact (least z List.mem_cons_self).le.trans (ih z rest z List.mem_cons_self)
    · exact ih z rest y mem

/-- The pass span runs from the lowest firing column to the highest (R64). -/
theorem passSpanOf_some {image : List Dots} (sorted : (image.map (·.column)).Pairwise (· < ·)) {first last : Nat}
    (span : passSpanOf image = some (first, last)) :
    (∃ x ∈ image, x.column = first) ∧ (∃ x ∈ image, x.column = last) ∧
      ∀ x ∈ image, first ≤ x.column ∧ x.column ≤ last := by
  cases image with
  | nil => cases span
  | cons d rest =>
    cases span
    have low : ∀ x ∈ d :: rest, d.column ≤ x.column := by
      intro x mem
      rcases List.mem_cons.1 mem with rfl | mem
      · exact le_refl _
      · exact ((List.pairwise_cons.1 sorted).1 _ (List.mem_map_of_mem mem)).le
    have high : ∀ x ∈ d :: rest, x.column ≤ (rest.getLastD d).column := by
      intro x mem
      have columns : (rest.getLastD d).column = (rest.map (·.column)).getLastD d.column := List.getLastD_map.symm
      rw [columns]
      exact le_getLastD _ _ sorted _ (List.mem_map_of_mem (f := (·.column)) mem)
    have inside : rest.getLastD d ∈ d :: rest := List.getLastD_mem_cons
    exact ⟨⟨d, List.mem_cons_self, rfl⟩, ⟨_, inside, rfl⟩, fun x mem => ⟨low x mem, high x mem⟩⟩

/-- What the composer holds of a line (R54). -/
theorem Blocks.compose_composer (b : Blocks) (f line : Nat) :
    (b.compose f line).composer =
      { image := b.lineImage (b.lineFields f line)
        spans := (b.lineFields f line).map b.spanOf
        passSpan := passSpanOf (b.lineImage (b.lineFields f line)) } :=
  b.withComposer_composer _

/-- Composition changes the composer alone (R54). -/
theorem Blocks.compose_eq (b : Blocks) (f line : Nat) :
    b.compose f line =
      { b with
        composer :=
          { image := b.lineImage (b.lineFields f line)
            spans := (b.lineFields f line).map b.spanOf
            passSpan := passSpanOf (b.lineImage (b.lineFields f line)) } } := by
  unfold Blocks.compose
  rfl

/-- Settles O22: the image by its columns, the spans by the fields, the pass span by the ends of the image. -/
theorem compositionGathersTheLine : Obligations.CompositionGathersTheLine := by
  intro b f line
  dsimp only
  rw [← Blocks.lineFields_eq, Blocks.compose_composer]
  dsimp only
  generalize onLine : b.lineFields f line = fields
  have sorted := lineImage_sorted b fields
  refine ⟨?composer, ?fires, ?sorted, ?dots, ⟨b.counterServed, ?spans, fun r => ⟨?_, ?_, ?_, ?_⟩⟩, ?empty, ?span⟩
  case composer => rw [b.compose_eq, onLine]
  case fires =>
    intro d inside i
    rw [imagePins_lineImage b fields d inside, linePins_bit]
  case sorted => exact sorted
  case dots =>
    intro x mem
    obtain ⟨inside, fires, _⟩ := (mem_lineImage b fields x).1 mem
    exact ⟨inside, fires⟩
  case spans => rfl
  case empty => exact passSpanOf_none _
  case span =>
    intro first last span
    exact passSpanOf_some sorted span
  · exact fun _ _ _ body => b.counterServed_counter body
  · exact fun _ _ _ _ _ _ body target counter => b.counterServed_link body target counter
  · exact fun _ _ body other => b.counterServed_other body other
  · exact b.counterServed_none

/-! ## Contents -/

/-- A field that is no link has its own content (R25). -/
theorem Blocks.content_own (b : Blocks) {r : FieldRecord} (other : ∀ c n, ¬ r.body = .link c n) :
    b.content r = r.body.ownContent := by
  unfold Blocks.content
  split
  next c n body => exact absurd body (other c n)
  next => rfl

/-- The content of a link is that of its target (R25, R30). -/
theorem Blocks.content_link (b : Blocks) {r q : FieldRecord} {c : CharPart} {n : Nat} (body : r.body = .link c n)
    (target : b.field r.form n = some q) (other : ∀ e m, ¬ q.body = .link e m) : b.content r = b.content q := by
  rw [b.content_own other, Blocks.content, body]
  dsimp only
  rw [target]

/-- A counter without zero-fill has its digits from the first that is no zero, and one zero for the value 0 (R25). -/
theorem CounterPart.content_short {p : CounterPart} (zeroFill : p.zeroFill = false) :
    (∃ n first rest, digitCodes p.decades = List.replicate n 0x30 ++ p.content ∧ p.content = first :: rest ∧
        ¬ first = 0x30) ∨
      digitCodes p.decades = List.replicate p.decades.length 0x30 ∧ p.content = [0x30] := by
  have count : (digitCodes p.decades).length = p.decades.length := by
    rw [digitCodes, List.length_map, List.length_reverse]
  unfold CounterPart.content
  dsimp only
  rw [zeroFill, if_neg (by decide)]
  rcases digits_split (digitCodes p.decades) with ⟨n, first, rest, digits, significant, nonzero⟩ | ⟨zeros, blank⟩
  case inl =>
    rw [significant]
    exact .inl ⟨n, first, rest, digits, rfl, nonzero⟩
  case inr =>
    rw [blank]
    rw [count] at zeros
    exact .inr ⟨zeros, rfl⟩

/-- The characters of a text, a rule and a counter (R25, R59). -/
theorem Blocks.content_cases (b : Blocks) (r : FieldRecord) :
    (∀ c g l p, r.body = .text c g l p → b.content r = l.getD []) ∧
    (∀ y, r.body = .rule y → b.content r = []) ∧
    (∀ c p v, r.body = .counter c p v → b.content r = p.content) := by
  refine ⟨fun c g l p body => ?_, fun y body => ?_, fun c p v body => ?_⟩
  all_goals
    rw [Blocks.content, body]
    rfl

/-! ## Cells and pins -/

/-- Substitution by the codes of the set (R47, R58). -/
theorem substituted_eq (set : Nat) (x : Byte) :
    substituted set x = if 0x20 ≤ x.toNat ∧ x.toNat ≤ (if set = 2 then 0x5F else 0x7E) then x else 0x3F :=
  if_congr (inSet_iff set x) rfl rfl

/-- A dot column is in the span of a field (R63). -/
theorem inSpan_iff {r : FieldRecord} (wide : 1 ≤ r.width) (d : Nat) :
    (r.first ≤ d ∧ d ≤ r.last) ↔ 12 * r.column ≤ d ∧ d < 12 * (r.column + r.width) := by
  unfold FieldRecord.first FieldRecord.last
  omega

/-- A field fires nothing outside its span (R55, R60). -/
theorem Blocks.fieldPins_outside (b : Blocks) {r : FieldRecord} {d : Nat} (outside : ¬ (r.first ≤ d ∧ d ≤ r.last)) :
    b.fieldPins r d = 0 := if_neg outside

/-- A rule fires the pins of its style along its span (R29, R60). -/
theorem Blocks.fieldPins_rule (b : Blocks) {r : FieldRecord} {d : Nat} (inside : r.first ≤ d ∧ d ≤ r.last)
    {y : RuleStyle} (body : r.body = .rule y) : b.fieldPins r d = y.pins := by
  rw [Blocks.fieldPins, if_pos inside, body]

/-- A character field fires its cell's glyph and its underline along its span (R55, R60 to R62). -/
theorem Blocks.fieldPins_chars (b : Blocks) {r : FieldRecord} {d : Nat} (inside : r.first ≤ d ∧ d ≤ r.last)
    {c : CharPart} (chars : r.body.chars = some c) :
    b.fieldPins r d =
      cellPins (b.glyphColumns c.glyphSet ((cells c r.width (b.content r)).getD (d / 12 - r.column) 0x20))
          (c.emphasis == .bold) (d % 12) |||
        (if c.emphasis == .underline then pin 17 else 0) := by
  rw [Blocks.fieldPins, if_pos inside]
  cases body : r.body with
  | rule y =>
    rw [body] at chars
    cases chars
  | text | counter | link =>
    rw [body] at chars
    cases chars
    rfl

/-- The dots of a cell's column, and those of the column before it under BOLD (R55, R61). -/
theorem cellPins_row (columns : List Column) (bold : Bool) (o row : Nat) (h : row < 16) :
    (cellPins columns bold o).getLsbD (17 - row) = true ↔
      (columns.getD o 0).getLsbD (15 - row) = true ∨
        bold = true ∧ 0 < o ∧ (columns.getD (o - 1) 0).getLsbD (15 - row) = true := by
  unfold cellPins
  rw [BitVec.getLsbD_or, columnPins_row _ _ h, Bool.or_eq_true]
  refine or_congr_right ?_
  by_cases repeats : bold = true ∧ 0 < o
  case pos =>
    rw [if_pos (by simpa using repeats), columnPins_row _ _ h]
    exact ⟨fun dot => ⟨repeats.1, repeats.2, dot⟩, fun ⟨_, _, dot⟩ => dot⟩
  case neg =>
    rw [if_neg (by simpa using repeats)]
    exact ⟨fun dot => absurd (BitVec.getLsbD_zero.symm.trans dot) Bool.false_ne_true,
      fun ⟨isBold, later, _⟩ => absurd ⟨isBold, later⟩ repeats⟩

/-- A cell fires none of the two lowest pins (R47). -/
theorem cellPins_low (columns : List Column) (bold : Bool) (o i : Nat) (h : i < 2) :
    (cellPins columns bold o).getLsbD i = false := by
  unfold cellPins
  rw [BitVec.getLsbD_or, columnPins_low _ _ h, Bool.false_or]
  split
  case isTrue => exact columnPins_low _ _ h
  case isFalse => exact BitVec.getLsbD_zero

/-- The underline fires pin 17 alone (R62). -/
theorem underline_bits (underlined : Bool) :
    (∀ row < 16, (if underlined then pin 17 else (0 : Pins)).getLsbD (17 - row) = false) ∧
      (if underlined then pin 17 else (0 : Pins)).getLsbD 1 = underlined ∧
      (if underlined then pin 17 else (0 : Pins)).getLsbD 0 = false := by
  cases underlined
  case false => exact ⟨fun _ _ => BitVec.getLsbD_zero, rfl, rfl⟩
  case true => exact ⟨fun row h => pin17_row row h, by decide, by decide⟩

/-- Settles O23: the contents by kind, the cells by position, the pins by whether the column is in the span and by the kind of
the field. -/
theorem fieldsFireWithinTheirSpans : Obligations.FieldsFireWithinTheirSpans := by
  refine ⟨fun b r => ?contents, fun c width content => ?cells, fun b r d wide => ?pins⟩
  case contents =>
    obtain ⟨text, rule, counter⟩ := b.content_cases r
    refine ⟨text, rule, fun c p v body => ?_, fun c n q body target other => b.content_link body target other⟩
    dsimp only
    rw [counter c p v body]
    exact ⟨fun zeroFill => if_pos zeroFill, CounterPart.content_short⟩
  case cells =>
    obtain ⟨count, at_⟩ := cells_at c width content
    exact ⟨count, fun i inside => (at_ i inside).trans (congrArg some (substituted_eq _ _))⟩
  case pins =>
    rw [← inSpan_iff wide]
    refine ⟨b.fieldPins_outside, fun low high => ?_⟩
    have inside := (inSpan_iff wide d).2 ⟨low, high⟩
    refine ⟨b.fieldPins_rule inside, b.fieldPins_rule inside, b.fieldPins_rule inside, fun c chars => ?_⟩
    dsimp only
    rw [b.fieldPins_chars inside chars]
    obtain ⟨rows, low, lowest⟩ := underline_bits (c.emphasis == .underline)
    refine ⟨fun row h => ?_, ?_, ?_⟩
    · rw [BitVec.getLsbD_or, rows row h, Bool.or_false, cellPins_row _ _ _ _ h, beq_iff_eq]
    · rw [BitVec.getLsbD_or, cellPins_low _ _ _ _ (by decide), Bool.false_or, low, beq_iff_eq]
    · rw [BitVec.getLsbD_or, cellPins_low _ _ _ _ (by decide), Bool.false_or, lowest]

/-! ## Plans -/

/-- No column is walked into the next at FULL where some pin fires in two adjacent columns (R78). -/
theorem adjacent_iff (image : List Dots) (first last : Nat) :
    adjacent image first last = true ↔
      ∃ i, first ≤ i ∧ i < last ∧ ¬ imagePins image i &&& imagePins image (i + 1) = 0 := by
  simp only [adjacent, List.any_eq_true, List.mem_range, Bool.not_eq_true', beq_eq_false_iff_ne]
  constructor
  · rintro ⟨k, inside, joined⟩
    exact ⟨first + k, Nat.le_add_right _ _, by omega, joined⟩
  · rintro ⟨i, low, high, joined⟩
    refine ⟨i - first, by omega, ?_⟩
    rwa [Nat.add_sub_cancel' low]

/-- A walk from the first column of a part (R77, R80). -/
theorem walk_whole (image : List Dots) (strike : Nat) (v : Speed) (columns heat : List Nat) :
    walk image strike v 1 columns heat ≤ columns.length ∧
      (∀ k < walk image strike v 1 columns heat,
        short strike (imagePins image (columns.getD k 0)) (heatAt image strike v columns heat k) = false) ∧
      (walk image strike v 1 columns heat < columns.length →
        short strike (imagePins image (columns.getD (walk image strike v 1 columns heat) 0))
          (heatAt image strike v columns heat (walk image strike v 1 columns heat)) = true) := by
  obtain ⟨n, walked, length, fits, stops⟩ := walk_fits image strike v columns heat columns [] rfl
  have whole : walk image strike v 1 columns heat = n := walked
  simp only [List.length_nil, Nat.zero_add] at fits stops
  rw [whole]
  exact ⟨length, fun k => fits k (Nat.zero_le k), stops⟩

/-- A plan by its three outcomes (R78 to R81). -/
theorem planPart_cases (image : List Dots) (strike : Nat) (d : PassDirection) (first last : Nat) (heat : List Nat) :
    let columns := travel d first last
    (planPart image strike d first last heat = .segment .full columns.length ∧ adjacent image first last = false ∧
        walk image strike .full 1 columns heat = columns.length) ∨
      ((adjacent image first last = true ∨ walk image strike .full 1 columns heat < columns.length) ∧
        ((walk image strike .half 1 columns heat = 0 ∧ planPart image strike d first last heat = .dwell) ∨
          (1 ≤ walk image strike .half 1 columns heat ∧
            planPart image strike d first last heat = .segment .half (walk image strike .half 1 columns heat)))) := by
  intro columns
  have length := (walk_whole image strike .full columns heat).1
  unfold planPart
  dsimp only
  split
  case isTrue whole =>
    rw [Bool.and_eq_true, Bool.not_eq_true', beq_iff_eq] at whole
    exact .inl ⟨rfl, whole⟩
  case isFalse whole =>
    rw [Bool.and_eq_true, Bool.not_eq_true', beq_iff_eq, not_and_or, Bool.not_eq_false] at whole
    refine .inr ⟨whole.imp_right length.lt_of_ne, ?_⟩
    split
    next stuck => exact .inl ⟨stuck, rfl⟩
    next n runs => exact .inr ⟨Nat.one_le_iff_ne_zero.2 runs, rfl⟩

/-- A part that FULL does not fit has a column (R78, R79). -/
theorem nonempty_of_refused {image : List Dots} {first last n : Nat} {d : PassDirection}
    (refused : adjacent image first last = true ∨ n < (travel d first last).length) : 0 < (travel d first last).length := by
  rcases refused with joined | stopped
  case inr => exact Nat.zero_lt_of_lt stopped
  case inl =>
    obtain ⟨i, low, high, _⟩ := (adjacent_iff image first last).1 joined
    have length : (travel d first last).length = last + 1 - first := by
      cases d <;> rw [travel, List.length_map, List.length_range]
    omega

/-- Settles O24: by the outcomes of a plan, with the walk behind each. -/
theorem plansAreAffordable : Obligations.PlansAreAffordable := by
  intro image strike d first last heat columns fits joined
  obtain ⟨_, fullFits, fullStops⟩ := walk_whole image strike .full columns heat
  obtain ⟨halfLength, halfFits, halfStops⟩ := walk_whole image strike .half columns heat
  have notFull : adjacent image first last = true ∨ walk image strike .full 1 columns heat < columns.length →
      joined ∨ ∃ k < columns.length, ¬ fits .full k := by
    refine Or.imp (adjacent_iff image first last).1 fun stopped => ⟨_, stopped, ?_⟩
    exact fun fit => Bool.false_ne_true (fit.symm.trans (fullStops stopped))
  have stopped {k : Nat} {v : Speed} (isShort : short strike (imagePins image (columns.getD k 0))
      (heatAt image strike v columns heat k) = true) : ¬ fits v k :=
    fun fit => Bool.false_ne_true (fit.symm.trans isShort)
  rcases planPart_cases image strike d first last heat with ⟨plan, alone, whole⟩ | ⟨refused, ⟨stuck, plan⟩ | ⟨runs, plan⟩⟩
  case inl =>
    rw [plan]
    refine ⟨?_, nofun, nofun, nofun⟩
    rintro n ⟨⟩
    refine ⟨rfl, fun j => Bool.false_ne_true (alone.symm.trans ((adjacent_iff image first last).2 j)), fun k inside => ?_⟩
    exact fullFits k (whole.symm ▸ inside)
  case inr.inl =>
    have nonempty : 0 < columns.length := nonempty_of_refused refused
    rw [plan]
    refine ⟨nofun, nofun, nofun, fun _ => ⟨List.ne_nil_of_length_pos nonempty, stopped ?_, notFull refused⟩⟩
    rw [stuck] at halfStops
    exact halfStops nonempty
  case inr.inr =>
    rw [plan]
    refine ⟨nofun, ?_, nofun, nofun⟩
    rintro n ⟨⟩
    exact ⟨runs, halfLength, halfFits, fun short => stopped (halfStops short), notFull refused⟩

end Sys2Proof.Machine
end

section
/-! SUPPORT. The queries (01, R16; 02, R44, R45; 04, R88; 05, R113; 07, R131; 08, R171): the bytes each returns, and the proofs
of O25 and O26. -/

namespace Sys2Proof.Machine

/-! ## Bytes of a mark and of an optional value (R190) -/

/-- The byte of an optional number: 0xFF for an absent one. -/
theorem optionalByte_map (x : Option Nat) :
    optionalByte (x.map byteOf) = match x with | some n => byteOf n | none => 0xFF := by
  cases x <;> rfl

/-- The two bytes of an optional number: 0xFFFF for an absent one. -/
theorem optionalHalf_eq (x : Option Nat) :
    optionalHalf x = match x with | some n => [byteOf (n / 256), byteOf n] | none => [0xFF, 0xFF] := by
  cases x <;> rfl

/-! ## FORM_QUERY -/

/-- The 17 bytes of a form record (R16). -/
theorem FormRecord.bytes_eq (form : Byte) (r : FormRecord) :
    r.bytes form.toNat =
      [form, if r.defined = true then 1 else 0, byteOf r.lines, byteOf r.pitch, byteOf (r.lines * r.pitch / 256),
        byteOf (r.lines * r.pitch), byteOf r.top, byteOf r.bottom, byteOf r.copies, byteOf ((r.copies + 1) / 2),
        r.direction.byte, r.policy.byte, r.lock.byte, byteOf (r.issueCount / 256), byteOf r.issueCount,
        byteOf r.fieldCount, if r.inFlight = true then 1 else 0] := by
  rw [FormRecord.bytes, byteOf_toNat]
  rfl

/-! ## FIELD_QUERY -/

/-- FIELD_QUERY as a list of tests and the report of the field found (R44). -/
theorem fieldQuery_checked (b : Blocks) (form field : Byte) :
    b.fieldQuery form field =
      b.checked [(badKey form field, .badValue), (!(b.form form.toNat).defined, .noForm)]
        ((b.field form.toNat field.toNat).elim (b.refuse .noField) fun r => b.report .ok r.bytes) := by
  unfold Blocks.fieldQuery
  cases b.field form.toNat field.toNat <;> rfl

/-- The bytes of the field found are headed by the ids asked for (R44). -/
theorem FieldRecord.bytes_found {b : Blocks} {form field : Byte} {r : FieldRecord}
    (found : b.field form.toNat field.toNat = some r) :
    r.bytes =
      [form, field] ++ [r.body.kindByte] ++ [byteOf r.line, byteOf r.column, byteOf r.width] ++
        (r.body.charBytes ++ [Bool.byte r.body.guarded]) ++
        [byteOf (r.revision.toNat / 256), byteOf r.revision.toNat] ++ r.body.counterBytes ++
        ([r.body.styleByte, r.body.targetByte] ++ r.body.contentBytes) := by
  obtain ⟨_, itsForm, itsField⟩ := Blocks.field_some found
  rw [FieldRecord.bytes, itsForm, itsField, byteOf_toNat, byteOf_toNat]
  simp only [halfBytes, List.cons_append, List.nil_append, List.append_assoc]

/-! ## FIELD_LIST -/

/-- The ids listed are those of the pool's fields of the form (R45). -/
theorem Blocks.listedIds_eq (b : Blocks) (f start : Nat) :
    b.listedIds f start = (((b.pool.filter fun r => decide (r.form = f)).drop start).take 16).map (·.field) := by
  unfold Blocks.listedIds Blocks.fieldsOf
  simp only [beq_eq_decide]

/-- BAD_VALUE of FIELD_LIST (R45). -/
theorem badStart_iff (form start : Byte) :
    (badForm form || decide (Config.fieldsPerForm ≤ start.toNat)) = true ↔
      ¬ (form.toNat ≤ 7 ∧ start.toNat ≤ 39) := by
  rw [Bool.or_eq_true, badForm_iff, decide_eq_true_iff]
  unfold Config.fieldsPerForm
  omega

/-- Settles O25: the tests of each query, and the bytes of the record it reports. -/
theorem formAndFieldQueriesReturnTheRecords : Obligations.FormAndFieldQueriesReturnTheRecords := by
  refine fun s ready => ⟨fun form => ?formQuery, fun form field => ?fieldQuery, fun form start => ?fieldList⟩
  case formQuery =>
    refine ⟨_, rfl, ready.tested rfl (.cons ⟨badForm_iff form, rfl⟩ .nil) fun _ done => ?_⟩
    exact answered_payload (ready.answers (c := .formQuery) (act := fun b => b.formQuery form) done)
      (FormRecord.bytes_eq form _).symm
  case fieldQuery =>
    refine ⟨_, rfl, ready.tested_lookup (fieldQuery_checked s.blocks form field) ?tests fun r found done => ?found⟩
    case tests =>
      exact .cons ⟨badKey_iff _ _, rfl⟩ (.cons ⟨undefined_iff _, rfl⟩ (.cons ⟨isNone_iff _, rfl⟩ .nil))
    case found =>
      have answered := ready.answers (c := .fieldQuery) (act := fun b => b.fieldQuery form field) done
      have bytes := FieldRecord.bytes_found found
      refine ⟨fun c g l p body => ?text, fun c p v body => ?counter, fun y body => ?rule, fun c n body => ?link⟩
      all_goals
        refine answered_payload answered (Eq.trans ?_ bytes.symm)
        rw [body]
      case text => cases l <;> cases p <;> rfl
      case counter => cases v <;> rfl
      case rule => rfl
      case link => rfl
  case fieldList =>
    refine ⟨_, rfl, ready.tested rfl ?tests fun _ done => ?accepted⟩
    case tests => exact .cons ⟨badStart_iff _ _, rfl⟩ (.cons ⟨undefined_iff _, rfl⟩ .nil)
    case accepted =>
      have answered := ready.answers (c := .fieldList) (act := fun b => b.fieldList form start) done
      refine answered_payload answered ?_
      rw [← Blocks.listedIds_eq]
      rfl

/-! ## The queries of the other blocks -/

/-- The nine bytes of the motion that moves a stock, zeros where none does (R113). -/
theorem Paper.motionBytes_eq (p : Paper) (k : Tractor) :
    p.motionBytes k =
      match p.motion with
      | some m =>
        if m.tractor = k then
          [1, m.kind.byte, m.direction.byte, m.requester.byte, byteOf m.phase, byteOf (m.done / 256), byteOf m.done,
            byteOf (m.toGo / 256), byteOf m.toGo]
        else List.replicate 9 0
      | none => List.replicate 9 0 := by
  unfold Paper.motionBytes
  cases p.motion <;> rfl

/-- STOCK_QUERY of a tractor (R113). -/
theorem stockQuery_named (b : Blocks) (k : Tractor) : b.stockQuery k.byte = b.report .ok (b.stockBytes k) := by
  rw [Blocks.stockQuery, tractor_ofByte_byte]

/-- STOCK_QUERY of a byte that names no tractor (R113). -/
theorem stockQuery_unnamed (b : Blocks) {tractor : Byte} (high : 1 < tractor.toNat) :
    b.stockQuery tractor = b.refuse .badValue := by
  rw [Blocks.stockQuery, tractor_ofByte_none tractor high]

/-- The 19 bytes of a stock record (R113). -/
theorem Blocks.stockBytes_eq (b : Blocks) (k : Tractor) :
    let word := fun (v : Option Nat) => match v with | some n => [byteOf (n / 256), byteOf n] | none => [0xFF, 0xFF]
    b.stockBytes k =
      [k.byte, (b.paper.stock k).state.byte, match (b.paper.stock k).form with | some f => byteOf f | none => 0xFF] ++
        word (b.paper.stock k).offset ++ word (b.paper.stock k).endRemaining ++
        [if b.paper.sensor k = true then 1 else 0, if b.coverOpen = true then 1 else 0, b.paper.feedMotor.byte] ++
        b.paper.motionBytes k := by
  rw [Blocks.stockBytes]
  dsimp only
  rw [optionalByte_map, optionalHalf_eq, optionalHalf_eq]
  rfl

/-- The 30 bytes of the head (R88). -/
theorem Head.bytes_eq (h : Head) :
    h.bytes =
      [byteOf (h.carriage.coordinate / 256), byteOf h.carriage.coordinate, if h.carriage.homed = true then 1 else 0,
          h.carriage.motor.byte, h.carriage.activity.byte, h.carriage.next.byte,
          match h.plan.line with | some n => byteOf n | none => 0xFF, h.plan.direction.byte, h.plan.speed.byte,
          byteOf (h.plan.segments / 256), byteOf h.plan.segments, if h.plan.dwellTaken = true then 1 else 0] ++
        h.heat.map byteOf := by
  rw [Head.bytes, optionalByte_map]
  rfl

/-- The 12 bytes of an order record (R131). -/
theorem Order.bytes_eq (o : Order) :
    o.bytes =
      [byteOf o.tag, byteOf o.form, byteOf o.requested, byteOf o.done, byteOf o.voided, o.policy.byte, o.state.byte,
        match o.halt with | some h => h.byte | none => 0xFF, if o.cancelPending = true then 1 else 0,
        byteOf (o.admission / 256), byteOf o.admission, if o.reported = true then 1 else 0] := by
  rw [Order.bytes]
  cases o.halt <;> rfl

/-- ORDER_QUERY of a tag other than 0 (R131). -/
theorem orderQuery_checked (b : Blocks) {tag : Byte} (named : ¬ tag = 0) :
    b.orderQuery tag =
      b.checked [] ((b.orders.find tag.toNat).elim (b.refuse .noOrder) fun o => b.report .ok o.bytes) := by
  rw [Blocks.orderQuery, if_neg named]
  cases b.orders.find tag.toNat <;> rfl

/-- Settles O26: the bytes of the record each query reports. -/
theorem stateQueriesReturnTheRecords : Obligations.StateQueriesReturnTheRecords := by
  refine fun s ready => ⟨⟨⟨_, rfl, ?identity⟩, ?broadcast⟩, fun tractor high => ⟨_, rfl, ?badStock⟩,
    fun k => ⟨_, rfl, ?stock⟩, ⟨_, rfl, ?head⟩, fun tag => ⟨_, rfl, fun all => ?list, fun one => ?order⟩⟩
  case identity => exact ready.answers (c := .readIdentity) (act := fun b => b.readIdentity) rfl
  case broadcast => exact exec_row_broadcast_of_reading ready (c := .readIdentity) (p := []) rfl rfl
  case badStock => exact ready.refused (stockQuery_unnamed s.blocks high)
  case stock =>
    have bytes := s.blocks.stockBytes_eq k
    rw [Paper.motionBytes_eq] at bytes
    exact answered_payload
      (ready.answers (c := .stockQuery) (act := fun b => b.stockQuery k.byte) (stockQuery_named s.blocks k)) bytes.symm
  case head => exact answered_payload (ready.answers (c := .headQuery) (act := fun b => b.headQuery) rfl) (Head.bytes_eq _).symm
  case list =>
    have listed : s.blocks.orderQuery tag = s.blocks.report .ok s.blocks.orders.listBytes := if_pos all
    exact ready.answers (c := .orderQuery) (act := fun b => b.orderQuery tag) listed
  case order =>
    refine ready.tested_lookup (orderQuery_checked s.blocks one) (.cons ⟨isNone_iff _, rfl⟩ .nil) fun o _ done => ?_
    exact answered_payload (ready.answers (c := .orderQuery) (act := fun b => b.orderQuery tag) done)
      (Order.bytes_eq o).symm

end Sys2Proof.Machine
end

section
/-! SUPPORT. The host motion commands STOCK_PARK, STOCK_SELECT, FEED, PRESENT and RETRACT (05, R98, R99, R105, R108 to R112): the
motion each begins, and the proofs of O29 and O30. -/

namespace Sys2Proof.Machine

/-! ## A host motion that begins -/

/-- A host motion is accepted, and the motion of its course is in flight (R97, R104). -/
theorem State.Ready.startsHost {s : State} (ready : s.Ready) {c : Command} {act : Blocks → Answer} {k : Tractor}
    {kind : MotionKind} {n phase : Nat} (done : act s.blocks = s.blocks.startHost k kind n phase) {course : Course}
    (taken : courseOf k (s.blocks.paper.stock k) (s.blocks.stockLength k) kind n = course) :
    s.Answered (s.deliver .addressed c act) c .accepted []
      (s.blocks.inMotion k course.kind course.direction course.steps .terminal phase) :=
  answered_blocks (ready.answers done) (s.blocks.beginMotion_inMotion k kind n .terminal phase taken).symm

/-- The two tests of every host motion command (R105). -/
theorem hostTests_named (b : Blocks) :
    List.Forall₂ (fun (x : Bool × Result) (p : Prop × Result) => (x.1 = true ↔ p.1) ∧ x.2 = p.2) b.hostTests
      [(b.hostBusy, .busy), (b.coverOpen = true, .coverOpen)] :=
  .cons ⟨hostBusy_iff b, rfl⟩ (.cons ⟨Iff.rfl, rfl⟩ .nil)

/-! ## STOCK_PARK and STOCK_SELECT -/

/-- STOCK_PARK of a byte that names no tractor (R108). -/
theorem stockPark_unnamed (b : Blocks) {tractor : Byte} (high : 1 < tractor.toNat) :
    b.stockPark tractor = b.refuse .badValue := by
  rw [Blocks.stockPark, tractor_ofByte_none tractor high]

/-- STOCK_PARK of a tractor (R108). -/
theorem stockPark_named (b : Blocks) (k : Tractor) :
    b.stockPark k.byte =
      b.checked
        (b.hostTests ++
          [(!((b.paper.stock k).state == .parked || (b.paper.stock k).state == .atPrint ||
              (b.paper.stock k).state == .presented), .wrongState)])
        (if (b.paper.stock k).state = .parked then b.answer .ok else b.startHost k .park 0 0) := by
  rw [Blocks.stockPark, tractor_ofByte_byte]

/-- STOCK_SELECT of a byte that names no tractor (R109). -/
theorem stockSelect_unnamed (b : Blocks) {tractor : Byte} (high : 1 < tractor.toNat) :
    b.stockSelect tractor = b.refuse .badValue := by
  rw [Blocks.stockSelect, tractor_ofByte_none tractor high]

/-- STOCK_SELECT of a tractor (R109). -/
theorem stockSelect_named (b : Blocks) (k : Tractor) :
    b.stockSelect k.byte =
      b.checked
        (b.hostTests ++
          [(!((b.paper.stock k).state == .parked || (b.paper.stock k).state == .atPrint) ||
              (b.paper.stock k.other).state == .lost, .wrongState)])
        (if (b.paper.stock k).state = .atPrint then b.answer .ok
         else if (b.paper.stock k.other).state = .atPrint ∨ (b.paper.stock k.other).state = .presented then
           b.startHost k.other .park 0 1
         else b.startHost k .advance 0 2) := by
  rw [Blocks.stockSelect, tractor_ofByte_byte]

/-- The WRONG_STATE test of STOCK_PARK (R108). -/
theorem unparkable_iff (x : StockState) :
    (!(x == .parked || x == .atPrint || x == .presented)) = true ↔
      ¬ (x = .parked ∨ x = .atPrint ∨ x = .presented) := by
  simp only [Bool.not_eq_true', ← Bool.not_eq_true, Bool.or_eq_true, beq_iff_eq, or_assoc]

/-- The WRONG_STATE test of STOCK_SELECT (R109). -/
theorem unselectable_iff (x y : StockState) :
    (!(x == .parked || x == .atPrint) || y == .lost) = true ↔ ¬ (x = .parked ∨ x = .atPrint) ∨ y = .lost := by
  simp only [Bool.or_eq_true, Bool.not_eq_true', ← Bool.not_eq_true, beq_iff_eq]

/-- Settles O29: by the state of the stocks, with the course of the motion that begins. -/
theorem stocksAreParkedAndSelected : Obligations.StocksAreParkedAndSelected := by
  refine ⟨⟨fun s tractor ready high => ⟨_, rfl, ready.refused (stockPark_unnamed _ high)⟩, fun s k ready => ?park⟩,
    fun s tractor ready high => ⟨_, rfl, ready.refused (stockSelect_unnamed _ high)⟩, fun s k ready => ?select⟩
  case park =>
    refine ⟨_, rfl, ready.tested (stockPark_named s.blocks k) ?tests fun _ done => ⟨fun parked => ?stays, fun away => ?moves⟩⟩
    case tests => exact List.rel_append (hostTests_named _) (.cons ⟨unparkable_iff _, rfl⟩ .nil)
    case stays =>
      rw [if_pos parked] at done
      exact ready.answers (c := .stockPark) (act := fun b => b.stockPark k.byte) done
    case moves =>
      rw [if_neg away] at done
      exact ⟨fun whole => ready.startsHost done (course_park_none whole),
        fun r left => ready.startsHost done (course_park_some left)⟩
  case select =>
    refine ⟨_, rfl, ready.tested (stockSelect_named s.blocks k) ?tests
      fun _ done => ⟨fun atPrint => ?stays, fun away => ⟨fun blocked => ?clears, fun clear => ?advances⟩⟩⟩
    case tests => exact List.rel_append (hostTests_named _) (.cons ⟨unselectable_iff _ _, rfl⟩ .nil)
    case stays =>
      rw [if_pos atPrint] at done
      exact ready.answers (c := .stockSelect) (act := fun b => b.stockSelect k.byte) done
    case clears =>
      rw [if_neg away, if_pos blocked] at done
      exact ⟨fun whole => ready.startsHost done (course_park_none whole),
        fun r left => ready.startsHost done (course_park_some left)⟩
    case advances =>
      rw [if_neg away, if_neg clear] at done
      have far : 0 < k.distance := by cases k <;> decide
      exact ⟨fun left => ready.startsHost done (course_forward (.inl ⟨rfl, rfl⟩) left),
        fun out => ready.startsHost done (course_out (.inl ⟨rfl, rfl⟩) out far)⟩

/-! ## FEED, PRESENT and RETRACT -/

/-- The need of PRESENT (R98). -/
theorem meetsNeed_present (p : Paper) (k : Tractor) :
    p.meetsNeed k .present = true ↔ (p.stock k).state = .atPrint ∧ (p.stock k).offset = some 0 := by
  rw [Paper.meetsNeed, Bool.and_eq_true, beq_iff_eq, beq_iff_eq]

/-- Settles O30: the tests of a motion of the stock in the path, and the course of each. -/
theorem pathMotionsMoveTheStockInThePath : Obligations.PathMotionsMoveTheStockInThePath := by
  refine fun s ready => ⟨fun count => ⟨_, rfl, ?feed⟩, ⟨_, rfl, ?present⟩, ⟨_, rfl, ?retract⟩⟩
  case feed =>
    refine ready.tested (act := fun b => b.feed count) (named := [(3168 < count.toNat, .badValue)]) rfl
      (.cons ⟨decide_eq_true_iff, rfl⟩ .nil) fun _ done => ?_
    by_cases top : count = 0
    case pos =>
      rw [if_pos top] at done
      refine pathMotion_tested ready done (need := fun x => x.state = .atPrint) (fun k => beq_iff_eq) fun k begins => ?_
      rw [if_pos top]
      exact ⟨fun left => ready.startsHost begins (course_forward (.inr (.inr (.inl ⟨rfl, rfl⟩))) left),
        fun out ahead => ready.startsHost begins (course_out (.inr (.inr (.inl ⟨rfl, rfl⟩))) out (ahead top))⟩
    case neg =>
      rw [if_neg top] at done
      refine pathMotion_tested ready done (need := fun x => x.state = .atPrint) (fun k => beq_iff_eq) fun k begins => ?_
      rw [if_neg top]
      have ahead : 0 < count.toNat := Nat.pos_of_ne_zero fun zero => top (BitVec.eq_of_toNat_eq zero)
      exact ⟨fun left => ready.startsHost begins (course_forward (.inr (.inl ⟨rfl, rfl⟩)) left),
        fun out _ => ready.startsHost begins (course_out (.inr (.inl ⟨rfl, rfl⟩)) out ahead)⟩
  case present =>
    refine pathMotion_tested ready (act := fun b => b.presentCommand) rfl
      (need := fun x => x.state = .atPrint ∧ x.offset = some 0) (meetsNeed_present _) fun k begins => ?_
    exact ⟨fun left => ready.startsHost begins (course_forward (.inr (.inr (.inr ⟨rfl, rfl⟩))) left),
      fun out => ready.startsHost begins (course_out (.inr (.inr (.inr ⟨rfl, rfl⟩))) out (by decide))⟩
  case retract =>
    refine pathMotion_tested ready (act := fun b => b.retract) rfl (need := fun x => x.state = .presented)
      (fun k => beq_iff_eq) fun k begins => ?_
    exact ⟨fun stays => ready.startsHost begins (course_retract_stays stays),
      fun r left passes => ready.startsHost begins (course_retract_passes left passes)⟩

end Sys2Proof.Machine
end

section
/-! SUPPORT. ORDER_ISSUE, ORDER_AMEND, ORDER_HOLD and ORDER_RESUME (06, R117, R121, R125 to R129, R135): their tests as the
statements name them, what follows an accepted one, and the proofs of O31, O32 and O33. -/

namespace Sys2Proof.Machine

/-! ## What follows an accepted command -/

/-- The tests of a command refuse: none of their results accepts (R192). -/
def refusals (tests : List (Bool × Result)) : Bool := tests.all fun test => decide (0x10 ≤ test.2.code.toNat)

/-- What follows a tested command follows its acceptance. -/
theorem checked_then (b : Blocks) {tests : List (Bool × Result)} (go : Answer) (g : Blocks → Blocks)
    (refuses : refusals tests = true) : (b.checked tests go).andThen g = b.checked tests (go.andThen g) := by
  refine checked_andThen b tests go g fun test mem => Nat.not_lt.2 ?_
  exact of_decide_eq_true (List.all_eq_true.1 refuses test mem)

/-- What follows a command that looks a record up follows the part behind the look-up. -/
theorem lookup_then {α : Type} (b : Blocks) {tests : List (Bool × Result)} (x : Option α) {found next : α → Answer}
    (g : Blocks → Blocks) (refuses : refusals tests = true) (follows : ∀ a, (found a).andThen g = next a) :
    (b.checked tests (x.elim (b.refuse .noOrder) found)).andThen g =
      b.checked tests (x.elim (b.refuse .noOrder) next) := by
  rw [checked_then b _ g refuses]
  cases x
  case none => exact congrArg (b.checked tests) (andThen_refuse b g .noOrder (by decide))
  case some a => exact congrArg (b.checked tests) (follows a)

/-- The tag 0 names no order (R125). -/
theorem noTag_iff (tag : Byte) : (tag == 0) = true ↔ tag = 0 := beq_iff_eq

/-- A tag is at least 1 unless it is 0. -/
theorem one_le_tag_iff (tag : Byte) : 1 ≤ tag.toNat ↔ ¬ tag = 0 := by
  rw [Nat.one_le_iff_ne_zero, ne_eq, ← BitVec.toNat_inj]
  rfl

/-! ## ORDER_HOLD and ORDER_RESUME -/

/-- ORDER_HOLD as tests around the look-up of the record (R128). -/
theorem orderHold_checked (b : Blocks) (tag : Byte) :
    b.orderHold tag =
      b.checked [(tag == 0, .badValue)]
        ((b.orders.find tag.toNat).elim (b.refuse .noOrder) fun o =>
          b.checked [(!(o.state == .queued), .wrongState)]
            ((b.withOrders (b.orders.update tag.toNat fun x => { x with state := .held })).answer .ok)) := by
  unfold Blocks.orderHold
  cases b.orders.find tag.toNat <;> rfl

/-- ORDER_RESUME on the table as tests around the look-up of the record (R129). -/
theorem orderResume_checked (b : Blocks) (tag : Byte) :
    b.orderResume tag =
      b.checked [(tag == 0, .badValue)]
        ((b.orders.find tag.toNat).elim (b.refuse .noOrder) fun o =>
          b.checked [(!(o.state == .held || o.state == .halted), .wrongState)]
            ((b.withOrders
              (b.orders.update tag.toNat fun x => { x with state := .queued, halt := none })).answer .ok)) := by
  unfold Blocks.orderResume
  cases b.orders.find tag.toNat <;> rfl

/-- ORDER_RESUME with what follows of itself (R129, R135). -/
theorem takeOrderResume_checked (b : Blocks) (tag : Byte) :
    b.takeOrderResume tag =
      b.checked [(tag == 0, .badValue)]
        ((b.orders.find tag.toNat).elim (b.refuse .noOrder) fun o =>
          b.checked [(!(o.state == .held || o.state == .halted), .wrongState)]
            { result := .ok
              payload := []
              blocks :=
                (b.withOrders
                  (b.orders.update tag.toNat fun x => { x with state := .queued, halt := none })).settle }) := by
  rw [Blocks.takeOrderResume, orderResume_checked]
  exact lookup_then b _ _ rfl fun o => checked_then b _ _ rfl

/-- Settles O33: the tests of R128 and of R129, and the one record each command writes. -/
theorem ordersAreHeldAndResumed : Obligations.OrdersAreHeldAndResumed := by
  refine ⟨fun s tag ready => ⟨_, rfl, ?hold⟩, fun s tag ready => ⟨_, rfl, ?resume⟩⟩
  case hold =>
    refine ready.tested_lookup (orderHold_checked s.blocks tag)
      (.cons ⟨noTag_iff tag, rfl⟩ (.cons ⟨isNone_iff _, rfl⟩ .nil)) fun o _ found => ?_
    refine ready.tested found (.cons ⟨?_, rfl⟩ .nil) fun _ done =>
      ready.answers (c := .orderHold) (act := fun b => b.orderHold tag) done
    rw [not_mark_iff, beq_eq_false_iff_ne]
  case resume =>
    refine ready.tested_lookup (takeOrderResume_checked s.blocks tag)
      (.cons ⟨noTag_iff tag, rfl⟩ (.cons ⟨isNone_iff _, rfl⟩ .nil)) fun o _ found => ?_
    refine ready.tested found (.cons ⟨?_, rfl⟩ .nil) fun _ done => answered_settled ready done
    rw [not_mark_iff, ← Bool.not_eq_true, Bool.or_eq_true, beq_iff_eq, beq_iff_eq]

/-! ## ORDER_AMEND -/

/-- ORDER_AMEND with what follows of itself, as tests around the look-up of the record (R127). -/
theorem takeOrderAmend_checked (b : Blocks) (tag requested : Byte) :
    b.takeOrderAmend tag requested =
      b.checked [(tag == 0 || decide (requested.toNat < 1) || decide (250 < requested.toNat), .badValue)]
        ((b.orders.find tag.toNat).elim (b.refuse .noOrder) fun o =>
          b.checked [(o.state.closed, .wrongState), (decide (requested.toNat < b.amendFloor o), .badValue)]
            { result := .ok
              payload := []
              blocks := (b.withOrders (b.orders.update tag.toNat fun x => x.amended requested.toNat)).settle }) := by
  have table : b.orderAmend tag requested =
      b.checked [(tag == 0 || decide (requested.toNat < 1) || decide (250 < requested.toNat), .badValue)]
        ((b.orders.find tag.toNat).elim (b.refuse .noOrder) fun o =>
          b.checked [(o.state.closed, .wrongState), (decide (requested.toNat < b.amendFloor o), .badValue)]
            ((b.withOrders (b.orders.update tag.toNat fun x => x.amended requested.toNat)).answer .ok)) := by
    unfold Blocks.orderAmend
    cases b.orders.find tag.toNat <;> rfl
  rw [Blocks.takeOrderAmend, table]
  exact lookup_then b _ _ rfl fun o => checked_then b _ _ rfl

/-- The values ORDER_AMEND refuses (R125). -/
theorem badCount_iff (tag requested : Byte) :
    (tag == 0 || decide (requested.toNat < 1) || decide (250 < requested.toNat)) = true ↔
      ¬ (1 ≤ tag.toNat ∧ 1 ≤ requested.toNat ∧ requested.toNat ≤ 250) := by
  rw [Bool.or_eq_true, Bool.or_eq_true, noTag_iff, decide_eq_true_iff, decide_eq_true_iff, one_le_tag_iff,
    not_and_or, not_and_or, not_not, Nat.not_le, Nat.not_le, or_assoc]

/-- The floor of an amended count (R127). -/
theorem amendFloor_eq (b : Blocks) (o : Order) :
    b.amendFloor o =
      if o.state = .running ∧ (b.form o.form).inFlight = true then o.done + 1 else o.done := by
  rw [Blocks.amendFloor, Blocks.ticketOf]
  refine if_congr ?_ rfl rfl
  rw [Bool.and_eq_true, beq_iff_eq]

/-- The record of an accepted ORDER_AMEND, for one that is not closed (R127). -/
theorem Order.amended_eq {o : Order} (isOpen : o.state.closed = false) (n : Nat) :
    o.amended n =
      if ¬ o.state = .running ∧ n = o.done then
        { o with requested := n, state := .done, halt := none, reported := false }
      else { o with requested := n } := by
  unfold Order.amended
  cases state : o.state <;> simp_all [OrderState.closed]

/-- Settles O32: the tests of R127, and the one record that is written. -/
theorem orderAmendReplacesTheCount : Obligations.OrderAmendReplacesTheCount := by
  intro s tag requested ready
  refine ⟨_, rfl, ready.tested_lookup (takeOrderAmend_checked s.blocks tag requested)
    (.cons ⟨badCount_iff tag requested, rfl⟩ (.cons ⟨isNone_iff _, rfl⟩ .nil)) fun o held found => ?_⟩
  refine ready.tested found ?tests fun passed done ok => ?accepted
  case tests => exact .cons ⟨closed_iff o, rfl⟩ (.cons ⟨by rw [decide_eq_true_iff, amendFloor_eq], rfl⟩ .nil)
  case accepted =>
    have isOpen : o.state.closed = false := passed _ List.mem_cons_self
    rw [update_one ok held, Order.amended_eq isOpen] at done
    exact answered_settled ready done

end Sys2Proof.Machine
end

section
/-! SUPPORT. ORDER_ISSUE (06, R117, R121, R125, R126) and the order that starts at once (R122, R135 to R137): the proof of O31. -/

namespace Sys2Proof.Machine

/-! ## The values an ORDER_ISSUE carries -/

/-- The present policy a legal byte names: the form's default for 0xFF (R125, R190). -/
def policyNamed (policy : Byte) (default : Policy) : Policy :=
  if policy = 0 then .none else if policy = 1 then .last else if policy = 2 then .each else default

/-- A byte carries a policy where it names one or is 0xFF (R125, R190). -/
theorem carriedPolicy_some {policy : Byte} (legal : policy.toNat ≤ 2 ∨ policy = 0xFF) (default : Policy) :
    ∃ carried, carriedPolicy policy = some carried ∧ carried.getD default = policyNamed policy default := by
  unfold carriedPolicy
  by_cases mark : policy = 0xFF
  case pos =>
    subst mark
    exact ⟨none, rfl, rfl⟩
  case neg =>
    have named : policy.toNat ≤ 2 := legal.resolve_right mark
    rw [if_neg mark, policy_ofByte, if_pos named]
    refine ⟨_, rfl, ?_⟩
    have three : policy = 0 ∨ policy = 1 ∨ policy = 2 := by
      bv_omega
    rcases three with rfl | rfl | rfl <;> rfl

/-- Any other byte carries none (R125, R190). -/
theorem carriedPolicy_none {policy : Byte} (illegal : ¬ (policy.toNat ≤ 2 ∨ policy = 0xFF)) :
    carriedPolicy policy = none := by
  obtain ⟨high, other⟩ := not_or.1 illegal
  rw [carriedPolicy, if_neg other, policy_ofByte, if_neg high]
  rfl

/-- The values ORDER_ISSUE takes (R125). -/
def issuable (tag form requested policy : Byte) : Prop :=
  1 ≤ tag.toNat ∧ form.toNat ≤ 7 ∧ 1 ≤ requested.toNat ∧ requested.toNat ≤ 250 ∧ (policy.toNat ≤ 2 ∨ policy = 0xFF)

/-- ORDER_ISSUE with what follows of itself, as a list of tests (R126). -/
theorem takeOrderIssue_checked (b : Blocks) (tag form requested policy : Byte)
    [Decidable (issuable tag form requested policy)] :
    b.takeOrderIssue tag form requested policy =
      b.checked
        [(!decide (issuable tag form requested policy), .badValue), (!(b.form form.toNat).defined, .noForm),
         ((b.orders.find tag.toNat).isSome, .exists), (decide (Config.orderSlots ≤ b.orders.records.length), .full)]
        { result := .accepted
          payload := []
          blocks :=
            (b.withOrders
              (b.orders.enter tag.toNat form.toNat requested.toNat
                (policyNamed policy (b.form form.toNat).policy))).settle } := by
  rw [Blocks.takeOrderIssue, Blocks.orderIssue]
  by_cases named : policy.toNat ≤ 2 ∨ policy = 0xFF
  case neg =>
    have illegal : ¬ issuable tag form requested policy := fun legal => named legal.2.2.2.2
    rw [carriedPolicy_none named, decide_eq_false illegal]
    exact andThen_refuse b _ .badValue (by decide)
  case pos =>
    obtain ⟨carried, carries, policies⟩ := carriedPolicy_some named (b.form form.toNat).policy
    have badValue : (tag == 0 || badForm form || decide (requested.toNat < 1) || decide (250 < requested.toNat)) =
        !decide (issuable tag form requested policy) := by
      rw [Bool.eq_iff_iff, illegal_iff, Bool.or_eq_true, Bool.or_eq_true, Bool.or_eq_true, noTag_iff, badForm_iff,
        decide_eq_true_iff, decide_eq_true_iff, issuable, one_le_tag_iff, and_iff_left named]
      rw [not_and_or, not_and_or, not_and_or, not_not, Nat.not_le, Nat.not_le, Nat.not_le, or_assoc, or_assoc]
    rw [carries, ← policies, ← badValue]
    exact checked_then b _ _ rfl

/-! ## Admission -/

/-- The record an ORDER_ISSUE admits (R115, R126). -/
def admitted (tag form requested number : Nat) (policy : Policy) : Order where
  tag := tag
  form := form
  requested := requested
  done := 0
  voided := 0
  policy := policy
  state := .queued
  halt := none
  cancelPending := false
  admission := number
  reported := true

/-- The table after an admission: renumbered first where the next number is 65,535 (R117, R126). -/
theorem OrderTable.enter_eq (t : OrderTable) (tag form requested : Nat) (policy : Policy) :
    let kept := if t.next < 65535 then t.records else t.records.mapIdx fun i r => { r with admission := i + 1 }
    let number := if t.next < 65535 then t.next else t.records.length + 1
    t.enter tag form requested policy =
      { records := kept ++ [admitted tag form requested number policy], next := number + 1 } := by
  dsimp only
  unfold OrderTable.enter OrderTable.prepared
  by_cases room : t.next < 65535
  case pos =>
    have last : ¬ Config.lastAdmission ≤ t.next := Nat.not_le.2 room
    rw [if_neg last, if_pos room, if_pos room]
    rfl
  case neg =>
    have last : Config.lastAdmission ≤ t.next := Nat.not_lt.1 room
    rw [if_pos last, if_neg room, if_neg room, renumbered_mapIdx]
    rfl

/-! ## The order that starts at once -/

/-- A table in which no record waits for a start or is HALTED, and none has the tag. -/
def OrderTable.quiet (t : OrderTable) (tag : Nat) : Prop :=
  ∀ r ∈ t.records, ¬ r.tag = tag ∧ ¬ r.state = .queued ∧ ¬ r.state = .halted

/-- The record admitted last is the one that is chosen (R122). -/
theorem OrderTable.quiet.nextQueued {t : OrderTable} {o : Order} (quiet : t.quiet o.tag) (queued : o.state = .queued)
    (n : Nat) : OrderTable.nextQueued { records := t.records ++ [o], next := n } = some o := by
  have others : t.records.find? (fun r => r.state == .queued) = none :=
    List.find?_eq_none.2 fun r mem => mt beq_iff_eq.1 (quiet r mem).2.1
  rw [OrderTable.nextQueued, List.find?_append, others, Option.none_or, List.find?_singleton, queued]
  rfl

/-- None of its records is HALTED (R135). -/
theorem OrderTable.quiet.anyHalted {t : OrderTable} {o : Order} (quiet : t.quiet o.tag) (queued : o.state = .queued)
    (n : Nat) : OrderTable.anyHalted { records := t.records ++ [o], next := n } = false := by
  rw [OrderTable.anyHalted, List.any_append, Bool.or_eq_false_iff, List.any_eq_false]
  refine ⟨fun r mem => mt beq_iff_eq.1 (quiet r mem).2.2, ?_⟩
  rw [List.any_cons, queued]
  rfl

/-- An update of the record admitted last leaves the others. -/
theorem OrderTable.quiet.update {t : OrderTable} {o : Order} (quiet : t.quiet o.tag) (g : Order → Order) (n : Nat) :
    OrderTable.update { records := t.records ++ [o], next := n } o.tag g =
      { records := t.records ++ [g o], next := n } := by
  have others : (t.records.map fun r => if r.tag == o.tag then g r else r) = t.records := by
    refine (List.map_congr_left fun r mem => ?_).trans (List.map_id t.records)
    exact if_neg (mt beq_iff_eq.1 (quiet r mem).1)
  rw [OrderTable.update, List.map_append, others, List.map_singleton, beq_self_eq_true, if_pos rfl]

/-- The record admitted last is found under its tag. -/
theorem OrderTable.quiet.find {t : OrderTable} {tag : Nat} (quiet : t.quiet tag) {o : Order} (same : o.tag = tag) (n : Nat) :
    OrderTable.find { records := t.records ++ [o], next := n } tag = some o := by
  have others : t.records.find? (fun r => r.tag == tag) = none :=
    List.find?_eq_none.2 fun r mem => mt beq_iff_eq.1 (quiet r mem).1
  rw [OrderTable.find, List.find?_append, others, Option.none_or, List.find?_singleton, same, beq_self_eq_true,
    if_pos rfl]

end Sys2Proof.Machine
end

section
/-! SUPPORT. The staging of an order (07, R136, R137): its checks, the motion each state of the stocks asks for, and the proofs of
O37 and of O31, whose order is staged at once. -/

namespace Sys2Proof.Machine

/-! ## The checks -/

/-- No TERMINAL or TEAR motion is in flight (R98, R136). -/
theorem hostMotion_false {p : Paper} (own : ∀ m, p.motion = some m → m.requester = .issue) : p.hostMotion = false := by
  unfold Paper.hostMotion
  cases motion : p.motion with
  | none => rfl
  | some m =>
    dsimp only
    rw [own m motion]
    rfl

/-- A TERMINAL or TEAR motion is in flight (R98, R136). -/
theorem hostMotion_true {p : Paper} {m : Motion} (motion : p.motion = some m) (host : ¬ m.requester = .issue) :
    p.hostMotion = true := by
  unfold Paper.hostMotion
  rw [motion]
  dsimp only
  rw [not_mark_iff, beq_eq_false_iff_ne]
  exact host

/-- The checks wait for a TERMINAL or TEAR motion (R136). -/
theorem stagingChecks_waits {b : Blocks} {o : Order} (current : b.currentOrder = some o)
    (host : b.paper.hostMotion = true) : b.stagingChecks = b.withPaper { b.paper with waiting := true } := by
  rw [Blocks.stagingChecks, current]
  exact if_pos host

/-- The checks end the work where one of them fails (R136). -/
theorem stagingChecks_ends {b : Blocks} {o : Order} (current : b.currentOrder = some o) (own : b.paper.hostMotion = false)
    {halt : Option HaltReason} (stop : b.stagingStop o = some halt) : b.stagingChecks = b.endWork halt := by
  rw [Blocks.stagingChecks, current]
  dsimp only
  rw [own, if_neg Bool.false_ne_true, stop]

/-- The checks pass to the motions (R136, R137). -/
theorem stagingChecks_passes {b : Blocks} {o : Order} (current : b.currentOrder = some o)
    (own : b.paper.hostMotion = false) (passed : b.stagingStop o = none) : b.stagingChecks = b.stagingNext o := by
  rw [Blocks.stagingChecks, current]
  dsimp only
  rw [own, if_neg Bool.false_ne_true, passed]

/-- A cancel or a reached count ends the work (R136, R138). -/
theorem unwanted_iff (o : Order) :
    (o.cancelPending || o.done == o.requested) = true ↔ o.cancelPending = true ∨ o.done = o.requested := by
  rw [Bool.or_eq_true, beq_iff_eq]

/-- Another ticket of the order is wanted (R138). -/
theorem wanted_iff (o : Order) :
    (o.cancelPending || o.done == o.requested) = false ↔ o.cancelPending = false ∧ ¬ o.done = o.requested := by
  rw [Bool.or_eq_false_iff, beq_eq_false_iff_ne]

/-- The first check (R136). -/
theorem stagingStop_unwanted {b : Blocks} {o : Order} (unwanted : o.cancelPending = true ∨ o.done = o.requested) :
    b.stagingStop o = some none := if_pos ((unwanted_iff o).2 unwanted)

/-- The second check: no stock carries the form (R136). -/
theorem stagingStop_noStock {b : Blocks} {o : Order} (wanted : o.cancelPending = false ∧ ¬ o.done = o.requested)
    (noForm : b.paper.carrier o.form = none) : b.stagingStop o = some (some .noStock) := by
  rw [Blocks.stagingStop, (wanted_iff o).2 wanted, if_neg Bool.false_ne_true, noForm]

/-- The last checks: the order's own stock, then the other one (R136). -/
theorem stagingStop_carried {b : Blocks} {o : Order} {t : Tractor}
    (wanted : o.cancelPending = false ∧ ¬ o.done = o.requested) (carried : b.paper.carrier o.form = some t) :
    b.stagingStop o =
      if (b.paper.stock t).state = .lost then some (some .stockLost)
      else if (b.paper.stock t.other).state = .lost then some (some .pathBlocked)
      else none := by
  rw [Blocks.stagingStop, (wanted_iff o).2 wanted, if_neg Bool.false_ne_true, carried]

/-! ## The motions -/

/-- A staging motion begins, or with the cover mark set the controller pauses (R134, R137). -/
theorem stagingNext_begins {b : Blocks} {o : Order} {t u : Tractor} {kind : MotionKind} {course : Course}
    (carried : b.paper.carrier o.form = some t) (motion : b.paper.stagingMotion t = some (u, kind))
    (need : b.paper.meetsNeed u kind = true)
    (taken : courseOf u (b.paper.stock u) (b.stockLength u) kind 0 = course) :
    b.stagingNext o =
      if b.controller.coverMark = true then
        { b with
          controller := { b.controller with state := .paused, remembered := some .staging, coverMark := false } }
      else b.feeding u course.kind course.direction course.steps .issue 0 := by
  rw [Blocks.stagingNext, carried]
  dsimp only
  rw [motion]
  dsimp only
  rw [askMotion_begins need taken]
  rfl

/-- A stock at a form top goes to ticket start (R137). -/
theorem stagingNext_ready {b : Blocks} {o : Order} {t : Tractor} (carried : b.paper.carrier o.form = some t)
    (still : b.paper.stagingMotion t = none) : b.stagingNext o = b.ticketStart o .staging := by
  rw [Blocks.stagingNext, carried]
  dsimp only
  rw [still]

/-- The path is clear of a stock that staging would park (R137). -/
def Stock.outOfTheWay (x : Stock) : Prop := ¬ x.state = .atPrint ∧ ¬ x.state = .presented

/-- The other stock in the path is parked first (R137). -/
theorem stagingMotion_park {p : Paper} {t : Tractor} (blocked : ¬ (p.stock t.other).outOfTheWay) :
    p.stagingMotion t = some (t.other, .park) := by
  have inPath : (p.stock t.other).state = .atPrint ∨ (p.stock t.other).state = .presented := by
    rwa [or_iff_not_and_not]
  rw [Paper.stagingMotion]
  exact if_pos inPath

/-- The need of a PARK (R98). -/
theorem meetsNeed_park {p : Paper} {t : Tractor} (blocked : ¬ (p.stock t).outOfTheWay) : p.meetsNeed t .park = true := by
  rw [Paper.meetsNeed, Bool.or_eq_true, beq_iff_eq, beq_iff_eq, or_iff_not_and_not]
  exact blocked

/-- With the path clear the motion is by the state of the order's own stock (R137). -/
theorem stagingMotion_own {p : Paper} {t : Tractor} (clear : (p.stock t.other).outOfTheWay) :
    p.stagingMotion t =
      if (p.stock t).state = .presented then some (t, .retract)
      else if (p.stock t).state = .parked then some (t, .advance)
      else if (p.stock t).state = .atPrint ∧ ¬ (p.stock t).offset = some 0 then some (t, .feedToTop)
      else none := by
  rw [Paper.stagingMotion]
  exact if_neg (not_or.2 clear)

/-- A presented stock is retracted (R137). -/
theorem stagingMotion_retract {p : Paper} {t : Tractor} (clear : (p.stock t.other).outOfTheWay)
    (presented : (p.stock t).state = .presented) : p.stagingMotion t = some (t, .retract) := by
  rw [stagingMotion_own clear, if_pos presented]

/-- A parked stock is advanced (R137). -/
theorem stagingMotion_advance {p : Paper} {t : Tractor} (clear : (p.stock t.other).outOfTheWay)
    (parked : (p.stock t).state = .parked) : p.stagingMotion t = some (t, .advance) := by
  rw [stagingMotion_own clear, parked]
  rfl

/-- A stock that is not at a form top is fed to the next (R137). -/
theorem stagingMotion_feedToTop {p : Paper} {t : Tractor} (clear : (p.stock t.other).outOfTheWay)
    (atPrint : (p.stock t).state = .atPrint) (past : ¬ (p.stock t).offset = some 0) :
    p.stagingMotion t = some (t, .feedToTop) := by
  rw [stagingMotion_own clear, atPrint, if_neg (by decide), if_neg (by decide), if_pos ⟨rfl, past⟩]

/-- A stock at a form top needs no motion (R137). -/
theorem stagingMotion_none {p : Paper} {t : Tractor} (clear : (p.stock t.other).outOfTheWay)
    (atPrint : (p.stock t).state = .atPrint) (top : (p.stock t).offset = some 0) : p.stagingMotion t = none := by
  rw [stagingMotion_own clear, atPrint, if_neg (by decide), if_neg (by decide), if_neg (fun h => h.2 top)]

/-- The need of an ADVANCE (R98). -/
theorem meetsNeed_advance {p : Paper} {t : Tractor} (parked : (p.stock t).state = .parked)
    (clear : (p.stock t.other).state.inPath = false) : p.meetsNeed t .advance = true := by
  rw [Paper.meetsNeed, parked, clear]
  rfl

/-- The length of a stock's form (R98). -/
theorem stockLength_of {b : Blocks} {t : Tractor} {f : Nat} (carries : (b.paper.stock t).form = some f) :
    b.stockLength t = (b.form f).length := by
  rw [Blocks.stockLength, carries]

/-- The tractor distances are not 0 (R90). -/
theorem Tractor.distance_pos (t : Tractor) : 0 < t.distance := by
  cases t <;> decide

/-- Settles O37: each check, then each motion with its need and its course. -/
theorem stagingChecksAndMotions : Obligations.StagingChecksAndMotions := by
  intro b o current
  dsimp only
  refine ⟨fun m motion host => ?waits, fun own unwanted => ?unwanted, fun ⟨own, wanted⟩ noForm => ?noStock,
    fun t carries apart => ?_⟩
  case waits => exact stagingChecks_waits current (hostMotion_true motion host)
  case unwanted => exact stagingChecks_ends current (hostMotion_false own) (stagingStop_unwanted unwanted)
  case noStock =>
    exact stagingChecks_ends current (hostMotion_false own) (stagingStop_noStock wanted (carrier_none noForm))
  have carried := carrier_some carries apart
  have length := stockLength_of carries
  refine ⟨?ownLost, ?otherLost, ?passes, ?park, ?parkOut, ?retract, ?retractOut, ?advance, ?advanceOut, ?feed, ?feedOut,
    ?ready⟩
  case ownLost =>
    intro ⟨own, wanted⟩ lost
    exact stagingChecks_ends current (hostMotion_false own) ((stagingStop_carried wanted carried).trans (if_pos lost))
  case otherLost =>
    intro ⟨own, wanted⟩ kept lost
    refine stagingChecks_ends current (hostMotion_false own) ((stagingStop_carried wanted carried).trans ?_)
    rw [if_neg kept, if_pos lost]
  case passes =>
    intro ⟨own, wanted⟩ kept otherKept
    refine stagingChecks_passes current (hostMotion_false own) ((stagingStop_carried wanted carried).trans ?_)
    rw [if_neg kept, if_neg otherKept]
  case park =>
    intro blocked whole
    exact stagingNext_begins carried (stagingMotion_park blocked) (meetsNeed_park blocked) (course_park_none whole)
  case parkOut =>
    intro r blocked left
    exact stagingNext_begins carried (stagingMotion_park blocked) (meetsNeed_park blocked) (course_park_some left)
  case retract =>
    intro clear presented stays
    exact stagingNext_begins carried (stagingMotion_retract clear presented) (beq_iff_eq.2 presented)
      (course_retract_stays stays)
  case retractOut =>
    intro r clear presented left passes
    exact stagingNext_begins carried (stagingMotion_retract clear presented) (beq_iff_eq.2 presented)
      (course_retract_passes left passes)
  case advance =>
    intro clear free parked left
    exact stagingNext_begins carried (stagingMotion_advance clear parked) (meetsNeed_advance parked free)
      (course_forward (.inl ⟨rfl, rfl⟩) left)
  case advanceOut =>
    intro clear free parked out
    exact stagingNext_begins carried (stagingMotion_advance clear parked) (meetsNeed_advance parked free)
      (course_out (.inl ⟨rfl, rfl⟩) out t.distance_pos)
  case feed =>
    intro n clear atPrint offset past left
    have away : ¬ (b.paper.stock t).offset = some 0 := fun top => past.ne' (Option.some.inj (offset.symm.trans top))
    refine stagingNext_begins carried (stagingMotion_feedToTop clear atPrint away) (beq_iff_eq.2 atPrint)
      (course_forward (.inr (.inr (.inl ⟨rfl, ?_⟩))) left)
    rw [length, offset, Option.getD_some]
  case feedOut =>
    intro n clear atPrint offset past short out
    have away : ¬ (b.paper.stock t).offset = some 0 := fun top => past.ne' (Option.some.inj (offset.symm.trans top))
    refine stagingNext_begins carried (stagingMotion_feedToTop clear atPrint away) (beq_iff_eq.2 atPrint)
      (course_out (.inr (.inr (.inl ⟨rfl, ?_⟩))) out (Nat.sub_pos_of_lt short))
    rw [length, offset, Option.getD_some]
  case ready =>
    intro clear atPrint top
    exact stagingNext_ready carried (stagingMotion_none clear atPrint top)

/-! ## The order that is started and staged at once (R122, R135 to R137) -/

/-- A closed cover is taken in PAUSED alone (R153). -/
theorem takeClosedCover_same {b : Blocks} (running : ¬ b.controller.state = .paused) : b.takeClosedCover = b := by
  have other : (b.controller.state == .paused) = false := beq_eq_false_iff_ne.2 running
  rw [Blocks.takeClosedCover, other]
  rfl

/-- No order starts where the start condition does not hold (R135). -/
theorem startOrders_same {b : Blocks} (n : Nat) (stays : b.mayStart = false) : Blocks.startOrders n b = b := by
  cases n with
  | zero => rfl
  | succ n => rw [Blocks.startOrders, stays, if_neg Bool.false_ne_true]

/-- The records once an order has been chosen: it is RUNNING and current, and the controller is STAGING (R122, R135). -/
def Blocks.chosen (b : Blocks) (o : Order) : Blocks :=
  ((b.withOrders (b.orders.start o.tag)).control fun c =>
    { c with state := .staging, current := some o.tag, struck := [], heldReason := none, voidMotion := none }).stopIdle

/-- An order that is chosen is staged, and the next start request follows (R135). -/
theorem startOrders_chosen {b : Blocks} {o : Order} (n : Nat) (may : b.mayStart = true)
    (next : b.orders.nextQueued = some o) :
    Blocks.startOrders (n + 1) b = Blocks.startOrders n (b.chosen o).stagingChecks := by
  rw [Blocks.startOrders, if_pos may, next]
  rfl

section
variable {b : Blocks} {table : OrderTable} {o : Order} {n : Nat} {k : Tractor}

/-- An order that finds its stock parked and the path clear is staged with its ADVANCE (R137). -/
theorem stagingChecks_advances (current : b.currentOrder = some o) (still : b.paper.motion = none)
    (mark : b.controller.coverMark = false) (wanted : o.cancelPending = false ∧ ¬ o.done = o.requested)
    (parked : (b.paper.stock k).state = .parked) (carries : (b.paper.stock k).form = some o.form)
    (left : ¬ (b.paper.stock k).endRemaining = some 0) (clear : (b.paper.stock k.other).state.inPath = false)
    (apart : ¬ (b.paper.stock k.other).form = some o.form) :
    b.stagingChecks = b.feeding k .advance .forward k.distance .issue 0 := by
  have carried := carrier_some carries apart
  have out : (b.paper.stock k.other).outOfTheWay := by
    constructor <;> intro inPath <;> rw [inPath] at clear <;> exact Bool.false_ne_true clear.symm
  have kept : ¬ (b.paper.stock k.other).state = .lost := by
    intro lost
    rw [lost] at clear
    exact Bool.false_ne_true clear.symm
  have own : b.paper.hostMotion = false := by
    rw [Paper.hostMotion, still]
  have passed : b.stagingStop o = none := by
    rw [stagingStop_carried wanted carried, parked, if_neg (by decide), if_neg kept]
  rw [stagingChecks_passes current own passed, stagingNext_begins carried (stagingMotion_advance out parked)
    (meetsNeed_advance parked clear) (course_forward (.inl ⟨rfl, rfl⟩) left), if_neg (by rw [mark]; decide)]

/-- The order admitted last to an idle part starts, and its stock advances (R122, R135 to R137). -/
theorem settle_startsAtOnce (idle : b.controller.state = .idle) (mark : b.controller.coverMark = false)
    (closed : b.coverOpen = false) (still : b.paper.motion = none)
    (orders : b.orders = { records := table.records ++ [o], next := n }) (quiet : table.quiet o.tag)
    (queued : o.state = .queued) (wanted : ¬ o.done = o.requested) (parked : (b.paper.stock k).state = .parked)
    (carries : (b.paper.stock k).form = some o.form) (left : ¬ (b.paper.stock k).endRemaining = some 0)
    (clear : (b.paper.stock k.other).state.inPath = false) (apart : ¬ (b.paper.stock k.other).form = some o.form) :
    b.settle =
      { b.inMotion k .advance .forward k.distance .issue 0 with
        orders := { records := table.records ++ [{ o with state := .running, cancelPending := false }], next := n }
        controller :=
          { b.controller with
            state := .staging, current := some o.tag, struck := [], heldReason := none, voidMotion := none } } := by
  have may : b.mayStart = true := by
    rw [Blocks.mayStart, idle, closed, orders, quiet.anyHalted queued]
    rfl
  have next : b.orders.nextQueued = some o := by rw [orders, quiet.nextQueued queued]
  have started : (b.chosen o).orders =
      { records := table.records ++ [{ o with state := .running, cancelPending := false }], next := n } := by
    show b.orders.start o.tag = _
    rw [orders, OrderTable.start, quiet.update]
  have current : (b.chosen o).currentOrder = some { o with state := .running, cancelPending := false } := by
    show (b.chosen o).orders.find o.tag = _
    rw [started]
    exact OrderTable.quiet.find (o := { o with state := .running, cancelPending := false }) quiet rfl n
  have staged := stagingChecks_advances (k := k) current still mark ⟨rfl, wanted⟩ parked carries left clear apart
  have stays : ((b.chosen o).feeding k .advance .forward k.distance .issue 0).mayStart = false := rfl
  rw [Blocks.settle, takeClosedCover_same (by rw [idle]; decide)]
  dsimp only
  rw [startOrders_chosen _ may next, staged, startOrders_same _ stays, Blocks.settleIdle_moving rfl, ← started]
  rfl

end

/-- Settles O31: the tests of R126 with the record admitted, and the order that an idle part starts at once. -/
theorem orderIssueAdmitsAndStages : Obligations.OrderIssueAdmitsAndStages := by
  classical
  refine ⟨fun s tag form requested policy ready => ⟨_, rfl, ?tested⟩, ?starts⟩
  case tested =>
    refine ready.tested (takeOrderIssue_checked s.blocks tag form requested policy) ?tests fun _ done => ?accepted
    case tests =>
      exact .cons ⟨illegal_iff _, rfl⟩ (.cons ⟨undefined_iff _, rfl⟩ (.cons ⟨Option.isSome_iff_ne_none, rfl⟩
        (.cons ⟨decide_eq_true_iff, rfl⟩ .nil)))
    case accepted =>
      rw [OrderTable.enter_eq] at done
      exact answered_settled ready done
  case starts =>
    intro s k tag form requested ready idle mark closed still parked carries left clear apart tagged formLegal one most
      defined room last quiet
    refine ⟨_, rfl, ?_⟩
    have legal : issuable tag form requested 0xFF := ⟨tagged, formLegal, one, most, .inr rfl⟩
    have absent : s.blocks.orders.find tag.toNat = none :=
      List.find?_eq_none.2 fun r mem => mt beq_iff_eq.1 (quiet r mem).1
    have done := takeOrderIssue_checked s.blocks tag form requested 0xFF
    rw [decide_eq_true legal, defined, absent, decide_eq_false (Nat.not_le.2 room), OrderTable.enter_eq, if_pos last,
      if_pos last] at done
    have unissued : ¬ 0 = requested.toNat := (Nat.pos_of_ne_zero (Nat.one_le_iff_ne_zero.1 one)).ne
    have settled := settle_startsAtOnce (k := k)
      (b := s.blocks.withOrders
        { records := s.blocks.orders.records ++
            [admitted tag.toNat form.toNat requested.toNat s.blocks.orders.next (policyNamed 0xFF (s.blocks.form form.toNat).policy)]
          next := s.blocks.orders.next + 1 })
      idle mark closed still rfl quiet rfl unissued parked carries left clear apart
    exact answered_blocks (ready.answers (c := .orderIssue) (act := fun b => b.takeOrderIssue tag form requested 0xFF) done)
      settled.symm

end Sys2Proof.Machine
end

section
/-! SUPPORT. Ticket end and end of work (07, R124, R143, R146, R152, R153): what each leaves, field by field, and the proof of
O36. -/

namespace Sys2Proof.Machine

/-! ## Ticket end -/

/-- A ticket end, written out (R143). -/
theorem Blocks.endTicket_eq (b : Blocks) (o : Order) (completed : Bool) :
    b.endTicket o completed =
      { b with
        forms := b.forms.set o.form
          { b.form o.form with
            inFlight := false
            issueCount :=
              if completed = true ∧ (b.form o.form).issueCount < 65535 then (b.form o.form).issueCount + 1
              else (b.form o.form).issueCount }
        pool := b.ticketPool o.form
        composer := Composer.empty
        orders := b.orders.count o.tag completed
        controller :=
          { b.controller with struck := [], voidMotion := none, phase := .none, line := none, awaitsHoming := false } } :=
  Blocks.parts (b.endTicket_forms o completed) (b.endTicket_pool o completed) (b.endTicket_glyphs o completed)
    (b.endTicket_composer o completed) (b.endTicket_head o completed) (b.endTicket_paper o completed)
    (b.endTicket_orders o completed) (b.endTicket_controller o completed) (b.endTicket_attention o completed)

/-- Without staged content nothing is applied (R37). -/
theorem FieldBody.applyStaged_none {x : FieldBody} (unstaged : x.isStaged = false) : x.applyStaged = x := by
  cases x with
  | text c g l p =>
    cases p with
    | none => rfl
    | some t => cases unstaged
  | counter c p v =>
    cases v with
    | none => rfl
    | some v => cases unstaged
  | rule | link => rfl

/-- A staged text becomes live (R24, R37). -/
theorem FieldBody.applyStaged_text (c : CharPart) (g : Bool) (l : Option (List Byte)) (x : List Byte) :
    (FieldBody.text c g l (some x)).applyStaged = .text c g (if x = [] then none else some x) none := by
  rw [FieldBody.applyStaged, liveText_eq]

/-- With no ticket of the current order in flight none is ended (R155, R157). -/
theorem voidTicket_same {b : Blocks} (none : ∀ o, b.currentOrder = some o → (b.form o.form).inFlight = false) :
    b.voidTicket = b := by
  refine Blocks.voidTicket_none ?_
  rw [Blocks.ticketInFlight]
  split
  next o current => exact none o current
  next => rfl

/-- A ticket of the current order in flight is in flight (R133). -/
theorem ticketInFlight_of {b : Blocks} {o : Order} (current : b.currentOrder = some o) :
    b.ticketInFlight = (b.form o.form).inFlight := by
  rw [Blocks.ticketInFlight, current]

/-! ## End of work -/

/-- The record an end of work closes, with the halt it carries (R124). -/
def Order.closedBy (o : Order) (halt : Option HaltReason) : Order :=
  { o with
    cancelPending := false
    reported := false
    state :=
      if o.done = o.requested then .done else if o.cancelPending = true ∨ halt = none then .cancelled else .halted
    halt := if o.done = o.requested ∨ o.cancelPending = true then none else halt }

/-- The end-of-work request closes the record (R124). -/
theorem Order.ended_closedBy (o : Order) (halt : Option HaltReason) : o.ended halt = o.closedBy halt := by
  unfold Order.ended Order.closedBy
  dsimp only
  by_cases complete : o.done = o.requested
  case pos => simp [complete]
  case neg =>
    cases o.cancelPending <;> cases halt <;> simp [complete]

/-- The end of work closes the current record and clears the controller into a state (R124, R146). -/
theorem Blocks.closeWork_eq {b : Blocks} {o : Order} (ok : b.orders.ok) (current : b.currentOrder = some o)
    (halt : Option HaltReason) (state : ControllerState) :
    b.closeWork halt state =
      { b with
        orders := b.orders.update o.tag fun _ => o.closedBy (halt.map fun r => b.controller.heldReason.getD r)
        controller := { Controller.hardReset with state := state } } := by
  obtain ⟨tag, found⟩ := Blocks.currentOrder_some current
  have table : b.orders.endWork o.tag (halt.map b.controller.reason) =
      b.orders.update o.tag fun _ => o.closedBy (halt.map fun r => b.controller.heldReason.getD r) := by
    rw [← Order.ended_closedBy]
    exact update_one ok found _
  rw [Blocks.closeWork, tag, ← table]
  rfl

/-- The end of work that finds no cover to take (R146). -/
theorem Blocks.endWork_closed {b : Blocks} (halt : Option HaltReason)
    (uncovered : b.controller.coverMark = false ∨ b.coverOpen = true) : b.endWork halt = b.closeWork halt .idle := by
  rw [Blocks.endWork]
  refine if_neg ?_
  rw [Bool.and_eq_true, not_mark_iff]
  rintro ⟨marked, closed⟩
  rcases uncovered with unmarked | opened
  · exact Bool.false_ne_true (unmarked.symm.trans marked)
  · exact Bool.false_ne_true (closed.symm.trans opened)

/-- A home request to a head at rest with HOME not asserted: the homing is in flight for it (R68). -/
theorem Blocks.sendHome_begins {b : Blocks} {q : HomeRequester} (idle : b.head.carriage.activity = .idle)
    (seen : b.homeSeen = false) : b.sendHome q = b.homingFor q := by
  rw [Blocks.sendHome, Head.home, idle]
  dsimp only
  rw [Head.beginHoming, seen]
  rfl

/-- The end of work that takes a cover opened and closed again (R146, R152, R153). -/
theorem Blocks.endWork_covered {b : Blocks} (halt : Option HaltReason) (marked : b.controller.coverMark = true)
    (closed : b.coverOpen = false) (idle : b.head.carriage.activity = .idle) (seen : b.homeSeen = false) :
    b.endWork halt = (b.closeWork halt .idle).homingFor .cover := by
  obtain ⟨head, paper, _⟩ := closeWork_blocks b halt .idle
  have unseen : (b.closeWork halt .idle).homeSeen = false := by
    rw [Blocks.homeSeen, paper]
    exact seen
  rw [Blocks.endWork, marked, closed]
  exact Blocks.sendHome_begins (by rw [head]; exact idle) unseen

/-- Settles O36: the ticket end, the staged contents, the ticket voided, and the end of work. -/
theorem ticketsAndWorkEndWhole : Obligations.TicketsAndWorkEndWhole := by
  refine ⟨fun b o completed => b.endTicket_eq o completed, FieldBody.applyStaged_text, fun _ _ _ => rfl,
    fun _ => FieldBody.applyStaged_none, fun b => ⟨voidTicket_same, fun o => voidTicket_ends⟩, ?work⟩
  case work =>
    intro b o halt ok current closed
    have work : b.closeWork halt .idle = closed := by
      rw [Blocks.closeWork_eq ok current]
      unfold Order.closedBy
      simp only [Option.map_eq_none_iff]
      rfl
    exact ⟨fun uncovered => (b.endWork_closed halt uncovered).trans work,
      fun marked shut idle seen => (b.endWork_covered halt marked shut idle seen).trans (by rw [work])⟩

end Sys2Proof.Machine
end

section
/-! SUPPORT. Ticket start, the walk over the lines and the pass request (07, R138 to R140): what each leaves by the records it
meets, and the proof of O38. -/

namespace Sys2Proof.Machine

/-! ## Ticket start -/

/-- Some counter of the form is exhausted (R138). -/
theorem counterLimit_iff (b : Blocks) (f : Nat) :
    b.counterLimit f = true ↔
      ∃ r ∈ b.pool, r.form = f ∧ ∃ c p v, r.body = .counter c p v ∧ p.exhausted = true := by
  rw [Blocks.counterLimit, List.any_eq_true]
  refine exists_congr fun r => ?_
  rw [Blocks.mem_fieldsOf, and_assoc]
  refine and_congr_right fun _ => and_congr_right fun _ => ?_
  cases r.body <;> simp [FieldBody.exhausted]

/-- Ticket start of an order that wants no more tickets (R138 tests 1 and 2). -/
theorem ticketStart_unwanted {b : Blocks} {o : Order} (q : ControllerState)
    (unwanted : ¬ (o.cancelPending = false ∧ ¬ o.done = o.requested)) : b.ticketStart o q = b.endWork none := by
  rw [← wanted_iff, Bool.not_eq_false] at unwanted
  exact if_pos unwanted

section
variable {b : Blocks} {o : Order}

/-- Ticket start with an exhausted counter (R138 test 3). -/
theorem ticketStart_spent (q : ControllerState) (wanted : o.cancelPending = false ∧ ¬ o.done = o.requested)
    (spent : b.counterLimit o.form = true) : b.ticketStart o q = b.endWork (some .counterLimit) := by
  rw [Blocks.ticketStart, (wanted_iff o).2 wanted, if_neg Bool.false_ne_true, if_pos spent]

/-- Ticket start with the cover mark set (R134, R152). -/
theorem ticketStart_pauses (q : ControllerState) (wanted : o.cancelPending = false ∧ ¬ o.done = o.requested)
    (unspent : b.counterLimit o.form = false) (marked : b.controller.coverMark = true) :
    b.ticketStart o q = b.enterPaused q := by
  rw [Blocks.ticketStart, (wanted_iff o).2 wanted, if_neg Bool.false_ne_true, unspent, if_neg Bool.false_ne_true]
  exact if_pos marked

/-- The controller as ticket start sets it out: STAGING with the cursor cleared (R138). -/
def Blocks.startingTicket (b : Blocks) : Blocks := b.control fun c => { c.cursorCleared with state := .staging }

/-- Ticket start past its tests: short paper asks for EJECT, else the ticket begins (R138). -/
theorem ticketStart_begins (q : ControllerState) (wanted : o.cancelPending = false ∧ ¬ o.done = o.requested)
    (unspent : b.counterLimit o.form = false) (unmarked : b.controller.coverMark = false) :
    b.ticketStart o q =
      if b.paperShort o = true then
        (b.startingTicket.control fun c => { c with heldReason := some .paperEnd }).askOwn .eject 0
      else b.startingTicket.beginTicket o := by
  rw [Blocks.ticketStart, (wanted_iff o).2 wanted, if_neg Bool.false_ne_true, unspent, if_neg Bool.false_ne_true,
    Blocks.unlessCover, unmarked, if_neg Bool.false_ne_true]
  rfl

/-- The paper left of the order's stock is shorter than its form (R138 test 4). -/
theorem paperShort_of {t : Tractor} (carried : b.paper.carrier o.form = some t) :
    b.paperShort o = true ↔
      ∃ r, (b.paper.stock t).endRemaining = some r ∧ r < (b.form o.form).length := by
  rw [Blocks.paperShort, carried]
  dsimp only
  cases (b.paper.stock t).endRemaining with
  | none => simp
  | some r => simp

end

/-- The course of an EJECT with so much paper left (R99). -/
theorem course_eject {k : Tractor} {x : Stock} {n c r : Nat} (left : x.endRemaining = some r) :
    courseOf k x n .eject c = { kind := .eject, direction := .forward, steps := r + 48 } := by
  unfold courseOf Course.converted
  rw [left]
  cases r <;> rfl

/-- The need of an EJECT (R98). -/
theorem meetsNeed_eject {p : Paper} {t : Tractor} {r : Nat}
    (inPath : (p.stock t).state = .atPrint ∨ (p.stock t).state = .presented)
    (left : (p.stock t).endRemaining = some r) : p.meetsNeed t .eject = true := by
  rw [Paper.meetsNeed, left, Option.isSome_some, Bool.and_true, Bool.or_eq_true, beq_iff_eq, beq_iff_eq]
  exact inPath

/-! ## The lines visited -/

/-- The printable lines with a field, ascending (R139). -/
theorem visited_sorted (b : Blocks) (f : Nat) : (b.visited f).Pairwise (· < ·) :=
  List.Pairwise.filter _ List.pairwise_lt_range

/-- The lines the walk visits (R139). -/
theorem mem_visited (b : Blocks) (f n : Nat) :
    n ∈ b.visited f ↔
      (b.form f).top ≤ n ∧ n + (b.form f).bottom < (b.form f).lines ∧ ∃ r ∈ b.pool, r.form = f ∧ r.line = n := by
  have fields : (!(b.lineFields f n).isEmpty) = true ↔ ∃ r ∈ b.pool, r.form = f ∧ r.line = n := by
    rw [not_mark_iff, List.isEmpty_eq_false_iff_exists_mem, Blocks.lineFields_eq]
    simp only [List.mem_filter, decide_eq_true_iff]
  rw [Blocks.visited, List.mem_filter, List.mem_range, Bool.and_eq_true, fields, printable_iff, and_assoc]
  refine ⟨And.right, fun h => ⟨?_, h⟩⟩
  obtain ⟨_, inside, _⟩ := h
  omega

/-! ## The pass request -/

/-- The pass a line asks for (R76, R140). -/
def passFor (f : FormRecord) (n first last : Nat) (d : Option PassDirection) : Pass where
  line := n
  strike := (f.copies + 1) / 2
  unidirectional := decide (f.direction = .unidirectional)
  direction := d
  first := first
  last := last

/-- A homing in flight is waited for (R140). -/
theorem sendPass_waits {b : Blocks} (form n : Nat) (span : Nat × Nat) (homing : b.head.carriage.activity = .homing) :
    b.sendPass form n span = b.control fun c => { c with awaitsHoming := true } := if_pos homing

/-- A pass request goes out to the head (R76, R140). -/
theorem sendPass_requests {b : Blocks} (form n first last : Nat) (free : ¬ b.head.carriage.activity = .homing) :
    b.sendPass form n (first, last) =
      (b.withHead (b.head.request b.homeSeen (passFor (b.form form) n first last none))).control fun c =>
        { c with phase := .pass, awaitsHoming := false } := by
  rw [Blocks.sendPass, if_neg free]
  simp only [beq_eq_decide]
  rfl

/-- The direction a pass takes (R82). -/
theorem takeDirection_eq (h : Head) (f : FormRecord) (n first last : Nat) :
    let d := if f.direction = .unidirectional then .leftToRight else h.carriage.next
    h.takeDirection (passFor f n first last none) =
      { h with
        carriage := { h.carriage with next := if d = .leftToRight then .rightToLeft else .leftToRight }
        pass := some (passFor f n first last (some d))
        plan := { line := some n, direction := d, speed := .none, segments := 0, dwellTaken := false } } := by
  have opposite (d : PassDirection) : d.opposite = if d = .leftToRight then .rightToLeft else .leftToRight := by
    cases d <;> rfl
  dsimp only
  rw [← opposite]
  by_cases oneWay : f.direction = .unidirectional
  case pos => simp [Head.takeDirection, passFor, oneWay]
  case neg => simp [Head.takeDirection, passFor, oneWay]

/-! ## The walk -/

/-- A requested motion of the order's stock goes forward by its steps, or ends its paper (R98, R99). -/
theorem askOwn_forward {b : Blocks} {o : Order} {t : Tractor} {kind : MotionKind} {n steps : Nat}
    (current : b.currentOrder = some o) (carries : (b.paper.stock t).form = some o.form)
    (apart : ¬ (b.paper.stock t.other).form = some o.form) (need : b.paper.meetsNeed t kind = true)
    (asked : kind = .feed ∧ steps = n ∨
      kind = .feedToTop ∧ steps = b.stockLength t - (b.paper.stock t).offset.getD 0 ∨ kind = .present ∧ steps = 432) :
    (¬ (b.paper.stock t).endRemaining = some 0 → b.askOwn kind n = b.feeding t kind .forward steps .issue 0) ∧
      ((b.paper.stock t).endRemaining = some 0 → 0 < steps → b.askOwn kind n = b.feeding t .eject .forward 48 .issue 0) :=
  ⟨fun left => askOwn_begins current carries apart need (course_forward (.inr asked) left),
    fun out some => askOwn_begins current carries apart need (course_out (.inr asked) out some)⟩

/-- The offset of the current order's stock (R139). -/
theorem ownOffset_of {b : Blocks} {o : Order} {t : Tractor} {k : Nat} (current : b.currentOrder = some o)
    (carries : (b.paper.stock t).form = some o.form) (apart : ¬ (b.paper.stock t.other).form = some o.form)
    (offset : (b.paper.stock t).offset = some k) : b.ownOffset = k := by
  rw [Blocks.ownOffset, orderTractor_of current carries apart]
  dsimp only
  rw [offset, Option.getD_some]

/-- A line ahead is fed to (R139). -/
theorem walkLines_feeds {b : Blocks} (f n : Nat) (rest : List Nat) (ahead : b.ownOffset < n * (b.form f).pitch) :
    Blocks.walkLines f (n :: rest) b =
      (b.control fun c => { c with phase := .feed, line := some n }).askOwn .feed
        (n * (b.form f).pitch - b.ownOffset) := by
  rw [Blocks.walkLines, Blocks.visitLine]
  exact if_pos ahead

/-- A line reached is composed; an empty one is passed over, another sends its pass (R139). -/
theorem walkLines_composes {b : Blocks} (f n : Nat) (rest : List Nat) (reached : n * (b.form f).pitch ≤ b.ownOffset) :
    let c := (b.control fun c => { c with phase := .feed, line := some n }).compose f n
    (c.composer.passSpan = none → Blocks.walkLines f (n :: rest) b = Blocks.walkLines f rest c) ∧
      ∀ span, c.composer.passSpan = some span → Blocks.walkLines f (n :: rest) b = c.sendPass f n span := by
  dsimp only
  refine ⟨fun empty => ?_, fun span fires => ?_⟩
  · rw [Blocks.walkLines, Blocks.visitLine]
    dsimp only
    rw [if_neg (Nat.not_lt.2 reached), empty]
  · rw [Blocks.walkLines, Blocks.visitLine]
    dsimp only
    rw [if_neg (Nat.not_lt.2 reached), fires]

/-- Settles O38: ticket start by its tests, the lines visited, the pass request by the head, and the walk by its next line. -/
theorem ticketStartAndWalk : Obligations.TicketStartAndWalk := by
  refine ⟨fun b o q => ?start, fun b o keep => ⟨rfl, visited_sorted b o.form, mem_visited b o.form⟩,
    fun b form n first last => ⟨fun homing => sendPass_waits form n _ homing, fun idle homed => ?homed,
      fun idle unhomed seen => ?unhomed⟩,
    fun b o t k n rest current carries apart atPrint offset => ?walk⟩
  case start =>
    rw [← counterLimit_iff]
    refine ⟨ticketStart_unwanted q, ticketStart_spent q, fun wanted unspent marked => ?paused,
      fun t wanted unspent unmarked carries apart => ⟨fun r left short inPath current => ?short, fun enough => ?begins⟩⟩
    case paused => exact ticketStart_pauses q wanted (Bool.eq_false_of_not_eq_true unspent) marked
    case short =>
      have isShort := (paperShort_of (carrier_some carries apart)).2 ⟨r, left, short⟩
      rw [ticketStart_begins q wanted (Bool.eq_false_of_not_eq_true unspent) unmarked, if_pos isShort]
      exact askOwn_begins (b := b.startingTicket.control fun c => { c with heldReason := some .paperEnd }) current carries
        apart (meetsNeed_eject inPath left) (course_eject left)
    case begins =>
      have notShort : ¬ b.paperShort o = true := by
        rw [paperShort_of (carrier_some carries apart)]
        rintro ⟨r, left, short⟩
        exact absurd (enough r left) (Nat.not_le.2 short)
      rw [ticketStart_begins q wanted (Bool.eq_false_of_not_eq_true unspent) unmarked, if_neg notShort]
      rfl
  case homed =>
    rw [sendPass_requests form n first last (by rw [idle]; decide), Head.request, if_pos homed, takeDirection_eq]
    rfl
  case unhomed =>
    rw [sendPass_requests form n first last (by rw [idle]; decide), Head.request, unhomed, if_neg Bool.false_ne_true,
      Head.beginHoming, seen]
    rfl
  case walk =>
    have own := ownOffset_of current carries apart offset
    have need : b.paper.meetsNeed t .feed = true := beq_iff_eq.2 atPrint
    have length := stockLength_of carries
    refine ⟨fun left => ?top, fun out short => ?topOut, fun ahead left => ?feed, fun ahead out => ?feedOut,
      fun reached => ?composes⟩
    case composes => exact walkLines_composes o.form n rest (by rw [own]; exact reached)
    case feed =>
      rw [walkLines_feeds o.form n rest (by rw [own]; exact ahead), own]
      exact (askOwn_forward (b := b.control fun c => { c with phase := .feed, line := some n }) current carries apart need
        (.inl ⟨rfl, rfl⟩)).1 left
    case feedOut =>
      rw [walkLines_feeds o.form n rest (by rw [own]; exact ahead), own]
      exact (askOwn_forward (b := b.control fun c => { c with phase := .feed, line := some n }) current carries apart need
        (.inl ⟨rfl, rfl⟩)).2 out (Nat.sub_pos_of_lt ahead)
    all_goals
      have steps : (b.form o.form).length - k = b.stockLength t - (b.paper.stock t).offset.getD 0 := by
        rw [length, offset, Option.getD_some]
      have close := askOwn_forward (kind := .feedToTop) (n := 0)
        (b := b.control fun c => { c with phase := .close, line := none }) current carries apart need (.inr (.inl ⟨rfl, steps⟩))
    case top => exact close.1 left
    case topOut => exact close.2 out (Nat.sub_pos_of_lt short)

end Sys2Proof.Machine
end

section
/-! SUPPORT. What follows a ticket, a PRESENT, a pass and a pause (07, R140, R144, R145, R147, R148, R152, R153): one lemma for
each operation of the Issue Controller by the records it meets, and the proof of O39. -/

namespace Sys2Proof.Machine

section
variable {b : Blocks} {o : Order}

/-! ## After a completed ticket and after a PRESENT -/

/-- What follows the last ticket (R144). -/
theorem afterTicket_complete (current : b.currentOrder = some o) (complete : o.done = o.requested) :
    b.afterTicket =
      if o.policy = .none ∨ o.cancelPending = true then b.endWork none else b.unlessCover .printing (b.present true) := by
  rw [Blocks.afterTicket, current]
  exact if_pos complete

/-- What follows another ticket (R144). -/
theorem afterTicket_more (current : b.currentOrder = some o) (more : ¬ o.done = o.requested) :
    b.afterTicket =
      if o.cancelPending = true then b.endWork none
      else if o.policy = .each then b.unlessCover .printing (b.present false)
      else b.ticketStart o .printing := by
  rw [Blocks.afterTicket, current]
  dsimp only
  rw [if_neg more]
  cases o.policy <;> rfl

/-- What follows the final PRESENT (R144). -/
theorem presentDone_final (current : b.currentOrder = some o) (final : b.controller.presentFinal = true) :
    b.presentDone =
      if o.done = o.requested ∨ o.cancelPending = true then b.endWork none
      else b.unlessCover .printing b.enterStaging := by
  rw [Blocks.presentDone, current]
  exact if_pos final

/-- What follows a PRESENT between tickets (R145). -/
theorem presentDone_between (current : b.currentOrder = some o) (between : b.controller.presentFinal = false) :
    b.presentDone =
      if o.cancelPending = true then b.endWork none
      else b.unlessCover .printing (b.control fun c => { c.cursorCleared with state := .awaitTear }) := by
  rw [Blocks.presentDone, current]
  dsimp only
  rw [between, if_neg Bool.false_ne_true]

/-! ## Voiding -/

/-- A ticket ended voided leaves the held reason (R143). -/
theorem voidTicket_heldReason (b : Blocks) : b.voidTicket.controller.heldReason = b.controller.heldReason := by
  rcases b.voidTicket_cases with same | ⟨o, _, ended⟩
  · rw [same]
  · rw [ended, Blocks.endTicket_controller]

/-- The end of a void ends the ticket and the work with the held reason (R148). -/
theorem endVoided_eq (b : Blocks) : b.endVoided = b.voidTicket.endWork b.controller.heldReason := by
  rw [← voidTicket_heldReason]
  rfl

/-! ## A pass over, a homing over -/

/-- A void motion is held (R140). -/
theorem voidHeld_iff (c : Controller) : c.voidMotion.isSome = true ↔ ¬ c.voidMotion = none := Option.isSome_iff_ne_none

/-- A pass over with a void held (R140). -/
theorem passOver_voids (held : ¬ b.controller.voidMotion = none) : b.passOver = b.enterVoiding :=
  if_pos ((voidHeld_iff _).2 held)

/-- A pass over goes on with the lines after its own (R140). -/
theorem passOver_walks (current : b.currentOrder = some o) (free : b.controller.voidMotion = none) :
    b.passOver = b.unlessCover .printing (b.walkFrom o fun n => decide (b.controller.line.getD 0 < n)) := by
  rw [Blocks.passOver, free, current]
  rfl

/-- The records with no homing waited for (R140). -/
def Blocks.unawaited (b : Blocks) : Blocks := b.control fun c => { c with awaitsHoming := false }

/-- A homing over with a void held (R140). -/
theorem homingOver_voids (held : ¬ b.controller.voidMotion = none) : b.homingOver = b.unawaited.enterVoiding :=
  if_pos ((voidHeld_iff _).2 held)

/-- A homing over sends the pass that waited (R140). -/
theorem homingOver_sends {n : Nat} {span : Nat × Nat} (current : b.currentOrder = some o)
    (free : b.controller.voidMotion = none) (line : b.controller.line = some n) (fires : b.composer.passSpan = some span) :
    b.homingOver = b.unawaited.unlessCover .printing (b.unawaited.sendPass o.form n span) := by
  have held : b.unawaited.controller.voidMotion = none := free
  have same : b.unawaited.currentOrder = some o := current
  have itsLine : b.unawaited.controller.line = some n := line
  have itsSpan : b.unawaited.composer.passSpan = some span := fires
  unfold Blocks.homingOver
  dsimp only
  rw [← Blocks.unawaited, held, Option.isSome_none, if_neg Bool.false_ne_true, same]
  dsimp only
  rw [itsLine, itsSpan]

/-! ## Answers of the head -/

/-- Outside PRINTING the head's answer is not acted on (R140). -/
theorem headAnswered_other (other : ¬ b.controller.state = .printing) : b.headAnswered = b := by
  rw [Blocks.headAnswered]
  split
  next printing => exact absurd printing other
  all_goals rfl

/-- A homing that is waited for (R140). -/
theorem headAnswered_awaits (printing : b.controller.state = .printing) (awaits : b.controller.awaitsHoming = true) :
    b.headAnswered = if b.head.carriage.activity = .homing then b else b.homingOver := by
  rw [Blocks.headAnswered, printing]
  exact if_pos awaits

/-- In PRINTING with no homing waited for (R140). -/
theorem headAnswered_printing (printing : b.controller.state = .printing) (free : b.controller.awaitsHoming = false) :
    b.headAnswered =
      if b.controller.phase = .pass then
        if b.head.pass.isNone = true then b.passOver
        else if b.head.carriage.activity = .suspended then b.enterPaused .printing
        else b
      else b := by
  rw [Blocks.headAnswered, printing]
  dsimp only
  rw [free, if_neg Bool.false_ne_true]

/-- A pass that is over (R140). -/
theorem headAnswered_over (printing : b.controller.state = .printing) (free : b.controller.awaitsHoming = false)
    (phase : b.controller.phase = .pass) (ended : b.head.pass = none) : b.headAnswered = b.passOver := by
  rw [headAnswered_printing printing free, if_pos phase, if_pos ((isNone_iff _).2 ended)]

/-- A pass that goes on or is SUSPENDED (R140, R152). -/
theorem headAnswered_inPass (printing : b.controller.state = .printing) (free : b.controller.awaitsHoming = false)
    (phase : b.controller.phase = .pass) (inPass : ¬ b.head.pass = none) :
    b.headAnswered = if b.head.carriage.activity = .suspended then b.enterPaused .printing else b := by
  rw [headAnswered_printing printing free, if_pos phase, if_neg (mt (isNone_iff _).1 inPass)]

/-- Outside a pass (R140). -/
theorem headAnswered_noPass (printing : b.controller.state = .printing) (free : b.controller.awaitsHoming = false)
    (phase : ¬ b.controller.phase = .pass) : b.headAnswered = b := by
  rw [headAnswered_printing printing free, if_neg phase]

/-! ## Leaving PAUSED -/

/-- The records once the remembered state has been taken up again (R153). -/
def Blocks.resumed (b : Blocks) (q : ControllerState) : Blocks := b.control fun c => { c with state := q, remembered := none }

/-- Leaving PAUSED takes up the remembered state (R153). -/
theorem resumed_of {q : ControllerState} (remembered : b.controller.remembered = some q) :
    (b.control fun c => { c with state := c.remembered.getD .idle, remembered := none }) = b.resumed q := by
  unfold Blocks.resumed Blocks.control
  dsimp only
  rw [remembered, Option.getD_some]

/-- Leaving PAUSED for a state other than PRINTING (R153). -/
theorem leavePaused_other {q : ControllerState} (remembered : b.controller.remembered = some q) (other : ¬ q = .printing) :
    b.leavePaused =
      if q = .staging then (b.resumed q).stagingChecks
      else if q = .voiding then (b.resumed q).askVoid
      else b.resumed q := by
  unfold Blocks.leavePaused
  dsimp only
  rw [resumed_of remembered, remembered]
  cases q with
  | printing => exact absurd rfl other
  | staging | voiding | awaitTear | idle | paused | faulted => rfl

/-- Leaving PAUSED for PRINTING, by the phase of the cursor (R153). -/
theorem leavePaused_printing {x : Phase} (remembered : b.controller.remembered = some .printing)
    (current : b.currentOrder = some o) :
    b.controller.phase = x → b.leavePaused =
      match x with
      | .pass =>
        if b.head.pass.isSome = true then (b.resumed .printing).withHead (b.head.resume b.homeSeen)
        else (b.resumed .printing).passOver
      | .feed => (b.resumed .printing).unawaited.walkFrom o fun n => decide (b.controller.line.getD 0 ≤ n)
      | .present => (b.resumed .printing).presentDone
      | .none => (b.resumed .printing).afterTicket
      | .close => b.resumed .printing := by
  rintro rfl
  have same : (b.resumed .printing).currentOrder = some o := current
  unfold Blocks.leavePaused
  dsimp only
  rw [resumed_of remembered, remembered]
  dsimp only
  rw [same]
  rfl

end

/-- A resume request to a homed head goes on to the approach (R85). -/
theorem Head.resume_suspended {h : Head} {seen : Bool} (suspended : h.carriage.activity = .suspended)
    (homed : h.carriage.homed = true) : h.resume seen = h.approach := by
  rw [Head.resume, suspended]
  exact if_pos homed

/-! ## Motions requested of the order's stock -/

section
variable {b : Blocks} {o : Order} {t : Tractor}

/-- A PRESENT begins with the stock at a form top (R98, R99, R144). -/
theorem present_begins (current : b.currentOrder = some o) (carries : (b.paper.stock t).form = some o.form)
    (apart : ¬ (b.paper.stock t.other).form = some o.form) (atPrint : (b.paper.stock t).state = .atPrint)
    (top : (b.paper.stock t).offset = some 0) (final : Bool) :
    b.present final =
      (b.feeding t (if (b.paper.stock t).endRemaining = some 0 then .eject else .present) .forward
        (if (b.paper.stock t).endRemaining = some 0 then 48 else 432) .issue 0).control fun c =>
          { c with phase := .present, awaitsHoming := false, presentFinal := final } := by
  have begins := askOwn_forward (n := 0)
    (b := b.control fun c => { c with phase := .present, awaitsHoming := false, presentFinal := final }) current carries
    apart ((meetsNeed_present _ t).2 ⟨atPrint, top⟩) (.inr (.inr ⟨rfl, rfl⟩))
  by_cases out : (b.paper.stock t).endRemaining = some 0
  case pos =>
    rw [if_pos out, if_pos out]
    exact begins.2 out (by decide)
  case neg =>
    rw [if_neg out, if_neg out]
    exact begins.1 out

/-- The void motion EJECT begins (R148). -/
theorem askVoid_ejects {r : Nat} (current : b.currentOrder = some o) (carries : (b.paper.stock t).form = some o.form)
    (apart : ¬ (b.paper.stock t.other).form = some o.form) (void : b.controller.voidMotion = some .eject)
    (inPath : (b.paper.stock t).state = .atPrint ∨ (b.paper.stock t).state = .presented)
    (left : (b.paper.stock t).endRemaining = some r) : b.askVoid = b.feeding t .eject .forward (r + 48) .issue 0 := by
  rw [Blocks.askVoid, void]
  exact askOwn_begins current carries apart (meetsNeed_eject inPath left) (course_eject left)

/-- The void motion FEED TO TOP begins, or ends the paper (R99, R148). -/
theorem askVoid_feeds {k : Nat} (current : b.currentOrder = some o) (carries : (b.paper.stock t).form = some o.form)
    (apart : ¬ (b.paper.stock t.other).form = some o.form) (void : b.controller.voidMotion = some .feedToTop)
    (atPrint : (b.paper.stock t).state = .atPrint) (offset : (b.paper.stock t).offset = some k) :
    (¬ (b.paper.stock t).endRemaining = some 0 →
        b.askVoid = b.feeding t .feedToTop .forward ((b.form o.form).length - k) .issue 0) ∧
      ((b.paper.stock t).endRemaining = some 0 → 0 < (b.form o.form).length - k →
        b.askVoid = b.feeding t .eject .forward 48 .issue 0) := by
  rw [Blocks.askVoid, void]
  have steps : (b.form o.form).length - k = b.stockLength t - (b.paper.stock t).offset.getD 0 := by
    rw [stockLength_of carries, offset, Option.getD_some]
  exact askOwn_forward (kind := .feedToTop) current carries apart (beq_iff_eq.2 atPrint) (.inr (.inl ⟨rfl, steps⟩))

end

/-- Settles O39: each clause is one of the lemmas above, with the motions of the order's stock begun. -/
theorem whatFollowsATicket : Obligations.WhatFollowsATicket := by
  intro b o current c complete unlessPaused presents staged ready
  refine ⟨?finished, ?finalPresent, ?cancelled, ?present, ?next, ?finalDone, ?stagesAgain, ?cancelledDone, ?awaitsTear, rfl,
    endVoided_eq b, fun held => ⟨passOver_voids held, homingOver_voids held⟩, passOver_walks current, ?homingOver,
    fun t carries apart => ?motions, headAnswered_other, fun printing => ?headAnswers, fun q remembered => ?leaves⟩
  case finished => exact fun done ends => (afterTicket_complete current done).trans (if_pos ends)
  case finalPresent =>
    intro done shown kept
    refine (afterTicket_complete current done).trans (if_neg ?_)
    exact not_or.2 ⟨shown, Bool.eq_false_iff.1 kept⟩
  case cancelled => exact fun more cancel => (afterTicket_more current more).trans (if_pos cancel)
  case present =>
    intro more kept each
    rw [afterTicket_more current more, if_neg (Bool.eq_false_iff.1 kept), if_pos each]
    rfl
  case next =>
    intro more kept other
    rw [afterTicket_more current more, if_neg (Bool.eq_false_iff.1 kept), if_neg other]
  case finalDone => exact fun final ends => (presentDone_final current final).trans (if_pos ends)
  case stagesAgain =>
    intro final more kept
    refine (presentDone_final current final).trans (if_neg ?_)
    exact not_or.2 ⟨more, Bool.eq_false_iff.1 kept⟩
  case cancelledDone => exact fun between cancel => (presentDone_between current between).trans (if_pos cancel)
  case awaitsTear =>
    exact fun between kept => (presentDone_between current between).trans (if_neg (Bool.eq_false_iff.1 kept))
  case homingOver => exact fun n span free line fires => homingOver_sends current free line fires
  case motions =>
    refine ⟨fun final atPrint top => present_begins current carries apart atPrint top final,
      fun r void inPath left => askVoid_ejects current carries apart void inPath left,
      fun k void atPrint offset left => (askVoid_feeds current carries apart void atPrint offset).1 left,
      fun k void atPrint offset out short =>
        (askVoid_feeds current carries apart void atPrint offset).2 out (Nat.sub_pos_of_lt short)⟩
  case headAnswers =>
    exact ⟨headAnswered_awaits printing, headAnswered_over printing, headAnswered_inPass printing,
      headAnswered_noPass printing⟩
  case leaves =>
    refine ⟨?_, ?_, ?_, ?_, ?_, ?_, ?_, ?_⟩
    · rintro rfl
      exact leavePaused_other remembered (by decide)
    · rintro rfl
      exact leavePaused_other remembered (by decide)
    · rintro (rfl | rfl)
      · exact leavePaused_other remembered (by decide)
      · exact leavePaused_other remembered (by decide)
    · rintro rfl phase
      exact leavePaused_printing remembered current phase
    · rintro rfl phase
      exact leavePaused_printing remembered current phase
    · rintro rfl phase
      exact leavePaused_printing remembered current phase
    · rintro rfl phase ended
      refine (leavePaused_printing remembered current phase).trans (if_neg ?_)
      rw [ended]
      exact Bool.false_ne_true
    · rintro rfl phase inPass suspended homed
      refine (leavePaused_printing remembered current phase).trans ((if_pos (Option.isSome_iff_ne_none.2 inPass)).trans ?_)
      rw [Head.resume_suspended suspended homed]
      rfl

end Sys2Proof.Machine
end

section
/-! SUPPORT. ORDER_CANCEL and the cancel notice (06, R130; 07, R86, R149 to R151, R154): what the notice does by the state of the
Issue Controller, and the proof of O34. -/

namespace Sys2Proof.Machine

/-! ## The notice -/

section
variable {b : Blocks}

/-- The void motion a cancel holds (R150). -/
theorem Controller.cancelVoid_eq (c : Controller) :
    c.cancelVoid =
      { c with voidMotion := if c.voidMotion = some .eject then some .eject else some .feedToTop } := by
  unfold Controller.cancelVoid
  cases c.voidMotion with
  | none => rfl
  | some m => cases m <;> rfl

/-- A void motion is held after a cancel (R150). -/
theorem Controller.cancelVoid_held (c : Controller) : ¬ c.cancelVoid.voidMotion = none := by
  rw [Controller.cancelVoid_eq]
  dsimp only
  split <;> exact Option.some_ne_none _

/-- In STAGING and VOIDING the mark alone is set (R149). -/
theorem cancelNotice_waits (waits : b.controller.state = .staging ∨ b.controller.state = .voiding) : b.cancelNotice = b := by
  rw [Blocks.cancelNotice]
  rcases waits with state | state <;> rw [state]

/-- In PRINTING with no ticket in flight the mark alone is set (R150). -/
theorem cancelNotice_noTicket (printing : b.controller.state = .printing) (none : b.ticketInFlight = false) :
    b.cancelNotice = b := by
  rw [Blocks.cancelNotice, printing]
  dsimp only
  rw [none, if_neg Bool.false_ne_true]

/-- With a ticket in flight a void motion is held (R150). -/
theorem cancelNotice_ticket (printing : b.controller.state = .printing) (inFlight : b.ticketInFlight = true) :
    b.cancelNotice =
      if b.controller.phase = .pass then (b.control Controller.cancelVoid).endPass else b.control Controller.cancelVoid := by
  rw [Blocks.cancelNotice, printing]
  exact if_pos inFlight

/-- A moving pass takes an end-pass request and goes on until its move ends (R86). -/
theorem endPass_moving (printing : b.controller.state = .printing) (free : b.controller.awaitsHoming = false)
    (phase : b.controller.phase = .pass) (inPass : ¬ b.head.pass = none)
    (moving : b.head.carriage.activity = .homing ∨ b.head.carriage.activity = .approach ∨
      b.head.carriage.activity = .segment) : b.endPass = b.withHead b.head.endAsked := by
  have asked : b.head.endAsked = { b.head with hold := .endPass } := by
    rw [Head.endAsked]
    rcases moving with activity | activity | activity <;> rw [activity]
  have on : ¬ b.head.carriage.activity = .suspended := by
    rcases moving with activity | activity | activity <;> rw [activity] <;> decide
  rw [Blocks.endPass, Head.endPass_endAsked, asked]
  exact (headAnswered_inPass (b := b.withHead { b.head with hold := .endPass }) printing free phase inPass).trans
    (if_neg on)

/-- A pass in a dwell, or suspended, ends at once, and a void that is held is entered (R86, R140). -/
theorem endPass_ended (printing : b.controller.state = .printing) (free : b.controller.awaitsHoming = false)
    (phase : b.controller.phase = .pass) (held : ¬ b.controller.voidMotion = none)
    (between : b.head.carriage.activity = .dwell ∨ b.head.carriage.activity = .suspended) :
    b.endPass = (b.withHead b.head.endAsked).enterVoiding := by
  have ended : b.head.endAsked.pass = none := by
    rw [Head.endAsked]
    rcases between with activity | activity <;> rw [activity]
  rw [Blocks.endPass, Head.endPass_endAsked, headAnswered_over (b := b.withHead b.head.endAsked) printing free phase ended]
  exact passOver_voids held

/-- In AWAIT_TEAR the work ends (R149). -/
theorem cancelNotice_awaitTear (state : b.controller.state = .awaitTear) : b.cancelNotice = b.endWork none := by
  rw [Blocks.cancelNotice, state]

/-- In PAUSED the notice is by the state remembered (R151). -/
theorem cancelNotice_paused {q : ControllerState} (state : b.controller.state = .paused) :
    b.controller.remembered = some q → b.cancelNotice =
      match q with
      | .staging | .awaitTear => (b.closeWork none .paused).control fun c => { c with remembered := some .idle }
      | .printing =>
        if b.ticketInFlight = true then
          (b.control fun c => { c.cancelVoid with remembered := some .voiding }).withHead b.head.endAsked
        else b
      | .idle | .voiding | .paused | .faulted => b := by
  intro remembered
  rw [Blocks.cancelNotice, state]
  dsimp only
  rw [remembered, ← Head.endPass_endAsked]
  cases q <;> rfl

/-- The end of work of the current order, with the controller cleared into a state (R124, R146). -/
theorem closeWork_current {tag : Nat} (current : b.controller.current = some tag) (state : ControllerState) :
    b.closeWork none state =
      { b with
        orders := b.orders.update tag fun o => o.closedBy none
        controller := { Controller.hardReset with state := state } } := by
  have ends : (fun o : Order => o.closedBy none) = fun o => o.ended none :=
    funext fun o => (o.ended_closedBy none).symm
  rw [Blocks.closeWork, current, ends]
  rfl

end

/-! ## The record and the notice given -/

/-- The notice is given for a RUNNING record that is newly marked (R130, R149). -/
theorem givesNotice_of {b : Blocks} {tag : Byte} {o : Order} (found : b.orders.find tag.toNat = some o) :
    b.givesNotice tag = (o.state == .running && !o.cancelPending) := by
  rw [Blocks.givesNotice, found]

/-- A RUNNING record is marked (R130). -/
theorem Order.cancelled_running {o : Order} (running : o.state = .running) :
    o.cancelled = { o with cancelPending := true } := by
  rw [Order.cancelled, running]

/-- A record that waits is closed (R130). -/
theorem Order.cancelled_waiting {o : Order} (isOpen : o.state.closed = false) (waits : ¬ o.state = .running) :
    o.cancelled = { o with state := .cancelled, halt := none, reported := false } := by
  rw [Order.cancelled]
  cases state : o.state with
  | running => exact absurd state waits
  | queued | held | halted => rfl
  | done | cancelled =>
    rw [state] at isOpen
    exact absurd isOpen (by decide)

/-- The records a cancel leaves before what follows of itself (R130, R149). -/
def Blocks.afterCancel (b : Blocks) (tag : Byte) : Blocks :=
  let c := b.withOrders (b.orders.update tag.toNat Order.cancelled)
  if b.givesNotice tag then c.cancelNotice else c

/-- ORDER_CANCEL with its notice and what follows of itself, as tests around the look-up of the record (R130). -/
theorem takeOrderCancel_checked (b : Blocks) (tag : Byte) :
    b.takeOrderCancel tag =
      b.checked [(tag == 0, .badValue)]
        ((b.orders.find tag.toNat).elim (b.refuse .noOrder) fun o =>
          b.checked [(o.state.closed, .wrongState)]
            { result := .ok, payload := [], blocks := (b.afterCancel tag).settle }) := by
  have table : b.orderCancel tag =
      b.checked [(tag == 0, .badValue)]
        ((b.orders.find tag.toNat).elim (b.refuse .noOrder) fun o =>
          b.checked [(o.state.closed, .wrongState)]
            ((b.withOrders (b.orders.update tag.toNat Order.cancelled)).answer .ok)) := by
    unfold Blocks.orderCancel
    cases b.orders.find tag.toNat <;> rfl
  rw [Blocks.takeOrderCancel, table]
  exact lookup_then b _ _ rfl fun o => checked_then b _ _ rfl

section
variable {b : Blocks} {tag : Byte} {o : Order}

/-- A record that waits is closed, and no notice is given (R130). -/
theorem afterCancel_waiting (ok : b.orders.ok) (found : b.orders.find tag.toNat = some o) (isOpen : o.state.closed = false)
    (waits : ¬ o.state = .running) :
    b.afterCancel tag =
      { b with
        orders := b.orders.update tag.toNat fun _ =>
          { o with state := .cancelled, halt := none, reported := false } } := by
  have silent : b.givesNotice tag = false := by
    rw [givesNotice_of found, beq_eq_false_iff_ne.2 waits, Bool.false_and]
  rw [Blocks.afterCancel, silent, if_neg Bool.false_ne_true, update_one ok found, Order.cancelled_waiting isOpen waits]
  rfl

/-- A record whose cancel is pending stays as it is (R130). -/
theorem afterCancel_pending (ok : b.orders.ok) (found : b.orders.find tag.toNat = some o) (running : o.state = .running)
    (pending : o.cancelPending = true) : b.afterCancel tag = b := by
  have silent : b.givesNotice tag = false := by
    rw [givesNotice_of found, pending, Bool.not_true, Bool.and_false]
  have same : ({ o with cancelPending := true } : Order) = o := by
    rw [← pending]
  rw [Blocks.afterCancel, silent, if_neg Bool.false_ne_true, update_one ok found, Order.cancelled_running running, same,
    update_same ok found]
  rfl

/-- The records with the cancel of the RUNNING order marked (R130). -/
def Blocks.cancelMarked (b : Blocks) (tag : Byte) (o : Order) : Blocks :=
  b.withOrders (b.orders.update tag.toNat fun _ => { o with cancelPending := true })

/-- A RUNNING record newly marked: the notice follows (R130, R149). -/
theorem afterCancel_running (ok : b.orders.ok) (found : b.orders.find tag.toNat = some o) (running : o.state = .running)
    (unmarked : o.cancelPending = false) : b.afterCancel tag = (b.cancelMarked tag o).cancelNotice := by
  have given : b.givesNotice tag = true := by
    rw [givesNotice_of found, running, unmarked]
    rfl
  rw [Blocks.afterCancel, given, if_pos rfl, update_one ok found, Order.cancelled_running running]
  rfl

/-- Marking a cancel changes no ticket in flight. -/
theorem cancelMarked_ticket (ok : b.orders.ok) (found : b.orders.find tag.toNat = some o) :
    (b.cancelMarked tag o).ticketInFlight = b.ticketInFlight :=
  ticketInFlight_update ok found _ rfl rfl

/-- A pause that returns to STAGING or AWAIT_TEAR: the work ends (R151). -/
theorem cancelMarked_closes (found : b.orders.find tag.toNat = some o) (current : b.currentOrder = some o)
    (unmarked : o.cancelPending = false) :
    (b.cancelMarked tag o).closeWork none .paused =
      { b with
        orders := b.orders.update tag.toNat fun _ =>
          { o with
            state := if o.done = o.requested then .done else .cancelled
            halt := none
            reported := false }
        controller := { Controller.hardReset with state := .paused } } := by
  obtain ⟨_, itsTag⟩ := OrderTable.find_mem found
  have isCurrent : (b.cancelMarked tag o).controller.current = some tag.toNat := by
    rw [← itsTag]
    exact (Blocks.currentOrder_some current).1
  have closed : ({ o with cancelPending := true } : Order).closedBy none =
      { o with
        state := if o.done = o.requested then .done else .cancelled
        halt := none
        reported := false } := by
    simp [Order.closedBy, unmarked]
  have table := update_update b.orders tag.toNat (fun _ => { o with cancelPending := true }) (fun x => x.closedBy none)
    fun _ _ => itsTag
  rw [closed] at table
  rw [closeWork_current isCurrent, ← table]
  rfl

end

/-- Settles O34: the tests of R130, the record written, and the notice by the state of the controller. -/
theorem orderCancelClosesOrMarks : Obligations.OrderCancelClosesOrMarks := by
  intro s tag ready
  refine ⟨_, rfl, ready.tested_lookup (takeOrderCancel_checked s.blocks tag)
    (.cons ⟨noTag_iff tag, rfl⟩ (.cons ⟨isNone_iff _, rfl⟩ .nil)) fun o held found ok => ?_⟩
  refine ready.tested found (.cons ⟨closed_iff o, rfl⟩ .nil) fun passed done => ?accepted
  case accepted =>
    have isOpen : o.state.closed = false := passed _ List.mem_cons_self
    have settles {c : Blocks} (left : s.blocks.afterCancel tag = c) :
        s.AnsweredSettled (s.deliver .addressed .orderCancel fun b => b.takeOrderCancel tag) .orderCancel .ok c :=
      answered_settled ready (done.trans (by rw [left]))
    refine ⟨fun waits => settles (afterCancel_waiting ok held isOpen waits),
      fun running pending => settles (afterCancel_pending ok held running pending), fun running unmarked => ?_⟩
    have notice := afterCancel_running ok held running unmarked
    have ticket := cancelMarked_ticket ok held
    have noticed {c : Blocks} (left : (s.blocks.cancelMarked tag o).cancelNotice = c) := settles (notice.trans left)
    refine ⟨fun waits => noticed (cancelNotice_waits waits), fun printing none => ?noTicket,
      fun printing inFlight other => ?feeding,
      fun printing inFlight phase free inPass => ⟨fun moving => ?moving, fun dwell => ?dwell⟩,
      fun state => noticed (cancelNotice_awaitTear state), fun state => ⟨?closes, ?voids, ?marks, ?inVoid⟩⟩
    case noTicket =>
      exact noticed (cancelNotice_noTicket (b := s.blocks.cancelMarked tag o) printing
        (ticket.trans (Bool.eq_false_of_not_eq_true none)))
    case feeding =>
      refine noticed ((cancelNotice_ticket (b := s.blocks.cancelMarked tag o) printing (ticket.trans inFlight)).trans
        ((if_neg other).trans ?_))
      rw [← Controller.cancelVoid_eq]
      rfl
    case moving =>
      refine noticed ((cancelNotice_ticket (b := s.blocks.cancelMarked tag o) printing (ticket.trans inFlight)).trans
        ((if_pos phase).trans ?_))
      rw [endPass_moving (b := (s.blocks.cancelMarked tag o).control Controller.cancelVoid) printing free phase inPass moving,
        ← Controller.cancelVoid_eq]
      rfl
    case dwell =>
      refine noticed ((cancelNotice_ticket (b := s.blocks.cancelMarked tag o) printing (ticket.trans inFlight)).trans
        ((if_pos phase).trans ?_))
      rw [endPass_ended (b := (s.blocks.cancelMarked tag o).control Controller.cancelVoid) printing free phase
        (Controller.cancelVoid_held _) (.inl dwell), ← Controller.cancelVoid_eq]
      rfl
    case closes =>
      intro remembered current
      refine noticed ?_
      have closed := cancelMarked_closes held current unmarked
      rcases remembered with remembered | remembered
      all_goals
        rw [cancelNotice_paused (b := s.blocks.cancelMarked tag o) state remembered, closed]
        rfl
    case voids =>
      intro remembered inFlight
      refine noticed ((cancelNotice_paused (b := s.blocks.cancelMarked tag o) state remembered).trans
        ((if_pos (ticket.trans inFlight)).trans ?_))
      rw [← Controller.cancelVoid_eq]
      rfl
    case marks =>
      intro remembered none
      exact noticed ((cancelNotice_paused (b := s.blocks.cancelMarked tag o) state remembered).trans
        (if_neg (by rw [ticket]; exact none)))
    case inVoid =>
      intro remembered
      exact noticed (cancelNotice_paused (b := s.blocks.cancelMarked tag o) state remembered)

end Sys2Proof.Machine
end

section
/-! SUPPORT. The level inputs (05, R93 to R96; 07, R114, R152, R153): what each debounced change does with its receiver, and the
proof of O41. -/

namespace Sys2Proof.Machine

/-! ## The debounce timers -/

/-- Writing back what an input holds changes nothing. -/
theorem Inputs.put_get (i : Inputs) (k : Input) : i.put k (i.get k) = i := by
  cases k <;> rfl

/-- A level that has not changed does nothing (R93). -/
theorem debounceStart_same {b : Blocks} {k : Input} {level : Bool} (same : level = (b.paper.inputs.get k).level) :
    b.debounceStart k level = b := by
  rw [Blocks.debounceStart, LevelInput.change, if_pos same, Inputs.put_get]
  rfl

/-- A level that has changed starts the timer, or abandons it (R93). -/
theorem debounceStart_changed {b : Blocks} {k : Input} {level : Bool} (changed : ¬ level = (b.paper.inputs.get k).level) :
    b.debounceStart k level =
      { b with
        paper :=
          { b.paper with
            inputs := b.paper.inputs.put k
              { b.paper.inputs.get k with
                level := level
                timer :=
                  if level = (b.paper.inputs.get k).debounced then none else some b.attention.debounceTime } } } := by
  rw [Blocks.debounceStart, LevelInput.change, if_neg changed]
  rfl

/-- Without a timer running nothing expires (R93). -/
theorem debounceExpiry_same {b : Blocks} {k : Input} (stopped : (b.paper.inputs.get k).timer = none) :
    b.debounceExpiry k = b := by
  rw [Blocks.debounceExpiry, stopped]

/-- The debounced state takes the level, the change is delivered, and what follows of itself comes after (R93, R94). -/
theorem debounceExpiry_takes {b : Blocks} {k : Input} (running : ¬ (b.paper.inputs.get k).timer = none) :
    b.debounceExpiry k = ((b.debounced k).deliverChange k (b.paper.inputs.get k).level).settle := by
  obtain ⟨n, timer⟩ := Option.ne_none_iff_exists'.1 running
  rw [Blocks.debounceExpiry, timer]
  rfl

/-- What an expiry leaves, by what its receiver makes of the change (R94). -/
theorem State.expires {s : State} {k : Input} (free : s.held = false)
    (running : ¬ (s.blocks.paper.inputs.get k).timer = none) {c : Blocks}
    (delivered : (s.blocks.debounced k).deliverChange k (s.blocks.paper.inputs.get k).level = c) :
    s.Settled (s.onBlocks fun b => b.debounceExpiry k) c :=
  State.onBlocks_settled free ((debounceExpiry_takes running).trans (by rw [delivered]))

/-- The same where settling is known (R94, R153). -/
theorem State.expires_became {s : State} {k : Input} (free : s.held = false)
    (running : ¬ (s.blocks.paper.inputs.get k).timer = none) {c : Blocks}
    (delivered : ((s.blocks.debounced k).deliverChange k (s.blocks.paper.inputs.get k).level).settle = c) :
    s.Became (s.onBlocks fun b => b.debounceExpiry k) c := by
  have became := State.onBlocks_became free fun b => b.debounceExpiry k
  rwa [debounceExpiry_takes running, delivered] at became

/-! ## The paper sensors -/

/-- The sensor input of a tractor (R95). -/
def sensorInput : Tractor → Input
  | .a => .psa
  | .b => .psb

/-- A sensor's change is a change of paper (R94, R95). -/
theorem deliverChange_sensor (b : Blocks) (u : Tractor) (level : Bool) :
    b.deliverChange (sensorInput u) level = b.paperChange u level := by
  cases u <;> rfl

/-- A stock lies in the path, not LOST (R91). -/
def StockState.onPath (x : StockState) : Prop := x = .moving ∨ x = .atPrint ∨ x = .presented

section
variable {b : Blocks} {u : Tractor}

/-- Paper at an ABSENT stock makes it SENSED (R95). -/
theorem paperChange_senses (absent : (b.paper.stock u).state = .absent) :
    b.paperChange u true =
      { b with
        paper := b.paper.setStock u { b.paper.stock u with state := .sensed }
        attention := b.attention.setPaperSet u (b.attention.paperSet u ||| 1) } := by
  rw [Blocks.paperChange, if_pos rfl, Blocks.paperAppears]
  dsimp only
  rw [absent]
  rfl

/-- No end of the paper comes to a stock out of the path (R96). -/
theorem endComes_off (off : ¬ (b.paper.stock u).state.onPath) : b.paper.endComes u = false := by
  rw [Paper.endComes]
  rw [Bool.and_eq_false_iff, Bool.or_eq_false_iff, Bool.or_eq_false_iff, beq_eq_false_iff_ne, beq_eq_false_iff_ne,
    beq_eq_false_iff_ne]
  exact .inl ⟨⟨fun e => off (.inl e), fun e => off (.inr (.inl e))⟩, fun e => off (.inr (.inr e))⟩

/-- Paper gone from a SENSED or PARKED stock makes it ABSENT (R95). -/
theorem paperChange_removes (outside : (b.paper.stock u).state = .sensed ∨ (b.paper.stock u).state = .parked) :
    b.paperChange u false =
      { b with
        paper := b.paper.setStock u { state := .absent, form := none, offset := none, endRemaining := none }
        attention := b.attention.setPaperSet u (b.attention.paperSet u ||| 2) } := by
  have off : ¬ (b.paper.stock u).state.onPath := by
    rcases outside with e | e <;> rw [e, StockState.onPath] <;> decide
  rw [Blocks.paperChange, if_neg Bool.false_ne_true, endComes_off off, if_neg Bool.false_ne_true, Blocks.paperGoes]
  rcases outside with e | e <;> rw [e] <;> rfl

/-- Paper gone from a stock in the path sets end remaining, and the Issue Controller is told (R96). -/
theorem paperChange_runsOut (onPath : (b.paper.stock u).state.onPath) (whole : (b.paper.stock u).endRemaining = none) :
    b.paperChange u false = (b.ranOut u).paperEndNotice u := by
  obtain ⟨ran, comes⟩ := ranOut_goes onPath whole
  rw [Blocks.paperChange, if_neg Bool.false_ne_true, comes, if_pos rfl, ran]

/-- The notice of a stock whose form is not the current order's does nothing (R147). -/
theorem paperEndNotice_other (other : ∀ o, b.currentOrder = some o → ¬ (b.paper.stock u).form = some o.form) :
    (b.ranOut u).paperEndNotice u = b.ranOut u := by
  have same : (b.ranOut u).currentOrder = b.currentOrder := rfl
  rw [Blocks.paperEndNotice, same]
  cases current : b.currentOrder with
  | none => rfl
  | some o =>
    dsimp only
    rw [if_neg]
    rw [(ranOut_frame b u).1, Paper.carrier]
    intro carrier
    refine other o current ?_
    split at carrier
    next first =>
      cases carrier
      exact first
    next =>
      split at carrier
      next second =>
        cases carrier
        exact second
      next => cases carrier

/-- Neither change does anything to a stock in the path whose end is known, nor to a LOST one (R95, R96). -/
theorem paperChange_stays (stays : (b.paper.stock u).state.onPath ∧ ¬ (b.paper.stock u).endRemaining = none ∨
    (b.paper.stock u).state = .lost) (level : Bool) : b.paperChange u level = b := by
  have known : b.paper.endComes u = false := by
    rcases stays with ⟨_, left⟩ | lost
    · obtain ⟨r, left⟩ := Option.ne_none_iff_exists'.1 left
      rw [Paper.endComes]
      rw [left, Option.isNone_some, Bool.and_false]
    · refine endComes_off ?_
      rw [lost, StockState.onPath]
      decide
  cases level
  case true =>
    rw [Blocks.paperChange, if_pos rfl, Blocks.paperAppears]
    rcases stays with ⟨e | e | e, _⟩ | e <;> rw [e]
  case false =>
    rw [Blocks.paperChange, if_neg Bool.false_ne_true, known, if_neg Bool.false_ne_true, Blocks.paperGoes]
    rcases stays with ⟨e | e | e, left⟩ | e
    case inr => rw [e]
    all_goals
      obtain ⟨r, left⟩ := Option.ne_none_iff_exists'.1 left
      rw [e, left]

/-! ## The cover -/

/-- An open cover does nothing in IDLE, PAUSED and FAULTED (R152). -/
theorem coverOpens_same (rest : b.controller.state = .idle ∨ b.controller.state = .paused ∨ b.controller.state = .faulted) :
    b.coverOpens = b := by
  rw [Blocks.coverOpens]
  rcases rest with e | e | e <;> rw [e]

/-- An open cover sets the mark in STAGING and VOIDING (R152). -/
theorem coverOpens_marks (works : b.controller.state = .staging ∨ b.controller.state = .voiding) :
    b.coverOpens = b.markCover := by
  rw [Blocks.coverOpens]
  rcases works with e | e <;> rw [e]

/-- An open cover pauses AWAIT_TEAR (R152). -/
theorem coverOpens_pauses (awaits : b.controller.state = .awaitTear) : b.coverOpens = b.enterPaused .awaitTear := by
  rw [Blocks.coverOpens, awaits]

/-- A closed cover is a home request in IDLE (R153). -/
theorem coverCloses_idle (idle : b.controller.state = .idle) : b.coverCloses = b.requestHome .cover := by
  rw [Blocks.coverCloses, idle]

/-- A closed cover does nothing elsewhere of itself (R153). -/
theorem coverCloses_other (other : ¬ b.controller.state = .idle) : b.coverCloses = b := by
  rw [Blocks.coverCloses]
  split
  next idle => exact absurd idle other
  all_goals rfl

/-- A home request of the cover outside PAUSED, HOME asserted: its success goes no further (R68, R153). -/
theorem requestHome_cover_seen (rest : b.head.carriage.activity = .idle ∨ b.head.carriage.activity = .suspended)
    (seen : b.homeSeen = true) :
    b.requestHome .cover =
      if b.controller.state = .paused ∧ b.coverOpen = false then
        Blocks.leavePaused { b.homingFor .cover with head := (b.homingFor .cover).head.homedAt }
      else { b.homingFor .cover with head := (b.homingFor .cover).head.homedAt } :=
  ((Blocks.requestHome_rest rest).2 seen).trans (Blocks.homed_cover _)

/-- A cover closed in PAUSED, HOME not asserted: a homing begins (R153). -/
theorem settle_covers_begins (paused : b.controller.state = .paused) (closed : b.coverOpen = false)
    (rest : b.head.carriage.activity = .idle ∨ b.head.carriage.activity = .suspended) (unseen : b.homeSeen = false) :
    b.settle = b.homingFor .cover := by
  have taken : b.takeClosedCover = b.homingFor .cover := by
    rw [Blocks.takeClosedCover_paused paused closed, if_neg, (Blocks.requestHome_rest rest).1 unseen]
    rintro ⟨homing, _⟩
    rcases rest with e | e <;> exact absurd (homing.symm.trans e) (by decide)
  exact paused_settled taken paused

/-- A cover closed in PAUSED, HOME asserted: the pause is left (R153). -/
theorem settle_covers_leaves (paused : b.controller.state = .paused) (closed : b.coverOpen = false)
    (rest : b.head.carriage.activity = .idle ∨ b.head.carriage.activity = .suspended) (seen : b.homeSeen = true) {left : Blocks}
    (leaves : Blocks.leavePaused { b.homingFor .cover with head := (b.homingFor .cover).head.homedAt } = left)
    (gone : ¬ left.controller.state = .paused) : b.settle = left.settle := by
  refine Blocks.settle_left ?_ gone
  rw [Blocks.takeClosedCover_paused paused closed, if_neg, requestHome_cover_seen rest seen, if_pos ⟨paused, closed⟩, leaves]
  rintro ⟨homing, _⟩
  rcases rest with e | e <;> exact absurd (homing.symm.trans e) (by decide)

/-- The records once the cover's request has joined the homing in flight (R68). -/
def Blocks.coverJoined (b : Blocks) : Blocks :=
  { b.notIdle with
    head :=
      { b.head with
        homeFor := if .cover ∈ b.head.homeFor then b.head.homeFor else b.head.homeFor ++ [.cover] } }

/-- A cover closed in PAUSED joins the homing in flight (R68, R153). -/
theorem settle_covers_joins (paused : b.controller.state = .paused) (closed : b.coverOpen = false)
    (homing : b.head.carriage.activity = .homing) : b.settle = b.coverJoined := by
  by_cases asked : .cover ∈ b.head.homeFor
  case pos =>
    have taken : b.takeClosedCover = b := by
      rw [Blocks.takeClosedCover_paused paused closed, if_pos ⟨homing, asked⟩]
    rw [paused_settled taken paused, Blocks.coverJoined, if_pos asked]
    rfl
  case neg =>
    have taken : b.takeClosedCover = b.coverJoined := by
      rw [Blocks.takeClosedCover_paused paused closed, if_neg (fun both => asked both.2), Blocks.requestHome_joins homing]
      rfl
    exact paused_settled taken paused

/-- Leaving a pause that returns to IDLE (R153). -/
theorem leavePaused_idle (remembered : b.controller.remembered = some .idle) :
    b.leavePaused = b.control fun c => { c with state := .idle, remembered := none } :=
  leavePaused_other remembered (by decide)

/-! ## TEAR -/

/-- TEAR does nothing outside IDLE and AWAIT_TEAR (R114, R154). -/
theorem tearPressed_other (working : ¬ b.controller.state = .idle) (away : ¬ b.controller.state = .awaitTear) :
    b.tearPressed = b := by
  rw [Blocks.tearPressed]
  split
  next awaits => exact absurd awaits away
  next idle => exact absurd idle working
  all_goals rfl

/-- The conditions of R114 for a TEAR in IDLE. -/
def Blocks.mayTear (b : Blocks) (u : Tractor) : Prop :=
  (b.paper.stock u).state = .presented ∧ b.paper.motion = none ∧ ¬ b.head.carriage.activity = .homing ∧
    b.coverOpen = false

/-- TEAR in IDLE retracts a presented stock (R114). -/
theorem tearPressed_retracts (idle : b.controller.state = .idle) (inPath : b.paper.pathTractor = some u) (may : b.mayTear u) :
    b.tearPressed = b.beginMotion u .retract 0 .tear 0 := by
  rw [Blocks.tearPressed, idle]
  dsimp only
  rw [inPath]
  exact if_pos may

/-- TEAR in IDLE does nothing where a condition does not hold (R114). -/
theorem tearPressed_same (idle : b.controller.state = .idle) (none : ∀ u, b.paper.pathTractor = some u → ¬ b.mayTear u) :
    b.tearPressed = b := by
  rw [Blocks.tearPressed, idle]
  dsimp only
  cases inPath : b.paper.pathTractor with
  | none => rfl
  | some u => exact if_neg (none u inPath)

/-- A motion that begins in calm records is all that happens (R168). -/
theorem beginMotion_settles {kind : MotionKind} {q : Requester} {course : Course} (calm : b.calm)
    (taken : courseOf u (b.paper.stock u) (b.stockLength u) kind 0 = course) :
    (b.beginMotion u kind 0 q 0).settle = b.inMotion u course.kind course.direction course.steps q 0 := by
  have cover : (b.beginMotion u kind 0 q 0).coverOpen = b.coverOpen := by
    cases u <;> rfl
  have quiet : (b.beginMotion u kind 0 q 0).calm := calm.of_same rfl rfl cover
  rw [quiet.settle, Blocks.settleIdle_moving rfl, Blocks.beginMotion_inMotion b u kind 0 q 0 taken]

end

/-! ## The change at its receiver -/

/-- A closed cover in PAUSED is taken with what follows of itself (R94, R153). -/
theorem deliverChange_closed_paused {b : Blocks} (paused : b.controller.state = .paused) :
    b.deliverChange .cover false = b :=
  coverCloses_other fun idle => absurd (paused.symm.trans idle) (by decide)

section
variable {s : State} {c : Blocks} (free : s.held = false)
include free

/-- An expiry at a paper sensor, by what the change of paper makes (R94, R95). -/
theorem State.expires_sensor {u : Tractor} {level : Bool} (running : ¬ (s.blocks.paper.inputs.get (sensorInput u)).timer = none)
    (reads : (s.blocks.paper.inputs.get (sensorInput u)).level = level)
    (changed : (s.blocks.debounced (sensorInput u)).paperChange u level = c) :
    s.Settled (s.onBlocks fun b => b.debounceExpiry (sensorInput u)) c := by
  refine State.expires free running ?_
  rw [reads, deliverChange_sensor, changed]

/-- An expiry at the cover switch, the cover now open (R94, R152). -/
theorem State.expires_open (running : ¬ (s.blocks.paper.inputs.get .cover).timer = none)
    (reads : (s.blocks.paper.inputs.get .cover).level = true) (changed : (s.blocks.debounced .cover).coverOpens = c) :
    s.Settled (s.onBlocks fun b => b.debounceExpiry .cover) c := by
  refine State.expires free running ?_
  rw [reads]
  exact changed

/-- An expiry at the cover switch, the cover now closed (R94, R153). -/
theorem State.expires_closed (running : ¬ (s.blocks.paper.inputs.get .cover).timer = none)
    (reads : (s.blocks.paper.inputs.get .cover).level = false) (changed : (s.blocks.debounced .cover).coverCloses = c) :
    s.Settled (s.onBlocks fun b => b.debounceExpiry .cover) c := by
  refine State.expires free running ?_
  rw [reads]
  exact changed

/-- A cover closed in PAUSED, HOME not asserted: a homing begins (R94, R153). -/
theorem State.expires_covers_begins (running : ¬ (s.blocks.paper.inputs.get .cover).timer = none)
    (reads : (s.blocks.paper.inputs.get .cover).level = false) (paused : (s.blocks.debounced .cover).controller.state = .paused)
    (rest : (s.blocks.debounced .cover).head.carriage.activity = .idle ∨
      (s.blocks.debounced .cover).head.carriage.activity = .suspended)
    (unseen : (s.blocks.debounced .cover).homeSeen = false) :
    s.Became (s.onBlocks fun b => b.debounceExpiry .cover) ((s.blocks.debounced .cover).homingFor .cover) := by
  refine State.expires_became free running ?_
  rw [reads, deliverChange_closed_paused paused]
  exact settle_covers_begins paused reads rest unseen

/-- A cover closed in PAUSED, HOME asserted: the pause is left (R94, R153). -/
theorem State.expires_covers_leaves (running : ¬ (s.blocks.paper.inputs.get .cover).timer = none)
    (reads : (s.blocks.paper.inputs.get .cover).level = false) (paused : (s.blocks.debounced .cover).controller.state = .paused)
    (rest : (s.blocks.debounced .cover).head.carriage.activity = .idle ∨
      (s.blocks.debounced .cover).head.carriage.activity = .suspended)
    (seen : (s.blocks.debounced .cover).homeSeen = true)
    (leaves : Blocks.leavePaused
      { (s.blocks.debounced .cover).homingFor .cover with
        head := ((s.blocks.debounced .cover).homingFor .cover).head.homedAt } = c)
    (gone : ¬ c.controller.state = .paused) : s.Settled (s.onBlocks fun b => b.debounceExpiry .cover) c := by
  refine State.onBlocks_settled free ((debounceExpiry_takes running).trans ?_)
  rw [reads, deliverChange_closed_paused paused]
  exact settle_covers_leaves paused reads rest seen leaves gone

/-- A cover closed in PAUSED joins the homing in flight (R68, R94, R153). -/
theorem State.expires_covers_joins (running : ¬ (s.blocks.paper.inputs.get .cover).timer = none)
    (reads : (s.blocks.paper.inputs.get .cover).level = false) (paused : (s.blocks.debounced .cover).controller.state = .paused)
    (homing : (s.blocks.debounced .cover).head.carriage.activity = .homing) :
    s.Became (s.onBlocks fun b => b.debounceExpiry .cover) (s.blocks.debounced .cover).coverJoined := by
  refine State.expires_became free running ?_
  rw [reads, deliverChange_closed_paused paused]
  exact settle_covers_joins paused reads homing

/-- An expiry at TEAR pressed (R94, R114). -/
theorem State.expires_tear (running : ¬ (s.blocks.paper.inputs.get .tear).timer = none)
    (reads : (s.blocks.paper.inputs.get .tear).level = true) (changed : (s.blocks.debounced .tear).tearPressed = c) :
    s.Settled (s.onBlocks fun b => b.debounceExpiry .tear) c := by
  refine State.expires free running ?_
  rw [reads]
  exact changed

/-- The same where settling is known (R94, R114). -/
theorem State.expires_tear_became (running : ¬ (s.blocks.paper.inputs.get .tear).timer = none)
    (reads : (s.blocks.paper.inputs.get .tear).level = true)
    (changed : (s.blocks.debounced .tear).tearPressed.settle = c) :
    s.Became (s.onBlocks fun b => b.debounceExpiry .tear) c := by
  refine State.expires_became free running ?_
  rw [reads]
  exact changed

end

/-- A home request of the cover in IDLE, HOME asserted (R68, R153). -/
theorem requestHome_cover_idle {b : Blocks} (idle : b.controller.state = .idle)
    (rest : b.head.carriage.activity = .idle ∨ b.head.carriage.activity = .suspended) (seen : b.homeSeen = true) :
    b.requestHome .cover = { b.homingFor .cover with head := (b.homingFor .cover).head.homedAt } := by
  rw [requestHome_cover_seen rest seen, if_neg]
  rintro ⟨paused, _⟩
  exact absurd (idle.symm.trans paused) (by decide)

/-- Settles O41: each debounced change at its receiver, by the input and what it finds. -/
theorem debouncedChangesReachTheirReceivers : Obligations.DebouncedChangesReachTheirReceivers := by
  refine fun s k free => ⟨fun level => ⟨_, rfl, fun same => State.onBlocks_same (debounceStart_same same),
      fun changed => ?starts⟩, _, rfl, fun stopped => State.onBlocks_same (debounceExpiry_same stopped), fun running => ⟨?home, ?senses, ?removes,
    ?runsOut, ?stays, ?openRest, ?openMarks, ?openPauses, ?closed, ?released, ?retracts, ?ignored⟩⟩
  case starts =>
    have became := s.onBlocks_became free fun b => b.debounceStart k level
    rwa [debounceStart_changed changed] at became
  case home =>
    rintro rfl
    exact State.expires free running rfl
  case senses =>
    intro u wired up absent
    obtain rfl : k = sensorInput u := by cases u <;> exact wired
    exact State.expires_sensor free running up (paperChange_senses absent)
  case removes =>
    intro u wired down outside
    obtain rfl : k = sensorInput u := by cases u <;> exact wired
    exact State.expires_sensor free running down (paperChange_removes outside)
  case runsOut =>
    intro u wired down onPath whole other
    obtain rfl : k = sensorInput u := by cases u <;> exact wired
    exact State.expires_sensor free running down ((paperChange_runsOut onPath whole).trans (paperEndNotice_other other))
  case stays =>
    intro u wired stays
    obtain rfl : k = sensorInput u := by cases u <;> exact wired
    exact State.expires_sensor free running rfl (paperChange_stays stays _)
  case openRest =>
    rintro rfl up rest
    exact State.expires_open free running up (coverOpens_same rest)
  case openMarks =>
    rintro rfl up works
    exact State.expires_open free running up (coverOpens_marks works)
  case openPauses =>
    rintro rfl up awaits
    exact State.expires_open free running up (coverOpens_pauses awaits)
  case closed =>
    rintro rfl down
    have idleGone : ¬ ControllerState.idle = .paused := by decide
    refine ⟨fun working paused => ?_, fun idle => ⟨fun rest unseen => ?_, fun rest seen => ?_, fun homing => ?_⟩,
      fun paused remembered => ⟨fun rest unseen => ?_, fun rest seen => ?_, fun homing => ?_⟩⟩
    · exact State.expires_closed free running down (coverCloses_other working)
    · exact State.expires_closed free running down ((coverCloses_idle idle).trans ((Blocks.requestHome_rest rest).1 unseen))
    · exact State.expires_closed free running down ((coverCloses_idle idle).trans (requestHome_cover_idle idle rest seen))
    · exact State.expires_closed free running down ((coverCloses_idle idle).trans (Blocks.requestHome_joins homing))
    · exact State.expires_covers_begins free running down paused rest unseen
    · exact State.expires_covers_leaves free running down paused rest seen (leavePaused_idle remembered) idleGone
    · exact State.expires_covers_joins free running down paused homing
  case released =>
    rintro rfl down
    exact State.expires free running (congrArg ((s.blocks.debounced .tear).deliverChange .tear) down)
  case retracts =>
    rintro u rfl up idle inPath presented still rest shut calm
    have began := congrArg Blocks.settle (tearPressed_retracts idle inPath ⟨presented, still, rest, shut⟩)
    exact ⟨fun stays => State.expires_tear_became free running up
        (began.trans (beginMotion_settles calm (course_retract_stays stays))),
      fun r left passes => State.expires_tear_became free running up
        (began.trans (beginMotion_settles calm (course_retract_passes left passes)))⟩
  case ignored =>
    rintro rfl up away fails
    refine State.expires_tear free running up ?_
    by_cases idle : (s.blocks.debounced .tear).controller.state = .idle
    case neg => exact tearPressed_other idle away
    refine tearPressed_same idle fun u inPath may => ?_
    obtain ⟨presented, still, rest, shut⟩ := may
    rcases fails with working | unpresented | moves | homing | isOpen
    · exact working idle
    · exact unpresented u inPath presented
    · exact moves still
    · exact rest homing
    · exact Bool.false_ne_true (shut.symm.trans isOpen)

end Sys2Proof.Machine
end

section
/-! SUPPORT. What the inputs do under a current order (07, R145, R147, R152 to R154): the paper-end notice, the cover and TEAR, and
the proof of O40. -/

namespace Sys2Proof.Machine

/-! ## The paper-end notice -/

section
variable {b : Blocks} {o : Order} {u : Tractor} (current : b.currentOrder = some o) (carries : (b.paper.stock u).form = some o.form)
  (apart : ¬ (b.paper.stock u.other).form = some o.form)
include current carries apart

/-- The notice of a stock that carries the order's form, by the state (R147). -/
theorem paperEndNotice_carries :
    b.paperEndNotice u =
      match b.controller.state with
      | .printing =>
        if (b.ticketInFlight && b.endShort u o.form) = true then
          if b.controller.phase = .pass then (b.control Controller.shortPaper).endPass
          else b.control Controller.shortPaper
        else b
      | .paused =>
        if (b.ticketInFlight && b.endShort u o.form) = true then
          (b.control fun c => { c.shortPaper with remembered := some .voiding }).withHead b.head.endAsked
        else b
      | .voiding => b.control fun c => { c with heldReason := some (c.reason .paperEnd) }
      | .idle | .staging | .awaitTear | .faulted => b := by
  rw [Blocks.paperEndNotice, current, ← Head.endPass_endAsked]
  dsimp only
  refine (if_pos (carrier_some carries apart)).trans ?_
  cases b.controller.state <;> rfl

/-- With nothing to void the notice does nothing (R147). -/
theorem paperEndNotice_enough (enough : (b.ticketInFlight && b.endShort u o.form) = false)
    (works : b.controller.state = .printing ∨ b.controller.state = .paused) : b.paperEndNotice u = b := by
  rw [paperEndNotice_carries current carries apart, enough]
  rcases works with state | state <;> rw [state] <;> rfl

/-- In STAGING and AWAIT_TEAR the notice does nothing (R147). -/
theorem paperEndNotice_rest (rest : b.controller.state = .staging ∨ b.controller.state = .awaitTear) :
    b.paperEndNotice u = b := by
  rw [paperEndNotice_carries current carries apart]
  rcases rest with state | state <;> rw [state]

/-- Short paper in PRINTING outside a pass holds PAPER_END and EJECT (R147). -/
theorem paperEndNotice_holds (short : (b.ticketInFlight && b.endShort u o.form) = true)
    (printing : b.controller.state = .printing) (phase : ¬ b.controller.phase = .pass) :
    b.paperEndNotice u = b.control Controller.shortPaper := by
  rw [paperEndNotice_carries current carries apart, printing]
  exact (if_pos short).trans (if_neg phase)

/-- Short paper in a pass ends the pass too (R147). -/
theorem paperEndNotice_endsPass (short : (b.ticketInFlight && b.endShort u o.form) = true)
    (printing : b.controller.state = .printing) (phase : b.controller.phase = .pass) :
    b.paperEndNotice u = (b.control Controller.shortPaper).endPass := by
  rw [paperEndNotice_carries current carries apart, printing]
  exact (if_pos short).trans (if_pos phase)

/-- Short paper in a pause: the pause returns to VOIDING (R154). -/
theorem paperEndNotice_paused (short : (b.ticketInFlight && b.endShort u o.form) = true)
    (paused : b.controller.state = .paused) :
    b.paperEndNotice u =
      (b.control fun c => { c.shortPaper with remembered := some .voiding }).withHead b.head.endAsked := by
  rw [paperEndNotice_carries current carries apart, paused]
  exact if_pos short

/-- In VOIDING the reason is held where none is (R147). -/
theorem paperEndNotice_voiding (voiding : b.controller.state = .voiding) :
    b.paperEndNotice u = b.control fun c => { c with heldReason := some (c.reason .paperEnd) } := by
  rw [paperEndNotice_carries current carries apart, voiding]

/-- TEAR in AWAIT_TEAR with a stock to retract (R145). -/
theorem tearPressed_begins (awaits : b.controller.state = .awaitTear) (presented : (b.paper.stock u).state = .presented)
    {course : Course} (taken : courseOf u (b.paper.stock u) (b.stockLength u) .retract 0 = course) :
    b.tearPressed =
      (b.control fun c => { c.cursorCleared with state := .staging }).feeding u course.kind course.direction course.steps
        .issue 0 := by
  have found : (b.control fun c => { c.cursorCleared with state := .staging }).orderTractor = some u :=
    orderTractor_of (b := b.control fun c => { c.cursorCleared with state := .staging }) current carries apart
  have need : (b.control fun c => { c.cursorCleared with state := .staging }).paper.meetsNeed u .retract = true :=
    beq_iff_eq.2 presented
  rw [Blocks.tearPressed, awaits]
  dsimp only
  rw [found]
  dsimp only
  rw [Blocks.requestMotion, if_pos need]
  exact Blocks.beginMotion_feeding _ u .retract 0 .issue 0 taken

/-- TEAR in AWAIT_TEAR with no stock to retract: the checks of STAGING follow (R145). -/
theorem tearPressed_stages (awaits : b.controller.state = .awaitTear) (away : ¬ (b.paper.stock u).state = .presented) :
    b.tearPressed = (b.control fun c => { c.cursorCleared with state := .staging }).stagingChecks := by
  have found : (b.control fun c => { c.cursorCleared with state := .staging }).orderTractor = some u :=
    orderTractor_of (b := b.control fun c => { c.cursorCleared with state := .staging }) current carries apart
  have need : ¬ (b.control fun c => { c.cursorCleared with state := .staging }).paper.meetsNeed u .retract = true :=
    fun meets => away (beq_iff_eq.1 meets)
  rw [Blocks.tearPressed, awaits]
  dsimp only
  rw [found]
  dsimp only
  rw [Blocks.requestMotion, if_neg need]

end

/-! ## The end of the paper -/

/-- Its end changes the form of no stock (R96). -/
theorem ranOut_form (b : Blocks) (u v : Tractor) : ((b.ranOut u).paper.stock v).form = (b.paper.stock v).form := by
  cases u <;> cases v <;> rfl

/-- Paper too short for the ticket, once it has gone from the load mark (R96, R147). -/
theorem endShort_ranOut {b : Blocks} {u : Tractor} {f position : Nat} (lies : (b.ranOut u).paper.position u = position) :
    (b.ranOut u).endShort u f = decide (u.distance < (b.form f).length - position) := by
  obtain ⟨_, left, _⟩ := ranOut_frame b u
  rw [Blocks.endShort, left, lies]
  rfl

/-- What the notice tests, by the ticket in flight and the paper left (R147). -/
theorem ticketShort_ranOut {b : Blocks} {o : Order} {u : Tractor} {position : Nat} (current : b.currentOrder = some o)
    (inFlight : (b.form o.form).inFlight = true) (lies : (b.ranOut u).paper.position u = position) :
    ((b.ranOut u).ticketInFlight && (b.ranOut u).endShort u o.form) =
      decide (u.distance < (b.form o.form).length - position) := by
  have same : (b.ranOut u).ticketInFlight = (b.form o.form).inFlight := ticketInFlight_of current
  rw [same, inFlight, Bool.true_and, endShort_ranOut lies]

/-- Nothing is voided without a ticket in flight (R147). -/
theorem ticketShort_none {b : Blocks} {o : Order} {u : Tractor} (current : b.currentOrder = some o)
    (landed : ¬ (b.form o.form).inFlight = true) : (b.ticketInFlight && b.endShort u o.form) = false := by
  rw [ticketInFlight_of current, Bool.eq_false_of_not_eq_true landed, Bool.false_and]

/-! ## The cover in PRINTING -/

/-- A pause request to a head at rest is refused (R84). -/
theorem Head.pause_rest {h : Head} (rest : h.carriage.activity = .idle ∨ h.carriage.activity = .suspended) : h.pause = h := by
  rw [Head.pause]
  rcases rest with activity | activity <;> rw [activity]

/-- A pause request at work is held behind an end-pass request (R84, R87). -/
theorem Head.pause_working {h : Head} (busy : ¬ h.carriage.activity = .idle) (going : ¬ h.carriage.activity = .suspended) :
    h.pause = { h with hold := if h.hold = .endPass then .endPass else .pause } := by
  have held : (match h.hold with | .none => Hold.pause | .pause => .pause | .endPass => .endPass) =
      if h.hold = .endPass then .endPass else .pause := by
    cases h.hold <;> rfl
  rw [Head.pause]
  cases activity : h.carriage.activity with
  | idle => exact absurd activity busy
  | suspended => exact absurd activity going
  | homing | approach | segment | dwell => exact congrArg (fun hold => { h with hold := hold }) held

/-- An open cover in PRINTING sets the mark, and asks a pause of a pass no void is held for (R152). -/
theorem coverOpens_printing {b : Blocks} (printing : b.controller.state = .printing) :
    b.coverOpens =
      if b.controller.phase = .pass ∧ b.controller.voidMotion = none then b.markCover.withHead b.head.pause
      else b.markCover := by
  rw [Blocks.coverOpens, printing]

/-- Settles O40: each input under a current order, by what it finds. -/
theorem interruptionsUnderAnOrder : Obligations.InterruptionsUnderAnOrder := by
  refine fun s k o free current running => ⟨_, rfl, ?ends, ?opens, ?openPaused, ?closes, ?tear⟩
  case ends =>
    intro u wired down carries apart onPath whole
    obtain rfl : k = sensorInput u := by cases u <;> exact wired
    have ranCurrent : ((s.blocks.debounced (sensorInput u)).ranOut u).currentOrder = some o := current
    have ranCarries := (ranOut_form (s.blocks.debounced (sensorInput u)) u u).trans carries
    have ranApart := mt (ranOut_form (s.blocks.debounced (sensorInput u)) u u.other).symm.trans apart
    have noticed {c : Blocks} (left : ((s.blocks.debounced (sensorInput u)).ranOut u).paperEndNotice u = c) :=
      State.expires_sensor free running down ((paperChange_runsOut onPath whole).trans left)
    have tested (inFlight : ((s.blocks.debounced (sensorInput u)).form o.form).inFlight = true)
        (forward : ∀ m, (s.blocks.debounced (sensorInput u)).paper.motion = some m → m.tractor = u → m.direction = .forward) :=
      ticketShort_ranOut (b := s.blocks.debounced (sensorInput u)) current inFlight
        ((ranOut_frame (s.blocks.debounced (sensorInput u)) u).2.2 forward)
    refine ⟨fun rest => noticed (paperEndNotice_rest ranCurrent ranCarries ranApart rest), fun works landed => ?landed,
      fun works inFlight forward enough => ?enough, fun printing inFlight forward short phase => ?holds,
      fun printing inFlight forward short phase awaits inPass => ⟨fun moving => ?moving, fun between => ?between⟩,
      fun paused inFlight forward short => ?paused, fun voiding => ?voiding⟩
    case landed => exact noticed (paperEndNotice_enough ranCurrent ranCarries ranApart (ticketShort_none ranCurrent landed) works)
    case enough =>
      exact noticed (paperEndNotice_enough ranCurrent ranCarries ranApart
        ((tested inFlight forward).trans (decide_eq_false enough)) works)
    case holds =>
      exact noticed (paperEndNotice_holds ranCurrent ranCarries ranApart
        ((tested inFlight forward).trans (decide_eq_true short)) printing phase)
    case moving =>
      exact noticed ((paperEndNotice_endsPass ranCurrent ranCarries ranApart
        ((tested inFlight forward).trans (decide_eq_true short)) printing phase).trans
          (endPass_moving (b := ((s.blocks.debounced (sensorInput u)).ranOut u).control Controller.shortPaper) printing awaits
            phase inPass moving))
    case between =>
      exact noticed ((paperEndNotice_endsPass ranCurrent ranCarries ranApart
        ((tested inFlight forward).trans (decide_eq_true short)) printing phase).trans
          (endPass_ended (b := ((s.blocks.debounced (sensorInput u)).ranOut u).control Controller.shortPaper) printing awaits
            phase (Option.some_ne_none _) between))
    case paused =>
      exact noticed (paperEndNotice_paused ranCurrent ranCarries ranApart
        ((tested inFlight forward).trans (decide_eq_true short)) paused)
    case voiding => exact noticed (paperEndNotice_voiding ranCurrent ranCarries ranApart voiding)
  case opens =>
    rintro rfl up printing
    have changed := coverOpens_printing (b := s.blocks.debounced .cover) printing
    refine ⟨fun keeps => State.expires_open free running up (changed.trans (if_neg ?_)), fun phase unheld =>
      ⟨fun rest => State.expires_open free running up (changed.trans ((if_pos ⟨phase, unheld⟩).trans ?_)),
        fun busy going => State.expires_open free running up (changed.trans ((if_pos ⟨phase, unheld⟩).trans ?_))⟩⟩
    · rintro ⟨phase, unheld⟩
      exact keeps.elim (fun other => other phase) fun held => held unheld
    · rw [Head.pause_rest rest]
      rfl
    · rw [Head.pause_working busy going]
      rfl
  case openPaused =>
    rintro rfl up paused
    exact State.expires_open free running up (coverOpens_same (.inr (.inl paused)))
  case closes =>
    rintro rfl down
    refine ⟨fun working paused => ?_, fun paused rest unseen => ?_, fun paused rest seen gone => ?_, fun paused homing => ?_⟩
    · exact State.expires_closed free running down (coverCloses_other working)
    · exact State.expires_covers_begins free running down paused rest unseen
    · exact State.expires_covers_leaves free running down paused rest seen rfl gone
    · exact State.expires_covers_joins free running down paused homing
  case tear =>
    rintro rfl up
    refine ⟨fun working away => State.expires_tear free running up (tearPressed_other working away),
      fun u awaits carries apart => ⟨fun away => ?stages, fun presented stays => ?retracts,
        fun r presented left passes => ?ejects⟩⟩
    case stages =>
      exact State.expires_tear free running up
        (tearPressed_stages (b := s.blocks.debounced .tear) current carries apart awaits away)
    case retracts =>
      exact State.expires_tear free running up
        (tearPressed_begins (b := s.blocks.debounced .tear) current carries apart awaits presented (course_retract_stays stays))
    case ejects =>
      exact State.expires_tear free running up
        (tearPressed_begins (b := s.blocks.debounced .tear) current carries apart awaits presented
          (course_retract_passes left passes))

end Sys2Proof.Machine
end

section
/-! SUPPORT. The rows of the timers, the pulses and the carriage (03, R67, R70, R74, R75, R81; 06, R170): what one row of each does,
and the proofs of O42 to O44. -/

namespace Sys2Proof.Machine

/-! ## The refill tick -/

/-- The head with its accounts credited (R74). -/
def Head.credited (h : Head) : Head := { h with heat := credit h.heat }

/-- During a segment a tick credits nothing (R74). -/
theorem Head.tick_segment {h : Head} {image : List Dots} (segment : h.carriage.activity = .segment) : h.tick image = h := by
  rw [Head.tick, segment]

/-- Outside segments and dwells a tick credits the accounts (R74). -/
theorem Head.tick_credits {h : Head} {image : List Dots} (away : ¬ h.carriage.activity = .segment)
    (rest : ¬ h.carriage.activity = .dwell) : h.tick image = h.credited := by
  rw [Head.tick]
  split
  next segment => exact absurd segment away
  next dwell => exact absurd dwell rest
  all_goals rfl

/-- A dwell goes on while an account is not full (R81). -/
theorem Head.tick_dwells {h : Head} {image : List Dots} (dwell : h.carriage.activity = .dwell)
    (lacks : ∃ x ∈ credit h.heat, x < 96) : h.tick image = h.credited := by
  obtain ⟨x, account, low⟩ := lacks
  rw [Head.tick, dwell]
  refine if_neg fun full => ?_
  have high := of_decide_eq_true (List.all_eq_true.1 full x account)
  exact Nat.not_lt.2 high low

/-- A dwell ends with every account full, and what is left is planned (R81). -/
theorem Head.tick_full {h : Head} {image : List Dots} (dwell : h.carriage.activity = .dwell)
    (full : ∀ x ∈ credit h.heat, 96 ≤ x) : h.tick image = h.credited.planNext image := by
  rw [Head.tick, dwell]
  exact if_pos (List.all_eq_true.2 fun x account => decide_eq_true (full x account))

/-- A pass that goes on still does with a head that has kept it (R140). -/
theorem Blocks.passGoesOn.withHead {b : Blocks} (goes : b.passGoesOn) {g : Head} (pass : g.pass = b.head.pass)
    (moves : g.carriage.activity = b.head.carriage.activity ∨
      ¬ b.head.carriage.activity = .homing ∧ ¬ g.carriage.activity = .suspended) : (b.withHead g).passGoesOn := by
  intro printing
  obtain ⟨homes, passes⟩ := goes printing
  refine ⟨fun awaits => ?homes, fun free phase => ?passes⟩
  case homes =>
    rcases moves with same | ⟨away, _⟩
    · exact same.trans (homes awaits)
    · exact absurd (homes awaits) away
  case passes =>
    obtain ⟨inPass, on⟩ := passes free phase
    refine ⟨(congrArg Option.isSome pass).trans inPass, ?_⟩
    rcases moves with same | ⟨_, on'⟩
    · exact fun suspended => on (same.symm.trans suspended)
    · exact on'

/-- What a tick leaves, by what the head makes of it (R74). -/
theorem State.ticks {s : State} (free : s.held = false) {g : Head} {c : Blocks}
    (ticked : s.blocks.head.tick s.blocks.composer.image = g)
    (answered : (s.blocks.withHead { g with refillTimer := s.blocks.attention.tickPeriod }).headAnswered = c) :
    s.Settled (s.onBlocks fun b => b.refillTick) c := by
  refine State.onBlocks_settled free ?_
  rw [Blocks.refillTick, ticked, answered]

/-- The same where the pass goes on with the head (R74, R140). -/
theorem State.ticks_on {s : State} (free : s.held = false) (goes : s.blocks.passGoesOn) {g : Head}
    (ticked : s.blocks.head.tick s.blocks.composer.image = g) (pass : g.pass = s.blocks.head.pass)
    (moves : g.carriage.activity = s.blocks.head.carriage.activity ∨
      ¬ s.blocks.head.carriage.activity = .homing ∧ ¬ g.carriage.activity = .suspended) :
    s.Settled (s.onBlocks fun b => b.refillTick)
      { s.blocks with head := { g with refillTimer := s.blocks.attention.tickPeriod } } :=
  State.ticks free ticked
    (Blocks.passGoesOn.withHead goes (g := { g with refillTimer := s.blocks.attention.tickPeriod }) pass moves).headAnswered

/-- A pause request pending holds the pass SUSPENDED before its next plan (R84). -/
theorem Head.planNext_pause {h : Head} (paused : h.hold = .pause) (image : List Dots) : h.planNext image = h.suspend := by
  rw [Head.planNext, paused]

/-- An end-pass request pending ends the pass before its next plan (R86). -/
theorem Head.planNext_endPass {h : Head} (ended : h.hold = .endPass) (image : List Dots) :
    h.planNext image = h.clearWork := by
  rw [Head.planNext, ended]

section
variable {h : Head} {image : List Dots} {p : Pass} {d : PassDirection} (unheld : h.hold = .none) (pass : h.pass = some p)
  (direction : p.direction = some d)
include unheld pass direction

/-- A planned segment begins (R80). -/
theorem Head.planNext_segment {v : Speed} {n : Nat}
    (plan : planPart image p.strike d p.first p.last h.heat = .segment v n) :
    h.planNext image = h.beginSegment p d v n := by
  rw [Head.planNext_plans unheld pass direction, plan]

/-- A planned dwell begins (R81). -/
theorem Head.planNext_dwell (plan : planPart image p.strike d p.first p.last h.heat = .dwell) :
    h.planNext image = h.beginDwell := by
  rw [Head.planNext_plans unheld pass direction, plan]

end

/-- The first column of a planned segment, by the direction (R80). -/
theorem Head.beginSegment_eq (h : Head) (p : Pass) (d : PassDirection) (v : Speed) (n : Nat) :
    h.beginSegment p d v n =
      { h with
        carriage := { h.carriage with activity := .segment, motor := .held }
        segment :=
          some
            { speed := v
              first := if d = .leftToRight then p.first else p.last + 1 - n
              last := if d = .leftToRight then p.first + n - 1 else p.last
              traversed := 0 }
        plan := { h.plan with speed := v, segments := h.plan.segments + 1 }
        stallCount := 0
        firing := 0 } := by
  cases d <;> rfl

/-- Settles O42: the tick by the activity, and the end of a dwell. -/
theorem refillTickCreditsTheAccounts : Obligations.RefillTickCreditsTheAccounts := by
  refine fun s free goes => ⟨_, rfl, fun segment => ?segment, fun away rest => ?away, fun dwell lacks => ?dwells,
    fun dwell full unheld p d v n pass direction plan => ?plans, fun dwell full paused inPass printing phase => ?pauses⟩
  case segment =>
    have left := State.ticks_on free goes (Head.tick_segment segment) rfl (.inl rfl)
    exact left
  case away =>
    have left := State.ticks_on free goes (Head.tick_credits away rest) rfl (.inl rfl)
    exact left
  case dwells =>
    have left := State.ticks_on free goes (Head.tick_dwells dwell lacks) rfl (.inl rfl)
    exact left
  case plans =>
    have begun := Head.planNext_segment (h := s.blocks.head.credited) unheld pass direction plan
    rw [Head.beginSegment_eq] at begun
    have left := State.ticks_on free goes ((Head.tick_full dwell full).trans begun) rfl
      (.inr ⟨fun homing => absurd (dwell.symm.trans homing) (by decide), Activity.noConfusion⟩)
    exact left
  case pauses =>
    have awake : s.blocks.controller.awaitsHoming = false := by
      refine Bool.eq_false_of_not_eq_true fun awaits => ?_
      exact absurd (dwell.symm.trans ((goes printing).1 awaits)) (by decide)
    have suspended := Head.planNext_pause (h := s.blocks.head.credited) paused s.blocks.composer.image
    refine State.ticks free ((Head.tick_full dwell full).trans suspended) ?_
    exact (headAnswered_inPass (b := s.blocks.withHead { s.blocks.head.credited.suspend with refillTimer := _ }) printing awake
      phase inPass).trans (if_pos rfl)

/-! ## The idle timer and the pulses -/

/-- The three moves of the carriage (R168). -/
theorem moves_iff (a : Activity) : a.moves = true ↔ a = .homing ∨ a = .approach ∨ a = .segment := by
  cases a <;> decide

/-- A running idle timer releases both motors (R170). -/
theorem idleExpiry_running {b : Blocks} {n : Nat} (runs : b.attention.idleTimer = .running n) :
    b.idleExpiry =
      { b with
        head := b.head.release
        paper := { b.paper with feedMotor := .released }
        attention := { b.attention with idleTimer := .expired } } := by
  rw [Blocks.idleExpiry, runs]
  rfl

/-- Any other idle timer does nothing (R170). -/
theorem idleExpiry_same {b : Blocks} (still : ∀ n, ¬ b.attention.idleTimer = .running n) : b.idleExpiry = b := by
  rw [Blocks.idleExpiry]
  split
  next n runs => exact absurd runs (still n)
  all_goals rfl

/-- A pulse clears the stall count of a move (R70). -/
theorem Head.pulse_clears {h : Head}
    (moving : h.carriage.activity = .homing ∨ h.carriage.activity = .approach ∨ h.carriage.activity = .segment)
    (few : h.stallCount < 16) : h.pulse = { h with stallCount := 0 } := by
  rw [Head.pulse, (moves_iff _).2 moving, Bool.true_and]
  exact if_pos (decide_eq_true few)

/-- A pulse without a move does nothing (R70). -/
theorem Head.pulse_same {h : Head}
    (still : ¬ (h.carriage.activity = .homing ∨ h.carriage.activity = .approach ∨ h.carriage.activity = .segment)) :
    h.pulse = h := by
  rw [Head.pulse, Bool.eq_false_of_not_eq_true (mt (moves_iff _).1 still), Bool.false_and, if_neg Bool.false_ne_true]

/-- A pulse clears the jam count of a motion (R101). -/
theorem Paper.pulse_clears {p : Paper} {m : Motion} (motion : p.motion = some m) (few : m.jamCount < 96) :
    p.pulse = { p with motion := some { m with jamCount := 0 } } := by
  rw [Paper.pulse, motion]
  exact if_pos few

/-- A pulse without a motion does nothing (R101). -/
theorem Paper.pulse_same {p : Paper} (still : p.motion = none) : p.pulse = p := by
  rw [Paper.pulse, still]

/-- Settles O43: the idle timer and the two pulses, each with and without its occasion. -/
theorem timersAndPulses : Obligations.TimersAndPulses := by
  refine fun s free => ⟨⟨_, rfl, fun n runs => ?expires, fun still => State.onBlocks_same (idleExpiry_same still)⟩,
    ⟨_, rfl, fun moving few => ?carriage, fun still => ?noMove⟩, _, rfl, fun m motion few => ?paper, fun still => ?noMotion⟩
  case expires =>
    have became := s.onBlocks_became free fun b => b.idleExpiry
    rwa [idleExpiry_running runs] at became
  case carriage =>
    have became := s.onBlocks_became free fun b => b.withHead b.head.pulse
    rwa [Head.pulse_clears moving few] at became
  case noMove => exact State.onBlocks_same (congrArg s.blocks.withHead (Head.pulse_same still))
  case paper =>
    have became := s.onBlocks_became free fun b => b.withPaper b.paper.pulse
    rwa [Paper.pulse_clears motion few] at became
  case noMotion => exact State.onBlocks_same (congrArg s.blocks.withPaper (Paper.pulse_same still))

/-! ## The carriage step -/

/-- A step that is to be made is made and counted (R67, R70). -/
theorem Head.step_made {h : Head} {image : List Dots} {seen : Bool} (can : h.canStep seen = true) (few : h.stallCount < 16) :
    h.step image seen = { h.move image with stallCount := h.stallCount + 1 } := by
  rw [Head.step, can, Bool.true_and]
  exact if_pos (decide_eq_true few)

/-- No step is made where none is to be made (R67). -/
theorem Head.step_stays {h : Head} {image : List Dots} {seen : Bool} (stays : h.canStep seen = false) :
    h.step image seen = h := by
  rw [Head.step, stays, Bool.false_and, if_neg Bool.false_ne_true]

/-- No step is made past a stall count of 16 (R70). -/
theorem Head.step_stalled {h : Head} {image : List Dots} {seen : Bool} (many : 16 ≤ h.stallCount) :
    h.step image seen = h := by
  rw [Head.step, if_neg]
  intro both
  exact Nat.not_lt.2 many (of_decide_eq_true (Bool.and_eq_true_iff.1 both).2)

/-- A homing steps left (R68). -/
theorem Head.step_homing {h : Head} {image : List Dots} (homing : h.carriage.activity = .homing)
    (few : h.homingSteps < 1700) (counted : h.stallCount < 16) :
    h.step image false =
      { h with
        carriage := h.carriage.left
        homingSteps := h.homingSteps + 1
        firing := 0
        stallCount := h.stallCount + 1 } := by
  have can : h.canStep false = true := by
    rw [Head.canStep, homing]
    exact decide_eq_true few
  rw [Head.step_made can counted, Head.move, homing]

/-- The target of a pass (R67). -/
theorem Head.target_eq {h : Head} {p : Pass} {d : PassDirection} (pass : h.pass = some p) (direction : p.direction = some d) :
    h.target = (if d = .leftToRight then p.first else p.last) + 32 := by
  rw [Head.target, pass]
  dsimp only
  rw [direction]
  cases d <;> rfl

section
variable {h : Head} {image : List Dots} {seen : Bool} (approach : h.carriage.activity = .approach)
include approach

/-- An approach makes a step until the carriage stands at its target (R67). -/
theorem Head.canStep_approach : h.canStep seen = !(h.carriage.coordinate == h.target) := by
  rw [Head.canStep, approach]

/-- An approach steps right to a target ahead (R67). -/
theorem Head.step_right (counted : h.stallCount < 16) (ahead : h.carriage.coordinate < h.target) :
    h.step image seen = { h with carriage := h.carriage.right, firing := 0, stallCount := h.stallCount + 1 } := by
  have can : h.canStep seen = true := by
    rw [Head.canStep_approach approach, Bool.not_eq_true', beq_eq_false_iff_ne]
    exact Nat.ne_of_lt ahead
  rw [Head.step_made can counted, Head.move, approach]
  dsimp only
  rw [if_pos ahead]

/-- An approach steps left to a target behind (R67). -/
theorem Head.step_behind (counted : h.stallCount < 16) (behind : h.target < h.carriage.coordinate) :
    h.step image seen = { h with carriage := h.carriage.left, firing := 0, stallCount := h.stallCount + 1 } := by
  have can : h.canStep seen = true := by
    rw [Head.canStep_approach approach, Bool.not_eq_true', beq_eq_false_iff_ne]
    exact Nat.ne_of_gt behind
  rw [Head.step_made can counted, Head.move, approach]
  dsimp only
  rw [if_neg (Nat.not_lt.2 (Nat.le_of_lt behind))]

/-- An approach at its target makes no step (R67). -/
theorem Head.step_there (there : h.target = h.carriage.coordinate) : h.step image seen = h := by
  refine Head.step_stays ?_
  rw [Head.canStep_approach approach, there, beq_self_eq_true, Bool.not_true]

end

/-- The carriage one step to the right, short of its last coordinate (R66). -/
theorem Carriage.right_eq {c : Carriage} {goal : Nat} (ahead : c.coordinate < goal) (reach : goal ≤ 1599) :
    c.right = { c with coordinate := c.coordinate + 1 } := by
  rw [Carriage.right, Nat.min_eq_left]
  exact Nat.le_trans ahead reach

/-- The balances after a column: the firings, and a refill in every column at HALF and every second one at FULL (R75). -/
theorem columnHeat_eq (strike : Nat) (v : Speed) (k : Nat) (pins : Pins) (heat : List Nat) :
    columnHeat strike v k pins heat =
      if v = .half ∨ v = .full ∧ k % 2 = 0 then credit (debit strike pins heat) else debit strike pins heat := by
  cases v <;> simp [columnHeat, columnCredit]

/-- The column a segment fires next (R67). -/
theorem Segment.column_eq (g : Segment) (d : PassDirection) (k : Nat) :
    g.column d k = if d = .leftToRight then g.first + k else g.last - k := by
  cases d <;> rfl

/-- A segment fires its next column and steps on (R67, R75). -/
theorem Head.step_segment {h : Head} {image : List Dots} {seen : Bool} {p : Pass} {d : PassDirection} {g : Segment}
    (segment : h.carriage.activity = .segment) (pass : h.pass = some p) (direction : p.direction = some d)
    (inFlight : h.segment = some g) (left : g.traversed < g.columns) (counted : h.stallCount < 16) :
    h.step image seen =
      { h with
        carriage := if d = .leftToRight then h.carriage.right else h.carriage.left
        heat := columnHeat p.strike g.speed (g.traversed + 1) (imagePins image (g.column d g.traversed)) h.heat
        segment := some { g with traversed := g.traversed + 1 }
        firing := imagePins image (g.column d g.traversed)
        stallCount := h.stallCount + 1 } := by
  have can : h.canStep seen = true := by
    rw [Head.canStep, segment, inFlight]
    exact decide_eq_true left
  have itsDirection : h.direction = d := by
    rw [Head.direction, pass]
    exact congrArg (Option.getD · .leftToRight) direction
  have itsStrike : h.strike = p.strike := by
    rw [Head.strike, pass]
  rw [Head.step_made can counted, Head.move, segment, inFlight]
  dsimp only
  rw [Head.segmentStep, itsDirection, itsStrike]
  cases d <;> rfl

/-- No step is made at rest, nor in a dwell (R67). -/
theorem Head.canStep_rest {h : Head} {seen : Bool}
    (rest : h.carriage.activity = .idle ∨ h.carriage.activity = .dwell ∨ h.carriage.activity = .suspended) :
    h.canStep seen = false := by
  rw [Head.canStep]
  rcases rest with activity | activity | activity <;> rw [activity]

/-- Settles O44: the step by the activity. -/
theorem carriageStepMovesAndFires : Obligations.CarriageStepMovesAndFires := by
  intro s free
  have steps {g : Head} (stepped : s.blocks.head.step s.blocks.composer.image s.blocks.homeSeen = g) :
      s.Became (s.onBlocks fun b => b.carriageStep) { s.blocks with head := g } := by
    have became := s.onBlocks_became free fun b => b.carriageStep
    rwa [Blocks.carriageStep, stepped] at became
  have stays (same : s.blocks.head.step s.blocks.composer.image s.blocks.homeSeen = s.blocks.head) :
      (s.onBlocks fun b => b.carriageStep) = s := State.onBlocks_same (congrArg s.blocks.withHead same)
  refine ⟨_, rfl, fun homing unseen few counted => ?homing, fun p d approach pass direction counted =>
    ⟨fun ahead reach => ?ahead, fun behind => ?behind, fun there => ?there⟩,
    fun p d g segment pass direction inFlight left counted => ?segment, fun rest => stays ?rest⟩
  case homing => exact steps (unseen ▸ Head.step_homing homing few counted)
  case ahead =>
    have target := Head.target_eq pass direction
    have stepped := Head.step_right (image := s.blocks.composer.image) (seen := s.blocks.homeSeen) approach counted
      (target.symm ▸ ahead)
    rw [Carriage.right_eq ahead reach] at stepped
    exact steps stepped
  case behind => exact steps (Head.step_behind approach counted ((Head.target_eq pass direction).symm ▸ behind))
  case there => exact stays (Head.step_there approach ((Head.target_eq pass direction).trans there))
  case segment =>
    have stepped := Head.step_segment (image := s.blocks.composer.image) (seen := s.blocks.homeSeen) segment pass direction
      inFlight left counted
    rw [columnHeat_eq, debit_mapIdx, Segment.column_eq] at stepped
    have made := steps stepped
    cases d <;> exact made
  case rest =>
    rcases rest with idle | dwell | suspended | many
    · exact Head.step_stays (Head.canStep_rest (.inl idle))
    · exact Head.step_stays (Head.canStep_rest (.inr (.inl dwell)))
    · exact Head.step_stays (Head.canStep_rest (.inr (.inr suspended)))
    · exact Head.step_stalled many

end Sys2Proof.Machine
end

section
/-! SUPPORT. The faults of the mechanism (03, R69, R70; 04, R101, R102; 07, R155; 08, R163): what a fault report leaves of both blocks,
and the proof of O45. -/

namespace Sys2Proof.Machine

/-! ## A fault report -/

/-- After a fault report the controller is FAULTED (R155). -/
theorem fault_state (b : Blocks) (kind : FaultKind) (t : Option Tractor) (act : FaultActivity) :
    (b.fault kind t act).controller.state = .faulted := by
  rw [Blocks.fault]
  dsimp only
  split
  next faulted => exact faulted
  next => rw [Blocks.closeWork_controller]

/-- With the controller FAULTED nothing of its own follows but the idle timer's stop (R135, R168). -/
theorem fault_settle (b : Blocks) (kind : FaultKind) (t : Option Tractor) (act : FaultActivity) :
    (b.fault kind t act).settle = (b.fault kind t act).stopIdle := by
  have work : (b.fault kind t act).atWork := by
    rw [Blocks.atWork, fault_state]
    decide
  exact work.settle

/-- A fault stops the head, but in FAULTED (R71, R155). -/
theorem fault_head (b : Blocks) (kind : FaultKind) (t : Option Tractor) (act : FaultActivity) :
    (b.fault kind t act).settle.head = if b.controller.state = .faulted then b.head else b.head.stop := by
  rw [fault_settle]
  change (b.fault kind t act).head = _
  rw [Blocks.fault]
  dsimp only
  split
  next => rfl
  next =>
    obtain ⟨head, _, _⟩ := closeWork_blocks
      ((((b.withAttention (b.attention.recordFault kind t act)).withHead b.head.stop).withPaper b.paper.lose).voidTicket)
      (some .fault) .faulted
    exact head.trans (Blocks.voidTicket_head _)

/-- A fault stops the paper, but in FAULTED (R102, R155). -/
theorem fault_paper (b : Blocks) (kind : FaultKind) (t : Option Tractor) (act : FaultActivity) :
    (b.fault kind t act).settle.paper = if b.controller.state = .faulted then b.paper else b.paper.lose := by
  rw [fault_settle]
  change (b.fault kind t act).paper = _
  rw [Blocks.fault]
  dsimp only
  split
  next => rfl
  next =>
    obtain ⟨_, paper, _⟩ := closeWork_blocks
      ((((b.withAttention (b.attention.recordFault kind t act)).withHead b.head.stop).withPaper b.paper.lose).voidTicket)
      (some .fault) .faulted
    exact paper.trans (Blocks.voidTicket_paper _)

/-- A stop leaves an unhomed carriage unhomed (R71). -/
theorem Head.stop_unhomed {h : Head} (lost : h.carriage.homed = false) : h.stop.carriage.homed = false := by
  rw [Head.stop_eq]
  dsimp only
  split
  next => rfl
  next => exact lost

/-- A stop takes home from a moving carriage (R71). -/
theorem Head.stop_moving {h : Head}
    (moving : h.carriage.activity = .homing ∨ h.carriage.activity = .approach ∨ h.carriage.activity = .segment) :
    h.stop.carriage.homed = false := by
  rw [Head.stop_eq]
  exact if_pos moving

/-- A fault leaves an unhomed carriage unhomed (R69 to R71). -/
theorem fault_unhomed {b : Blocks} (lost : b.head.carriage.homed = false) (kind : FaultKind) (t : Option Tractor)
    (act : FaultActivity) : (b.fault kind t act).settle.head.carriage.homed = false := by
  rw [fault_head]
  split
  next => exact lost
  next => exact Head.stop_unhomed lost

/-- Losing the work is idleness with nothing in flight (R69, R70). -/
theorem Head.lose_over (h : Head) : h.lose.carriage.activity = .idle ∧ h.lose.pass = none ∧ h.lose.segment = none ∧
    h.lose.firing = 0 := ⟨rfl, rfl, rfl, rfl⟩

/-- A fault of the head, its carriage unhomed and its work lost (R69, R70, R155). -/
theorem headFault_faulted (b : Blocks) (g : Head) {kind : FaultKind} (act : FaultActivity) (apart : ¬ kind = .jam) :
    b.Faulted ((b.withHead g.lose).fault kind none act).settle kind none act :=
  fault_faulted b (b.withHead g.lose) kind none act rfl rfl rfl rfl rfl rfl rfl (fun _ _ => g.lose_over) (fun jam => absurd jam apart)
    (fun _ => rfl) fun m motion => .inr ⟨m, motion, rfl⟩

/-! ## The occasions -/

/-- A stall comes of a carriage move whose steps left bring the count to sixteen (R70, R155). -/
theorem stall_comes {b : Blocks} (reach : b.head.carriage.activity = .approach → b.head.target ≤ 1599)
    (moving : b.head.carriage.activity = .homing ∨ b.head.carriage.activity = .approach ∨ b.head.carriage.activity = .segment)
    (many : 16 ≤ b.head.stallCount + b.head.stepsLeft b.homeSeen) :
    ∃ g : Head, b.stall =
      ((b.withHead g.lose).fault .stall none (if b.head.carriage.activity = .homing then .homing else .pass)).settle := by
  obtain ⟨g, stalls⟩ := (Head.stalling_iff (image := b.composer.image) reach).1 ((moves_iff _).2 moving) many
  have act : b.head.carriage.activity.faultActivity = if b.head.carriage.activity = .homing then .homing else .pass := by
    cases b.head.carriage.activity <;> rfl
  refine ⟨g, ?_⟩
  rw [Blocks.stall, stalls, ← act]

/-- Elsewhere no stall comes (R70). -/
theorem stall_same {b : Blocks} (reach : b.head.carriage.activity = .approach → b.head.target ≤ 1599)
    (few : ¬ (b.head.carriage.activity = .homing ∨ b.head.carriage.activity = .approach ∨
      b.head.carriage.activity = .segment) ∨ b.head.stallCount + b.head.stepsLeft b.homeSeen < 16) : b.stall = b := by
  have none := (Head.stalling_iff (image := b.composer.image) reach).2
    (few.imp_left fun still => Bool.eq_false_of_not_eq_true (mt (moves_iff _).1 still))
  rw [Blocks.stall, none]

/-- HOME is lost where a homing can make its last step without it (R69). -/
theorem homingLost_iff {h : Head} {seen : Bool} :
    (h.carriage.activity = .homing ∧ seen = false ∧ h.stallCount + min (1700 - h.homingSteps) 1 < 16 →
        ∃ g : Head, h.homingLost seen = some g.lose) ∧
      (¬ h.carriage.activity = .homing ∨ seen = true ∨ 16 ≤ h.stallCount + min (1700 - h.homingSteps) 1 →
        h.homingLost seen = none) := by
  refine ⟨fun ⟨homing, unseen, few⟩ => ?lost, fun fails => ?kept⟩
  case lost =>
    refine ⟨_, if_pos ?_⟩
    rw [homing, unseen]
    exact decide_eq_true few
  case kept =>
    refine if_neg fun all => ?_
    obtain ⟨both, few⟩ := Bool.and_eq_true_iff.1 all
    obtain ⟨homing, unseen⟩ := Bool.and_eq_true_iff.1 both
    rcases fails with away | seen | many
    · exact away (eq_of_beq homing)
    · rw [seen] at unseen
      exact Bool.false_ne_true unseen
    · exact Nat.not_lt.2 many (of_decide_eq_true few)

/-- A jam comes of a motion whose steps left bring the count to 96 (R101, R155). -/
theorem jam_comes {b : Blocks} {m : Motion} (motion : b.paper.motion = some m)
    (many : 96 ≤ m.jamCount + m.stepsLeft (b.paper.stock m.tractor).endRemaining) :
    ∃ q : Paper, b.paper.jamming = some q ∧ b.jam = ((b.withPaper q.lose).fault .jam (some m.tractor) .feed).settle := by
  obtain ⟨q, jams⟩ := (Paper.jamming_iff motion).1 many
  refine ⟨q, jams, ?_⟩
  rw [Blocks.jam, motion, jams]

/-- Elsewhere no jam comes (R101). -/
theorem jam_same {b : Blocks} (few : ∀ m, b.paper.motion = some m →
    m.jamCount + m.stepsLeft (b.paper.stock m.tractor).endRemaining < 96) : b.jam = b := by
  rw [Blocks.jam]
  split
  next m q motion jams => rw [(Paper.jamming_iff motion).2 (few m motion)] at jams; cases jams
  next => rfl

/-- A jam loses its stock, and a stop after it changes no more (R101, R102). -/
theorem Paper.lose_lose (p : Paper) : p.lose.lose = p.lose := by
  rw [Paper.lose_still p.lose_motion]
  rw [Paper.lose]
  split <;> rfl

/-- The path after a jam (R101, R155). -/
theorem jam_paper (b : Blocks) (p : Paper) (t : Tractor) :
    ((b.withPaper p.lose).fault .jam (some t) .feed).settle.paper = p.lose := by
  have stopped : (b.withPaper p.lose).paper.lose = p.lose := p.lose_lose
  rw [fault_paper, stopped]
  exact ite_self _

/-- The head after a jam outside FAULTED (R71, R155). -/
theorem jam_head {b : Blocks} (p : Paper) (t : Tractor) (working : ¬ b.controller.state = .faulted) :
    ((b.withPaper p.lose).fault .jam (some t) .feed).settle.head = b.head.stop :=
  (fault_head (b.withPaper p.lose) .jam (some t) .feed).trans (if_neg working)

/-- What a jam leaves (R101, R155, R163). -/
theorem jam_faulted {b : Blocks} {p : Paper} {m : Motion} (motion : b.paper.motion = some m)
    (lost : (p.lose.stock m.tractor).state = .lost ∧ (p.lose.stock m.tractor).offset = none) :
    b.Faulted ((b.withPaper p.lose).fault .jam (some m.tractor) .feed).settle .jam (some m.tractor) .feed := by
  refine fault_faulted b (b.withPaper p.lose) .jam (some m.tractor) .feed rfl rfl rfl rfl rfl rfl rfl
    (fun _ apart => absurd rfl apart) (fun _ => rfl) (fun apart => absurd rfl apart) fun n moves => .inl ?_
  obtain rfl := Option.some.inj (motion.symm.trans moves)
  exact ⟨p.lose_motion, lost⟩

/-- Settles O45: each fault by its occasion. -/
theorem faultsStopTheWork : Obligations.FaultsStopTheWork := by
  refine fun s free => ⟨⟨_, rfl, fun reach => ⟨fun moving many => ?stall,
      fun few => State.onBlocks_same (stall_same reach few)⟩⟩,
    ⟨_, rfl, fun homing unseen few => ?homeLost, fun fails => ?found⟩, _, rfl, fun still => ?noMotion,
    fun m motion => ⟨fun many => ?jam, fun few => State.onBlocks_same (jam_same ?fewSteps)⟩⟩
  case stall =>
    have became := s.onBlocks_became free fun b => b.stall
    obtain ⟨g, stalls⟩ := stall_comes reach moving many
    rw [stalls] at became
    obtain ⟨blocks, rest⟩ := became
    rw [blocks]
    exact ⟨⟨blocks, rest⟩, fault_unhomed rfl .stall none _, headFault_faulted s.blocks g _ (by decide)⟩
  case homeLost =>
    have became := s.onBlocks_became free fun b => b.homeLost
    obtain ⟨g, lost⟩ := homingLost_iff.1 ⟨homing, unseen, few⟩
    rw [Blocks.homeLost, lost] at became
    obtain ⟨blocks, rest⟩ := became
    rw [blocks]
    exact ⟨⟨blocks, rest⟩, fault_unhomed rfl .homeLost none _, headFault_faulted s.blocks g _ (by decide)⟩
  case found =>
    refine State.onBlocks_same ?_
    rw [Blocks.homeLost, homingLost_iff.2 fails]
  case noMotion =>
    refine State.onBlocks_same (jam_same fun m motion => ?_)
    rw [still] at motion
    cases motion
  case jam =>
    have became := s.onBlocks_became free fun b => b.jam
    obtain ⟨q, jams, comes⟩ := jam_comes motion many
    have lost := Paper.jamming_lose motion jams many
    rw [comes] at became
    obtain ⟨blocks, rest⟩ := became
    rw [blocks]
    refine ⟨⟨blocks, rest⟩, jam_faulted motion ?lost, (jam_paper s.blocks q m.tractor).trans lost, fun working moving => ?head⟩
    case lost =>
      rw [lost]
      cases m.tractor <;> exact ⟨rfl, rfl⟩
    case head =>
      rw [jam_head q m.tractor working]
      exact Head.stop_moving moving
  case fewSteps =>
    intro n moves
    obtain rfl := Option.some.inj (motion.symm.trans moves)
    exact few

end Sys2Proof.Machine
end

section
/-! SUPPORT. The ends of the moves of the head: HOMING_COMPLETE and APPROACH_COMPLETE (03, R68, R76 to R86; 07, R140, R152, R153),
and the proofs of O46 and O47. -/

namespace Sys2Proof.Machine

/-! ## A homing ends -/

/-- The records once a homing has found HOME and its requesters have taken the success (R68, R164, R174). -/
def Blocks.homeFound (b : Blocks) : Blocks :=
  let leaves := b.controller.state = .faulted ∧ .clearFault ∈ b.head.homeFor
  { b with
    head := b.head.homedAt
    controller := { b.controller with state := if leaves then .idle else b.controller.state }
    attention :=
      { b.attention with
        faultRecord := if leaves ∨ .softReset ∈ b.head.homeFor then none else b.attention.faultRecord } }

/-- A homing at HOME is done (R68). -/
theorem Head.homingDone_found {h : Head} (homing : h.carriage.activity = .homing) (few : h.stallCount < 16) :
    h.homingDone true = some h.homedAt := by
  rw [Head.homingDone, Head.foundHome_homedAt, homing]
  exact if_pos (decide_eq_true few)

/-- HOMING_COMPLETE: the closed cover's homing leaves PAUSED, and the controller takes up what it waited for (R140, R153). -/
theorem homingComplete_eq {b : Blocks} (homing : b.head.carriage.activity = .homing) (seen : b.homeSeen = true)
    (few : b.head.stallCount < 16) :
    b.homingComplete =
      (if b.controller.state = .paused ∧ .cover ∈ b.head.homeFor ∧ b.coverOpen = false then b.homeFound.leavePaused
        else b.homeFound).headAnswered.settle := by
  rw [Blocks.homingComplete, seen, Head.homingDone_found homing few]
  dsimp only
  rw [Blocks.homed_effect]
  rfl

/-- In PRINTING a homing that is found leaves PRINTING (R164). -/
theorem homeFound_printing {b : Blocks} (printing : b.controller.state = .printing) :
    b.homeFound.controller.state = .printing := by
  refine (if_neg ?_).trans printing
  rintro ⟨faulted, _⟩
  exact absurd (printing.symm.trans faulted) (by decide)

/-- Outside PRINTING it leads to no PRINTING (R164). -/
theorem homeFound_other {b : Blocks} (other : ¬ b.controller.state = .printing) : ¬ b.homeFound.controller.state = .printing := by
  intro printing
  change (if _ then ControllerState.idle else b.controller.state) = _ at printing
  split at printing
  next => cases printing
  next => exact other printing

/-- Settles O46: a homing found, by the state and what is waited for. -/
theorem homingCompleteHomesTheCarriage : Obligations.HomingCompleteHomesTheCarriage := by
  intro s free homing seen few
  have completes := homingComplete_eq homing seen few
  have goes {c : Blocks} (uncovered : ¬ (s.blocks.controller.state = .paused ∧ .cover ∈ s.blocks.head.homeFor ∧
      s.blocks.coverOpen = false)) (answered : s.blocks.homeFound.headAnswered = c) :
      s.Settled (s.onBlocks fun b => b.homingComplete) c := by
    refine State.onBlocks_settled free ?_
    rw [completes, if_neg uncovered, answered]
  have working (printing : s.blocks.controller.state = .printing) : ¬ (s.blocks.controller.state = .paused ∧
      .cover ∈ s.blocks.head.homeFor ∧ s.blocks.coverOpen = false) :=
    fun covered => absurd (printing.symm.trans covered.1) (by decide)
  refine ⟨_, rfl, fun other uncovered => ?other, fun covered => ?covered, fun printing awaits => ?awaits,
    fun printing awake phase => ?noPass, fun printing awake phase => ⟨fun ended => ?passes, fun inPass suspended => ?suspended,
      fun inPass on => ?on⟩⟩
  case other => exact goes uncovered (headAnswered_other (homeFound_other other))
  case covered =>
    refine State.onBlocks_settled free ?_
    rw [completes, if_pos covered]
    rfl
  case awaits =>
    exact goes (working printing) ((headAnswered_awaits (homeFound_printing printing) awaits).trans
      (if_neg (Head.homedAt_over _)))
  case noPass => exact goes (working printing) (headAnswered_noPass (homeFound_printing printing) awake phase)
  case passes => exact goes (working printing) (headAnswered_over (homeFound_printing printing) awake phase ended)
  case suspended =>
    exact goes (working printing) ((headAnswered_inPass (homeFound_printing printing) awake phase inPass).trans (if_pos suspended))
  case on =>
    exact goes (working printing) ((headAnswered_inPass (homeFound_printing printing) awake phase inPass).trans (if_neg on))

/-! ## What the controller makes of the head -/

section
variable {b : Blocks} {g : Head}

/-- A pass in flight on its way gives the controller nothing to act on (R140). -/
theorem headAnswered_goesOn (awake : b.controller.state = .printing → b.controller.awaitsHoming = false)
    (inPass : g.pass.isSome = true) (on : ¬ g.carriage.activity = .suspended) :
    (b.withHead g).headAnswered = b.withHead g :=
  Blocks.passGoesOn.headAnswered fun printing =>
    ⟨fun awaits => absurd ((awake printing).symm.trans awaits) Bool.false_ne_true, fun _ _ => ⟨inPass, on⟩⟩

/-- A pass SUSPENDED pauses the controller that prints it (R140, R152). -/
theorem headAnswered_suspends (printing : b.controller.state = .printing) (awake : b.controller.awaitsHoming = false)
    (phase : b.controller.phase = .pass) (inPass : g.pass.isSome = true) (suspended : g.carriage.activity = .suspended) :
    (b.withHead g).headAnswered = (b.withHead g).enterPaused .printing :=
  (headAnswered_inPass (b := b.withHead g) printing awake phase (Option.isSome_iff_ne_none.1 inPass)).trans (if_pos suspended)

/-- A pass that is over (R140). -/
theorem headAnswered_ends (printing : b.controller.state = .printing) (awake : b.controller.awaitsHoming = false)
    (phase : b.controller.phase = .pass) (ended : g.pass = none) : (b.withHead g).headAnswered = (b.withHead g).passOver :=
  headAnswered_over (b := b.withHead g) printing awake phase ended

/-- Outside a pass of its own the controller makes nothing of the head (R140). -/
theorem headAnswered_elsewhere (awake : b.controller.state = .printing → b.controller.awaitsHoming = false)
    (elsewhere : ¬ (b.controller.state = .printing ∧ b.controller.phase = .pass)) :
    (b.withHead g).headAnswered = b.withHead g := by
  by_cases printing : b.controller.state = .printing
  case pos => exact headAnswered_noPass printing (awake printing) fun phase => elsewhere ⟨printing, phase⟩
  case neg => exact headAnswered_other printing

end

/-! ## An approach ends -/

/-- The head with its carriage at the target of its approach (R76). -/
def Head.arrived (h : Head) : Head := { h with carriage := { h.carriage with coordinate := h.target } }

/-- The steps left of an approach do not come to a stall (R70; assumption log 3). -/
theorem Head.approach_finishes {h : Head} (there : h.target = h.carriage.coordinate → h.stallCount < 16)
    (away : ¬ h.target = h.carriage.coordinate → h.stallCount < 15) :
    h.finishes ((h.target - h.carriage.coordinate) + (h.carriage.coordinate - h.target)) = true := by
  refine decide_eq_true ?_
  change h.stallCount + _ < 16
  by_cases at_ : h.target = h.carriage.coordinate
  case pos =>
    have few := there at_
    omega
  case neg =>
    have few := away at_
    omega

/-- APPROACH_COMPLETE at the start of the pass: what is left is planned, and the controller takes the answer (R76, R140). -/
theorem approachComplete_eq {b : Blocks} (approach : b.head.carriage.activity = .approach)
    (there : b.head.target = b.head.carriage.coordinate → b.head.stallCount < 16)
    (away : ¬ b.head.target = b.head.carriage.coordinate → b.head.stallCount < 15) :
    b.approachComplete = (b.withHead (b.head.arrived.planNext b.composer.image)).headAnswered.settle := by
  have done : b.head.approachDone b.composer.image = some (b.head.arrived.planNext b.composer.image) := by
    rw [Head.approachDone, approach]
    exact if_pos (Head.approach_finishes there away)
  rw [Blocks.approachComplete, done]

/-- Settles O47: the plan of what is left, or what a request pending asks instead. -/
theorem approachCompleteFollowsThePlan : Obligations.ApproachCompleteFollowsThePlan := by
  intro s p d free awake approach pass direction
  have target := Head.target_eq pass direction
  dsimp only
  rw [← target]
  intro there away
  have completes {g : Head} {c : Blocks} (planned : s.blocks.head.arrived.planNext s.blocks.composer.image = g)
      (answered : (s.blocks.withHead g).headAnswered = c) : s.Settled (s.onBlocks fun b => b.approachComplete) c := by
    refine State.onBlocks_settled free ?_
    rw [approachComplete_eq approach there away, planned, answered]
  have inPass : s.blocks.head.pass.isSome = true := by
    rw [pass]
    rfl
  refine ⟨_, rfl, fun unheld v n plan => ?segment, fun unheld plan => ?dwell, fun paused => ⟨fun prints => ?pauses,
    fun elsewhere => ?suspends⟩, fun ended => ⟨fun prints => ?passes, fun elsewhere => ?ends⟩⟩
  case segment =>
    have begun := Head.planNext_segment (h := s.blocks.head.arrived) unheld pass direction plan
    rw [Head.beginSegment_eq] at begun
    exact completes begun (headAnswered_goesOn awake inPass (of_decide_eq_false rfl))
  case dwell =>
    exact completes (Head.planNext_dwell (h := s.blocks.head.arrived) unheld pass direction plan)
      (headAnswered_goesOn awake inPass (of_decide_eq_false rfl))
  case pauses =>
    obtain ⟨printing, phase⟩ := prints
    exact completes (Head.planNext_pause (h := s.blocks.head.arrived) paused _)
      (headAnswered_suspends printing (awake printing) phase inPass rfl)
  case suspends =>
    exact completes (Head.planNext_pause (h := s.blocks.head.arrived) paused _) (headAnswered_elsewhere awake elsewhere)
  case passes =>
    obtain ⟨printing, phase⟩ := prints
    exact completes (Head.planNext_endPass (h := s.blocks.head.arrived) ended _)
      (headAnswered_ends printing (awake printing) phase rfl)
  case ends =>
    exact completes (Head.planNext_endPass (h := s.blocks.head.arrived) ended _) (headAnswered_elsewhere awake elsewhere)

end Sys2Proof.Machine
end

section
/-! SUPPORT. SEGMENT_COMPLETE (03, R67, R75, R76, R83, R84, R86; 07, R141): the segment fired out, the rest of its pass, the struck
set, and the proof of O48. -/

namespace Sys2Proof.Machine

/-! ## The struck set -/

/-- A counter is struck where a column of the segment fired within a span it serves (R141). -/
theorem mem_strikes (c : Composer) (first last i : Nat) :
    i ∈ c.strikes first last ↔ ∃ e ∈ c.spans, e.counter = some i ∧
      ∃ y ∈ c.image, first ≤ y.column ∧ y.column ≤ last ∧ e.first ≤ y.column ∧ y.column ≤ e.last := by
  rw [Composer.strikes, List.mem_filterMap]
  refine exists_congr fun e => and_congr_right fun _ => ?_
  cases serves : e.counter with
  | none => simp
  | some j =>
    simp only [Option.ite_none_right_eq_some, List.any_eq_true, Bool.and_eq_true, decide_eq_true_eq, and_assoc]
    exact and_comm

/-- The struck set after a segment (R141). -/
theorem mem_takeSegment (b : Blocks) (first last i : Nat) :
    i ∈ (b.takeSegment first last).controller.struck ↔ i ∈ b.controller.struck ∨
      ∃ e ∈ b.composer.spans, e.counter = some i ∧ ∃ y ∈ b.composer.image, first ≤ y.column ∧ y.column ≤ last ∧ e.first ≤ y.column ∧ y.column ≤ e.last :=
  (mem_struckWith (b.composer.strikes first last) b.controller.struck i).trans
    (or_congr_right (mem_strikes b.composer first last i))

/-! ## The rest of the pass -/

/-- Columns of the pass are left beyond the segment, in the direction of travel (R83). -/
abbrev Pass.goesBeyond (p : Pass) (d : PassDirection) (g : Segment) : Prop :=
  if d = .leftToRight then g.last < p.last else p.first < g.first

/-- The pass with the columns left beyond the segment (R83). -/
def Pass.beyond (p : Pass) (d : PassDirection) (g : Segment) : Pass :=
  if d = .leftToRight then { p with first := g.last + 1 } else { p with last := g.first - 1 }

/-- A segment that fired the last column of the span leaves no pass (R83). -/
theorem Pass.rest_none {p : Pass} {d : PassDirection} {g : Segment} (last : ¬ p.goesBeyond d g) : p.rest g d = none := by
  cases d <;> exact if_neg last

/-- Any other segment leaves the columns beyond it (R83). -/
theorem Pass.rest_some {p : Pass} {d : PassDirection} {g : Segment} (more : p.goesBeyond d g) :
    p.rest g d = some (p.beyond d g) := by
  cases d <;> exact if_pos more

/-- What is left of a pass keeps its direction and its strike class (R83). -/
theorem Pass.beyond_keeps (p : Pass) (d : PassDirection) (g : Segment) :
    (p.beyond d g).direction = p.direction ∧ (p.beyond d g).strike = p.strike := by
  cases d <;> exact ⟨rfl, rfl⟩

/-! ## The segment fired out -/

/-- The head once so many columns more have been fired, leaving such balances (R67, R75). -/
def Head.firedOut (h : Head) (d : PassDirection) (left : Nat) (heat : List Nat) : Head :=
  { h with
    carriage :=
      { h.carriage with
        coordinate :=
          if left = 0 then h.carriage.coordinate
          else if d = .leftToRight then min (h.carriage.coordinate + left) 1599 else h.carriage.coordinate - left }
    heat := heat
    segment := none
    firing := 0 }

/-- The head fired out to the end of a segment, with the columns beyond it left to print (R76, R83). -/
def Head.goingOn (h : Head) (image : List Dots) (p : Pass) (d : PassDirection) (g : Segment) (start : List Nat) : Head :=
  { h.firedOut d (g.columns - g.traversed)
      (heatAt image p.strike g.speed (travel d g.first g.last) start g.columns) with
    pass := some (p.beyond d g) }

section
variable {h : Head} {image : List Dots} {p : Pass} {d : PassDirection} {g : Segment} {start : List Nat}
  (segment : h.carriage.activity = .segment) (pass : h.pass = some p) (direction : p.direction = some d)
  (inFlight : h.segment = some g) (made : g.traversed ≤ g.columns)
  (heat : h.heat = heatAt image p.strike g.speed (travel d g.first g.last) start g.traversed)
include segment pass direction inFlight made heat

/-- Firing the columns left leaves the balances of the segment's walk (R75). -/
theorem Head.traverse_fired :
    { h.traverse image (g.columns - g.traversed) with segment := none, firing := 0 } =
      h.firedOut d (g.columns - g.traversed)
        (heatAt image p.strike g.speed (travel d g.first g.last) start g.columns) := by
  obtain ⟨balances, _, _⟩ := traverse_heat image p d start g direction (g.columns - g.traversed) g.traversed h segment pass
    inFlight heat (by omega)
  obtain ⟨q, pins, frame⟩ := traverse_frame image p d direction (g.columns - g.traversed) h g segment pass inFlight
  rw [Nat.add_sub_cancel' made] at balances
  rw [balances] at frame
  rw [frame]
  rfl

variable (few : h.stallCount + min (g.columns - g.traversed) 1 < 16)
include few

/-- SEGMENT_COMPLETE at the end of the span: the pass is over (R83). -/
theorem Head.segmentDone_last (last : ¬ p.goesBeyond d g) :
    h.segmentDone image =
      some ((h.firedOut d (g.columns - g.traversed)
        (heatAt image p.strike g.speed (travel d g.first g.last) start g.columns)).clearWork, g.first, g.last) := by
  have fires := Head.traverse_fired segment pass direction inFlight made heat
  have itsDirection : h.direction = d := by
    rw [Head.direction, pass]
    exact congrArg (Option.getD · .leftToRight) direction
  have finishes : (h.carriage.activity == .segment && h.finishes (g.columns - g.traversed)) = true := by
    rw [segment]
    exact decide_eq_true few
  rw [Head.segmentDone, inFlight, pass]
  dsimp only
  rw [if_pos finishes, itsDirection, Pass.rest_none last, fires]

/-- SEGMENT_COMPLETE within the span: the columns left are planned (R76, R83). -/
theorem Head.segmentDone_more (more : p.goesBeyond d g) :
    h.segmentDone image =
      some ((h.goingOn image p d g start).planNext image, g.first, g.last) := by
  have fires := Head.traverse_fired segment pass direction inFlight made heat
  have itsDirection : h.direction = d := by
    rw [Head.direction, pass]
    exact congrArg (Option.getD · .leftToRight) direction
  have finishes : (h.carriage.activity == .segment && h.finishes (g.columns - g.traversed)) = true := by
    rw [segment]
    exact decide_eq_true few
  rw [Head.segmentDone, inFlight, pass]
  dsimp only
  rw [if_pos finishes, itsDirection, Pass.rest_some more]
  dsimp only
  rw [Head.goingOn, ← fires]

end

/-- What SEGMENT_COMPLETE leaves, by what the head and then the controller make of it (R83, R140, R141). -/
theorem State.segmentCompletes {s : State} (free : s.held = false) {k g : Head} {first last : Nat} {c : Blocks}
    (done : s.blocks.head.segmentDone s.blocks.composer.image = some (k, first, last)) (left : k = g)
    (answered : ((s.blocks.takeSegment first last).withHead g).headAnswered = c) :
    s.Settled (s.onBlocks fun b => b.segmentComplete) c := by
  refine State.onBlocks_settled free ?_
  rw [Blocks.segmentComplete, done, ← answered, left]
  rfl

/-- Settles O48: the end of the span, a request pending, or the columns left. -/
theorem segmentCompleteSplitsThePass : Obligations.SegmentCompleteSplitsThePass := by
  intro s p d g start free printing phase awake segment pass direction inFlight _ made few heat
  obtain ⟨sameDirection, sameStrike⟩ := p.beyond_keeps d g
  have itsDirection := sameDirection.trans direction
  have samePlan (heat : List Nat) : planPart s.blocks.composer.image (p.beyond d g).strike d (p.beyond d g).first
      (p.beyond d g).last heat = planPart s.blocks.composer.image p.strike d (p.beyond d g).first (p.beyond d g).last heat := by
    rw [sameStrike]
  have more_done (more : p.goesBeyond d g) := Head.segmentDone_more segment pass direction inFlight made heat few more
  have struckAwake : (s.blocks.takeSegment g.first g.last).controller.state = .printing →
      (s.blocks.takeSegment g.first g.last).controller.awaitsHoming = false := fun _ => awake
  refine ⟨_, (s.blocks.takeSegment g.first g.last).controller.struck, rfl, mem_takeSegment s.blocks g.first g.last,
    fun spent => ?passes, fun more paused => ?pauses, fun more unheld => ⟨fun v m plan => ?segment, fun plan => ?dwell⟩⟩
  case passes =>
    by_cases more : p.goesBeyond d g
    case neg =>
      exact State.segmentCompletes free (Head.segmentDone_last segment pass direction inFlight made heat few more) rfl
        (headAnswered_ends (b := s.blocks.takeSegment g.first g.last) printing awake phase rfl)
    case pos =>
      have ended := spent.resolve_left (not_not_intro more)
      exact State.segmentCompletes free (more_done more) 
        (Head.planNext_endPass (h := s.blocks.head.goingOn s.blocks.composer.image p d g start) ended _)
        (headAnswered_ends (b := s.blocks.takeSegment g.first g.last) printing awake phase rfl)
  case pauses =>
    exact State.segmentCompletes free (more_done more) 
      (Head.planNext_pause (h := s.blocks.head.goingOn s.blocks.composer.image p d g start) paused _)
      (headAnswered_suspends (b := s.blocks.takeSegment g.first g.last) printing awake phase rfl rfl)
  case segment =>
    have begun := Head.planNext_segment (h := s.blocks.head.goingOn s.blocks.composer.image p d g start) unheld rfl
      itsDirection ((samePlan _).trans plan)
    rw [Head.beginSegment_eq] at begun
    exact State.segmentCompletes free (more_done more) begun
      (headAnswered_goesOn struckAwake rfl (of_decide_eq_false rfl))
  case dwell =>
    have begun := Head.planNext_dwell (h := s.blocks.head.goingOn s.blocks.composer.image p d g start) unheld rfl
      itsDirection ((samePlan _).trans plan)
    exact State.segmentCompletes free (more_done more) begun
      (headAnswered_goesOn struckAwake rfl (of_decide_eq_false rfl))

end Sys2Proof.Machine
end

section
/-! SUPPORT. The feed step and the end of a host motion (04, R92, R96, R98 to R101; 05, R109; 07, R136), and the proofs of O49 and
O50. -/

namespace Sys2Proof.Machine

/-! ## The feed step -/

/-- End remaining after one step, by the direction (R96). -/
theorem endAfterStep_eq (d : FeedDirection) (left : Option Nat) :
    endAfterStep d left = left.map fun r => if d = .forward then r - 1 else r + 1 := by
  cases left with
  | none => rfl
  | some r => cases d <;> rfl

section
variable {p : Paper} {m : Motion} (motion : p.motion = some m)
include motion

/-- A feed step that is made (R92, R96, R99). -/
theorem Paper.step_made (more : 0 < m.toGo) (few : m.jamCount < 96) :
    p.step =
      { p.setStock m.tractor
          { p.stock m.tractor with endRemaining := endAfterStep m.direction (p.stock m.tractor).endRemaining } with
        motion :=
          some
            (if m.direction = .forward ∧ ¬ m.kind = .eject ∧
                endAfterStep m.direction (p.stock m.tractor).endRemaining = some 0 ∧ 1 < m.toGo then
              { m with kind := .eject, done := m.done + 1, toGo := 48, jamCount := m.jamCount + 1 }
            else { m with done := m.done + 1, toGo := m.toGo - 1, jamCount := m.jamCount + 1 }) } := by
  have made : (decide (0 < m.toGo) && decide (m.jamCount < Config.jamLimit)) = true := by
    rw [decide_eq_true more, decide_eq_true few]
    rfl
  rw [Paper.step, motion]
  dsimp only
  rw [if_pos made]
  by_cases out : m.direction = .forward ∧ ¬ m.kind = .eject ∧
      endAfterStep m.direction (p.stock m.tractor).endRemaining = some 0 ∧ 1 < m.toGo
  case pos =>
    obtain ⟨forward, whole, gone, more⟩ := out
    rw [if_pos ⟨forward, whole, gone, Nat.sub_pos_of_lt more⟩, if_pos ⟨forward, whole, gone, more⟩, Motion.eject, forward]
  case neg =>
    rw [if_neg out, if_neg]
    rintro ⟨forward, whole, gone, more⟩
    exact out ⟨forward, whole, gone, Nat.sub_pos_iff_lt.1 more⟩

/-- No feed step is made with none to go, nor past a jam count of 96 (R92, R101). -/
theorem Paper.step_stays (none : m.toGo = 0 ∨ 96 ≤ m.jamCount) : p.step = p := by
  rw [Paper.step, motion]
  refine if_neg fun both => ?_
  obtain ⟨more, few⟩ := Bool.and_eq_true_iff.1 both
  rcases none with landed | jammed
  · exact Nat.ne_of_gt (of_decide_eq_true more) landed
  · exact Nat.not_lt.2 jammed (of_decide_eq_true few)

end

/-- Settles O49: a step made, or none. -/
theorem feedStepCountsTheSteps : Obligations.FeedStepCountsTheSteps := by
  refine fun s free => ⟨_, rfl, fun still => ?still, fun m motion => ⟨fun more few => ?made, fun none => ?stays⟩⟩
  case still =>
    refine State.onBlocks_same ?_
    rw [Blocks.feedStep, Paper.step, still]
    rfl
  case made =>
    have became := s.onBlocks_became free fun b => b.feedStep
    rw [Blocks.feedStep, Paper.step_made motion more few, endAfterStep_eq] at became
    exact became
  case stays => exact State.onBlocks_same (congrArg s.blocks.withPaper (Paper.step_stays motion none))

/-! ## The end of a host motion -/

/-- The wait for a host motion is over once none is in flight (R98, R136). -/
theorem hostMotionOver_still {b : Blocks} (still : b.paper.motion = none) :
    b.hostMotionOver =
      if b.paper.waiting = true then Blocks.stagingChecks { b with paper := { b.paper with waiting := false } } else b := by
  rw [Blocks.hostMotionOver, still, Option.isNone_none, Bool.and_true]
  rfl

/-- The wait goes on beside a motion (R98, R136). -/
theorem hostMotionOver_moving {b : Blocks} {m : Motion} (motion : b.paper.motion = some m) : b.hostMotionOver = b := by
  rw [Blocks.hostMotionOver, motion, Option.isNone_some, Bool.and_false, if_neg Bool.false_ne_true]

/-- A host motion's end is not the Issue Controller's (R100). -/
theorem answerMotion_host {b : Blocks} {m : Motion} (host : ¬ m.requester = .issue) (own ejected : Bool) :
    b.answerMotion m own ejected = (b.afterHostMotion m).hostMotionOver := by
  rw [Blocks.answerMotion]
  split
  next issue => exact absurd issue host
  all_goals rfl

/-- MOTION_DONE is latched, but for phase 1 of STOCK_SELECT (R100, R109). -/
theorem afterHostMotion_done {b : Blocks} {m : Motion} (phase : ¬ m.phase = 1) :
    b.afterHostMotion m = b.latch m.tractor .motionDone := if_neg phase

/-- Phase 2 of STOCK_SELECT begins where the named stock is PARKED (R109). -/
theorem afterHostMotion_selects {b : Blocks} {m : Motion} (phase : m.phase = 1)
    (parked : (b.paper.stock m.tractor.other).state = .parked) :
    b.afterHostMotion m = b.beginMotion m.tractor.other .advance 0 m.requester 2 := by
  rw [Blocks.afterHostMotion, if_pos phase, if_pos parked]

/-- Elsewhere MOTION_DONE is latched for the stock STOCK_SELECT named (R109). -/
theorem afterHostMotion_missed {b : Blocks} {m : Motion} (phase : m.phase = 1)
    (away : ¬ (b.paper.stock m.tractor.other).state = .parked) : b.afterHostMotion m = b.latch m.tractor.other .motionDone := by
  rw [Blocks.afterHostMotion, if_pos phase, if_neg away]

/-- What the end of a motion leaves, by what its requester makes of it (R100). -/
theorem State.motionCompletes {s : State} {m : Motion} (free : s.held = false) (motion : s.blocks.paper.motion = some m)
    (finishes : m.jamCount + min m.toGo 1 < 96) {c : Blocks}
    (answered : (s.blocks.motionEnded m).answerMotion m (s.blocks.orderTractor == some m.tractor)
      (m.endsEjected (s.blocks.paper.stock m.tractor).endRemaining) = c) :
    s.Settled (s.onBlocks fun b => b.motionComplete) c := by
  refine State.onBlocks_settled free ?_
  rw [motionComplete_ends motion finishes, answered]

/-- Settles O50: MOTION_DONE, or phase 2 of STOCK_SELECT. -/
theorem motionCompleteLandsTheStock : Obligations.MotionCompleteLandsTheStock := by
  intro s m free motion host finishes
  obtain ⟨_, still, other, _, _⟩ := motionEnded_frame s.blocks m
  have lands {c : Blocks} (told : ((s.blocks.motionEnded m).afterHostMotion m).hostMotionOver = c) :
      s.Settled (s.onBlocks fun b => b.motionComplete) c :=
    State.motionCompletes free motion finishes ((answerMotion_host host _ _).trans told)
  have begins {course : Course} (phase : m.phase = 1) (parked : (s.blocks.paper.stock m.tractor.other).state = .parked)
      (taken : courseOf m.tractor.other (s.blocks.paper.stock m.tractor.other)
        ((s.blocks.motionEnded m).stockLength m.tractor.other) .advance 0 = course) :
      s.Settled (s.onBlocks fun b => b.motionComplete)
        ((s.blocks.motionEnded m).feeding m.tractor.other course.kind course.direction course.steps m.requester 2) := by
    have began := Blocks.beginMotion_feeding (s.blocks.motionEnded m) m.tractor.other .advance 0 m.requester 2
      (other.symm ▸ taken)
    refine lands ?_
    rw [afterHostMotion_selects phase (other.symm ▸ parked), began]
    exact hostMotionOver_moving rfl
  refine ⟨_, rfl, fun phase => ?done, fun phase parked => ⟨fun left => ?advances, fun out => ?ejects⟩,
    fun phase away => ?missed⟩
  case done =>
    refine lands ?_
    rw [afterHostMotion_done phase]
    exact hostMotionOver_still still
  case advances =>
    have begun := begins phase parked (course_forward (.inl ⟨rfl, rfl⟩) left)
    exact begun
  case ejects =>
    have begun := begins phase parked (course_out (.inl ⟨rfl, rfl⟩) out m.tractor.other.distance_pos)
    exact begun
  case missed =>
    refine lands ?_
    rw [afterHostMotion_missed phase (other.symm ▸ away)]
    exact hostMotionOver_still still

end Sys2Proof.Machine
end

section
/-! SUPPORT. The ends of the Issue Controller's motions (07, R137 to R139, R142 to R144, R146, R148), and the proofs of O51 and O52. -/

namespace Sys2Proof.Machine

/-! ## The order's own stock -/

/-- The order's tractor is that of the stock that carries its form (R12, R91). -/
theorem orderTractor_iff {b : Blocks} {o : Order} (ok : b.paper.pathOk) (current : b.currentOrder = some o) (t : Tractor) :
    b.orderTractor = some t ↔ (b.paper.stock t).form = some o.form := by
  obtain ⟨_, _, _, apart⟩ := (Paper.pathOk_iff b.paper t).1 ok
  refine ⟨fun own => ?carries, fun carries => orderTractor_of current carries fun other => apart o.form ⟨carries, other⟩⟩
  case carries =>
    rw [Blocks.orderTractor, current] at own
    change b.paper.carrier o.form = some t at own
    rw [Paper.carrier] at own
    split at own
    next first => cases own; exact first
    next =>
      split at own
      next second => cases own; exact second
      next => cases own

/-- The answer of an ISSUE motion: ejected is acted on for the order's own stock alone (R137, R148). -/
theorem answerMotion_issue {b : Blocks} {m : Motion} (issue : m.requester = .issue) (own ejected : Bool) :
    b.answerMotion m own ejected = if (own && ejected) = true then b.ownEjected else b.motionDone := by
  rw [Blocks.answerMotion, issue]

/-! ## The answers -/

section
variable {b : Blocks} {o : Order}

/-- The order's own stock ejected in a walk or a closing feed: PAPER_END is held and the ticket ends voided (R148). -/
theorem ownEjected_feed (printing : b.controller.state = .printing)
    (phase : b.controller.phase = .feed ∨ b.controller.phase = .close) :
    b.ownEjected = (b.control fun c => { c with heldReason := some .paperEnd }).endVoided := by
  rw [Blocks.ownEjected, printing]
  rcases phase with feed | close
  · rw [feed]
  · rw [close]

/-- The order's own stock ejected in a PRESENT ends the work (R148). -/
theorem ownEjected_present (printing : b.controller.state = .printing) (phase : b.controller.phase = .present) :
    b.ownEjected = b.endWork (if b.controller.presentFinal = true then none else some .paperEnd) := by
  rw [Blocks.ownEjected, printing]
  dsimp only
  rw [phase]

/-- The order's own stock ejected in STAGING ends the work (R138). -/
theorem ownEjected_staging (staging : b.controller.state = .staging) : b.ownEjected = b.endWork (some .paperEnd) := by
  rw [Blocks.ownEjected, staging]

/-- A void motion ejected ends the ticket voided and the work (R148). -/
theorem ownEjected_voiding (voiding : b.controller.state = .voiding) : b.ownEjected = b.endVoided := by
  rw [Blocks.ownEjected, voiding]

section
variable (current : b.currentOrder = some o)
include current

/-- A staging motion completed (R137). -/
theorem motionDone_staging (staging : b.controller.state = .staging) :
    b.motionDone = if o.cancelPending = true then b.endWork none else b.stagingNext o := by
  rw [Blocks.motionDone, current, staging]

/-- A walk feed completed with a void held (R150). -/
theorem motionDone_voids (printing : b.controller.state = .printing) (phase : b.controller.phase = .feed)
    (held : ¬ b.controller.voidMotion = none) : b.motionDone = b.enterVoiding := by
  rw [Blocks.motionDone, current, printing]
  dsimp only
  rw [phase]
  exact if_pos ((voidHeld_iff _).2 held)

/-- A walk feed completed goes on from its line (R139). -/
theorem motionDone_walks (printing : b.controller.state = .printing) (phase : b.controller.phase = .feed)
    (free : b.controller.voidMotion = none) :
    b.motionDone = b.unlessCover .printing (b.walkFrom o fun n => decide (b.controller.line.getD 0 ≤ n)) := by
  rw [Blocks.motionDone, current, printing]
  dsimp only
  rw [phase, free]
  rfl

/-- The closing feed completed ends the ticket (R142). -/
theorem motionDone_close (printing : b.controller.state = .printing) (phase : b.controller.phase = .close) :
    b.motionDone = (b.endTicket o true).afterTicket := by
  rw [Blocks.motionDone, current, printing]
  dsimp only
  rw [phase]

/-- A PRESENT completed (R144). -/
theorem motionDone_present (printing : b.controller.state = .printing) (phase : b.controller.phase = .present) :
    b.motionDone = b.presentDone := by
  rw [Blocks.motionDone, current, printing]
  dsimp only
  rw [phase]

/-- A void motion completed ends the ticket voided and the work (R148). -/
theorem motionDone_voiding (voiding : b.controller.state = .voiding) : b.motionDone = b.endVoided := by
  rw [Blocks.motionDone, current, voiding]

end

end

/-- Settles O51: the answer by the state and the phase, ejected or not. -/
theorem issueMotionsLeadOn : Obligations.IssueMotionsLeadOn := by
  intro s m o free ok motion issue finishes current
  obtain ⟨_, _, _, controller, orders⟩ := motionEnded_frame s.blocks m
  obtain ⟨_, ejects⟩ := landMotion_ended s.blocks m
  have currentStill : (s.blocks.motionEnded m).currentOrder = some o :=
    (Blocks.currentOrder_congr (congrArg Controller.current controller) orders).trans current
  have acted : ((s.blocks.orderTractor == some m.tractor) &&
      m.endsEjected (s.blocks.paper.stock m.tractor).endRemaining) = true ↔
        (s.blocks.paper.stock m.tractor).form = some o.form ∧ s.blocks.endsOut m := by
    rw [Bool.and_eq_true, beq_iff_eq, orderTractor_iff ok current, ejects]
  have ended {c : Blocks} (ejected : (s.blocks.paper.stock m.tractor).form = some o.form ∧ s.blocks.endsOut m)
      (left : (s.blocks.motionEnded m).ownEjected = c) : s.Settled (s.onBlocks fun b => b.motionComplete) c :=
    State.motionCompletes free motion finishes
      ((answerMotion_issue issue _ _).trans ((if_pos (acted.2 ejected)).trans left))
  have done {c : Blocks} (stays : ¬ ((s.blocks.paper.stock m.tractor).form = some o.form ∧ s.blocks.endsOut m))
      (left : (s.blocks.motionEnded m).motionDone = c) : s.Settled (s.onBlocks fun b => b.motionComplete) c :=
    State.motionCompletes free motion finishes
      ((answerMotion_issue issue _ _).trans ((if_neg (mt acted.1 stays)).trans left))
  rw [← controller]
  refine ⟨_, rfl, fun ejected => ⟨fun staging => ended ejected (ownEjected_staging staging),
      fun printing phase => ended ejected (ownEjected_feed printing phase),
      fun printing phase => ended ejected (ownEjected_present printing phase)⟩,
    fun stays => ⟨fun staging pending => ?cancelled, fun staging wanted => ?stages, fun printing phase held => ?voids,
      fun printing phase unheld => ?walks, fun printing phase => ?closes, fun printing phase => ?presented⟩, fun voiding => ?voiding⟩
  case cancelled => exact done stays ((motionDone_staging currentStill staging).trans (if_pos pending))
  case stages =>
    exact done stays ((motionDone_staging currentStill staging).trans (if_neg (ne_true_of_eq_false wanted)))
  case voids => exact done stays (motionDone_voids currentStill printing phase held)
  case walks => exact done stays (motionDone_walks currentStill printing phase unheld)
  case closes => exact done stays (motionDone_close currentStill printing phase)
  case presented => exact done stays (motionDone_present currentStill printing phase)
  case voiding =>
    by_cases ejected : (s.blocks.paper.stock m.tractor).form = some o.form ∧ s.blocks.endsOut m
    case pos => exact ended ejected (ownEjected_voiding voiding)
    case neg => exact done ejected (motionDone_voiding currentStill voiding)

/-! ## The last closing feed -/

/-- A FEED TO TOP that has paper for its steps leaves its stock AT_PRINT at the top (R98). -/
theorem motionEnded_top {b : Blocks} {m : Motion} (kind : m.kind = .feedToTop) (forward : m.direction = .forward)
    (stays : ¬ b.endsOut m) :
    b.motionEnded m =
      { b with
        paper :=
          { b.paper.setStock m.tractor
              { b.paper.stock m.tractor with
                state := .atPrint
                offset := some 0
                endRemaining := (b.paper.stock m.tractor).endRemaining.map fun r => r - m.toGo } with
            motion := none } } := by
  have lies : b.endOf m = (.atPrint, some 0) := by
    rw [Blocks.endOf, kind]
  rw [Blocks.motionEnded]
  dsimp only
  rw [if_neg stays, lies, forward]
  rfl

/-- A FEED TO TOP with paper for its steps ends in no ejection (R99). -/
theorem not_endsOut_of {b : Blocks} {m : Motion} (kind : m.kind = .feedToTop)
    (enough : ∀ r, (b.paper.stock m.tractor).endRemaining = some r → m.toGo ≤ r) : ¬ b.endsOut m := by
  rintro (eject | ⟨_, out⟩)
  · rw [kind] at eject
    cases eject
  · cases left : (b.paper.stock m.tractor).endRemaining with
    | none =>
      rw [left] at out
      exact Bool.false_ne_true out
    | some r =>
      rw [left] at out
      exact Nat.not_lt.2 (enough r left) (of_decide_eq_true out)

/-- A ticket end that counts a completed issue, written out (R37, R143). -/
theorem endTicket_completed (b : Blocks) (o : Order) :
    b.endTicket o true =
      { b with
        forms := b.forms.set o.form
          { b.form o.form with
            inFlight := false
            issueCount :=
              if (b.form o.form).issueCount < 65535 then (b.form o.form).issueCount + 1
              else (b.form o.form).issueCount }
        pool := b.ticketPool o.form
        composer := Composer.empty
        orders := b.orders.count o.tag true
        controller :=
          { b.controller with struck := [], voidMotion := none, phase := .none, line := none, awaitsHoming := false } } := by
  rw [Blocks.endTicket_eq]
  simp only [true_and]

/-- The last completed ticket of an order that presents nothing ends the work (R124, R143, R144, R146). -/
theorem lastTicket_ends {b : Blocks} {o : Order} (ok : b.orders.ok) (current : b.currentOrder = some o)
    (last : o.done + 1 = o.requested) (policy : o.policy = .none) (unmarked : b.controller.coverMark = false) :
    (b.endTicket o true).afterTicket =
      { b.endTicket o true with
        orders := b.orders.update o.tag fun _ =>
          { o with done := o.done + 1, state := .done, halt := none, cancelPending := false, reported := false }
        controller := { Controller.hardReset with state := .idle } } := by
  obtain ⟨tag, found⟩ := Blocks.currentOrder_some current
  have itsTag : (b.endTicket o true).controller.current = some o.tag := by
    rw [Blocks.endTicket_controller]
    exact tag
  have counted : (b.endTicket o true).currentOrder = some (o.counted true) := by
    rw [Blocks.currentOrder, itsTag, Blocks.endTicket_orders]
    exact find_update b.orders o.tag (fun x => x.counted true) (fun x => x.counted_tag true) o found
  have complete : (o.counted true).done = (o.counted true).requested := last
  have uncovered : (b.endTicket o true).controller.coverMark = false := by
    rw [Blocks.endTicket_controller]
    exact unmarked
  have closed : (o.counted true).closedBy none =
      { o with done := o.done + 1, state := .done, halt := none, cancelPending := false, reported := false } := by
    have finished : o.done + 1 = o.requested := last
    simp [Order.closedBy, Order.counted, finished]
  have table := update_update b.orders o.tag (fun x => x.counted true) (fun x => x.closedBy none)
    fun x same => (x.counted_tag true).trans same
  have single := update_one ok found fun x => (x.counted true).closedBy none
  rw [afterTicket_complete counted complete, if_pos (.inl policy), Blocks.endWork_closed none (.inl uncovered),
    closeWork_current itsTag, Blocks.endTicket_orders, OrderTable.count, table, single, closed]

/-- Settles O52: the closing feed ends, the ticket is counted, and the work ends. -/
theorem theLastClosingFeedEndsTheOrder : Obligations.TheLastClosingFeedEndsTheOrder := by
  intro s m o free ok printing phase unmarked current last policy motion issue kind forward enough finishes
  have stays := not_endsOut_of (b := s.blocks) kind enough
  obtain ⟨_, _, _, controller, orders⟩ := motionEnded_frame s.blocks m
  obtain ⟨_, ejects⟩ := landMotion_ended s.blocks m
  have currentStill : (s.blocks.motionEnded m).currentOrder = some o :=
    (Blocks.currentOrder_congr (congrArg Controller.current controller) orders).trans current
  have unacted : ¬ ((s.blocks.orderTractor == some m.tractor) &&
      m.endsEjected (s.blocks.paper.stock m.tractor).endRemaining) = true :=
    fun both => stays (ejects.1 (Bool.and_eq_true_iff.1 both).2)
  have closes := motionDone_close currentStill (controller.symm ▸ printing) (controller.symm ▸ phase)
  have ends := lastTicket_ends (orders.symm ▸ ok) currentStill last policy (controller.symm ▸ unmarked)
  obtain ⟨became, _⟩ := State.motionCompletes free motion finishes
    ((answerMotion_issue issue _ _).trans ((if_neg unacted).trans (closes.trans ends)))
  rw [endTicket_completed, motionEnded_top kind forward stays] at became
  exact ⟨_, rfl, became⟩

end Sys2Proof.Machine
end

section
/-! SUPPORT. The receiver and the frame parser, row by row (09, R176 to R182), and the proofs of O53 and O54. -/

namespace Sys2Proof.Machine

/-- A row acts while RESET is not held (R194). -/
theorem State.unlessHeld_free {s : State} (free : s.held = false) (f : State → State) : s.unlessHeld f = f s := by
  rw [State.unlessHeld, free, if_neg Bool.false_ne_true]

/-- The parser is within a frame (R179). -/
theorem inFrame_iff (x : ParserState) : x.inFrame = true ↔ x = .header ∨ x = .payload ∨ x = .check := by
  cases x <;> decide

/-! ## The receiver -/

section
variable {s : State}

/-- In DISCARD a character is dropped (R178). -/
theorem receive_discards {x : Byte} (discard : s.link.parser.state = .discard) :
    s.receive x = s.withLink { s.link with shortIdle := false, longIdle := false } := by
  rw [State.receive]
  exact if_pos discard

/-- A character is stored where there is room for it (R176, R177). -/
theorem receive_stores {x : Byte} (takes : ¬ s.link.parser.state = .discard) (room : s.link.fifo.length < 64) :
    s.receive x =
      s.withLink (Link.stored { s.link with shortIdle := false, longIdle := false } x s.link.longIdle) := by
  rw [State.receive]
  dsimp only
  rw [if_neg takes]
  exact if_neg (Nat.not_le.2 room)

/-- A character at a full FIFO is an overrun (R178). -/
theorem receive_overruns {x : Byte} (takes : ¬ s.link.parser.state = .discard) (full : 64 ≤ s.link.fifo.length) :
    s.receive x =
      (s.withLink (Link.overrun { s.link with shortIdle := false, longIdle := false })).latchLink .overrun := by
  rw [State.receive]
  dsimp only
  rw [if_neg takes]
  exact if_pos full

/-- The short indication alone, outside DISCARD (R176). -/
theorem shortIdleHolds_takes {l : Link} (takes : ¬ l.parser.state = .discard) :
    l.shortIdleHolds = { l with shortIdle := true } := by
  rw [Link.shortIdleHolds, if_neg fun both => takes both.1]

/-- A short idle that begins ends DISCARD (R179). -/
theorem shortIdleHolds_ends {l : Link} (discard : l.parser.state = .discard) (busy : l.shortIdle = false) :
    l.shortIdleHolds = { l with shortIdle := true, parser := Parser.hunting } := by
  rw [Link.shortIdleHolds, if_pos ⟨discard, busy⟩]

/-- A long idle that already holds does nothing (R176). -/
theorem takeLongIdle_same (idle : s.link.longIdle = true) : s.takeLongIdle = s := if_pos idle

/-- A long idle in a frame with the FIFO empty truncates the frame (R181). -/
theorem takeLongIdle_truncates (busy : s.link.longIdle = false) (inFrame : s.link.parser.state.inFrame = true)
    (empty : s.link.fifo = []) :
    s.takeLongIdle = (s.withLink { s.link.shortIdleHolds with longIdle := true }).truncateFrame := by
  rw [State.takeLongIdle, busy, if_neg Bool.false_ne_true]
  exact if_pos ⟨inFrame, empty⟩

/-- Elsewhere the indications hold, and that is all (R176). -/
theorem takeLongIdle_holds (busy : s.link.longIdle = false)
    (apart : ¬ s.link.parser.state.inFrame = true ∨ ¬ s.link.fifo = []) :
    s.takeLongIdle = s.withLink { s.link.shortIdleHolds with longIdle := true } := by
  rw [State.takeLongIdle, busy, if_neg Bool.false_ne_true]
  refine if_neg ?_
  rintro ⟨inFrame, empty⟩
  exact apart.elim (fun away => away inFrame) fun more => more empty

end

/-- Settles O53: the character, the short idle and the long idle, by what the receiver holds. -/
theorem theReceiverKeepsTheFifo : Obligations.TheReceiverKeepsTheFifo := by
  refine fun s free => ⟨fun x => ⟨_, rfl, fun discard => ?drops, fun takes room => ?stores, fun takes full => ?overruns⟩,
    ⟨_, rfl, fun takes => ?short, fun discard busy => ?ends⟩, _, rfl, fun idle => ?same,
    fun busy => ⟨fun inFrame empty => ?truncates, fun apart takes => ?long⟩⟩
  all_goals rw [State.unlessHeld_free free]
  case drops =>
    rw [receive_discards discard]
    exact ⟨rfl, rfl, rfl, rfl⟩
  case stores =>
    rw [receive_stores takes room]
    exact ⟨rfl, rfl, rfl, rfl⟩
  case overruns =>
    rw [receive_overruns takes full]
    exact ⟨rfl, rfl, rfl, rfl⟩
  case short =>
    rw [shortIdleHolds_takes takes]
    exact ⟨rfl, rfl, rfl, rfl⟩
  case ends =>
    rw [shortIdleHolds_ends discard busy]
    exact ⟨rfl, rfl, rfl, rfl⟩
  case same => exact takeLongIdle_same idle
  case truncates =>
    rw [takeLongIdle_truncates busy ((inFrame_iff _).2 inFrame) empty]
    exact ⟨rfl, rfl, rfl, rfl⟩
  case long =>
    rw [takeLongIdle_holds busy (apart.imp_left (mt (inFrame_iff _).1)), shortIdleHolds_takes takes]
    exact ⟨rfl, rfl, rfl, rfl⟩

/-! ## The frame parser -/

section
variable {s : State} {x : Byte}

/-- A paused or discarding parser and an empty FIFO draw nothing (R179). -/
theorem parserDraw_same (stays : s.link.paused = true ∨ s.link.parser.state = .discard ∨ s.link.fifo = []) :
    s.parserDraw = s := by
  rw [State.parserDraw]
  split
  next => rfl
  next e rest front =>
    refine if_pos ?_
    rcases stays with paused | discard | empty
    · exact .inl paused
    · exact .inr discard
    · rw [front] at empty
      cases empty

section
variable {e : FifoEntry} {rest : List FifoEntry} (front : s.link.fifo = e :: rest) (sends : s.link.paused = false)
  (takes : ¬ s.link.parser.state = .discard)
include front sends takes

/-- An entry drawn without a gap, or outside a frame, goes to the parser (R179). -/
theorem parserDraw_takes (whole : ¬ (e.longGap = true ∧ s.link.parser.state.inFrame = true)) :
    s.parserDraw = (s.withLink (s.link.drawn rest)).takeByte e.byte := by
  rw [State.parserDraw, front]
  dsimp only
  rw [sends, if_neg (not_or.2 ⟨Bool.false_ne_true, takes⟩), if_neg whole]

/-- A long gap in a frame truncates it, and the byte is taken in HUNT (R181). -/
theorem parserDraw_truncates (gap : e.longGap = true) (inFrame : s.link.parser.state.inFrame = true) :
    s.parserDraw = (s.withLink (s.link.drawn rest)).truncateFrame.takeByte e.byte := by
  rw [State.parserDraw, front]
  dsimp only
  rw [sends, if_neg (not_or.2 ⟨Bool.false_ne_true, takes⟩), if_pos ⟨gap, inFrame⟩]

end

/-- In HUNT the byte 0x5A begins a frame (R180). -/
theorem takeByte_hunt (hunt : s.link.parser.state = .hunt) :
    s.takeByte x = if x = 0x5A then s.withParser { Parser.hunting with state := .header } else s := by
  rw [State.takeByte, hunt]

/-- The STATION byte (R180). -/
theorem takeByte_station (header : s.link.parser.state = .header) (first : s.link.parser.headerTaken = 0) :
    s.takeByte x = s.withParser { s.link.parser.summed x with headerTaken := 1, station := x } := by
  rw [State.takeByte, header]
  dsimp only
  rw [first]
  rfl

/-- The COMMAND byte (R180). -/
theorem takeByte_command (header : s.link.parser.state = .header) (second : s.link.parser.headerTaken = 1) :
    s.takeByte x = s.withParser { s.link.parser.summed x with headerTaken := 2, command := x } := by
  rw [State.takeByte, header]
  dsimp only
  rw [second]
  rfl

/-- The LENGTH byte: 201 and more is a format fault (R180). -/
theorem takeByte_length (header : s.link.parser.state = .header) (third : s.link.parser.headerTaken = 2) :
    s.takeByte x =
      if 200 < x.toNat then (s.withParser Parser.hunting).latchLink .format
      else
        s.withParser
          { s.link.parser.summed x with headerTaken := 3, length := x, state := if x = 0 then .check else .payload } := by
  rw [State.takeByte, header]
  dsimp only
  rw [third]
  rfl

/-- A payload byte (R180). -/
theorem takeByte_payload (payload : s.link.parser.state = .payload) :
    s.takeByte x =
      s.withParser
        { s.link.parser.summed x with
          payload := s.link.parser.payload ++ [x]
          state := if s.link.parser.payload.length + 1 = s.link.parser.length.toNat then .check else .payload } := by
  rw [State.takeByte, payload]
  dsimp only
  rw [List.length_append]
  rfl

/-- The first check byte (R180). -/
theorem takeByte_high (check : s.link.parser.state = .check) (first : s.link.parser.checkHigh = none) :
    s.takeByte x = s.withParser { s.link.parser with checkHigh := some x } := by
  rw [State.takeByte, check]
  dsimp only
  rw [first]
  exact congrArg (fun x' => s.withParser { s.link.parser with state := x', checkHigh := some x }) check.symm

/-- A check that does not match (R182). -/
theorem takeByte_mismatch {high : Byte} (check : s.link.parser.state = .check) (second : s.link.parser.checkHigh = some high)
    (fails : ¬ high ++ x = s.link.parser.sum) : s.takeByte x = (s.withParser Parser.hunting).latchLink .check := by
  rw [State.takeByte, check]
  dsimp only
  rw [second]
  exact if_neg fails

end

/-- A frame is in assembly outside HUNT and DISCARD (R179). -/
theorem inFrame_of {x : ParserState} (away : ¬ x = .hunt) (takes : ¬ x = .discard) : x.inFrame = true := by
  cases x with
  | hunt => exact absurd rfl away
  | discard => exact absurd rfl takes
  | header | payload | check => rfl

/-- Settles O54: one entry drawn, by the state of the parser. -/
theorem theParserTakesOneByte : Obligations.TheParserTakesOneByte := by
  refine fun s free => ⟨_, rfl, fun stays => (State.unlessHeld_free free _).trans (parserDraw_same stays),
    fun e rest front sends takes => ?_⟩
  rw [State.unlessHeld_free free]
  have draws (whole : e.longGap = false) := parserDraw_takes front sends takes fun gap => Bool.false_ne_true (whole.symm.trans gap.1)
  refine ⟨fun hunt => ?hunt, fun away gap => ?gap, fun whole => ?_⟩
  case hunt =>
    have apart : ¬ (e.longGap = true ∧ s.link.parser.state.inFrame = true) := by
      rw [hunt]
      exact fun both => Bool.false_ne_true both.2
    rw [parserDraw_takes front sends takes apart, takeByte_hunt (s := s.withLink (s.link.drawn rest)) hunt]
    split <;> exact ⟨rfl, rfl, rfl, rfl⟩
  case gap =>
    rw [parserDraw_truncates front sends takes gap (inFrame_of away takes),
      takeByte_hunt (s := (s.withLink (s.link.drawn rest)).truncateFrame) rfl]
    split <;> exact ⟨rfl, rfl, rfl, rfl⟩
  rw [draws whole]
  refine ⟨fun header first => ?station, fun header second => ?command, fun header third short => ?length,
    fun header third long => ?format, fun payload => ?payload, fun check first => ?high, fun high check second fails => ?mismatch⟩
  case station =>
    rw [takeByte_station (s := s.withLink (s.link.drawn rest)) header first]
    exact ⟨rfl, rfl, rfl, rfl⟩
  case command =>
    rw [takeByte_command (s := s.withLink (s.link.drawn rest)) header second]
    exact ⟨rfl, rfl, rfl, rfl⟩
  case length =>
    rw [takeByte_length (s := s.withLink (s.link.drawn rest)) header third, if_neg (Nat.not_lt.2 short)]
    exact ⟨rfl, rfl, rfl, rfl⟩
  case format =>
    rw [takeByte_length (s := s.withLink (s.link.drawn rest)) header third, if_pos long]
    exact ⟨rfl, rfl, rfl, rfl⟩
  case payload =>
    rw [takeByte_payload (s := s.withLink (s.link.drawn rest)) payload]
    exact ⟨rfl, rfl, rfl, rfl⟩
  case high =>
    rw [takeByte_high (s := s.withLink (s.link.drawn rest)) check first]
    exact ⟨rfl, rfl, rfl, rfl⟩
  case mismatch =>
    rw [takeByte_mismatch (s := s.withLink (s.link.drawn rest)) check second fails]
    exact ⟨rfl, rfl, rfl, rfl⟩

end Sys2Proof.Machine
end

section
/-! SUPPORT. A whole frame and the routes of a command (09, R177, R179 to R185; 10, R173), and the proofs of O55 and O56. -/

namespace Sys2Proof.Machine

/-! ## A frame taken out of the FIFO -/

/-- A frame at the front of the FIFO, nothing of it drawn yet (R177). -/
theorem atFrame_whole {s : State} {rest : List FifoEntry} {l : List Byte} (ok : s.link.ok)
    (front : s.link.fifo = unbroken l ++ rest) : State.atFrame s rest l s.link.parser = s := by
  have count : s.link.fifo.length = l.length + rest.length := by
    rw [front, List.length_append, unbroken, List.length_map]
  have hold : (if l.length + rest.length ≤ 16 then false else s.link.hold) = s.link.hold := by
    split
    next few =>
      refine (Bool.eq_false_of_not_eq_true fun held => ?_).symm
      have many : 16 < s.link.fifo.length := ok.released held
      omega
    next => rfl
  rw [State.atFrame, hold, ← front]
  rfl

/-- The state with a frame taken out of the FIFO, the parser in HUNT (R177, R179). -/
def State.frameTaken (s : State) (rest : List FifoEntry) : State :=
  s.withLink
    { s.link with fifo := rest, hold := if rest.length ≤ 16 then false else s.link.hold, parser := Parser.hunting }

/-- All characters of a frame drawn (R177). -/
theorem atFrame_taken (s : State) (rest : List FifoEntry) : State.atFrame s rest [] Parser.hunting = s.frameTaken rest := by
  rw [State.atFrame, List.length_nil, Nat.zero_add]
  rfl

/-- A good frame drawn is matched with the station address, and dispatched (R182 to R185). -/
theorem frame_dispatched {s : State} {station code : Byte} {p : List Byte} {rest : List FifoEntry} (ready : s.Ready)
    (ok : s.link.ok) (awake : s.link.paused = false) (hunt : s.link.parser.state = .hunt) (short : p.length ≤ 200)
    (front : s.link.fifo = unbroken (frame station code p) ++ rest) :
    execAll (List.replicate (p.length + 6) .parserDraw) s =
      .next (match s.blocks.attention.route station with
        | some r => (s.frameTaken rest).dispatch r code p
        | none => s.frameTaken rest) := by
  have drawn := frame_drawn s station code p rest ready.1 awake short s.link.parser hunt
  rw [atFrame_whole ok front, atFrame_taken] at drawn
  refine drawn.trans (congrArg Host.Outcome.next ?_)
  exact if_pos (check_bits _)

/-! ## The dispatcher -/

section
variable {s : State} {code : Byte} {p : List Byte}

/-- A code outside the table is turned away (R185). -/
theorem dispatch_unknown (r : Route) (unknown : Command.ofCode code = none) :
    s.dispatch r code p = s.turnAway r code .badCommand := by
  rw [State.dispatch, unknown]

/-- A payload of another length is turned away (R185). -/
theorem dispatch_badLength (r : Route) {c : Command} (known : Command.ofCode code = some c)
    (other : c.accepts p.length = false) : s.dispatch r code p = s.turnAway r code .badLength := by
  rw [State.dispatch, known]
  exact if_neg (ne_true_of_eq_false other)

/-- Any other frame is the row of its command (R184, R185). -/
theorem dispatch_row (ready : s.Ready) (r : Route) {c : Command} (known : Command.ofCode code = some c)
    (legal : c.accepts p.length = true) : Host.Outcome.next (s.dispatch r code p) = exec (c.row r p) s := by
  rw [State.dispatch, known, exec_row c r p s ready legal]
  exact congrArg Host.Outcome.next (if_pos legal)

/-- The dispatcher's refusal of an addressed frame (R185, R187). -/
theorem turnAway_addressed (s : State) (code : Byte) (why : Result) :
    s.TurnedAway (s.turnAway .addressed code why) code why := ⟨rfl, rfl, rfl, rfl⟩

end

/-- Settles O55: the frame drawn, matched and dispatched. -/
theorem aGoodFrameIsItsCommand : Obligations.AGoodFrameIsItsCommand := by
  intro s station code p rest ready ok awake hunt short front a mine taken run
  have drawn : run = .next (match s.blocks.attention.route station with
      | some r => taken.dispatch r code p
      | none => taken) := frame_dispatched ready ok awake hunt short front
  have route := route_eq s.blocks.attention station
  have addressed (matched : mine) : run = .next (taken.dispatch .addressed code p) := by
    have apart : ¬ station = 31 := by
      rintro rfl
      exact absurd matched.1 (by decide)
    rw [if_neg apart, if_pos matched] at route
    rw [drawn, route]
  have broadcast (all : station = 31) : run = .next (taken.dispatch .broadcast code p) := by
    rw [if_pos all] at route
    rw [drawn, route]
  have readyStill : taken.Ready := ready
  refine ⟨fun other apart => ?dropped, fun c known legal => ⟨fun matched => ?row, fun all => ?rowAll⟩,
    fun c known other => ⟨fun matched => ?badLength, fun all => ?badLengthAll⟩,
    fun unknown => ⟨fun matched => ?badCommand, fun all => ?badCommandAll⟩⟩
  case dropped =>
    rw [if_neg apart, if_neg other] at route
    rw [drawn, route]
  case row => exact (addressed matched).trans (dispatch_row readyStill .addressed known legal)
  case rowAll => exact (broadcast all).trans (dispatch_row readyStill .broadcast known legal)
  case badLength =>
    exact ⟨_, (addressed matched).trans (congrArg Host.Outcome.next (dispatch_badLength .addressed known other)),
      turnAway_addressed taken code .badLength⟩
  case badLengthAll =>
    exact (broadcast all).trans (congrArg Host.Outcome.next (dispatch_badLength .broadcast known other))
  case badCommand =>
    exact ⟨_, (addressed matched).trans (congrArg Host.Outcome.next (dispatch_unknown .addressed unknown)),
      turnAway_addressed taken code .badCommand⟩
  case badCommandAll =>
    exact (broadcast all).trans (congrArg Host.Outcome.next (dispatch_unknown .broadcast unknown))

/-! ## The broadcast route -/

/-- The row of a command delivers the answer of its owning block, whatever the route (R184). -/
theorem row_delivers (c : Command) (p : List Byte) :
    ∃ act : Blocks → Answer, (∀ r s, exec (c.row r p) s = .next (s.deliver r c act)) ∧
      (c = .softReset → act = fun b => b.softResetReply) := by
  cases c
  case softReset => exact ⟨_, fun _ _ => rfl, fun _ => rfl⟩
  all_goals exact ⟨_, fun _ _ => rfl, nofun⟩

/-- A whole command taken as it stands is carried out (R184). -/
theorem State.Ready.deliver {s : State} (ready : s.Ready) (r : Route) (c : Command) (act : Blocks → Answer) :
    s.deliver r c act = s.carry r c (act s.blocks) := by
  obtain ⟨free, silent⟩ := ready
  have finished : s.finishReply = s := by
    rw [State.finishReply, silent]
  rw [State.deliver, free, finished, if_neg Bool.false_ne_true]

/-- A broadcast command that reads nothing changes the records alone (R184). -/
theorem carry_broadcast {s : State} {c : Command} (a : Answer) (writes : c.reading = false) :
    s.carry .broadcast c a = s.withBlocks (if c = .softReset then a.blocks.softReset else a.blocks) :=
  if_neg (ne_true_of_eq_false writes)

/-- Settles O56: the broadcast route beside the addressed one. -/
theorem broadcastIsSilent : Obligations.BroadcastIsSilent := by
  intro s c p ready
  obtain ⟨act, rows, resets⟩ := row_delivers c p
  have row (r : Route) : exec (c.row r p) s = .next (s.carry r c (act s.blocks)) :=
    (rows r s).trans (congrArg Host.Outcome.next (ready.deliver r c act))
  cases reading : c.reading with
  | true =>
    have discarded : s.carry .broadcast c (act s.blocks) = s := if_pos reading
    refine ⟨s, (row .broadcast).trans (congrArg Host.Outcome.next discarded), rfl, rfl, rfl, fun _ => rfl, ?_, nofun⟩
    rintro rfl
    cases reading
  | false =>
    have carried := carry_broadcast (s := s) (act s.blocks) reading
    refine ⟨_, (row .broadcast).trans (congrArg Host.Outcome.next carried), rfl, rfl, rfl, nofun, fun reset => ?_,
      fun _ other => ⟨_, row .addressed, ?_⟩⟩
    · rw [resets reset]
      exact if_pos reset
    · exact if_neg other

end Sys2Proof.Machine
end
